-- ==== Sys2Proof/Word.lean ====
section
/-! DEFINITION. Word.lean: the words, addresses and indices of the Gefrin GDL-840. -/

namespace Sys2Proof

/-- One byte of host memory. -/
abbrev Byte := BitVec 8

/-- One store word, one register of the window, one 32-bit field (R22, R171, R185). -/
abbrev Word := BitVec 32

/-- A host address: 64 bits wide (chapter 11). -/
abbrev Addr := BitVec 64

/-- The number of a submission ring, ring 0 to ring 7 (0.5). -/
abbrev Ring := Fin 8

/-- The number of a completion ring, CQ0 to CQ3 (0.5). -/
abbrev CqIx := Fin 4

/-- The index of a line, 0 to 63 (R1). -/
abbrev LineIx := Fin 64

end Sys2Proof
end

