-- ==== Sys2Proof/Syntax.lean ====
section
/-! DEFINITION. Syntax.lean: the commands, one constructor per row of spec/opcode_table.json. -/

namespace Sys2Proof

/-- The bit of the part's configuration space that a configuration write sets or clears (R182). -/
inductive ConfigBit where
  | busMaster
  | msi
  deriving DecidableEq, Repr

/-- Which host read in flight a timeout is about: the anchor read, a ring's record fetch, or the read
that a ring's executing command has in flight (R182, R183). -/
inductive ReadId where
  | anchor
  | fetch (r : Ring)
  | command (r : Ring)
  deriving DecidableEq, Repr

/-- For how many nanoseconds the FSYNC pin's level before an edge held, and for how many the level after it holds (R184). -/
structure Held where
  before : Nat
  after : Nat
  deriving DecidableEq, Repr

/-- The commands the part takes: the rows of spec/opcode_table.json, in the table's order. A register
write carries the written word, a row about a ring the ring, a row about a completion ring its number,
the end of a host read the bytes it brought. -/
inductive Instr where
  | powerOnReset
  | start
  | reset
  | restartRing0
  | controlOtherCode (code : Word)
  | post (value : Word)
  | retire (value : Word)
  | faultWrite (value : Word)
  | anchorLoWrite (value : Word)
  | anchorHiWrite (value : Word)
  /-- A write of `nbytes` bytes at `offset` of the register window. -/
  | registerWrite (offset nbytes : Nat) (value : Word)
  | configSpaceWrite (bit : ConfigBit) (value : Bool)
  | linkUp
  | linkDown
  | storeReady
  /-- The 32 bytes of the anchor block, byte 0 in bits 0 to 7 (R188). -/
  | anchorReadDone (block : BitVec 256)
  | anchorReadFailed
  | hostReadTimeout (read : ReadId)
  /-- The 32 bytes of the fetched record, byte 0 in bits 0 to 7 (R185). -/
  | fetchDone (r : Ring) (bytes : BitVec 256)
  | fetchFailed (r : Ring)
  | unknownKindRecord (r : Ring)
  | openLine (r : Ring)
  | closeLine (r : Ring)
  | setTaps (r : Ring)
  | tapListReadDone (r : Ring) (bytes : List Byte)
  | tapListReadFailed (r : Ring)
  | push (r : Ring)
  | pushSamplesReadDone (r : Ring) (bytes : List Byte)
  | pushSamplesReadFailed (r : Ring)
  | clear (r : Ring)
  | test (r : Ring)
  | gather (r : Ring)
  | readSpan (r : Ring)
  | step (r : Ring)
  | stepInputReadDone (r : Ring) (bytes : List Byte)
  | stepInputReadFailed (r : Ring)
  | mark (r : Ring)
  | configureRing
  | configureCompletionRing
  | resetRing
  | configureDevice
  | queryLine
  | queryRing
  | queryStore
  | queryWriteDone
  | queryWriteFailed
  | storeBurstEnd
  | refreshEnd
  | refreshTimerExpiry
  | resultWriteCompleted (r : Ring)
  | resultWriteFailed (r : Ring)
  | stepResultWriteFailed (r : Ring)
  | completionWritePosted (q : CqIx)
  | completionWriteFailed (q : CqIx)
  | holdoffTimerExpiry (q : CqIx)
  /-- The FSYNC pin takes `level`; the levels on the two sides of the edge hold as `heldNs` says (R184). -/
  | fsyncStrobe (level : Bool) (heldNs : Held)
  | frameTimerExpiry
  | fundamentalResetAssert
  deriving DecidableEq, Repr

end Sys2Proof
end

