-- ==== Sys2Proof/Decode.lean ====
section
/-! DEFINITION. Decode.lean: the words of the opcode table. No row of spec/opcode_table.json gives any
bits (every row's "fields" is empty and no row has a "fixed"), so no word spells a command (log 18). -/

namespace Sys2Proof

/-- The command that a word spells by the table's bits: none, for every word, since no row of the table
gives bits. -/
def decodeTableWord (_nbits _w : Nat) : Option Instr := none

end Sys2Proof
end

