-- ==== Sys2Proof/Config.lean ====
section
/-! DEFINITION. Config.lean: what the spec leaves free. Each is an opaque constant: nothing in Lean can
evaluate it or prove a value of it. -/

namespace Sys2Proof

/-- The content of a store word that nothing has written since power-on reset number `epoch`: "After
power-on its content is unknown" (R22; log 10). FREE VALUE. -/
opaque Config.unknownStoreWord : (epoch : Nat) → (word : Nat) → Word

/-- How many words of the write burst in progress the device reset that makes draw `n` let through: "A
write burst so stopped may have written some of its words and not the others" (R34; log 11).
FREE VALUE. -/
opaque Config.abandonedBurstWords : (n : Nat) → Nat

/-- How many of the host writes that HP has taken, oldest first, have left the part when draw `n` is made: at a loss of the
link or of bus mastering, or at a device reset. R182 does not say when a write that HP has taken leaves (log 38).
FREE VALUE. -/
opaque Config.writesLeft : (n : Nat) → Nat

/-- Bit 7 of byte 3 of the QUERY RING snapshot that host write number `n` carries. R190's table names bits 0 to 6 of that byte
only, and the spec states no value for bit 7 (log 43). FREE VALUE. -/
opaque Config.ringSnapshotBit : (n : Nat) → Bool

end Sys2Proof
end

