-- ==== Sys2Proof/Machine/State.lean ====
section
/-! DEFINITION. Machine/State.lean: everything the spec gives the part, as plain data, and the part right
after reset. -/

namespace Sys2Proof.Machine

/-! ## Lines and locks (chapters 1 and 3) -/

/-- Line states (1.2). -/
inductive LineState where
  | free | live | closing
  deriving DecidableEq, Repr

/-- Sample formats on the host side (R10). -/
inductive Format where
  | s16 | s24 | s32
  deriving DecidableEq, Repr

/-- Mode of a line lock (R40). -/
inductive LockMode where
  | none | read | write
  deriving DecidableEq, Repr

/-- Kind of a waiter-queue entry (R40). -/
inductive WaitKind where
  | reader | writer | close
  deriving DecidableEq, Repr

/-- An entry of a lock's waiter queue (R40). -/
structure Waiter where
  ring : Ring
  kind : WaitKind
  deriving DecidableEq, Repr

/-- A line's lock: mode, holders in the order of their grants, waiters oldest first (R40). -/
structure Lock where
  mode : LockMode
  holders : List Ring
  queue : List Waiter
  deriving DecidableEq, Repr

/-- A run of granules of the store (R23). -/
structure Extent where
  base : Nat
  count : Nat
  deriving DecidableEq, Repr

/-- What an OPEN fixes until the line goes FREE: owner, length, format, extent (R7, R9, R10). -/
structure LineCfg where
  owner : Ring
  len : Nat
  fmt : Format
  ext : Extent
  deriving DecidableEq, Repr

/-- A line record (R1). `cfg` is absent when the line is FREE. -/
structure Line where
  state : LineState
  gen : BitVec 8
  cfg : Option LineCfg
  head : Nat
  fill : Nat
  seq : Nat
  taps : List Nat
  lock : Lock
  deriving DecidableEq, Repr

/-- The lock of a FREE line (R40). -/
def Lock.idle : Lock := { mode := .none, holders := [], queue := [] }

/-- A FREE record with the given generation (R1). -/
def Line.freeRecord (gen : BitVec 8) : Line :=
  { state := .free, gen := gen, cfg := none, head := 0, fill := 0, seq := 0, taps := [], lock := .idle }

/-! ## Records (chapter 11) -/

/-- The fields of a submission record (R185). -/
structure Record where
  kind : BitVec 8
  guardCode : BitVec 4
  quiet : Bool
  tag : BitVec 16
  line : BitVec 8
  gen : BitVec 8
  paramB : BitVec 16
  count : BitVec 32
  paramA : BitVec 32
  addr : Addr
  paramC : BitVec 64
  deriving DecidableEq, Repr

/-- The statuses a completion can carry (R187). -/
inductive Status where
  | ok | skipped | frameLate | badKind | badLine | staleLine | notOwner | lineBusy | lineClosing
  | noSpace | badLength | badFormat | badCount | badRange | badTap | badAlign | badRing | ringActive
  | cqInUse | badParam | notPaced | hostFault
  deriving DecidableEq, Repr

/-- The outcome of a command as its completion reports it: the fields the kind's rules set (R58, R110). -/
structure Result where
  status : Status
  line : BitVec 8
  gen : BitVec 8
  count : Nat
  unfilled : Nat
  seq : BitVec 32
  aborted : Bool
  deriving DecidableEq, Repr

/-- A completion claim: the fields that come from its source (R120), and, for a late notice, whether its
ring has discarded it at a ring reset while it was being written (R149). -/
structure Claim where
  ring : Ring
  notice : Bool
  orphan : Bool
  tag : BitVec 16
  result : Result
  deriving DecidableEq, Repr

/-! ## Host transfers (10.8) -/

/-- A host read in flight: address, bytes asked for, whether HP could issue it and has had the link and bus mastering
since, and the time at which it fails for want of data (R182, R183). -/
structure HostRead where
  addr : Addr
  len : Nat
  issued : Bool
  deadline : Nat
  deriving DecidableEq, Repr

/-- A host write in flight: address, bytes, and its number in the order in which HP takes writes (R182). -/
structure HostWrite where
  addr : Addr
  data : List Byte
  num : Nat
  deriving DecidableEq, Repr

/-- What HP puts on the link of its own: host writes, and interrupt messages by vector (R131, R181, R182). -/
inductive LinkItem where
  | write (addr : Addr) (data : List Byte)
  | message (vector : Fin 5)
  deriving DecidableEq, Repr

/-! ## The store port (2.6) -/

/-- A store burst: all writes or all reads, to words named by number (R31). -/
inductive Burst where
  | write (words : List (Nat × Word))
  | read (words : List Nat)
  deriving DecidableEq, Repr

/-- Who holds the store port (R31, R39). -/
inductive Port where
  | idle
  | initialising
  | refresh
  | burst (r : Ring) (b : Burst)
  deriving DecidableEq, Repr

/-- States of SC (R39). -/
inductive ScState where
  | init | ready
  deriving DecidableEq, Repr

/-- The Store Controller (2.6 to 2.8). -/
structure StoreCtl where
  state : ScState
  code : Nat
  timer : Option Nat
  debt : Nat
  port : Port
  pacedMark : Nat
  bulkMark : Nat
  claims : Vector (Option Burst) 8
  deriving DecidableEq, Repr

/-! ## Ring engines (chapter 6) -/

/-- Engine states (6.3). -/
inductive EngState where
  | disabled | idle | active | waitLock | waitCq | waitFrame | halted
  deriving DecidableEq, Repr

/-- Ring classes (R98). -/
inductive RingClass where
  | paced | bulk
  deriving DecidableEq, Repr

/-- An engine's configuration (R97); ring 0 has no class (R118). -/
structure RingCfg where
  base : Addr
  size : Nat
  cls : Option RingClass
  cq : CqIx
  deriving DecidableEq, Repr

/-- A reader's snapshot of the line (R46). -/
structure Snapshot where
  head : Nat
  fill : Nat
  seq : Nat
  deriving DecidableEq, Repr

/-- Progress of a granted GATHER or READ SPAN (R77, R81): the snapshot, the offset of each result in
result order, the chunk being read or waiting to be written, whether its read burst is claimed or
granted, its words when read, the chunks reported written, and whether a write has failed (R83). -/
structure ReaderCtx where
  snap : Snapshot
  offs : List Nat
  chunk : Nat
  reading : Bool
  buf : Option (List Word)
  done : Nat
  failed : Bool
  deriving DecidableEq, Repr

/-- Where the current step of a STEP stands (R88). -/
inductive StepStage where
  | ready | committing | reading | writing
  deriving DecidableEq, Repr

/-- Progress of a granted STEP (R87 to R94): steps committed, steps whose results are reported written,
input words read and not yet committed, input chunks asked for, stage of the current step, its result
words, unfilled results of the current step, of the write in flight and of all counted steps, and
whether an input read or a result write has failed. -/
structure StepCtx where
  committed : Nat
  written : Nat
  inputs : List Word
  chunks : Nat
  stage : StepStage
  buf : List Word
  unfCur : Nat
  unfWr : Nat
  unfDone : Nat
  rdFailed : Bool
  wrFailed : Bool
  deriving DecidableEq, Repr

/-- How far the executing command has come. `fresh`: its guard has not been evaluated. `granted`: it holds its lock and has
done nothing, since a ring reset meets the grant (R50; log 42). -/
inductive Phase where
  | fresh
  | waitLock
  | waitClose (seq : Nat)
  | granted
  | waitFrame
  | tapRead
  | pushing (done size : Nat)
  | reader (c : ReaderCtx)
  | stepping (c : StepCtx)
  | cqWait
  | resetWait (target : Ring)
  | querying (res : Result)
  deriving DecidableEq, Repr

/-- The executing command: its record's fields and how far it has come (R104). -/
structure Exec where
  rcd : Record
  phase : Phase
  deriving DecidableEq, Repr

/-- Why an engine stops at its next commit boundary: a ring reset (R115), the POST_FAULT of a late notice
(R112), RESTART RING 0 (R169). -/
inductive StopCause where
  | ringReset | noticeHalt | restart
  deriving DecidableEq, Repr

/-- A ring engine's report of its stopped command (R116, R161). -/
structure StopReport where
  aborted : Bool
  tag : BitVec 16
  line : BitVec 8
  gen : BitVec 8
  count : Nat
  deriving DecidableEq, Repr

/-- A ring engine (R97), with the transfers it has in flight and the stop that has reached it. -/
structure Engine where
  state : EngState
  cfg : Option RingCfg
  head : Nat
  tail : Nat
  exec : Option Exec
  staged : Option Record
  lastOk : Bool
  test : Bool
  haltPending : Bool
  fetch : Option HostRead
  rd : Option HostRead
  wr : Option HostWrite
  stop : Option StopCause
  report : Option StopReport
  deriving DecidableEq, Repr

/-- An engine after a device reset or a ring reset (R97). -/
def Engine.resetValue : Engine :=
  { state := .disabled, cfg := none, head := 0, tail := 0, exec := none, staged := none, lastOk := true,
    test := false, haltPending := false, fetch := none, rd := none, wr := none, stop := none,
    report := none }

/-! ## Completion rings (chapter 7) -/

/-- Configuration of a completion ring: base, size, threshold T, holdoff H (R119). -/
structure CqCfg where
  base : Addr
  size : Nat
  threshold : Nat
  holdoff : Nat
  deriving DecidableEq, Repr

/-- The write of a completion record in flight (R124). -/
structure CqWrite where
  claim : Claim
  write : HostWrite
  deriving DecidableEq, Repr

/-- A completion ring (R119). -/
structure Cq where
  cfg : Option CqCfg
  tail : Nat
  head : Nat
  phase : Bool
  inflight : Option CqWrite
  held : Option Nat
  queue : List Claim
  unsig : Nat
  timer : Option Nat
  deriving DecidableEq, Repr

/-- A completion ring set afresh: with the given configuration, or unconfigured (R119). -/
def Cq.fresh (cfg : Option CqCfg) : Cq :=
  { cfg := cfg, tail := 0, head := 0, phase := true, inflight := none, held := none, queue := [],
    unsig := 0, timer := none }

/-! ## Frame Unit (chapter 8) -/

/-- Frame sources (R138). -/
inductive FrameSource where
  | none | pinRising | pinFalling | timer
  deriving DecidableEq, Repr

/-- A late notice that CU has not reported yet: its count and its frame number (R146). -/
structure Notice where
  count : Nat
  frame : BitVec 32
  deriving DecidableEq, Repr

/-- Pacing state of a ring (R141). -/
structure Pacing where
  armed : Bool
  owed : Nat
  notice : Option Notice
  late : Nat
  deriving DecidableEq, Repr

/-- Pacing state after a device reset and after CONFIGURE RING (R141). -/
def Pacing.resetValue : Pacing := { armed := false, owed := 0, notice := none, late := 0 }

/-- The Frame Unit (R138, R141); `fsync` is the level of the FSYNC pin. -/
structure FrameUnit where
  source : FrameSource
  period : Option Nat
  timer : Option Nat
  frame : BitVec 32
  pace : Vector Pacing 8
  fsync : Bool
  deriving DecidableEq, Repr

/-! ## Host Port (chapter 10) -/

/-- Device states (R172). -/
inductive DevState where
  | off | starting | running | failed
  deriving DecidableEq, Repr

/-- Fault codes (R180); `none` is the empty record. -/
inductive FaultCode where
  | none | anchorFault | badAnchor | fetchFault | postFault | frameOverrun | badPost | badRetire
  | refreshMissed
  deriving DecidableEq, Repr

/-- The fault record (10.7). -/
structure FaultRecord where
  code : FaultCode
  num : Nat
  count : Nat
  deriving DecidableEq, Repr

/-- The empty fault record (10.7). -/
def FaultRecord.empty : FaultRecord := { code := .none, num := 0, count := 0 }

/-- The Host Port (chapter 10). `anchorAddr` is the address taken at START (R174). Of the host writes that HP takes (R182;
log 38), `taken` is the number of the next one, `writes` holds those taken that can be issued and have not left, oldest
first, and `left` the numbers of those that have left and are not reported yet. `out` is what has left the part on the
link, in order (log 5). -/
structure HostPort where
  dev : DevState
  anchorLo : Word
  anchorHi : Word
  anchorAddr : Option Addr
  anchorRead : Option HostRead
  fault : FaultRecord
  restart : Bool
  linkUp : Bool
  busMaster : Bool
  msi : Bool
  inReset : Bool
  taken : Nat
  writes : List HostWrite
  left : List Nat
  out : List LinkItem
  deriving DecidableEq, Repr

/-! ## The part -/

/-- The state of the part. `store` lists the store words written since power-on, their numbers strictly
rising (R22; log 10). `now`, `epoch` and `freeIdx` are the model's own (logs 2, 10, 11); `pending` is the
queue of the commands that wait. -/
structure State where
  hp : HostPort
  lines : Vector Line 64
  free : List Extent
  sc : StoreCtl
  store : List (Nat × Word)
  eng : Vector Engine 8
  cq : Vector Cq 4
  fu : FrameUnit
  now : Nat
  epoch : Nat
  freeIdx : Nat
  pending : List Instr
  deriving DecidableEq, Repr

/-- Why the model stops. -/
inductive Fault where
  /-- Raised by STORE_BURST_END when the burst names a store word outside 0..8,388,607, a word the spec
  says does not exist (R22). Safe: the model stops where the spec gives nothing (log 24). -/
  | storeWordAbsent (word : Nat)
  deriving DecidableEq, Repr

/-- Why the model has no meaning for a command. -/
inductive Refusal where
  /-- Raised by a dispatch arm that has no meaning yet. Safe: the model stops. No arm raises it. -/
  | notModelled (mnemonic : String)
  deriving DecidableEq, Repr

/-- The Store Controller after a device reset: INIT, code 62, timer stopped, debt 0, both marks 7
(R33, R36, R39). -/
def StoreCtl.resetValue : StoreCtl :=
  { state := .init, code := 62, timer := none, debt := 0, port := .initialising, pacedMark := 7,
    bulkMark := 7, claims := Vector.replicate 8 none }

/-- The Frame Unit after a device reset, the FSYNC pin at the given level (R138, R141). -/
def FrameUnit.resetValue (fsync : Bool) : FrameUnit :=
  { source := .none, period := none, timer := none, frame := 0, pace := Vector.replicate 8 .resetValue,
    fsync := fsync }

/-- The Host Port after a power-on reset (R172, R176, R178, R182); the number of the next write is the model's (log 38). -/
def HostPort.resetValue : HostPort :=
  { dev := .off, anchorLo := 0, anchorHi := 0, anchorAddr := none, anchorRead := none, fault := .empty,
    restart := false, linkUp := false, busMaster := false, msi := false, inReset := false,
    taken := 0, writes := [], left := [], out := [] }

/-- The part right after a power-on reset (R178). The FSYNC level, `now`, `epoch`, `freeIdx`, `taken` and the empty
`out` and `pending` are the model's choice (logs 2, 5, 10, 11, 13, 38). -/
def State.reset : State :=
  { hp := .resetValue, lines := Vector.replicate 64 (.freeRecord 0), free := [⟨0, 131072⟩],
    sc := .resetValue, store := [], eng := Vector.replicate 8 .resetValue,
    cq := Vector.replicate 4 (.fresh none), fu := .resetValue false, now := 0, epoch := 0, freeIdx := 0,
    pending := [] }

end Sys2Proof.Machine
end

