-- ==== Sys2Proof/Machine/Operands.lean ====
section
/-! DEFINITION. Machine/Operands.lean: the fields of records, registers and blocks, their codes and ranges,
samples and byte order (chapters 1, 4, 9 and 11). -/

namespace Sys2Proof.Machine

/-! ## Ranges -/

/-- Store words of the line store (R22). -/
def storeWords : Nat := 8388608

/-- Granules of the line store (R22). -/
def storeGranules : Nat := 131072

/-- Store words of a granule (R22). -/
def granuleWords : Nat := 64

/-- The highest sequence; a sequence that reaches it stays there (R12). -/
def seqMax : Nat := 2 ^ 48 - 1

/-- Sizes a submission ring or a completion ring may have (R156, R158, R175). -/
def isRingSize (n : Nat) : Bool := [16, 32, 64, 128, 256, 512, 1024, 2048, 4096].contains n

/-- Is the host address a multiple of `n`? -/
def alignedTo (n : Nat) (a : BitVec 64) : Bool := a.toNat % n == 0

/-- Granules of a line of length `len` (R9). -/
def granulesOf (len : Nat) : Nat := (len + 63) / 64

/-- The low 32 bits of a count (R12). -/
def low32 (n : Nat) : BitVec 32 := BitVec.ofNat 32 n

/-! ## Byte order -/

/-- `n` bytes of `x`, least significant first (chapter 11). -/
def bytesLE : (n : Nat) → (x : Nat) → List Byte
  | 0, _ => []
  | n + 1, x => BitVec.ofNat 8 x :: bytesLE n (x / 256)

/-- The number that bytes form, least significant first (chapter 11). -/
def valueLE : List Byte → Nat
  | [] => 0
  | b :: bs => b.toNat + 256 * valueLE bs

/-- Fields of (width, value) packed without gaps, the first at bit 0 (R187, R189). -/
def packFields : List (Nat × Nat) → Nat
  | [] => 0
  | (w, v) :: fs => v % 2 ^ w + 2 ^ w * packFields fs

/-- The first `n` groups of `b` bytes. -/
def groupBytes (b : Nat) : (n : Nat) → List Byte → List (List Byte)
  | 0, _ => []
  | n + 1, bs => bs.take b :: groupBytes b n (bs.drop b)

/-! ## Samples (1.10) -/

/-- Bytes of a sample in host memory (R10). -/
def Format.bytes : Format → Nat
  | .s16 => 2
  | .s24 => 3
  | .s32 => 4

/-- A sample's store word: left-justified, lower bits zero (R19). -/
def Format.toWord (f : Format) (bs : List Byte) : Word :=
  BitVec.ofNat 32 (valueLE bs * 2 ^ (32 - 8 * f.bytes))

/-- A store word's bytes in host memory: its upper bits, least significant byte first (R20). -/
def Format.ofWord (f : Format) (w : Word) : List Byte :=
  bytesLE f.bytes (w.toNat / 2 ^ (32 - 8 * f.bytes))

/-- The store words of a buffer of samples (R19). -/
def Format.wordsOf (f : Format) (bs : List Byte) : List Word :=
  (groupBytes f.bytes (bs.length / f.bytes) bs).map f.toWord

/-- The bytes of a run of results, packed without padding (R20, R74). -/
def Format.bytesOf (f : Format) (ws : List Word) : List Byte := ws.flatMap f.ofWord

/-- The offsets of a tap list in host memory (R54). -/
def tapsOf (bs : List Byte) : List Nat := (groupBytes 4 (bs.length / 4) bs).map valueLE

/-! ## Submission records (11.1, 11.2) -/

/-- Bits `lo` to `lo + w - 1` of a block of 32 bytes. -/
def field (x : BitVec 256) (lo w : Nat) : BitVec w := BitVec.extractLsb' lo w x

/-- The fields of a fetched record (R185). -/
def Record.ofBytes (x : BitVec 256) : Record :=
  { kind := field x 0 8, guardCode := field x 8 4, quiet := field x 15 1 == 1#1, tag := field x 16 16,
    line := field x 32 8, gen := field x 40 8, paramB := field x 48 16, count := field x 64 32,
    paramA := field x 96 32, addr := field x 128 64, paramC := field x 192 64 }

/-- The kinds of record (R186). -/
inductive Kind where
  | openLine | closeLine | setTaps | push | clear | test | gather | readSpan | step | mark
  | configureRing | configureCompletionRing | resetRing | configureDevice
  | queryLine | queryRing | queryStore
  deriving DecidableEq, Repr

/-- The kind a kind code names (R186). -/
def Kind.ofCode (c : BitVec 8) : Option Kind :=
  match c.toNat with
  | 0x01 => some .openLine
  | 0x02 => some .closeLine
  | 0x03 => some .setTaps
  | 0x04 => some .push
  | 0x05 => some .clear
  | 0x06 => some .test
  | 0x07 => some .gather
  | 0x08 => some .readSpan
  | 0x09 => some .step
  | 0x0A => some .mark
  | 0x20 => some .configureRing
  | 0x21 => some .configureCompletionRing
  | 0x22 => some .resetRing
  | 0x23 => some .configureDevice
  | 0x24 => some .queryLine
  | 0x25 => some .queryRing
  | 0x26 => some .queryStore
  | _ => none

/-- Is it one of the seven control kinds (R154)? -/
def Kind.isControl : Kind → Bool
  | .configureRing | .configureCompletionRing | .resetRing | .configureDevice => true
  | .queryLine | .queryRing | .queryStore => true
  | .openLine | .closeLine | .setTaps | .push | .clear | .test => false
  | .gather | .readSpan | .step | .mark => false

/-- Is the record's kind a kind of its ring: a control kind on ring 0, a line kind on rings 1 to 7
(R55, R154)? -/
def Record.kindOfRing (x : Record) (r : Ring) : Bool :=
  match Kind.ofCode x.kind with
  | none => false
  | some k => k.isControl == (r == 0)

/-- Formats by code (R186). -/
def Format.ofCode (c : BitVec 16) : Option Format :=
  match c.toNat with
  | 1 => some .s16
  | 2 => some .s24
  | 3 => some .s32
  | _ => none

/-- Codes of formats (R186). -/
def Format.code : Format → Nat
  | .s16 => 1
  | .s24 => 2
  | .s32 => 3

/-- Ring classes by code (R186). -/
def RingClass.ofCode (c : BitVec 16) : Option RingClass :=
  match c.toNat with
  | 1 => some .paced
  | 2 => some .bulk
  | _ => none

/-- Codes of ring classes (R186). -/
def RingClass.code : RingClass → Nat
  | .paced => 1
  | .bulk => 2

/-- Frame sources by code (R186). -/
def FrameSource.ofCode (c : BitVec 16) : Option FrameSource :=
  match c.toNat with
  | 0 => some .none
  | 1 => some .pinRising
  | 2 => some .pinFalling
  | 3 => some .timer
  | _ => Option.none -- no source at all, not the source NONE

/-- Codes of line states (R186). -/
def LineState.code : LineState → Nat
  | .free => 0
  | .live => 1
  | .closing => 2

/-- Codes of engine states (R186). -/
def EngState.code : EngState → Nat
  | .disabled => 0
  | .idle => 1
  | .active => 2
  | .waitLock => 3
  | .waitCq => 4
  | .waitFrame => 5
  | .halted => 6

/-- The line a record names. It is the record's line field wherever that is below 64, which step 2 of the
validation order checks before any use (R55). -/
def Record.lineIx (x : Record) : LineIx := Fin.ofNat 64 x.line.toNat

/-- The ring or completion ring number in param A, checked against its range before any use. -/
def Record.ringA (x : Record) : Ring := Fin.ofNat 8 x.paramA.toNat

/-- Is param A a line ring number (R156, R159)? -/
def Record.namesLineRing (x : Record) : Bool := 1 ≤ x.paramA.toNat && x.paramA.toNat ≤ 7

/-- The completion ring number in param A, checked against its range before any use. -/
def Record.cqA (x : Record) : CqIx := Fin.ofNat 4 x.paramA.toNat

/-- The completion ring number in param C, checked against its range before any use. -/
def Record.cqC (x : Record) : CqIx := Fin.ofNat 4 x.paramC.toNat

/-! ## Completion records (11.3) -/

/-- Status codes (R187). -/
def Status.code : Status → Nat
  | .ok => 0x00
  | .skipped => 0x01
  | .frameLate => 0x02
  | .badKind => 0x10
  | .badLine => 0x11
  | .staleLine => 0x12
  | .notOwner => 0x13
  | .lineBusy => 0x14
  | .lineClosing => 0x15
  | .noSpace => 0x16
  | .badLength => 0x17
  | .badFormat => 0x18
  | .badCount => 0x19
  | .badRange => 0x1A
  | .badTap => 0x1B
  | .badAlign => 0x1C
  | .badRing => 0x1D
  | .ringActive => 0x1E
  | .cqInUse => 0x1F
  | .badParam => 0x20
  | .notPaced => 0x21
  | .hostFault => 0x30

/-- The 16 bytes of a completion record (R187): the claim's fields, with the phase and the sq head that CU
adds (R120). -/
def Claim.bytes (c : Claim) (phase : Bool) (sqHead : Nat) : List Byte :=
  bytesLE 16 (packFields [(16, c.tag.toNat), (8, c.result.status.code), (8, c.result.line.toNat),
    (8, c.result.gen.toNat), (23, c.result.count), (1, phase.toNat), (32, c.result.seq.toNat),
    (12, sqHead), (15, c.result.unfilled), (3, c.ring.val), (1, c.notice.toNat),
    (1, c.result.aborted.toNat)])

/-! ## Registers and the anchor block (11.4) -/

/-- Ring number of a POST (R188). -/
def postRing (v : Word) : Ring := Fin.ofNat 8 (v.toNat % 8)

/-- New tail of a POST, new head of a RETIRE (R188). -/
def upperHalf (v : Word) : Nat := v.toNat / 65536

/-- Completion ring number of a RETIRE (R188). -/
def retireCq (v : Word) : CqIx := Fin.ofNat 4 (v.toNat % 4)

/-- Codes of device states (R188). -/
def DevState.code : DevState → Nat
  | .off => 0
  | .starting => 1
  | .running => 2
  | .failed => 3

/-- Fault codes (R188). -/
def FaultCode.code : FaultCode → Nat
  | .none => 0
  | .anchorFault => 1
  | .badAnchor => 2
  | .fetchFault => 3
  | .postFault => 4
  | .frameOverrun => 5
  | .badPost => 6
  | .badRetire => 7
  | .refreshMissed => 8

/-- Ring 0's configuration in the anchor block (R188); no class, CQ0 (R118). -/
def anchorRing (x : BitVec 256) : RingCfg :=
  { base := field x 0 64, size := (field x 64 32).toNat, cls := none, cq := 0 }

/-- CQ0's configuration in the anchor block (R188). -/
def anchorCq (x : BitVec 256) : CqCfg :=
  { base := field x 128 64, size := (field x 192 32).toNat, threshold := (field x 224 8).toNat,
    holdoff := (field x 232 8).toNat }

/-- The six values of the anchor block are valid (R175). A holdoff of one byte is always in 0..255. -/
def anchorValid (x : BitVec 256) : Bool :=
  alignedTo 64 (anchorRing x).base && isRingSize (anchorRing x).size && alignedTo 64 (anchorCq x).base &&
    isRingSize (anchorCq x).size && 1 ≤ (anchorCq x).threshold && (anchorCq x).holdoff ≤ 255

/-! ## Slots and offsets (1.8) -/

/-- The store word of a slot (R9). -/
def LineCfg.word (g : LineCfg) (slot : Nat) : Nat := g.ext.base * granuleWords + slot

/-- The slot of offset `d` with the head at `head`, in a line of length `len` (R16). -/
def slotOf (len head d : Nat) : Nat := (head + len - 1 - d) % len

/-- The store word of offset `d` with the head at `head` (R16). -/
def LineCfg.offsetWord (g : LineCfg) (head d : Nat) : Nat := g.word (slotOf g.len head d)

/-- The offsets of a READ SPAN's results, oldest first: result `i` is at offset `d + n - 1 - i` (R79). -/
def spanOffsets (d : Nat) : (n : Nat) → List Nat
  | 0 => []
  | n + 1 => (d + n) :: spanOffsets d n

/-- How many of the offsets are unfilled (R17). -/
def countUnfilled (fill : Nat) (offs : List Nat) : Nat := (offs.filter (fun d => fill ≤ d)).length

end Sys2Proof.Machine
end

