-- ==== Sys2Proof/Machine/Flags.lean ====
section
/-! DEFINITION. Machine/Flags.lean: guards and the outcome flags last_ok and test of a ring (6.5). -/

namespace Sys2Proof.Machine

/-- The five guards (R107). -/
inductive Guard where
  | always | ifLastOk | ifLastFailed | ifTestSet | ifTestClear
  deriving DecidableEq, Repr

/-- Guards by code (R186). -/
def Guard.ofCode (c : BitVec 4) : Option Guard :=
  match c.toNat with
  | 0 => some .always
  | 1 => some .ifLastOk
  | 2 => some .ifLastFailed
  | 3 => some .ifTestSet
  | 4 => some .ifTestClear
  | _ => none

/-- Is the guard met with the flags as they stand (R107)? -/
def Guard.met (lastOk test : Bool) : Guard → Bool
  | .always => true
  | .ifLastOk => lastOk
  | .ifLastFailed => !lastOk
  | .ifTestSet => test
  | .ifTestClear => !test

/-- last_ok after a command that ends with `status` (R108): SKIPPED leaves it, OK sets it, any other status
clears it. -/
def lastOkAfter (status : Status) (lastOk : Bool) : Bool :=
  match status with
  | .skipped => lastOk
  | .ok => true
  | _ => false

/-- The statuses whose completion a quiet record withholds (R111). -/
def Status.quietable : Status → Bool
  | .ok => true
  | .skipped => true
  | _ => false

end Sys2Proof.Machine
end

