-- ==== Sys2Proof/Machine/Ops.lean ====
section
/-! DEFINITION. Machine/Ops.lean: updates of one place of State; the link, the fault record, the line store,
the free-extent list and the store-port arbiter. -/

namespace Sys2Proof.Machine

/-! ## One place at a time -/

/-- Change ring `r`'s engine. -/
def State.updEng (s : State) (r : Ring) (f : Engine → Engine) : State :=
  { s with eng := s.eng.set r (f s.eng[r]) }

/-- Change line `l`'s record. -/
def State.updLine (s : State) (l : LineIx) (f : Line → Line) : State :=
  { s with lines := s.lines.set l (f s.lines[l]) }

/-- Change completion ring `q`. -/
def State.updCq (s : State) (q : CqIx) (f : Cq → Cq) : State :=
  { s with cq := s.cq.set q (f s.cq[q]) }

/-- Change ring `r`'s pacing state. -/
def State.updPace (s : State) (r : Ring) (f : Pacing → Pacing) : State :=
  { s with fu := { s.fu with pace := s.fu.pace.set r (f s.fu.pace[r]) } }

/-- Change ring `r`'s waiting store claim. -/
def State.setClaim (s : State) (r : Ring) (b : Option Burst) : State :=
  { s with sc := { s.sc with claims := s.sc.claims.set r b } }

/-- Change the progress of ring `r`'s executing command. -/
def State.setPhase (s : State) (r : Ring) (p : Phase) : State :=
  s.updEng r (fun e => { e with exec := e.exec.map (fun x => { x with phase := p }) })

/-- Model time moves on to `t`, never back (log 2). -/
def State.atTime (s : State) (t : Nat) : State := { s with now := max s.now t }

/-- The part acts only while its fundamental reset input is released (R184, log 12). -/
def whileReleased (s : State) (k : State → Host.Outcome State Fault Refusal) :
    Host.Outcome State Fault Refusal :=
  if s.hp.inReset then .next s else k s

/-! ## The link (10.8) -/

/-- A host transfer can be issued: the link is up and bus mastering is enabled (R182). -/
def State.canIssue (s : State) : Bool := s.hp.linkUp && s.hp.busMaster

/-- Put something of the part's own on the link. -/
def State.emit (s : State) (x : LinkItem) : State := { s with hp := { s.hp with out := s.hp.out ++ [x] } }

/-- The vector of a completion ring (R131). -/
def cqVector (q : CqIx) : Fin 5 := q.castSucc

/-- A host read of `len` bytes handed to HP: it fails if no data comes within 10 ms (R182). -/
def State.hostRead (s : State) (addr : Addr) (len : Nat) : HostRead :=
  { addr := addr, len := len, issued := s.canIssue, deadline := s.now + 10000000 }

/-- HP can report read `t` as completed: it could be issued, the link and bus mastering have not been lost since, and its
10 ms are not over. A read that is not so has failed (R182, R183). -/
def State.delivers (s : State) (t : HostRead) : Bool := t.issued && s.now ≤ t.deadline

/-- The host write that HP takes next, with the number it gives it (R182). -/
def State.hostWrite (s : State) (addr : Addr) (data : List Byte) : HostWrite :=
  { addr := addr, data := data, num := s.hp.taken }

/-- HP takes a host write: it waits to leave, behind those taken before it. One that cannot be issued has failed, and never
leaves (R182). -/
def State.takeWrite (s : State) (addr : Addr) (data : List Byte) : State :=
  { s with hp := { s.hp with
    taken := s.hp.taken + 1
    writes := s.hp.writes ++ (if s.canIssue then [s.hostWrite addr data] else []) } }

/-- HP can report write `w` as completed: it has left, or it may leave now. A write that is neither has failed (R182). -/
def State.completes (s : State) (w : HostWrite) : Bool := s.hp.left.contains w.num || s.hp.writes.contains w

/-- The link item of a host write. -/
def HostWrite.item (w : HostWrite) : LinkItem := .write w.addr w.data

/-- HP reports write `w` as completed. A write that had not left leaves now, and every write taken before it has left with
it, in the order HP took them (R182; log 38). -/
def writeReported (w : HostWrite) (s : State) : State :=
  if s.hp.left.contains w.num then { s with hp := { s.hp with left := s.hp.left.erase w.num } }
  else
    { s with hp := { s.hp with
      writes := s.hp.writes.filter (fun v => w.num < v.num)
      left := s.hp.left ++ (s.hp.writes.filter (fun v => v.num < w.num)).map (·.num)
      out := s.hp.out ++ (s.hp.writes.filter (fun v => v.num ≤ w.num)).map (·.item) } }

/-- Every host write that waits leaves, in the order HP took them (R182). -/
def State.writesLeave (s : State) : State :=
  { s with hp := { s.hp with
    writes := []
    left := s.hp.left ++ s.hp.writes.map (·.num)
    out := s.hp.out ++ s.hp.writes.map (·.item) } }

/-- Send an interrupt message on a vector: the host writes issued before it leave before it (R182; log 25). One that cannot
be sent is dropped (R181). -/
def sendMessage (v : Fin 5) (s : State) : State :=
  if s.canIssue && s.hp.msi then s.writesLeave.emit (.message v) else s

/-- The result or snapshot write of ring `r`'s executing command (R75, R164). -/
def issueWrite (r : Ring) (addr : Addr) (data : List Byte) (s : State) : State :=
  (s.updEng r (fun e => { e with wr := some (s.hostWrite addr data) })).takeWrite addr data

/-- The host read of ring `r`'s executing command (R63, R65, R87). -/
def issueRead (r : Ring) (addr : Addr) (len : Nat) (s : State) : State :=
  s.updEng r (fun e => { e with rd := some (s.hostRead addr len) })

/-- Host address arithmetic: `a + n`, 64 bits (log 15). -/
def Addr.plus (a : Addr) (n : Nat) : Addr := a + BitVec.ofNat 64 n

/-! ## The fault record (10.7) -/

/-- A fault reported to the fault record: it fills an empty record and sends the device interrupt, and is
counted in a full one (R179, R181). -/
def reportFault (code : FaultCode) (num : Nat) (s : State) : State :=
  if s.hp.fault.code = .none then
    sendMessage 4 { s with hp := { s.hp with fault := { code := code, num := num, count := 0 } } }
  else
    { s with hp := { s.hp with fault := { s.hp.fault with count := min (s.hp.fault.count + 1) 255 } } }

/-! ## The line store (2.1) -/

/-- The canonical form of the store: word numbers strictly rising, all within the store (log 10). -/
abbrev Memory.wf (m : List (Nat × Word)) : Prop :=
  m.Pairwise (fun p q => p.1 < q.1) ∧ ∀ p ∈ m, p.1 < storeWords

/-- Write one store word. -/
def Memory.write (a : Nat) (w : Word) : List (Nat × Word) → List (Nat × Word)
  | [] => [(a, w)]
  | (b, v) :: m =>
    if a < b then (a, w) :: (b, v) :: m
    else if a = b then (a, w) :: m
    else (b, v) :: Memory.write a w m

/-- The word listed at a number, if one is. -/
def Memory.find (a : Nat) : List (Nat × Word) → Option Word
  | [] => none
  | (b, v) :: m => if a = b then some v else Memory.find a m

/-- Write the words of a burst, one by one. -/
def Memory.writeAll (ws : List (Nat × Word)) (m : List (Nat × Word)) : List (Nat × Word) :=
  ws.foldl (fun m p => Memory.write p.1 p.2 m) m

/-- The content of a store word; one that nothing has written since power-on is unknown (R22, log 10). -/
def State.readWord (s : State) (a : Nat) : Word :=
  (Memory.find a s.store).getD (Config.unknownStoreWord s.epoch a)

/-- The word numbers of a burst. -/
def Burst.words : Burst → List Nat
  | .write ws => ws.map (·.1)
  | .read as => as

/-! ## The free-extent list (2.3, 2.4) -/

/-- First fit: the low end of the first entry that holds `need` granules (R25); none if no entry does (R26). -/
def allocate (need : Nat) : List Extent → Option (Extent × List Extent)
  | [] => none
  | e :: es =>
    if need ≤ e.count then
      some (⟨e.base, need⟩, if e.count = need then es else ⟨e.base + need, e.count - need⟩ :: es)
    else
      match allocate need es with
      | none => none
      | some (x, es') => some (x, e :: es')

/-- Insert a released extent in base order, merged with the entries it touches (R28). -/
def releaseExtent (x : Extent) : List Extent → List Extent
  | [] => [x]
  | e :: es =>
    if x.base < e.base then
      if x.base + x.count = e.base then ⟨x.base, x.count + e.count⟩ :: es else x :: e :: es
    else if e.base + e.count = x.base then
      match es with
      | [] => [⟨e.base, e.count + x.count⟩]
      | f :: es' =>
        if x.base + x.count = f.base then ⟨e.base, e.count + x.count + f.count⟩ :: es'
        else ⟨e.base, e.count + x.count⟩ :: f :: es'
    else e :: releaseExtent x es

/-- The granules of all free-extent entries (R30). -/
def totalFree (es : List Extent) : Nat := (es.map (·.count)).sum

/-! ## The store-port arbiter (2.6) -/

/-- The order in which the arbiter examines the rings: from the ring after the mark up to ring 7, then from
ring 1 up to the mark (R33). -/
def roundRobin (mark : Nat) : List Ring :=
  [0, 1, 2, 3, 4, 5, 6].map (fun i => Fin.ofNat 8 ((mark + i) % 7 + 1))

/-- The class of ring `r`, if it is configured with one (R98). -/
def State.classOf (s : State) (r : Ring) : Option RingClass := s.eng[r].cfg.bind (·.cls)

/-- The next ring of a class to be granted the port, if one of them has a claim waiting (R33). -/
def nextClaim (cls : RingClass) (mark : Nat) (s : State) : Option Ring :=
  (roundRobin mark).find? (fun r => s.sc.claims[r].isSome && s.classOf r == some cls)

/-- Ring `r`'s waiting claim is granted: its burst holds the port (R31). -/
def grantPort (r : Ring) (s : State) : State :=
  match s.sc.claims[r] with
  | none => s
  | some b => { s with sc := { s.sc with port := .burst r b, claims := s.sc.claims.set r none } }

/-- The arbiter chooses the next holder of a free port: an urgent refresh, a paced claim, a bulk claim, a
background refresh, or nobody (R32, R33). In INIT the port is not free, so nothing is chosen (R39). -/
def arbitrate (s : State) : State :=
  if s.sc.port ≠ .idle then s
  else if 6 ≤ s.sc.debt then { s with sc := { s.sc with port := .refresh } }
  else
    match nextClaim .paced s.sc.pacedMark s with
    | some r => grantPort r { s with sc := { s.sc with pacedMark := r.val } }
    | none =>
      match nextClaim .bulk s.sc.bulkMark s with
      | some r => grantPort r { s with sc := { s.sc with bulkMark := r.val } }
      | none => if 1 ≤ s.sc.debt then { s with sc := { s.sc with port := .refresh } } else s

/-- Ring `r` claims the store port for a burst (R31). -/
def claimPort (r : Ring) (b : Burst) (s : State) : State := arbitrate (s.setClaim r (some b))

/-- Does ring `r`'s burst hold the port? -/
def holdsPort (r : Ring) (s : State) : Bool :=
  match s.sc.port with
  | .burst r' _ => r' == r
  | _ => false

end Sys2Proof.Machine
end

