-- ==== Sys2Proof/Machine/Completion.lean ====
section
/-! DEFINITION. Machine/Completion.lean: what the Completion Unit does with claims, RETIREs and interrupt
moderation (chapter 7). -/

namespace Sys2Proof.Machine

/-- Size of a completion ring; 0 when it is unconfigured. -/
def Cq.size (c : Cq) : Nat :=
  match c.cfg with
  | none => 0
  | some g => g.size

/-- Unretired records (R122). -/
def Cq.unretired (c : Cq) : Nat := (c.tail + c.size - c.head) % c.size

/-- The slot after the tail. -/
def Cq.nextTail (c : Cq) : Nat := (c.tail + 1) % c.size

/-- Every slot but one holds an unretired record (R122). -/
def Cq.full (c : Cq) : Bool := c.nextTail == c.head

/-- CU may issue a record's write: no write in flight, and the ring is not full (R122, R124). -/
def Cq.hasRoom (c : Cq) : Bool := c.cfg.isSome && c.inflight.isNone && !c.full

/-- Issue the write of a claim's record to slot tail, with the phase of the ring and the head of the source
ring as they stand (R120). -/
def issueRecord (q : CqIx) (c : Claim) (s : State) : State :=
  match s.cq[q].cfg with
  | none => s
  | some g =>
    let addr := Addr.plus g.base (16 * s.cq[q].tail)
    let data := c.bytes s.cq[q].phase s.eng[c.ring].head
    (s.updCq q (fun x => { x with inflight := some ⟨c, s.hostWrite addr data⟩ })).takeWrite addr data

/-- CU takes a completion claim: its write is issued at once, or it joins the wait queue (R123). -/
def takeClaim (q : CqIx) (c : Claim) (s : State) : State :=
  if s.cq[q].hasRoom && s.cq[q].queue.isEmpty then issueRecord q c s
  else s.updCq q (fun x => { x with queue := x.queue ++ [c] })

/-- CU examines the front claim, and issues its write if it may (R124). -/
def serveQueue (q : CqIx) (s : State) : State :=
  if s.cq[q].hasRoom then
    match s.cq[q].queue with
    | [] => s
    | c :: cs => issueRecord q c (s.updCq q (fun x => { x with queue := cs }))
  else s

/-- Claims that satisfy `p` are withdrawn from the wait queue, and CU examines the front. Where none waits, nothing is
withdrawn and nothing examined (R124, R130). -/
def withdrawClaims (q : CqIx) (p : Claim → Bool) (s : State) : State :=
  if s.cq[q].queue.any p then
    serveQueue q (s.updCq q (fun x => { x with queue := x.queue.filter (fun c => !p c) }))
  else s

/-- Send the interrupt message of a completion ring: unsignalled 0, timer stopped (R131, R132). -/
def signalCq (q : CqIx) (s : State) : State :=
  sendMessage (cqVector q) (s.updCq q (fun x => { x with unsig := 0, timer := none }))

/-- Count a posted record for interrupt moderation (R131, R132). -/
def moderate (q : CqIx) (s : State) : State :=
  match s.cq[q].cfg with
  | none => s
  | some g =>
    if g.threshold ≤ s.cq[q].unsig + 1 then signalCq q s
    else
      s.updCq q (fun x =>
        { x with
          unsig := x.unsig + 1
          timer := if x.unsig = 0 ∧ g.holdoff ≠ 0 then some (s.now + g.holdoff * 8000) else x.timer })

/-- A RETIRE is valid: configured, in range, in the span from head to tail (R127). -/
def Cq.retireValid (c : Cq) (h : Nat) : Bool :=
  c.cfg.isSome && h < c.size && (h + c.size - c.head) % c.size ≤ c.unretired

/-- CU judges a RETIRE against head and tail as they stand (R127). -/
def judgeRetire (q : CqIx) (h : Nat) (s : State) : State :=
  if s.cq[q].retireValid h then serveQueue q (s.updCq q (fun x => { x with head := h }))
  else reportFault .badRetire q.val s

/-- CU takes a RETIRE: one that names the slot one past the tail while a write is in flight is held until the
write is reported; any other is judged at once. A RETIRE held before is discarded (R127, R128). -/
def takeRetire (q : CqIx) (h : Nat) (s : State) : State :=
  let s1 := s.updCq q (fun x => { x with held := none })
  if s.cq[q].inflight.isSome && s.cq[q].cfg.isSome && h == s.cq[q].nextTail then
    s1.updCq q (fun x => { x with held := some h })
  else judgeRetire q h s1

/-- The held RETIRE of a completion ring is taken after a posting (R128). -/
def takeHeld (q : CqIx) (s : State) : State :=
  match s.cq[q].held with
  | none => s
  | some h => judgeRetire q h (s.updCq q (fun x => { x with held := none }))

/-- The held RETIRE of a completion ring is refused after a failed write (R128). -/
def refuseHeld (q : CqIx) (s : State) : State :=
  match s.cq[q].held with
  | none => s
  | some _ => reportFault .badRetire q.val (s.updCq q (fun x => { x with held := none }))

/-- The write in flight is over: the record is posted, the tail moves, the phase flips at the wrap
(R121, R125). -/
def postRecord (q : CqIx) (s : State) : State :=
  s.updCq q (fun x =>
    { x with
      inflight := none
      tail := x.nextTail
      phase := if x.nextTail = 0 then !x.phase else x.phase })

/-- The write in flight is over: the record is lost, the tail stays (R126). -/
def loseRecord (q : CqIx) (s : State) : State := s.updCq q (fun x => { x with inflight := none })

/-- A command claim of ring `r`. -/
def Claim.isCommandOf (r : Ring) (c : Claim) : Bool := c.ring == r && !c.notice

/-- A late notice of ring `r`. -/
def Claim.isNoticeOf (r : Ring) (c : Claim) : Bool := c.ring == r && c.notice

/-- The claim of ring `r`'s ended command is being written (R115). -/
def beingWritten (r : Ring) (s : State) : Bool :=
  match s.eng[r].cfg with
  | none => false
  | some g =>
    match s.cq[g.cq].inflight with
    | none => false
    | some w => w.claim.isCommandOf r

end Sys2Proof.Machine
end

