-- ==== Sys2Proof/Machine/Engines.lean ====
section
/-! DEFINITION. Machine/Engines.lean: fetching, staging, ending a command, halting (chapter 6). -/

namespace Sys2Proof.Machine

/-- Size of a submission ring; 0 when the engine has no configuration. -/
def Engine.size (e : Engine) : Nat :=
  match e.cfg with
  | none => 0
  | some g => g.size

/-- Pending records (R99). -/
def Engine.pendingRecords (e : Engine) : Nat := (e.tail + e.size - e.head) % e.size

/-- The five conditions on which an engine issues a fetch (R101). -/
def Engine.mayFetch (e : Engine) : Bool :=
  e.state != .disabled && e.state != .halted && !e.haltPending && e.staged.isNone && e.fetch.isNone &&
    1 ≤ e.pendingRecords

/-- Issue the fetch of the record at the head, if the engine may (R101). The model looks at a POST, when a staged record
begins to execute and when the engine goes on (log 40). -/
def tryFetch (r : Ring) (s : State) : State :=
  match s.eng[r].cfg with
  | none => s
  | some g =>
    if s.eng[r].mayFetch then
      s.updEng r (fun e => { e with fetch := some (s.hostRead (Addr.plus g.base (32 * e.head)) 32) })
    else s

/-- The engine enters HALTED (R114); its owed strobes become 0 (R150). -/
def halt (r : Ring) (s : State) : State :=
  (s.updEng r (fun e =>
    { e with
      state := .halted
      exec := none
      staged := none
      haltPending := false
      stop := none
      report := none })).updPace r (fun p => { p with owed := 0 })

/-- A cause of halt that waits for the command (R106, R112, R147): halt-pending while the engine holds an
executing command or a completion claim, at once otherwise. A stop on its way is not overtaken (log 20). -/
def haltCause (r : Ring) (s : State) : State :=
  if s.eng[r].exec.isSome || s.eng[r].state == .waitCq then
    s.updEng r (fun e => { e with haltPending := true })
  else if s.eng[r].stop.isSome then s
  else halt r s

/-- A staged record becomes the executing command, its guard not yet evaluated (R104). -/
def execStaged (r : Ring) (x : Record) (s : State) : State :=
  s.updEng r (fun e => { e with state := .active, exec := some ⟨x, .fresh⟩, staged := none })

/-- The engine goes on after its claim is posted, or after a quiet end (R110). -/
def goOn (r : Ring) (s : State) : State :=
  if s.eng[r].haltPending then halt r s
  else
    match s.eng[r].staged with
    | some x => tryFetch r (execStaged r x s)
    | none =>
      if s.eng[r].fetch.isSome || 1 ≤ s.eng[r].pendingRecords then
        tryFetch r (s.updEng r (fun e => { e with state := .active }))
      else s.updEng r (fun e => { e with state := .idle })

/-- The executing command of ring `r` ends with a result: the outcome flag is set (R108), and its completion
claim goes to the ring's completion ring, unless it is withheld as quiet (R110, R111). -/
def endCommand (r : Ring) (res : Result) (s : State) : State :=
  match s.eng[r].exec with
  | none => s
  | some x =>
    let s1 := s.updEng r (fun e => { e with exec := none, lastOk := lastOkAfter res.status e.lastOk })
    if x.rcd.quiet && res.status.quietable then goOn r s1
    else
      let s2 := s1.updEng r (fun e => { e with state := .waitCq })
      match s2.eng[r].cfg with
      | none => s2
      | some g =>
        takeClaim g.cq
          { ring := r, notice := false, orphan := false, tag := x.rcd.tag, result := res } s2

/-- The fields of a completion that reports nothing but its status: line and generation as the record gave
them, count, unfilled and sequence 0 (R58, R107, R155). -/
def bareResult (status : Status) (x : Record) : Result :=
  { status := status, line := x.line, gen := x.gen, count := 0, unfilled := 0, seq := 0, aborted := false }

/-- The fields of a completion about a line: its generation and the low 32 bits of a sequence (R5, R58). -/
def lineResult (status : Status) (x : Record) (l : Line) (count unfilled seq : Nat) : Result :=
  { status := status, line := x.line, gen := l.gen, count := count, unfilled := unfilled, seq := low32 seq,
    aborted := false }

/-- The guard of a record that has become the executing command is checked and evaluated; the command is
carried out, skipped, or refused with BAD_PARAM (R107). -/
def guarded (r : Ring) (x : Record) (k : State → State) (s : State) : State :=
  match Guard.ofCode x.guardCode with
  | none => endCommand r (bareResult .badParam x) s
  | some g =>
    if g.met s.eng[r].lastOk s.eng[r].test then k s else endCommand r (bareResult .skipped x) s

/-- The record that ring `r` executes and has not begun, if there is one. -/
def freshRecord (r : Ring) (s : State) : Option Record :=
  match s.eng[r].exec with
  | some ⟨x, .fresh⟩ => some x
  | _ => none

/-- The step of a record's row: the executing record of ring `r`, of the row's kind and not yet begun, has its
guard evaluated and is carried out. With no such record there is no such step (log 1). -/
def runKind (r : Ring) (k : Kind) (body : Record → State → State) (s : State) : State :=
  match freshRecord r s with
  | none => s
  | some x => if Kind.ofCode x.kind = some k then guarded r x (body x) s else s

/-- A line kind on ring 0 is refused with BAD_KIND at step 1 (R55, R118). -/
def onLineRing (r : Ring) (body : Record → State → State) (x : Record) (s : State) : State :=
  if r = 0 then endCommand r (bareResult .badKind x) s else body x s

/-- A POST is refused: BAD_POST with the ring number (R100). -/
def refusePost (r : Ring) (s : State) : State := reportFault .badPost r.val s

/-- The engine of the named ring takes a POST (R100). -/
def takePost (r : Ring) (tail : Nat) (s : State) : State :=
  let e := s.eng[r]
  if e.state = .disabled ∨ e.state = .halted then refusePost r s
  else if e.size ≤ tail then refusePost r s
  else
    let s1 := s.updEng r (fun e => { e with tail := tail })
    if e.state = .idle then
      if tail = e.head then s1 else tryFetch r (s1.updEng r (fun e => { e with state := .active }))
    else tryFetch r s1

end Sys2Proof.Machine
end

