-- ==== Sys2Proof/Machine/Locks.lean ====
section
/-! DEFINITION. Machine/Locks.lean: the line lock (chapter 3), the end of a close, and what a command does once
its lock is granted, until its next transfer or burst (chapters 4 and 5). -/

namespace Sys2Proof.Machine

/-! ## Lines -/

/-- Length of a line; 0 when FREE. -/
def Line.len (l : Line) : Nat :=
  match l.cfg with
  | none => 0
  | some g => g.len

/-- Bytes of a sample of a line in host memory; 0 when FREE. -/
def Line.sampleBytes (l : Line) : Nat :=
  match l.cfg with
  | none => 0
  | some g => g.fmt.bytes

/-- `m` samples are committed: head, fill and sequence advance (R13, R14). A FREE record has no commit (R13). -/
def Line.commit (m : Nat) (l : Line) : Line :=
  match l.cfg with
  | none => l
  | some g =>
    { l with
      head := (l.head + m) % g.len
      fill := min (l.fill + m) g.len
      seq := min (l.seq + m) seqMax }

/-- The line that ring `r`'s executing command names. -/
def State.lineOf (s : State) (x : Record) : Line := s.lines[x.lineIx]

/-! ## PUSH -/

/-- Size of the next burst of a PUSH: 16, the samples remaining, or the way to the wrap point (R14). -/
def burstSize (n done : Nat) (l : Line) : Nat := min 16 (min (n - done) (l.len - l.head))

/-- The host read of a PUSH's next burst (R65). -/
def pushNext (r : Ring) (x : Record) (done : Nat) (s : State) : State :=
  let l := s.lineOf x
  let m := burstSize x.count.toNat done l
  issueRead r (Addr.plus x.addr (done * l.sampleBytes)) (m * l.sampleBytes) (s.setPhase r (.pushing done m))

/-! ## GATHER and READ SPAN -/

/-- The offsets of a chunk of results (R81). -/
def ReaderCtx.chunkOffs (c : ReaderCtx) : List Nat := (c.offs.drop (16 * c.chunk)).take 16

/-- The number of chunks (R81). -/
def ReaderCtx.chunks (c : ReaderCtx) : Nat := (c.offs.length + 15) / 16

/-- The store words of the filled offsets among `offs`, in order (R17, R75). -/
def filledWords (g : LineCfg) (head fill : Nat) (offs : List Nat) : List Nat :=
  (offs.filter (fun d => d < fill)).map (g.offsetWord head)

/-- The results of `offs`: the store word of a filled offset, zero for an unfilled one (R17, R20). -/
def resultWords (g : LineCfg) (head fill : Nat) (offs : List Nat) (s : State) : List Word :=
  offs.map (fun d => if d < fill then s.readWord (g.offsetWord head d) else 0)

/-- Read the next chunk: one burst of its filled results, or none if all are unfilled (R77, R81). -/
def readChunk (r : Ring) (s : State) : State :=
  match s.eng[r].exec with
  | some ⟨x, .reader c⟩ =>
    match (s.lineOf x).cfg with
    | none => s
    | some g =>
      if c.reading || c.buf.isSome || c.chunkOffs.isEmpty then s
      else
        let ws := filledWords g c.snap.head c.snap.fill c.chunkOffs
        if ws.isEmpty then
          s.setPhase r (.reader { c with buf := some (c.chunkOffs.map (fun _ => 0)) })
        else claimPort r (.read ws) (s.setPhase r (.reader { c with reading := true }))
  | _ => s

/-- Write a chunk that has been read, once no write of the command is in flight (R81). -/
def writeChunk (r : Ring) (s : State) : State :=
  match s.eng[r].exec with
  | some ⟨x, .reader c⟩ =>
    match (s.lineOf x).cfg, c.buf with
    | some g, some ws =>
      if s.eng[r].wr.isSome then s
      else
        issueWrite r (Addr.plus x.addr (16 * c.chunk * g.fmt.bytes)) (g.fmt.bytesOf ws)
          (s.setPhase r (.reader { c with buf := none, chunk := c.chunk + 1 }))
    | _, _ => s
  | _ => s

/-- A reader goes as far as it can: it reads a chunk, writes it, and reads ahead by one chunk while the write
is in flight (R81, log 23). -/
def pumpReader (r : Ring) (s : State) : State := readChunk r (writeChunk r (readChunk r s))

/-! ## STEP -/

/-- The host read of a STEP's next input chunk, if one is left (R87). -/
def issueInput (r : Ring) (x : Record) (c : StepCtx) (s : State) : State :=
  let n := x.count.toNat
  let b := (s.lineOf x).sampleBytes
  if 16 * c.chunks < n then
    issueRead r (Addr.plus x.addr (16 * c.chunks * b)) (min 16 (n - 16 * c.chunks) * b)
      (s.setPhase r (.stepping { c with chunks := c.chunks + 1 }))
  else s.setPhase r (.stepping c)

/-- The result write of the current step, once its results are there and no write is in flight (R88, R89). -/
def writeStep (r : Ring) (s : State) : State :=
  match s.eng[r].exec with
  | some ⟨x, .stepping c⟩ =>
    match (s.lineOf x).cfg with
    | none => s
    | some g =>
      if c.stage = .writing ∧ s.eng[r].wr = none ∧ c.wrFailed = false then
        issueWrite r
          (Addr.plus x.paramC ((c.committed - 1) * (s.lineOf x).taps.length * g.fmt.bytes))
          (g.fmt.bytesOf c.buf)
          (s.setPhase r (.stepping { c with stage := .ready, buf := [], unfWr := c.unfCur }))
      else s
  | _ => s

/-- The commit burst of the next step, once its input is there (R87, R88). -/
def commitStep (r : Ring) (s : State) : State :=
  match s.eng[r].exec with
  | some ⟨x, .stepping c⟩ =>
    match (s.lineOf x).cfg, c.inputs with
    | some g, w :: _ =>
      if c.stage = .ready ∧ c.wrFailed = false ∧ c.committed < x.count.toNat then
        claimPort r (.write [(g.word (s.lineOf x).head, w)])
          (s.setPhase r (.stepping { c with stage := .committing }))
      else s
    | _, _ => s
  | _ => s

/-! ## Grants, releases, the end of a close -/

/-- Ring `r` leaves a lock's holders and its queue; the mode follows the holders left (R44, R50). -/
def Lock.leave (r : Ring) (k : Lock) : Lock :=
  let hs := k.holders.filter (fun h => h != r)
  { mode := if hs.isEmpty then .none else k.mode
    holders := hs
    queue := k.queue.filter (fun w => w.ring != r) }

/-- Ring `r` leaves line `l`'s lock; the grant step is the caller's (R44). -/
def leaveLock (r : Ring) (l : LineIx) (s : State) : State :=
  s.updLine l (fun x => { x with lock := x.lock.leave r })

/-- Begin a granted GATHER or READ SPAN on the given offsets, with the snapshot LU takes (R46, R76, R79). A
GATHER of an empty tap list ends at once (R77), before any further grant (log 39). -/
def beginReader (r : Ring) (x : Record) (offs : List Nat) (s : State) : State :=
  let l := s.lineOf x
  if offs.isEmpty then endCommand r (lineResult .ok x l 0 0 l.seq) (leaveLock r x.lineIx s)
  else
    pumpReader r
      (s.setPhase r (.reader
        { snap := ⟨l.head, l.fill, l.seq⟩, offs := offs, chunk := 0, reading := false, buf := none,
          done := 0, failed := false }))

/-- Begin a granted SET TAPS: the tap list is read from the host; an empty list is installed at once
(R63), and the command ends before any further grant (log 39). -/
def beginSetTaps (r : Ring) (x : Record) (s : State) : State :=
  if x.count.toNat = 0 then
    let s1 := s.updLine x.lineIx (fun l => { l with taps := [] })
    endCommand r (lineResult .ok x (s.lineOf x) 0 0 (s.lineOf x).seq) (leaveLock r x.lineIx s1)
  else issueRead r x.addr (4 * x.count.toNat) (s.setPhase r .tapRead)

/-- A granted CLEAR, in one step: the fill is taken, head and fill become 0, the lock is released (R69). Its
claim is made before any further grant (log 39). -/
def beginClear (r : Ring) (x : Record) (s : State) : State :=
  let l := s.lineOf x
  endCommand r (lineResult .ok x l l.fill 0 l.seq)
    (leaveLock r x.lineIx (s.updLine x.lineIx (fun l => { l with head := 0, fill := 0 })))

/-- Begin a granted STEP: its first input chunk is read (R87). -/
def beginStep (r : Ring) (x : Record) (s : State) : State :=
  issueInput r x
    { committed := 0, written := 0, inputs := [], chunks := 0, stage := .ready, buf := [], unfCur := 0,
      unfWr := 0, unfDone := 0, rdFailed := false, wrFailed := false } s

/-- A command whose claim has been granted goes on in ACTIVE (R44). -/
def beginGranted (r : Ring) (s : State) : State :=
  match s.eng[r].exec with
  | none => s
  | some ⟨x, _⟩ =>
    let s1 := s.updEng r (fun e => { e with state := .active })
    match Kind.ofCode x.kind with
    | some .push => pushNext r x 0 s1
    | some .setTaps => beginSetTaps r x s1
    | some .clear => beginClear r x s1
    | some .step => beginStep r x s1
    | some .gather => beginReader r x (s1.lineOf x).taps s1
    | some .readSpan => beginReader r x (spanOffsets x.paramA.toNat x.count.toNat) s1
    | _ => s1

/-- A RESET RING of ring `r` reaches the lock together with a grant to `r`: it is the next command that waits, and RE0 will
carry it out (R50, R162; log 42). -/
def resetMeets (r : Ring) (s : State) : Bool :=
  match s.pending, freshRecord 0 s with
  | .resetRing :: _, some x =>
    !s.hp.inReset && s.eng[(0 : Ring)].stop.isNone && Kind.ofCode x.kind == some .resetRing && x.namesLineRing &&
      x.ringA == r && (Guard.ofCode x.guardCode).any (fun g => g.met s.eng[(0 : Ring)].lastOk s.eng[(0 : Ring)].test)
  | _, _ => false

/-- A waiter's claim is granted, and its command goes on (R44). If a ring reset meets the grant, the ring holds the lock with
nothing done, and the reset removes it at once (R50; log 42). -/
def grantWaiter (r : Ring) (s : State) : State :=
  if resetMeets r s then (s.setPhase r .granted).updEng r (fun e => { e with state := .active }) else beginGranted r s

/-- The close of line `l` ends: its extent goes to SA, the record becomes FREE with its generation, and the
owner's CLOSE, if it still waits, completes with OK (R4, R49). -/
def endClose (l : LineIx) (s : State) : State :=
  let x := s.lines[l]
  let s1 := s.updLine l (fun y => Line.freeRecord y.gen)
  let s2 :=
    match x.cfg with
    | none => s1
    | some g => { s1 with free := releaseExtent g.ext s1.free }
  match x.lock.queue.find? (fun w => w.kind == .close) with
  | none => s2
  | some w =>
    match s2.eng[w.ring].exec with
    | some ⟨c, .waitClose q⟩ => endCommand w.ring (lineResult .ok c x 0 0 q) s2
    | _ => s2

/-- The grant step on line `l`'s lock: the front waiter is granted while the mode allows it, and a CLOSING
line with no holders ends its close (R45, R49). What a granted command does at once, it does before the next is
granted (log 41). Each round removes a waiter, so `fuel` above the length of the queue is enough. -/
def grantLoop : (fuel : Nat) → LineIx → State → State
  | 0, _, s => s
  | fuel + 1, l, s =>
    let x := s.lines[l]
    if x.state = .closing ∧ x.lock.holders = [] then endClose l s
    else
      match x.lock.queue with
      | [] => s
      | w :: ws =>
        match w.kind, x.lock.mode with
        | .writer, .none =>
          grantLoop fuel l (grantWaiter w.ring
            (s.updLine l (fun y => { y with lock := ⟨.write, [w.ring], ws⟩ })))
        | .reader, .none =>
          grantLoop fuel l (grantWaiter w.ring
            (s.updLine l (fun y => { y with lock := ⟨.read, [w.ring], ws⟩ })))
        | .reader, .read =>
          grantLoop fuel l (grantWaiter w.ring
            (s.updLine l (fun y => { y with lock := ⟨.read, y.lock.holders ++ [w.ring], ws⟩ })))
        | _, _ => s

/-- The grant step, run to its end (R45). -/
def grantStep (l : LineIx) (s : State) : State := grantLoop (s.lines[l].lock.queue.length + 1) l s

/-- Ring `r` releases line `l`'s lock, and the grant step follows (R44). -/
def release (r : Ring) (l : LineIx) (s : State) : State := grantStep l (leaveLock r l s)

/-- The command of ring `r` on the line of `x` is over: its lock is released, then its completion claim is
made (R44). -/
def finish (r : Ring) (x : Record) (res : Result) (s : State) : State :=
  endCommand r res (release r x.lineIx s)

/-- A claim that cannot be granted joins the back of the queue, and its engine enters WAIT_LOCK
(R42, R43). -/
def queueClaim (r : Ring) (l : LineIx) (k : WaitKind) (s : State) : State :=
  ((s.updLine l (fun x => { x with lock := { x.lock with queue := x.lock.queue ++ [⟨r, k⟩] } })).setPhase
    r .waitLock).updEng r (fun e => { e with state := .waitLock })

/-- A READER claim reaches the lock of a LIVE line (R42). -/
def claimReader (r : Ring) (l : LineIx) (s : State) : State :=
  let k := s.lines[l].lock
  if k.mode ≠ .write ∧ k.queue = [] then
    grantStep l (beginGranted r
      (s.updLine l (fun x => { x with lock := { x.lock with mode := .read, holders := x.lock.holders ++ [r] } })))
  else queueClaim r l .reader s

/-- A WRITER claim reaches the lock of a LIVE line (R43). -/
def claimWriter (r : Ring) (l : LineIx) (s : State) : State :=
  if s.lines[l].lock.mode = .none then
    grantStep l (beginGranted r
      (s.updLine l (fun x => { x with lock := { x.lock with mode := .write, holders := [r] } })))
  else queueClaim r l .writer s

/-! ## The end of a STEP -/

/-- A STEP ends when nothing of it is left to do: with OK, with HOST_FAULT for an input chunk that could not be
read (R93), or with HOST_FAULT for a result write that failed (R94). -/
def finishStep (r : Ring) (s : State) : State :=
  match s.eng[r].exec with
  | some ⟨x, .stepping c⟩ =>
    let l := s.lineOf x
    if c.wrFailed then
      if s.eng[r].rd.isNone && !holdsPort r s then
        finish r x (lineResult .hostFault x l c.written c.unfDone l.seq) s
      else s
    else if c.stage = .ready ∧ s.eng[r].wr = none then
      if c.committed = x.count.toNat then finish r x (lineResult .ok x l c.committed c.unfDone l.seq) s
      else if c.rdFailed ∧ c.inputs = [] then
        finish r x (lineResult .hostFault x l c.committed c.unfDone l.seq) s
      else s
    else s
  | _ => s

/-- A STEP goes as far as it can (R88, R89). -/
def pumpStep (r : Ring) (s : State) : State := finishStep r (commitStep r (writeStep r s))

end Sys2Proof.Machine
end

