-- ==== Sys2Proof/Machine/Snapshots.lean ====
section
/-! DEFINITION. Machine/Snapshots.lean: the snapshot records that the queries write (11.5). -/

namespace Sys2Proof.Machine

/-- The holder bits of a line snapshot: bit `r - 1` for ring `r` (R189). -/
def holderBits (hs : List Ring) : List (Nat × Nat) :=
  ([1, 2, 3, 4, 5, 6, 7] : List Ring).map (fun r => (1, if r ∈ hs then 1 else 0))

/-- The owner's queue entry of a LIVE line is WRITER (R189). -/
def ownerWaitsToWrite (l : Line) : Bool :=
  match l.cfg with
  | none => false
  | some g => l.state == .live && l.lock.queue.any (fun w => w.ring == g.owner && w.kind == .writer)

/-- The seven queue entries of a line snapshot, oldest first, 0 after the last (R189). -/
def queueFields (ws : List Waiter) : List (Nat × Nat) :=
  [0, 1, 2, 3, 4, 5, 6].map (fun i => (3, ((ws[i]?).map (fun w => w.ring.val)).getD 0))

/-- The sixteen taps of a line snapshot, 0 after the last (R189). -/
def tapFields (ts : List Nat) : List (Nat × Nat) :=
  [0, 1, 2, 3, 4, 5, 6, 7, 8, 9, 10, 11, 12, 13, 14, 15].map (fun i => (22, (ts[i]?).getD 0))

/-- A field of a line snapshot that comes from what OPEN fixed; 0 when FREE (R189). -/
def cfgField (l : Line) (f : LineCfg → Nat) : Nat :=
  match l.cfg with
  | none => 0
  | some g => f g

/-- The 64 bytes that QUERY LINE writes (R189). -/
def lineSnapshot (l : Line) : List Byte :=
  bytesLE 64 (packFields ([(2, l.state.code), (2, cfgField l (·.fmt.code)), (3, cfgField l (·.owner.val)),
      (1, cfgField l (fun g => if l.fill = g.len then 1 else 0)), (8, l.gen.toNat), (5, l.taps.length)] ++
    holderBits l.lock.holders ++
    [(1, if l.lock.mode = .write then 1 else 0), (1, (ownerWaitsToWrite l).toNat),
      (22, cfgField l (fun g => g.len - 1)), (17, cfgField l (·.ext.base)), (22, l.head), (48, l.seq)] ++
    queueFields l.lock.queue ++ tapFields l.taps))

/-- The line of the executing command in WAIT_LOCK, 0 otherwise (R190). -/
def waitedLine (e : Engine) : Nat :=
  match e.exec with
  | some x => if e.state = .waitLock then x.rcd.line.toNat else 0
  | none => 0

/-- The 32 bytes that QUERY RING writes: the engine, its pacing state, the frame counter (R190). `unnamed` is bit 7 of byte 3,
which R190 does not name: DESIGN CHOICE, a free value that the query supplies (log 43). -/
def ringSnapshot (e : Engine) (p : Pacing) (frame : BitVec 32) (unnamed : Bool) : List Byte :=
  bytesLE 32 (packFields [
    (8, e.state.code),
    (8, ((e.cfg.bind (·.cls)).map RingClass.code).getD 0),
    (8, (e.cfg.map (fun g => g.cq.val)).getD 255),
    (1, e.lastOk.toNat), (1, e.test.toNat), (1, e.haltPending.toNat), (1, e.staged.isSome.toNat),
    (1, e.exec.isSome.toNat), (1, p.armed.toNat), (1, p.notice.isSome.toNat), (1, unnamed.toNat),
    (16, e.head), (16, e.tail), (16, (e.cfg.map (·.size)).getD 0),
    (8, p.owed), (8, (e.exec.map (fun x => x.rcd.kind.toNat)).getD 0),
    (16, (e.exec.map (fun x => x.rcd.tag.toNat)).getD 0),
    (8, waitedLine e), (8, 0), (64, (e.cfg.map (fun g => g.base.toNat)).getD 0),
    (32, frame.toNat), (16, p.late), (16, 0)])

/-- The bytes that QUERY STORE writes: header and entries (R190). -/
def storeSnapshot (es : List Extent) : List Byte :=
  bytesLE 8 (packFields [(16, es.length), (16, 0), (32, totalFree es)]) ++
    es.flatMap (fun e => bytesLE 8 (packFields [(32, e.base), (32, e.count)]))

end Sys2Proof.Machine
end

