-- ==== Sys2Proof/Machine/Stops.lean ====
section
/-! DEFINITION. Machine/Stops.lean: an engine stopped at its next commit boundary, by a ring reset (R115, R116),
by the POST_FAULT of a late notice (R112), by RESTART RING 0 (R169). -/

namespace Sys2Proof.Machine

/-- Is the executing command's progress one of RE0's waits for another block (R169)? -/
def Phase.waitsForBlock : Phase → Bool
  | .cqWait => true
  | .resetWait _ => true
  | _ => false

/-- Does the command hold or wait for its line's lock (R41)? -/
def Phase.atLock : Phase → Bool
  | .waitLock | .waitClose _ | .granted | .tapRead | .pushing _ _ | .reader _ | .stepping _ => true
  | .fresh | .waitFrame | .cqWait | .resetWait _ | .querying _ => false

/-- What the stopped command had committed: samples of a PUSH, steps of a STEP, 0 otherwise (R116). -/
def Phase.committed : Phase → Nat
  | .pushing done _ => done
  | .stepping c => c.committed
  | _ => 0

/-- The engine is at a commit boundary: no store burst and no host transfer of its command is under way, its
claim is not being written, and it waits for no other block (R115, R160, R169). -/
def atBoundary (r : Ring) (s : State) : Bool :=
  let e := s.eng[r]
  e.rd.isNone && e.wr.isNone && !holdsPort r s && !(e.state == .waitCq && beingWritten r s) &&
    !(match e.exec with
      | none => false
      | some x => x.phase.waitsForBlock)

/-- The executing command is stopped: it is reported as aborted if it had begun, its place at the lock is given
up with the grant step, and it is gone (R50, R72, R116). Until the fetch that a reset waits for has ended, its ring is shown
as ACTIVE (log 8). -/
def dropCommand (r : Ring) (s : State) : State :=
  match s.eng[r].exec with
  | none => s
  | some x =>
    let s1 := s.updEng r (fun e =>
      { e with
        state := .active
        exec := none
        report :=
          if x.phase = .fresh then e.report
          else some ⟨true, x.rcd.tag, x.rcd.line, x.rcd.gen, x.phase.committed⟩ })
    if x.phase.atLock then release r x.rcd.lineIx s1 else s1

/-- A command claim that waits in CU's wait queue is withdrawn (R115, R126). -/
def dropClaim (r : Ring) (s : State) : State :=
  if s.eng[r].state = .waitCq then
    let s1 := s.updEng r (fun e => { e with state := .active })
    match s.eng[r].cfg with
    | none => s1
    | some g => withdrawClaims g.cq (Claim.isCommandOf r) s1
  else s

/-- What the engine works at is unwound at its commit boundary: the staged record is discarded, the command or its claim is
given up (R116, R169; log 8). -/
def unwind (r : Ring) (s : State) : State :=
  dropClaim r (dropCommand r (s.updEng r (fun e => { e with staged := none })))

/-- RESTART RING 0 ends: CQ0 is reset with its base, size, T and H kept, and RE0 is IDLE with head 0
(R136, R169). -/
def finishRestart (s : State) : State :=
  let s1 := s.updCq 0 (fun x => Cq.fresh x.cfg)
  let s2 := s1.updEng 0 (fun e => { Engine.resetValue with state := .idle, cfg := e.cfg })
  { s2 with hp := { s2.hp with restart := false } }

/-- RE0 stops for RESTART RING 0, if it is at its boundary, its fetch has ended and no write to CQ0 is in
flight (R136, R169). -/
def tryRestart (s : State) : State :=
  if s.eng[(0 : Ring)].stop.isSome && atBoundary 0 s then
    let s1 := unwind 0 s
    if s1.eng[(0 : Ring)].fetch.isNone && s1.cq[(0 : CqIx)].inflight.isNone then finishRestart s1 else s1
  else s

/-- The fields of a RESET RING completion (R161). -/
def resetResult (rep : StopReport) (head : Nat) : Result :=
  { status := .ok, line := rep.line, gen := rep.gen, count := rep.count, unfilled := head,
    seq := rep.tag.setWidth 32, aborted := rep.aborted }

/-- RE0 ends its executing command, or stops there if it is being restarted (R169). -/
def endControl (res : Result) (s : State) : State :=
  if s.eng[(0 : Ring)].stop.isSome then
    tryRestart (s.updEng 0 (fun e => { e with exec := none, staged := none }))
  else endCommand 0 res s

/-- The report of an engine with no command executing (R116). -/
def StopReport.nothing : StopReport := { aborted := false, tag := 0, line := 0, gen := 0, count := 0 }

/-- Ring `r` has stopped: RE0's RESET RING of it goes on (R160). -/
def targetStopped (r : Ring) (rep : StopReport) (head : Nat) (s : State) : State :=
  match s.eng[(0 : Ring)].exec with
  | some ⟨_, .resetWait t⟩ => if t = r then endControl (resetResult rep head) s else s
  | _ => s

/-- The late notice of ring `r` is discarded: withdrawn from the wait queue, or left to finish its write as a
notice that belongs to no ring any more (R130, R149, R151). -/
def discardNotice (r : Ring) (s : State) : State :=
  match s.eng[r].cfg with
  | none => s
  | some g =>
    let s1 := s.updCq g.cq (fun x =>
      { x with
        inflight := x.inflight.map (fun w =>
          if w.claim.isNoticeOf r then { w with claim := { w.claim with orphan := true } } else w) })
    withdrawClaims g.cq (Claim.isNoticeOf r) s1

/-- The Frame Unit discards the pacing state of ring `r`: the late notice, the armed flag and the owed strobes. The late count
is kept (R116, R151). -/
def discardPacing (r : Ring) (s : State) : State :=
  (discardNotice r s).updPace r (fun p => { p with armed := false, owed := 0, notice := none })

/-- The ring reset of ring `r` ends: the engine's values set, ring 0 told (R116, R160). -/
def finishReset (r : Ring) (s : State) : State :=
  let rep := s.eng[r].report.getD .nothing
  let head := s.eng[r].head
  targetStopped r rep head (s.updEng r (fun _ => Engine.resetValue))

/-- An engine that a stop has reached stops, if it is at its commit boundary. A ring reset discards the pacing state there,
so that no later strobe reaches the ring (R151); it waits for the fetch in flight as well, as a restart does (R115; log 8). -/
def tryStop (r : Ring) (s : State) : State :=
  if r = 0 then tryRestart s
  else
    match s.eng[r].stop with
    | none => s
    | some cause =>
      if atBoundary r s then
        let s1 := unwind r s
        if cause = .noticeHalt then halt r s1
        else
          let s2 := discardPacing r s1
          if s2.eng[r].fetch.isSome then s2 else finishReset r s2
      else s

/-- A stop reaches an engine: a claim that waits at the store arbiter is withdrawn (R34), and the engine stops at
once or at its next commit boundary. -/
def beginStop (r : Ring) (cause : StopCause) (s : State) : State :=
  tryStop r ((s.updEng r (fun e => { e with stop := some cause })).setClaim r none)

/-- The write of a late notice of ring `r` has failed (R112, R126, R149). -/
def noticeFailed (r : Ring) (s : State) : State :=
  let e := s.eng[r]
  if e.state = .halted ∨ e.state = .disabled ∨ e.stop.isSome then s else beginStop r .noticeHalt s

/-- A transfer or burst of ring `r`'s executing command is over: a stop that waits for it goes on, otherwise the
command does. -/
def orStop (r : Ring) (k : State → State) (s : State) : State :=
  if s.eng[r].stop.isSome then tryStop r s else k s

end Sys2Proof.Machine
end

