-- ==== Sys2Proof/Machine/ControlCommands.lean ====
section
/-! DEFINITION. Machine/ControlCommands.lean: the seven control commands of ring 0 (chapter 9). -/

namespace Sys2Proof.Machine

/-- A control command: the checks of its kind, then its effect; a refusal changes nothing and completes at once
(R155). -/
def checkedControl (check : Record → State → Option Status) (effect : Record → State → State) (x : Record)
    (s : State) : State :=
  match check x s with
  | some st => endCommand 0 (bareResult st x) s
  | none => effect x s

/-- Refuse with a status if a condition holds. -/
def refuseIf (c : Bool) (st : Status) : Option Status := if c then some st else none

/-! ## CONFIGURE RING -/

/-- The checks of CONFIGURE RING (R156). -/
def checkConfigureRing (x : Record) (s : State) : Option Status :=
  refuseIf (!x.namesLineRing) .badRing <|>
  refuseIf (s.eng[x.ringA].state != .disabled) .ringActive <|>
  refuseIf (!alignedTo 64 x.addr) .badAlign <|>
  refuseIf (!isRingSize x.count.toNat) .badParam <|>
  refuseIf (RingClass.ofCode x.paramB).isNone .badParam <|>
  refuseIf (!(1 ≤ x.paramC.toNat && x.paramC.toNat ≤ 3 && s.cq[x.cqC].cfg.isSome)) .badRing

/-- Ring r's engine is configured and IDLE, its pacing state set afresh (R97, R141, R157). -/
def configureRing (x : Record) (s : State) : State :=
  let cfg : RingCfg :=
    { base := x.addr, size := x.count.toNat, cls := RingClass.ofCode x.paramB, cq := x.cqC }
  let s1 := s.updEng x.ringA (fun _ => { Engine.resetValue with state := .idle, cfg := some cfg })
  endCommand 0 (bareResult .ok x) (s1.updPace x.ringA (fun _ => Pacing.resetValue))

/-- CONFIGURE RING (R157). -/
def execConfigureRing (s : State) : Host.Outcome State Fault Refusal :=
  whileReleased s fun s => .next (runKind 0 .configureRing (checkedControl checkConfigureRing configureRing) s)

/-! ## CONFIGURE COMPLETION RING -/

/-- A line ring that is not DISABLED names completion ring `q` (R135, R158). -/
def cqInUse (q : CqIx) (s : State) : Bool :=
  ([1, 2, 3, 4, 5, 6, 7] : List Ring).any (fun r =>
    s.eng[r].state != .disabled && (s.eng[r].cfg.map (·.cq)) == some q)

/-- The checks of CONFIGURE COMPLETION RING (R158). -/
def checkConfigureCq (x : Record) (s : State) : Option Status :=
  refuseIf (!(1 ≤ x.paramA.toNat && x.paramA.toNat ≤ 3)) .badRing <|>
  refuseIf (cqInUse x.cqA s) .cqInUse <|>
  refuseIf (!alignedTo 64 x.addr) .badAlign <|>
  refuseIf (!isRingSize x.count.toNat) .badParam <|>
  refuseIf (!(1 ≤ x.paramB.toNat && x.paramB.toNat ≤ 255)) .badParam <|>
  refuseIf (!(x.paramC.toNat ≤ 255)) .badParam

/-- The completion ring is set from the command (R119, R135). -/
def setCq (x : Record) (s : State) : State :=
  s.updCq x.cqA (fun _ => Cq.fresh (some
    { base := x.addr, size := x.count.toNat, threshold := x.paramB.toNat, holdoff := x.paramC.toNat }))

/-- CONFIGURE COMPLETION RING waits for a write in flight, then sets the ring (R135). -/
def configureCq (x : Record) (s : State) : State :=
  if s.cq[x.cqA].inflight.isSome then s.setPhase 0 .cqWait else endControl (bareResult .ok x) (setCq x s)

/-- The write that a CONFIGURE COMPLETION RING waited for has been reported (R135, R169). -/
def resumeCqWait (q : CqIx) (s : State) : State :=
  match s.eng[(0 : Ring)].exec with
  | some ⟨x, .cqWait⟩ => if x.cqA = q then configureCq x s else s
  | _ => s

/-- CONFIGURE COMPLETION RING (R158). -/
def execConfigureCompletionRing (s : State) : Host.Outcome State Fault Refusal :=
  whileReleased s fun s =>
    .next (runKind 0 .configureCompletionRing (checkedControl checkConfigureCq configureCq) s)

/-! ## RESET RING -/

/-- RESET RING is sent to ring r, and RE0 waits for its stop (R159, R160). -/
def resetRing (x : Record) (s : State) : State :=
  beginStop x.ringA .ringReset (s.setPhase 0 (.resetWait x.ringA))

/-- RESET RING (R159). -/
def execResetRing (s : State) : Host.Outcome State Fault Refusal :=
  whileReleased s fun s =>
    .next (runKind 0 .resetRing
      (checkedControl (fun x _ => refuseIf (!x.namesLineRing) .badRing) resetRing) s)

/-! ## CONFIGURE DEVICE -/

/-- The checks of CONFIGURE DEVICE (R163). -/
def checkConfigureDevice (x : Record) (_s : State) : Option Status :=
  refuseIf (!(8 ≤ x.paramA.toNat && x.paramA.toNat ≤ 255)) .badParam <|>
  match FrameSource.ofCode x.paramB with
  | none => some .badParam
  | some .timer => refuseIf (!(20 ≤ x.paramC.toNat && x.paramC.toNat ≤ 1000000)) .badParam
  | some _ => none

/-- SC takes the refresh code and restarts a running timer with it (R36). -/
def setRefreshCode (code : Nat) (s : State) : State :=
  { s with sc := { s.sc with code := code, timer := s.sc.timer.map (fun _ => s.now + code * 125) } }

/-- FU takes the frame source: the frame timer is restarted under TIMER, stopped otherwise (R139). -/
def setFrameSource (src : FrameSource) (p : Nat) (s : State) : State :=
  match src with
  | .timer =>
    { s with fu := { s.fu with source := .timer, period := some p, timer := some (s.now + p * 1000) } }
  | _ => { s with fu := { s.fu with source := src, period := none, timer := none } }

/-- CONFIGURE DEVICE takes effect in SC and in FU (R163). -/
def configureDevice (x : Record) (s : State) : State :=
  endCommand 0 (bareResult .ok x)
    (setFrameSource ((FrameSource.ofCode x.paramB).getD .none) x.paramC.toNat
      (setRefreshCode x.paramA.toNat s))

/-- CONFIGURE DEVICE (R163). -/
def execConfigureDevice (s : State) : Host.Outcome State Fault Refusal :=
  whileReleased s fun s =>
    .next (runKind 0 .configureDevice (checkedControl checkConfigureDevice configureDevice) s)

/-! ## Queries -/

/-- A query has taken its snapshot: RE0 writes it to the address in one transfer, and keeps the fields of the
completion (R164). -/
def writeSnapshot (x : Record) (data : List Byte) (res : Result) (s : State) : State :=
  issueWrite 0 x.addr data (s.setPhase 0 (.querying res))

/-- QUERY LINE takes its snapshot (R165). -/
def queryLine (x : Record) (s : State) : State :=
  let l := s.lineOf x
  writeSnapshot x (lineSnapshot l) (lineResult .ok x l 0 0 l.seq) s

/-- QUERY RING takes its snapshot; ring 0 has no pacing state and shows that of a BULK ring (R153, R166).
The bit that R190 does not name has a free value for each write (log 43). -/
def queryRing (x : Record) (s : State) : State :=
  let p := if x.ringA = 0 then Pacing.resetValue else s.fu.pace[x.ringA]
  writeSnapshot x (ringSnapshot s.eng[x.ringA] p s.fu.frame (Config.ringSnapshotBit s.hp.taken))
    { bareResult .ok x with seq := s.fu.frame } s

/-- QUERY STORE takes its snapshot (R30, R167). -/
def queryStore (x : Record) (s : State) : State :=
  writeSnapshot x (storeSnapshot s.free)
    { bareResult .ok x with count := s.free.length, seq := low32 (totalFree s.free) } s

/-- The alignment check of a query's buffer (R164). -/
def checkBuffer (x : Record) : Option Status := refuseIf (!alignedTo 4 x.addr) .badAlign

/-- QUERY LINE (R165). -/
def execQueryLine (s : State) : Host.Outcome State Fault Refusal :=
  whileReleased s fun s =>
    .next (runKind 0 .queryLine
      (checkedControl (fun x _ => refuseIf (64 ≤ x.line.toNat) .badLine <|> checkBuffer x) queryLine) s)

/-- QUERY RING (R166). -/
def execQueryRing (s : State) : Host.Outcome State Fault Refusal :=
  whileReleased s fun s =>
    .next (runKind 0 .queryRing
      (checkedControl (fun x _ => refuseIf (8 ≤ x.paramA.toNat) .badRing <|> checkBuffer x) queryRing) s)

/-- QUERY STORE (R167). -/
def execQueryStore (s : State) : Host.Outcome State Fault Refusal :=
  whileReleased s fun s =>
    .next (runKind 0 .queryStore (checkedControl (fun x _ => checkBuffer x) queryStore) s)

/-- The completion fields of RE0's query whose write is in flight. -/
def queryResult (s : State) : Option Result :=
  match s.eng[(0 : Ring)].exec with
  | some ⟨_, .querying res⟩ => some res
  | _ => none

/-- The write of a query's snapshot is over, and RE0 ends the query or stops there (R164, R169). -/
def endQuery (res : Result) (s : State) : State :=
  endControl res (s.updEng 0 (fun e => { e with wr := none }))

/-- A query's snapshot write is reported completed (R164). Without such a write there is no such event (logs 1, 4). -/
def execQueryWriteDone (s : State) : Host.Outcome State Fault Refusal :=
  whileReleased s fun s =>
    match queryResult s, s.eng[(0 : Ring)].wr with
    | some res, some w => if s.completes w then .next (endQuery res (writeReported w s)) else .next s
    | _, _ => .next s

/-- A query's snapshot write is reported failed: HOST_FAULT, count 0 (R164). Without such a write there is no such event
(logs 1, 4). -/
def execQueryWriteFailed (s : State) : Host.Outcome State Fault Refusal :=
  whileReleased s fun s =>
    match queryResult s, s.eng[(0 : Ring)].wr with
    | some res, some w =>
      if s.completes w then .next s else .next (endQuery { res with status := .hostFault, count := 0 } s)
    | _, _ => .next s

end Sys2Proof.Machine
end

