-- ==== Sys2Proof/Machine/CompletionCommands.lean ====
section
/-! DEFINITION. Machine/CompletionCommands.lean: the reports of completion record writes and the holdoff timers
(chapter 7). -/

namespace Sys2Proof.Machine

/-- The source of a posted claim is told: the engine leaves WAIT_CQ and goes on, or its late notice is pending no more
(R110, R125, R149). The restart of ring 0 that waits for the report is left to `restartAfter` (log 7). -/
def tellPosted (c : Claim) (s : State) : State :=
  if c.notice then
    if c.orphan then s else s.updPace c.ring (fun p => { p with notice := none })
  else if c.ring = 0 ∧ s.eng[c.ring].stop.isSome then s
  else orStop c.ring (fun s => if s.eng[c.ring].state = .waitCq then goOn c.ring s else s) s

/-- The report of ring 0's own record is taken whole, and the restart of ring 0 that waited for it ends (R136; log 7). -/
def restartAfter (c : Claim) (s : State) : State :=
  if c.notice = false ∧ c.ring = 0 then tryRestart s else s

/-- The source of a failed claim is told: its ring halts, at once or, for a late notice, as R112 gives it; a ring that a
stop has reached stops there (R112, R115, R126, R149). -/
def tellFailed (c : Claim) (s : State) : State :=
  if c.notice then
    if c.orphan then s
    else noticeFailed c.ring (s.updPace c.ring (fun p => { p with notice := none }))
  else orStop c.ring (fun s => if s.eng[c.ring].state = .waitCq then halt c.ring s else s) s

/-- The write in flight to completion ring `q` is reported completed: the record is posted, its source is told, the posting
is counted, a held RETIRE is taken, the queue is served (R125, R128, R131; log 7). -/
def writePosted (q : CqIx) (c : Claim) (s : State) : State :=
  restartAfter c (serveQueue q (resumeCqWait q (takeHeld q (moderate q (tellPosted c (postRecord q s))))))

/-- The write in flight to completion ring `q` is reported failed: the record is lost, POST_FAULT, a held RETIRE is refused
with BAD_RETIRE, the source is told, the queue is served (R126, R128; the order of the two faults is log 7). -/
def writeFailed (q : CqIx) (c : Claim) (s : State) : State :=
  serveQueue q (resumeCqWait q (tellFailed c (refuseHeld q
    (reportFault .postFault c.ring.val (loseRecord q s)))))

/-- A completion record write is reported completed (R125). Without such a write there is no such event (logs 1, 4). -/
def execCompletionWritePosted (q : CqIx) (s : State) : Host.Outcome State Fault Refusal :=
  whileReleased s fun s =>
    match s.cq[q].inflight with
    | none => .next s
    | some w =>
      if s.completes w.write then .next (writePosted q w.claim (writeReported w.write s)) else .next s

/-- A completion record write is reported failed (R126). Without such a write there is no such event (logs 1, 4). -/
def execCompletionWriteFailed (q : CqIx) (s : State) : Host.Outcome State Fault Refusal :=
  whileReleased s fun s =>
    match s.cq[q].inflight with
    | none => .next s
    | some w => if s.completes w.write then .next s else .next (writeFailed q w.claim s)

/-- A completion ring's holdoff timer expires: CU sends the interrupt message (R132). -/
def execHoldoffTimerExpiry (q : CqIx) (s : State) : Host.Outcome State Fault Refusal :=
  whileReleased s fun s =>
    match s.cq[q].timer with
    | none => .next s
    | some t => .next (signalCq q (s.atTime t))

end Sys2Proof.Machine
end

