-- ==== Sys2Proof/Machine/LineCommands.lean ====
section
/-! DEFINITION. Machine/LineCommands.lean: the validation order and the commands OPEN, CLOSE, SET TAPS, PUSH, CLEAR and
TEST with their transfers (chapter 4). -/

namespace Sys2Proof.Machine

/-! ## The validation order (4.2) -/

/-- Step 3: the line must be FREE for an OPEN; for any other kind it must not be FREE and the generations must be
equal (R3, R6). -/
def checkLine (k : Kind) (x : Record) (l : Line) : Option Status :=
  if k = .openLine then if l.state = .free then none else some .lineBusy
  else if l.state = .free ∨ x.gen ≠ l.gen then some .staleLine
  else none

/-- Does step 4 ask for the owner (R8)? -/
def Kind.ownerOnly : Kind → Bool
  | .closeLine | .setTaps | .push | .clear | .step => true
  | _ => false

/-- Step 4: the issuing ring is the owner (R8). -/
def checkOwner (k : Kind) (r : Ring) (l : Line) : Option Status :=
  if k.ownerOnly && l.cfg.map (·.owner) != some r then some .notOwner else none

/-- Step 5: the line is not CLOSING (R3). -/
def checkClosing (k : Kind) (l : Line) : Option Status :=
  if k ≠ .openLine ∧ l.state = .closing then some .lineClosing else none

/-- Step 6: counts and ranges (R56). -/
def checkRanges (k : Kind) (x : Record) (l : Line) : Option Status :=
  let n := x.count.toNat
  let a := x.paramA.toNat
  match k with
  | .openLine =>
    if a < 16 ∨ 4194304 < a then some .badLength
    else if (Format.ofCode x.paramB).isNone then some .badFormat
    else none
  | .setTaps => if 16 < n then some .badCount else none
  | .push => if n < 1 ∨ min 4096 l.len < n then some .badCount else none
  | .test => if l.len < a then some .badRange else none
  | .readSpan =>
    if n < 1 ∨ 4096 < n then some .badCount else if l.len < a + n then some .badRange else none
  | .step =>
    if n < 1 ∨ 1024 < n then some .badCount
    else if 16384 < n * l.taps.length then some .badCount
    else none
  | _ => none

/-- Step 7: buffer addresses are multiples of 4 (R57). -/
def checkAlign (k : Kind) (x : Record) : Option Status :=
  match k with
  | .push | .gather | .readSpan => if alignedTo 4 x.addr then none else some .badAlign
  | .setTaps => if x.count.toNat = 0 ∨ alignedTo 4 x.addr then none else some .badAlign
  | .step => if alignedTo 4 x.addr && alignedTo 4 x.paramC then none else some .badAlign
  | _ => none

/-- Steps 4 to 7, the first failure first (R55). -/
def checkCommand (k : Kind) (r : Ring) (x : Record) (l : Line) : Option Status :=
  checkOwner k r l <|> checkClosing k l <|> checkRanges k x l <|> checkAlign k x

/-- LU's validation of a line command, steps 2 to 7, and what follows for one that passes (R55). A refusal carries the
fields of R58. -/
def validated (k : Kind) (r : Ring) (x : Record) (carryOut : State → State) (s : State) : State :=
  if 64 ≤ x.line.toNat then endCommand r (bareResult .badLine x) s
  else
    let l := s.lineOf x
    match checkLine k x l with
    | some st => endCommand r (lineResult st x l 0 0 0) s
    | none =>
      match checkCommand k r x l with
      | some st => endCommand r (lineResult st x l 0 0 l.seq) s
      | none => carryOut s

/-- The row of a line kind: guard, step 1, steps 2 to 7 (R55, R107, R109). -/
def lineCommand (r : Ring) (k : Kind) (body : Record → State → State) (s : State) : State :=
  runKind r k (onLineRing r (fun x => validated k r x (body x))) s

/-! ## OPEN -/

/-- The line record an OPEN makes (R5, R59). -/
def openedLine (r : Ring) (len : Nat) (fmt : Format) (ext : Extent) (gen : BitVec 8) : Line :=
  { state := .live, gen := if gen = 255 then 1 else gen + 1, cfg := some ⟨r, len, fmt, ext⟩, head := 0, fill := 0,
    seq := 0, taps := [], lock := .idle }

/-- Step 8 of an OPEN: SA gives an extent, and the line becomes LIVE; or the OPEN ends with NO_SPACE (R25, R26, R59). -/
def carryOutOpen (r : Ring) (x : Record) (s : State) : State :=
  let l := s.lineOf x
  match Format.ofCode x.paramB, allocate (granulesOf x.paramA.toNat) s.free with
  | some fmt, some (ext, rest) =>
    let l' := openedLine r x.paramA.toNat fmt ext l.gen
    endCommand r (lineResult .ok x l' 0 0 0) { s.updLine x.lineIx (fun _ => l') with free := rest }
  | _, _ => endCommand r (lineResult .noSpace x l 0 0 l.seq) s

/-- OPEN (R59). -/
def execOpenLine (r : Ring) (s : State) : Host.Outcome State Fault Refusal :=
  whileReleased s fun s => .next (lineCommand r .openLine (carryOutOpen r) s)

/-! ## CLOSE -/

/-- The queued reader of ring `r` is refused with LINE_CLOSING (R48). -/
def refuseReader (l : LineIx) (r : Ring) (s : State) : State :=
  match s.eng[r].exec with
  | none => s
  | some x =>
    endCommand r (lineResult .lineClosing x.rcd s.lines[l] 0 0 s.lines[l].seq)
      (s.updEng r (fun e => { e with state := .active }))

/-- Step 9 of a CLOSE: the line becomes CLOSING, its queued readers are refused, the close ends at once or waits for
the holders (R48, R61). The readers make their claims in the order of the queue, the CLOSE makes its own after them
(log 37). -/
def carryOutClose (r : Ring) (x : Record) (s : State) : State :=
  let l := s.lineOf x
  let readers := (l.lock.queue.filter (fun w => w.kind == .reader)).map (·.ring)
  let s1 := s.updLine x.lineIx (fun y =>
    { y with
      state := .closing
      lock := { y.lock with queue := y.lock.queue.filter (fun w => w.kind != .reader) ++ [⟨r, .close⟩] } })
  let s2 := (s1.setPhase r (.waitClose l.seq)).updEng r (fun e => { e with state := .waitLock })
  grantStep x.lineIx (readers.foldl (fun t q => refuseReader x.lineIx q t) s2)

/-- CLOSE (R61). -/
def execCloseLine (r : Ring) (s : State) : Host.Outcome State Fault Refusal :=
  whileReleased s fun s => .next (lineCommand r .closeLine (carryOutClose r) s)

/-! ## SET TAPS -/

/-- SET TAPS (R63). -/
def execSetTaps (r : Ring) (s : State) : Host.Outcome State Fault Refusal :=
  whileReleased s fun s => .next (lineCommand r .setTaps (fun x => claimWriter r x.lineIx) s)

/-- The record of ring `r`'s granted SET TAPS, if its list is being read. -/
def tapReader (r : Ring) (s : State) : Option Record :=
  match s.eng[r].exec with
  | some ⟨x, .tapRead⟩ => some x
  | _ => none

/-- The position of the first offset that is `len` or more (R63). -/
def firstBadTap (len : Nat) (taps : List Nat) : Option Nat := taps.findIdx? (fun d => len ≤ d)

/-- The list that a SET TAPS has read is installed whole, or refused with BAD_TAP (R63). -/
def installTaps (r : Ring) (x : Record) (taps : List Nat) (s : State) : State :=
  let l := s.lineOf x
  match firstBadTap l.len taps with
  | some i => finish r x (lineResult .badTap x l i 0 l.seq) s
  | none =>
    finish r x (lineResult .ok x l taps.length 0 l.seq) (s.updLine x.lineIx (fun y => { y with taps := taps }))

/-- The command's host read of ring `r` is over. -/
def readOver (r : Ring) (s : State) : State := s.updEng r (fun e => { e with rd := none })

/-- The bytes are those of ring `r`'s host read in flight, which HP can report as completed (R182). -/
def readCompletes (r : Ring) (bytes : List Byte) (s : State) : Bool :=
  match s.eng[r].rd with
  | none => false
  | some t => s.delivers t && t.len == bytes.length

/-- The tap list read returns its data (R63, R64). Without such a read in flight there is no such event (logs 1, 4). -/
def execTapListReadDone (r : Ring) (bytes : List Byte) (s : State) : Host.Outcome State Fault Refusal :=
  whileReleased s fun s =>
    match tapReader r s with
    | none => .next s
    | some x =>
      if readCompletes r bytes s then .next (orStop r (installTaps r x (tapsOf bytes)) (readOver r s))
      else .next s

/-- The tap list read fails: HOST_FAULT, the old list is kept (R64). -/
def tapListReadFailed (r : Ring) (s : State) : State :=
  match tapReader r s with
  | none => s
  | some x =>
    if s.eng[r].rd.isNone then s
    else
      orStop r (fun s => finish r x (lineResult .hostFault x (s.lineOf x) 0 0 (s.lineOf x).seq) s) (readOver r s)

/-- The tap list read is reported failed (R64). -/
def execTapListReadFailed (r : Ring) (s : State) : Host.Outcome State Fault Refusal :=
  whileReleased s fun s => .next (tapListReadFailed r s)

/-! ## PUSH -/

/-- PUSH (R65). -/
def execPush (r : Ring) (s : State) : Host.Outcome State Fault Refusal :=
  whileReleased s fun s => .next (lineCommand r .push (fun x => claimWriter r x.lineIx) s)

/-- Ring `r`'s granted PUSH: its record, the samples committed, the size of the burst in progress. -/
def pusher (r : Ring) (s : State) : Option (Record × Nat × Nat) :=
  match s.eng[r].exec with
  | some ⟨x, .pushing done m⟩ => some (x, done, m)
  | _ => none

/-- The words of a burst at consecutive slots from the head (R14). -/
def burstWords (g : LineCfg) (head : Nat) : List Word → List (Nat × Word)
  | [] => []
  | w :: ws => (g.word head, w) :: burstWords g (head + 1) ws

/-- The samples of a PUSH burst are converted, and the store port is claimed for them (R19, R65). -/
def claimPush (r : Ring) (x : Record) (bytes : List Byte) (s : State) : State :=
  match (s.lineOf x).cfg with
  | none => s
  | some g => claimPort r (.write (burstWords g (s.lineOf x).head (g.fmt.wordsOf bytes))) s

/-- The host read of a PUSH burst returns its data (R65, R68). Without such a read there is no such event (logs 1, 4). -/
def execPushSamplesReadDone (r : Ring) (bytes : List Byte) (s : State) : Host.Outcome State Fault Refusal :=
  whileReleased s fun s =>
    match pusher r s with
    | none => .next s
    | some (x, _, _) =>
      if readCompletes r bytes s then .next (orStop r (claimPush r x bytes) (readOver r s)) else .next s

/-- The host read of a PUSH burst fails: HOST_FAULT, the bursts committed before it stay (R67, R68). -/
def pushSamplesReadFailed (r : Ring) (s : State) : State :=
  match pusher r s with
  | none => s
  | some (x, done, _) =>
    if s.eng[r].rd.isNone then s
    else
      orStop r (fun s => finish r x (lineResult .hostFault x (s.lineOf x) done 0 (s.lineOf x).seq) s) (readOver r s)

/-- The host read of a PUSH burst is reported failed (R67). -/
def execPushSamplesReadFailed (r : Ring) (s : State) : Host.Outcome State Fault Refusal :=
  whileReleased s fun s => .next (pushSamplesReadFailed r s)

/-- A PUSH goes on after its burst has been committed: with the next burst, or to its end (R65). -/
def pushGoesOn (r : Ring) (x : Record) (done : Nat) (s : State) : State :=
  if done < x.count.toNat then pushNext r x done s
  else finish r x (lineResult .ok x (s.lineOf x) done 0 (s.lineOf x).seq) s

/-! ## CLEAR and TEST -/

/-- CLEAR (R69). -/
def execClear (r : Ring) (s : State) : Host.Outcome State Fault Refusal :=
  whileReleased s fun s => .next (lineCommand r .clear (fun x => claimWriter r x.lineIx) s)

/-- A TEST compares the line's fill with param A, without the lock, and sets or clears the ring's test flag (R70,
R108). -/
def carryOutTest (r : Ring) (x : Record) (s : State) : State :=
  let l := s.lineOf x
  endCommand r (lineResult .ok x l l.fill 0 l.seq)
    (s.updEng r (fun e => { e with test := decide (x.paramA.toNat ≤ l.fill) }))

/-- TEST (R70). -/
def execTest (r : Ring) (s : State) : Host.Outcome State Fault Refusal :=
  whileReleased s fun s => .next (lineCommand r .test (carryOutTest r) s)

end Sys2Proof.Machine
end

