-- ==== Sys2Proof/Machine/FrameCommands.lean ====
section
/-! DEFINITION. Machine/FrameCommands.lean: MARK and the frame strobes (chapter 8). -/

namespace Sys2Proof.Machine

/-- The fields of a MARK that ends with OK: owed as FU left it, and a frame number (R144). -/
def markResult (x : Record) (owed : Nat) (frame : BitVec 32) : Result :=
  { bareResult .ok x with count := owed, seq := frame }

/-- FU carries out a MARK of a PACED ring: it arms the ring, and consumes an owed strobe or waits (R143, R144). -/
def carryOutMark (r : Ring) (x : Record) (s : State) : State :=
  let s1 := s.updPace r (fun p => { p with armed := true, owed := p.owed - 1 })
  if s.fu.pace[r].owed = 0 then (s1.setPhase r .waitFrame).updEng r (fun e => { e with state := .waitFrame })
  else endCommand r (markResult x (s.fu.pace[r].owed - 1) s.fu.frame) s1

/-- A MARK on a BULK ring is refused with NOT_PACED (R98, R142). -/
def runMark (r : Ring) (x : Record) (s : State) : State :=
  if s.classOf r = some .paced then carryOutMark r x s else endCommand r (bareResult .notPaced x) s

/-- MARK (R143). -/
def execMark (r : Ring) (s : State) : Host.Outcome State Fault Refusal :=
  whileReleased s fun s => .next (runKind r .mark (onLineRing r (runMark r)) s)

/-- The late notice of ring `r` as a claim (R120, R146). -/
def noticeClaim (r : Ring) (owed : Nat) (frame : BitVec 32) : Claim :=
  { ring := r, notice := true, orphan := false, tag := 0xFFFF
    result := { status := .frameLate, line := 0, gen := 0, count := owed, unfilled := 0, seq := frame,
                aborted := false } }

/-- A late ring with owed below 3: late count and owed rise, and a notice is made if none is pending (R146). -/
def countLate (r : Ring) (s : State) : State :=
  let p := s.fu.pace[r]
  let s1 := s.updPace r (fun p => { p with late := min (p.late + 1) 65535, owed := p.owed + 1 })
  if p.notice.isSome then s1
  else
    let s2 := s1.updPace r (fun p => { p with notice := some ⟨p.owed, s.fu.frame⟩ })
    match s.eng[r].cfg with
    | none => s2
    | some g => takeClaim g.cq (noticeClaim r (p.owed + 1) s.fu.frame) s2

/-- A late ring with owed 3: the late count rises, FRAME_OVERRUN is reported, a cause of halt (R147). -/
def overrun (r : Ring) (s : State) : State :=
  haltCause r (reportFault .frameOverrun r.val
    (s.updPace r (fun p => { p with late := min (p.late + 1) 65535 })))

/-- A strobe reaches ring `r`: it is PACED, armed, and neither DISABLED nor HALTED (R145). -/
def strobeReaches (r : Ring) (s : State) : Bool :=
  s.classOf r == some .paced && s.fu.pace[r].armed && s.eng[r].state != .disabled && s.eng[r].state != .halted

/-- The strobe's effect on one ring (R145). -/
def strobeRing (s : State) (r : Ring) : State :=
  if strobeReaches r s then
    match s.eng[r].state, s.eng[r].exec with
    | .waitFrame, some x => endCommand r (markResult x.rcd 0 s.fu.frame) s
    | _, _ => if s.fu.pace[r].owed < 3 then countLate r s else overrun r s
  else s

/-- FU takes a strobe in one step: the frame counter is raised, and every ring reached is dealt with, here in the
order of the ring numbers (R140, R145; log 9). -/
def strobe (s : State) : State :=
  ([1, 2, 3, 4, 5, 6, 7] : List Ring).foldl strobeRing { s with fu := { s.fu with frame := s.fu.frame + 1 } }

/-- Does the source take this change of the FSYNC pin as a strobe (R138)? -/
def FrameSource.takesEdge (src : FrameSource) (level : Bool) : Bool :=
  match src with
  | .pinRising => level
  | .pinFalling => !level
  | _ => false

/-- The FSYNC pin takes a level: an edge of the selected kind, from a level that held for 100 ns to one that holds for 100 ns,
is a strobe (R138, R184; log 13). The level is the pin's, also while the part is held in reset. -/
def execFsyncStrobe (level : Bool) (heldNs : Held) (s : State) : Host.Outcome State Fault Refusal :=
  let s1 := { s with fu := { s.fu with fsync := level } }
  whileReleased s1 fun s1 =>
    if level != s.fu.fsync && 100 ≤ heldNs.before && 100 ≤ heldNs.after && s.fu.source.takesEdge level then
      .next (strobe s1)
    else .next s1

/-- The frame timer expires, a strobe, and begins its next period (R138). -/
def frameExpiry (s : State) : State :=
  match s.fu.source, s.fu.timer, s.fu.period with
  | .timer, some t, some p =>
    let s1 := s.atTime t
    strobe { s1 with fu := { s1.fu with timer := some (t + p * 1000) } }
  | _, _, _ => s

/-- The frame timer expires (R138). -/
def execFrameTimerExpiry (s : State) : Host.Outcome State Fault Refusal :=
  whileReleased s fun s => .next (frameExpiry s)

end Sys2Proof.Machine
end

