-- ==== Sys2Proof/Machine/HostPort.lean ====
section
/-! DEFINITION. Machine/HostPort.lean: the register window, start-up, resets, the link (chapter 10). -/

namespace Sys2Proof.Machine

/-! ## Reset -/

/-- The store after a device reset: what a write burst in progress let through is written, the rest is not
(R34, R178). How many of its words that is, is a free value (log 11). -/
def storeAfterReset (s : State) : List (Nat × Word) :=
  match s.sc.port with
  | .burst _ (.write ws) =>
    Memory.writeAll ((ws.filter (fun p => p.1 < storeWords)).take (Config.abandonedBurstWords s.freeIdx)) s.store
  | _ => s.store

/-- The host writes that have left the part when a loss of the link or a device reset meets those that HP has taken: the
oldest of them, how many is a free value (R182; log 38). -/
def writesGone (s : State) : List HostWrite := s.hp.writes.take (Config.writesLeft s.freeIdx)

/-- A device reset in every block at once (R178). The anchor registers, the link conditions and the store words
are kept; transfers in flight are abandoned. -/
def deviceReset (s : State) : State :=
  { s with
    hp := { s.hp with
      dev := .off, anchorAddr := none, anchorRead := none, fault := .empty, restart := false
      writes := [], left := [], out := s.hp.out ++ (writesGone s).map (·.item) }
    lines := Vector.replicate 64 (.freeRecord 0)
    free := [⟨0, storeGranules⟩]
    sc := .resetValue
    store := storeAfterReset s
    eng := Vector.replicate 8 .resetValue
    cq := Vector.replicate 4 (.fresh none)
    fu := .resetValue s.fu.fsync
    freeIdx := s.freeIdx + 1 }

/-- A power-on reset: the device reset with the anchor registers 0, the three link conditions clear, and the
store content unknown (R22, R176, R178, R182, R184). -/
def powerOn (s : State) : State :=
  let t := deviceReset s
  { t with
    hp := { t.hp with
      anchorLo := 0, anchorHi := 0, linkUp := false, busMaster := false, msi := false, inReset := false }
    store := []
    epoch := t.epoch + 1 }

/-- Release of the fundamental reset input (R178, R184). -/
def execPowerOnReset (s : State) : Host.Outcome State Fault Refusal := .next (powerOn s)

/-- Assertion of the fundamental reset input holds the part in reset until its release (R184, log 12). -/
def execFundamentalResetAssert (s : State) : Host.Outcome State Fault Refusal :=
  .next { s with hp := { s.hp with inReset := true } }

/-! ## Start-up -/

/-- Start-up fails (R172). -/
def failStart (code : FaultCode) (s : State) : State :=
  reportFault code 0 { s with hp := { s.hp with dev := .failed, anchorAddr := none, anchorRead := none } }

/-- The store is READY: HP checks the anchor address and reads the anchor block (R174). -/
def checkAnchorAddr (s : State) : State :=
  match s.hp.anchorAddr with
  | none => s
  | some a =>
    if alignedTo 64 a then { s with hp := { s.hp with anchorRead := some (s.hostRead a 32) } }
    else failStart .badAnchor s

/-- CONTROL START: taken in OFF only (R172, R173, R174). -/
def controlStart (s : State) : State :=
  if s.hp.dev = .off then
    let s1 := { s with hp := { s.hp with dev := .starting, anchorAddr := some (s.hp.anchorHi ++ s.hp.anchorLo) } }
    if s.sc.state = .ready then checkAnchorAddr s1 else s1
  else s

/-- CONTROL RESTART RING 0: taken in RUNNING only; one taken while another is in progress joins it (R168,
R173). -/
def controlRestart (s : State) : State :=
  if s.hp.dev = .running then
    if s.hp.restart then s
    else beginStop 0 .restart { s with hp := { s.hp with restart := true } }
  else s

/-- A 4-byte write to CONTROL: the whole word is the command, any other value is ignored (R173, R188). -/
def writeControl (v : Word) (s : State) : State :=
  if v = 1#32 then controlStart s
  else if v = 2#32 then deviceReset s
  else if v = 3#32 then controlRestart s
  else s

/-- CONTROL START (R174). -/
def execStart (s : State) : Host.Outcome State Fault Refusal :=
  whileReleased s fun s => .next (writeControl 1#32 s)

/-- CONTROL RESET (R178). -/
def execReset (s : State) : Host.Outcome State Fault Refusal :=
  whileReleased s fun s => .next (writeControl 2#32 s)

/-- CONTROL RESTART RING 0 (R169). -/
def execRestartRing0 (s : State) : Host.Outcome State Fault Refusal :=
  whileReleased s fun s => .next (writeControl 3#32 s)

/-- A CONTROL write of another code, or of a command not taken in the device state (R173). -/
def execControlOtherCode (code : Word) (s : State) : Host.Outcome State Fault Refusal :=
  whileReleased s fun s => .next (writeControl code s)

/-- SC becomes READY: the refresh timer starts, the arbiter begins to choose, a waiting START goes on (R36,
R39, R174). -/
def storeReady (s : State) : State :=
  if s.sc.state = .init then
    let s1 := arbitrate { s with sc := { s.sc with
      state := .ready, port := .idle, timer := some (s.now + s.sc.code * 125) } }
    if s1.hp.dev = .starting then checkAnchorAddr s1 else s1
  else s

/-- The DRAM initialisation ends (R39). -/
def execStoreReady (s : State) : Host.Outcome State Fault Refusal :=
  whileReleased s fun s => .next (storeReady s)

/-- The anchor block is valid: ring 0 and CQ0 are configured, the device is RUNNING (R119, R175). -/
def configureFromAnchor (block : BitVec 256) (s : State) : State :=
  let s1 := s.updEng 0 (fun _ => { Engine.resetValue with state := .idle, cfg := some (anchorRing block) })
  let s2 := s1.updCq 0 (fun _ => Cq.fresh (some (anchorCq block)))
  { s2 with hp := { s2.hp with dev := .running, anchorAddr := none, anchorRead := none } }

/-- The anchor read is reported with its data (R175). Without such a read in flight there is no such event
(logs 1, 4). -/
def execAnchorReadDone (block : BitVec 256) (s : State) : Host.Outcome State Fault Refusal :=
  whileReleased s fun s =>
    match s.hp.anchorRead with
    | none => .next s
    | some t =>
      if !s.delivers t then .next s
      else if anchorValid block then .next (configureFromAnchor block s)
      else .next (failStart .badAnchor s)

/-- The anchor read is reported failed (R175). -/
def anchorReadFailed (s : State) : State :=
  match s.hp.anchorRead with
  | none => s
  | some _ => failStart .anchorFault s

/-- The anchor read is reported failed (R175). -/
def execAnchorReadFailed (s : State) : Host.Outcome State Fault Refusal :=
  whileReleased s fun s => .next (anchorReadFailed s)

/-! ## Register writes -/

/-- A 4-byte write to POST (R100, R188). -/
def writePost (v : Word) (s : State) : State := takePost (postRing v) (upperHalf v) s

/-- A 4-byte write to RETIRE (R127, R188). -/
def writeRetire (v : Word) (s : State) : State := takeRetire (retireCq v) (upperHalf v) s

/-- A 4-byte write of any value to FAULT empties the fault record (R179). -/
def writeFault (_v : Word) (s : State) : State := { s with hp := { s.hp with fault := .empty } }

/-- A 4-byte write to ANCHOR_LO (R176). -/
def writeAnchorLo (v : Word) (s : State) : State := { s with hp := { s.hp with anchorLo := v } }

/-- A 4-byte write to ANCHOR_HI (R176). -/
def writeAnchorHi (v : Word) (s : State) : State := { s with hp := { s.hp with anchorHi := v } }

/-- A write of `nbytes` bytes at an offset of the window: only a 4-byte write to a register has an effect (R171). That a
4-byte write between two registers and a write of more than 4 bytes are ignored is a DESIGN CHOICE (log 16). -/
def writeWindow (offset nbytes : Nat) (v : Word) (s : State) : State :=
  if nbytes ≠ 4 then s
  else if offset = 0x00 then writeControl v s
  else if offset = 0x08 then writeAnchorLo v s
  else if offset = 0x0C then writeAnchorHi v s
  else if offset = 0x10 then writePost v s
  else if offset = 0x14 then writeRetire v s
  else if offset = 0x18 then writeFault v s
  else s

/-- POST (R100). -/
def execPost (value : Word) (s : State) : Host.Outcome State Fault Refusal :=
  whileReleased s fun s => .next (writePost value s)

/-- RETIRE (R127). -/
def execRetire (value : Word) (s : State) : Host.Outcome State Fault Refusal :=
  whileReleased s fun s => .next (writeRetire value s)

/-- FAULT write (R179). -/
def execFaultWrite (value : Word) (s : State) : Host.Outcome State Fault Refusal :=
  whileReleased s fun s => .next (writeFault value s)

/-- ANCHOR_LO write (R176). -/
def execAnchorLoWrite (value : Word) (s : State) : Host.Outcome State Fault Refusal :=
  whileReleased s fun s => .next (writeAnchorLo value s)

/-- ANCHOR_HI write (R176). -/
def execAnchorHiWrite (value : Word) (s : State) : Host.Outcome State Fault Refusal :=
  whileReleased s fun s => .next (writeAnchorHi value s)

/-- A write to STATUS, to an unused offset, or of fewer than 4 bytes (R171), or one that log 16 ignores. -/
def execRegisterWrite (offset nbytes : Nat) (value : Word) (s : State) : Host.Outcome State Fault Refusal :=
  whileReleased s fun s => .next (writeWindow offset nbytes value s)

/-! ## Register reads (R171, R177, R179, R188): no row, no side effect -/

/-- The word that STATUS reads as (R177, R188). All five fields stand at one moment, which is a DESIGN CHOICE (log 36). -/
def statusWord (s : State) : Word :=
  BitVec.ofNat 32 (packFields [(2, s.hp.dev.code), (1, if s.sc.state = .ready then 1 else 0), (1, 0),
    (3, s.eng[(0 : Ring)].state.code), (1, 0), (1, s.hp.restart.toNat),
    (1, if s.hp.fault.code = .none then 0 else 1)])

/-- The word that FAULT reads as (R179, R188). -/
def faultWord (s : State) : Word :=
  BitVec.ofNat 32 (packFields [(4, s.hp.fault.code.code), (4, 0), (3, s.hp.fault.num), (5, 0),
    (8, s.hp.fault.count)])

/-- The word that the window reads as at an offset that is a multiple of 4 (R171). -/
def windowWord (offset : Nat) (s : State) : Word :=
  if offset = 0x04 then statusWord s
  else if offset = 0x08 then s.hp.anchorLo
  else if offset = 0x0C then s.hp.anchorHi
  else if offset = 0x18 then faultWord s
  else 0

/-- A read of `n` bytes at an offset of the window: those bytes of the registers (R171). -/
def readWindow (s : State) (offset : Nat) : (n : Nat) → List Byte
  | 0 => []
  | n + 1 =>
    BitVec.ofNat 8 ((windowWord (offset - offset % 4) s).toNat / 2 ^ (8 * (offset % 4))) ::
      readWindow s (offset + 1) n

/-! ## The link -/

/-- A host read in flight has failed: HP cannot issue it any more (R182, R183). -/
def HostRead.fail (t : HostRead) : HostRead := { t with issued := false }

/-- The link or bus mastering is lost: every transfer in flight fails but the writes that have left the part. HP reports
each failure by its own row, and retries none (R182, R183; log 38). -/
def failTransfers (s : State) : State :=
  { s with
    hp := { s.hp with
      anchorRead := s.hp.anchorRead.map HostRead.fail
      writes := []
      left := s.hp.left ++ (writesGone s).map (·.num)
      out := s.hp.out ++ (writesGone s).map (·.item) }
    eng := s.eng.map (fun e => { e with fetch := e.fetch.map HostRead.fail, rd := e.rd.map HostRead.fail })
    freeIdx := s.freeIdx + 1 }

/-- A configuration write sets or clears bus master enable or MSI enable. Bus mastering that is cleared fails every transfer
in flight (R182, R183). -/
def execConfigSpaceWrite (bit : ConfigBit) (value : Bool) (s : State) : Host.Outcome State Fault Refusal :=
  whileReleased s fun s =>
    match bit with
    | .busMaster =>
      let s1 := { s with hp := { s.hp with busMaster := value } }
      .next (if value then s1 else failTransfers s1)
    | .msi => .next { s with hp := { s.hp with msi := value } }

/-- Link training ends (R182). -/
def execLinkUp (s : State) : Host.Outcome State Fault Refusal :=
  whileReleased s fun s => .next { s with hp := { s.hp with linkUp := true } }

/-- The link goes down, and every transfer in flight fails (R182, R183). -/
def execLinkDown (s : State) : Host.Outcome State Fault Refusal :=
  whileReleased s fun s => .next (failTransfers { s with hp := { s.hp with linkUp := false } })

end Sys2Proof.Machine
end

