-- ==== Sys2Proof/Machine/ReadCommands.lean ====
section
/-! DEFINITION. Machine/ReadCommands.lean: GATHER, READ SPAN and STEP with their transfers (chapter 5). -/

namespace Sys2Proof.Machine

/-- GATHER (R76). -/
def execGather (r : Ring) (s : State) : Host.Outcome State Fault Refusal :=
  whileReleased s fun s => .next (lineCommand r .gather (fun x => claimReader r x.lineIx) s)

/-- READ SPAN (R79). -/
def execReadSpan (r : Ring) (s : State) : Host.Outcome State Fault Refusal :=
  whileReleased s fun s => .next (lineCommand r .readSpan (fun x => claimReader r x.lineIx) s)

/-- STEP (R86). -/
def execStep (r : Ring) (s : State) : Host.Outcome State Fault Refusal :=
  whileReleased s fun s => .next (lineCommand r .step (fun x => claimWriter r x.lineIx) s)

/-- Ring `r`'s granted STEP: its record and its progress. -/
def stepper (r : Ring) (s : State) : Option (Record × StepCtx) :=
  match s.eng[r].exec with
  | some ⟨x, .stepping c⟩ => some (x, c)
  | _ => none

/-- Ring `r`'s granted reader: its record and its progress. -/
def readerOf (r : Ring) (s : State) : Option (Record × ReaderCtx) :=
  match s.eng[r].exec with
  | some ⟨x, .reader c⟩ => some (x, c)
  | _ => none

/-- The words of a STEP's input chunk join the inputs; after a failed result write they are discarded (R87, R94). -/
def takeInputs (r : Ring) (x : Record) (c : StepCtx) (bytes : List Byte) (s : State) : State :=
  match (s.lineOf x).cfg with
  | none => s
  | some g =>
    if c.wrFailed then s
    else s.setPhase r (.stepping { c with inputs := c.inputs ++ g.fmt.wordsOf bytes })

/-- An input chunk read of a STEP returns its data (R87, R95). Without such a read there is no such event (logs 1, 4). -/
def execStepInputReadDone (r : Ring) (bytes : List Byte) (s : State) : Host.Outcome State Fault Refusal :=
  whileReleased s fun s =>
    match stepper r s with
    | none => .next s
    | some (x, c) =>
      if readCompletes r bytes s then
        .next (orStop r (fun s => pumpStep r (takeInputs r x c bytes s)) (readOver r s))
      else .next s

/-- An input chunk read of a STEP fails: the steps whose inputs were read go on, no later one begins (R93). -/
def stepInputReadFailed (r : Ring) (s : State) : State :=
  match stepper r s with
  | none => s
  | some (_, c) =>
    if s.eng[r].rd.isNone then s
    else
      orStop r (fun s => pumpStep r (s.setPhase r (.stepping { c with rdFailed := true }))) (readOver r s)

/-- An input chunk read of a STEP is reported failed (R93). -/
def execStepInputReadFailed (r : Ring) (s : State) : Host.Outcome State Fault Refusal :=
  whileReleased s fun s => .next (stepInputReadFailed r s)

/-- The command's host write of ring `r` is over. -/
def writeOver (r : Ring) (s : State) : State := s.updEng r (fun e => { e with wr := none })

/-- A reader after a completed write: its end after the last chunk, its next chunk otherwise (R78, R81, R82). -/
def readerWritten (r : Ring) (x : Record) (c : ReaderCtx) (s : State) : State :=
  if c.done + 1 = c.chunks then
    finish r x
      (lineResult .ok x (s.lineOf x) c.offs.length (countUnfilled c.snap.fill c.offs) c.snap.seq) s
  else pumpReader r (s.setPhase r (.reader { c with done := c.done + 1 }))

/-- A STEP after a completed result write: the step is counted (R89, R90). -/
def stepWritten (r : Ring) (c : StepCtx) (s : State) : State :=
  pumpStep r (s.setPhase r (.stepping { c with
    written := c.written + 1, unfDone := c.unfDone + c.unfWr, unfWr := 0 }))

/-- A result write of a GATHER, READ SPAN or STEP is reported completed (R75, R182). Without such a write there is no such
event (logs 1, 4). -/
def execResultWriteCompleted (r : Ring) (s : State) : Host.Outcome State Fault Refusal :=
  whileReleased s fun s =>
    match s.eng[r].wr with
    | none => .next s
    | some w =>
      if s.completes w then
        match readerOf r s, stepper r s with
        | some (x, c), _ => .next (orStop r (readerWritten r x c) (writeOver r (writeReported w s)))
        | none, some (_, c) => .next (orStop r (stepWritten r c) (writeOver r (writeReported w s)))
        | none, none => .next s
      else .next s

/-- The result write that ring `r` has in flight has failed: HP could not issue it, or could not any more (R182, R183). -/
def writeHasFailed (r : Ring) (s : State) : Bool :=
  match s.eng[r].wr with
  | none => false
  | some w => !s.completes w

/-- A reader whose result write failed ends with HOST_FAULT: the results of the chunks written before are counted
(R83). -/
def readerFaults (r : Ring) (x : Record) (c : ReaderCtx) (s : State) : State :=
  finish r x
    (lineResult .hostFault x (s.lineOf x) (16 * c.done) (countUnfilled c.snap.fill (c.offs.take (16 * c.done)))
      c.snap.seq) s

/-- A result write of a GATHER or READ SPAN fails: a waiting claim is withdrawn, a granted burst is waited for
(R83). -/
def readerWriteFailed (r : Ring) (x : Record) (c : ReaderCtx) (s : State) : State :=
  let s1 := (s.setClaim r none).setPhase r (.reader { c with failed := true })
  if holdsPort r s1 then s1 else readerFaults r x c s1

/-- A result write of a GATHER or READ SPAN is reported failed (R83). Without such a write there is no such event
(logs 1, 4). -/
def execResultWriteFailed (r : Ring) (s : State) : Host.Outcome State Fault Refusal :=
  whileReleased s fun s =>
    match readerOf r s with
    | none => .next s
    | some (x, c) =>
      if writeHasFailed r s then .next (orStop r (readerWriteFailed r x c) (writeOver r s)) else .next s

/-- A result write of a STEP fails: no further commit or write, a waiting claim is withdrawn (R94). -/
def stepWriteFailed (r : Ring) (c : StepCtx) (s : State) : State :=
  finishStep r ((s.setClaim r none).setPhase r (.stepping { c with wrFailed := true }))

/-- A STEP's result write is reported failed (R94). Without such a write there is no such event (logs 1, 4). -/
def execStepResultWriteFailed (r : Ring) (s : State) : Host.Outcome State Fault Refusal :=
  whileReleased s fun s =>
    match stepper r s with
    | none => .next s
    | some (_, c) =>
      if writeHasFailed r s then .next (orStop r (stepWriteFailed r c) (writeOver r s)) else .next s

/-- A reader after its read burst: its results are there, or, after a failed write, it ends (R77, R81, R83). -/
def readerBurstOver (r : Ring) (x : Record) (c : ReaderCtx) (s : State) : State :=
  match (s.lineOf x).cfg with
  | none => s
  | some g =>
    if c.failed then readerFaults r x c s
    else
      pumpReader r (s.setPhase r (.reader { c with
        reading := false, buf := some (resultWords g c.snap.head c.snap.fill c.chunkOffs s) }))

/-- A STEP after the commit burst of a step: the next input chunk is asked for after the first step of a chunk, then
the step's taps are read (R87, R88, R92). `c` already counts the step. -/
def stepCommitted (r : Ring) (x : Record) (c : StepCtx) (s : State) : State :=
  let l := s.lineOf x
  match l.cfg with
  | none => s
  | some g =>
    let ws := filledWords g l.head l.fill l.taps
    let unf := countUnfilled l.fill l.taps
    let c1 :=
      if l.taps.isEmpty then { c with stage := .ready }
      else if ws.isEmpty then { c with stage := .writing, buf := l.taps.map (fun _ => 0), unfCur := unf }
      else { c with stage := .reading, unfCur := unf }
    let s1 := if c.committed % 16 = 1 ∧ c.rdFailed = false then issueInput r x c1 s else s.setPhase r (.stepping c1)
    if l.taps.isEmpty || ws.isEmpty then pumpStep r s1 else claimPort r (.read ws) s1

/-- A STEP after a burst: after a failed result write it ends; after a commit burst it reads its taps; after a read
burst its results are there (R88, R94). -/
def stepBurstOver (r : Ring) (x : Record) (c : StepCtx) (s : State) : State :=
  let l := s.lineOf x
  match l.cfg with
  | none => s
  | some g =>
    if c.wrFailed then finishStep r s
    else if c.stage = .committing then stepCommitted r x c s
    else
      pumpStep r (s.setPhase r (.stepping { c with
        stage := .writing, buf := resultWords g l.head l.fill l.taps s }))

end Sys2Proof.Machine
end

