-- ==== Sys2Proof/Machine/Records.lean ====
section
/-! DEFINITION. Machine/Records.lean: record fetches, and the record that is of no kind of its ring (chapter 6). -/

namespace Sys2Proof.Machine

/-- The fetch of ring `r` brings its record: it is staged, head advances, and it becomes the executing command if
the engine holds nothing (R101, R104). A halted engine and one that a reset has reached discard it (R114,
R115; log 40). -/
def fetchDone (r : Ring) (bytes : BitVec 256) (s : State) : State :=
  let e := s.eng[r]
  let s1 := s.updEng r (fun e => { e with fetch := none })
  if e.state = .halted ∨ e.stop = some .ringReset ∨ e.stop = some .restart then tryStop r s1
  else
    let x := Record.ofBytes bytes
    let s2 := s1.updEng r (fun e => { e with head := (e.head + 1) % e.size })
    if e.exec.isNone && e.state != .waitCq then tryFetch r (execStaged r x s2)
    else s2.updEng r (fun e => { e with staged := some x })

/-- A record fetch returns its data (R101). Without such a fetch in flight there is no such event (logs 1, 4). -/
def execFetchDone (r : Ring) (bytes : BitVec 256) (s : State) : Host.Outcome State Fault Refusal :=
  whileReleased s fun s =>
    match s.eng[r].fetch with
    | none => .next s
    | some t => if s.delivers t then .next (fetchDone r bytes s) else .next s

/-- The fetch of ring `r` has failed: head stays, FETCH_FAULT, halt-pending or a halt at once (R106). A halted
engine and one that a reset has reached discard the failure (R114, R115). -/
def fetchFailed (r : Ring) (s : State) : State :=
  match s.eng[r].fetch with
  | none => s
  | some _ =>
    let e := s.eng[r]
    let s1 := s.updEng r (fun e => { e with fetch := none })
    if e.state = .halted ∨ e.stop = some .ringReset ∨ e.stop = some .restart then tryStop r s1
    else haltCause r (reportFault .fetchFault r.val s1)

/-- A record fetch is reported failed (R106). -/
def execFetchFailed (r : Ring) (s : State) : Host.Outcome State Fault Refusal :=
  whileReleased s fun s => .next (fetchFailed r s)

/-- An executing record whose kind is no kind of its ring has its guard evaluated and is refused with BAD_KIND
(R55, R107, R154). -/
def execUnknownKindRecord (r : Ring) (s : State) : Host.Outcome State Fault Refusal :=
  whileReleased s fun s =>
    match freshRecord r s with
    | none => .next s
    | some x =>
      if x.kindOfRing r then .next s
      else .next (guarded r x (endCommand r (bareResult .badKind x)) s)

end Sys2Proof.Machine
end

