-- ==== Sys2Proof/Machine/StoreCommands.lean ====
section
/-! DEFINITION. Machine/StoreCommands.lean: the ends of store bursts and refresh operations, and the refresh interval
timer (chapter 2). -/

namespace Sys2Proof.Machine

/-- LU commits the words of ring `r`'s write burst together: a burst of a PUSH, or the one sample of a step (R13, R14,
R15). -/
def commitBurst (r : Ring) (m : Nat) (s : State) : State :=
  match s.eng[r].exec with
  | some ⟨x, .pushing done n⟩ => (s.updLine x.lineIx (Line.commit m)).setPhase r (.pushing (done + m) n)
  | some ⟨x, .stepping c⟩ =>
    (s.updLine x.lineIx (Line.commit m)).setPhase r
      (.stepping { c with committed := c.committed + m, inputs := c.inputs.drop m })
  | _ => s

/-- What a burst does to the store and the line (R13, R31). -/
def burstEffect (r : Ring) (b : Burst) (s : State) : State :=
  match b with
  | .write ws => commitBurst r ws.length { s with store := Memory.writeAll ws s.store }
  | .read _ => s

/-- The executing command of ring `r` goes on after its burst. -/
def afterBurst (r : Ring) (s : State) : State :=
  match s.eng[r].exec with
  | some ⟨x, .pushing done _⟩ => pushGoesOn r x done s
  | some ⟨x, .reader c⟩ => readerBurstOver r x c s
  | some ⟨x, .stepping c⟩ => stepBurstOver r x c s
  | _ => s

/-- The burst of ring `r` ends: its words are written and committed, or read; the port falls free and the arbiter
chooses; then the ring's command goes on (R31, R32; log 6). -/
def endBurst (r : Ring) (b : Burst) (s : State) : State :=
  let s1 := burstEffect r b s
  let s2 := arbitrate { s1 with sc := { s1.sc with port := .idle } }
  orStop r (afterBurst r) s2

/-- The first word a burst names that the store does not have (R22). -/
def Burst.absentWord (b : Burst) : Option Nat := b.words.find? (fun a => storeWords ≤ a)

/-- A store burst's last access ends (R31). Without a burst at the port there is no such event (log 1). -/
def execStoreBurstEnd (s : State) : Host.Outcome State Fault Refusal :=
  whileReleased s fun s =>
    match s.sc.port with
    | .burst r b =>
      match b.absentWord with
      | some a => .fault (.storeWordAbsent a)
      | none => .next (endBurst r b s)
    | _ => .next s

/-- A refresh operation ends: debt falls by 1, the arbiter chooses again (R38). -/
def refreshEnd (s : State) : State :=
  if s.sc.port = .refresh then
    arbitrate { s with sc := { s.sc with port := .idle, debt := s.sc.debt - 1 } }
  else s

/-- A refresh operation ends (R38). -/
def execRefreshEnd (s : State) : Host.Outcome State Fault Refusal :=
  whileReleased s fun s => .next (refreshEnd s)

/-- The refresh interval timer expires and begins its next interval: debt rises, or REFRESH_MISSED is reported at 8
(R36, R37). -/
def refreshExpiry (s : State) : State :=
  match s.sc.timer with
  | none => s
  | some t =>
    let s1 := s.atTime t
    let s2 := { s1 with sc := { s1.sc with timer := some (t + s.sc.code * 125) } }
    if s.sc.debt ≤ 7 then arbitrate { s2 with sc := { s2.sc with debt := s2.sc.debt + 1 } }
    else reportFault .refreshMissed 0 s2

/-- The refresh interval timer expires (R37). -/
def execRefreshTimerExpiry (s : State) : Host.Outcome State Fault Refusal :=
  whileReleased s fun s => .next (refreshExpiry s)

end Sys2Proof.Machine
end

