-- ==== Sys2Proof/Machine/Timeouts.lean ====
section
/-! DEFINITION. Machine/Timeouts.lean: a host read for which no data arrives within 10 ms of its issue (R182). -/

namespace Sys2Proof.Machine

/-- The deadline of a host read in flight, if there is such a read. -/
def readDeadline (id : ReadId) (s : State) : Option Nat :=
  match id with
  | .anchor => s.hp.anchorRead.map (·.deadline)
  | .fetch r => s.eng[r].fetch.map (·.deadline)
  | .command r => s.eng[r].rd.map (·.deadline)

/-- The read that ring `r`'s executing command has in flight is reported failed to it (R183). -/
def commandReadFailed (r : Ring) (s : State) : State :=
  match s.eng[r].exec with
  | some ⟨_, .tapRead⟩ => tapListReadFailed r s
  | some ⟨_, .pushing _ _⟩ => pushSamplesReadFailed r s
  | some ⟨_, .stepping _⟩ => stepInputReadFailed r s
  | _ => s

/-- HP reports a read as failed to its requester (R182, R183). -/
def readFailed (id : ReadId) (s : State) : State :=
  match id with
  | .anchor => anchorReadFailed s
  | .fetch r => fetchFailed r s
  | .command r => commandReadFailed r s

/-- No data has arrived for a host read within 10 ms of its issue (R182). Without such a read in flight there is no
such event (log 1). -/
def execHostReadTimeout (read : ReadId) (s : State) : Host.Outcome State Fault Refusal :=
  whileReleased s fun s =>
    match readDeadline read s with
    | none => .next s
    | some t => .next (readFailed read (s.atTime t))

end Sys2Proof.Machine
end

