-- ==== Sys2Proof/Machine/Dispatch.lean ====
section
/-! DEFINITION. Machine/Dispatch.lean: one arm per command, each one call of its meaning. -/

namespace Sys2Proof.Machine

def exec (i : Instr) (s : State) : Host.Outcome State Fault Refusal :=
  match i with
  | .powerOnReset => Sys2Proof.Machine.execPowerOnReset s
  | .start => Sys2Proof.Machine.execStart s
  | .reset => Sys2Proof.Machine.execReset s
  | .restartRing0 => Sys2Proof.Machine.execRestartRing0 s
  | .controlOtherCode code => Sys2Proof.Machine.execControlOtherCode code s
  | .post value => Sys2Proof.Machine.execPost value s
  | .retire value => Sys2Proof.Machine.execRetire value s
  | .faultWrite value => Sys2Proof.Machine.execFaultWrite value s
  | .anchorLoWrite value => Sys2Proof.Machine.execAnchorLoWrite value s
  | .anchorHiWrite value => Sys2Proof.Machine.execAnchorHiWrite value s
  | .registerWrite offset nbytes value => Sys2Proof.Machine.execRegisterWrite offset nbytes value s
  | .configSpaceWrite bit value => Sys2Proof.Machine.execConfigSpaceWrite bit value s
  | .linkUp => Sys2Proof.Machine.execLinkUp s
  | .linkDown => Sys2Proof.Machine.execLinkDown s
  | .storeReady => Sys2Proof.Machine.execStoreReady s
  | .anchorReadDone block => Sys2Proof.Machine.execAnchorReadDone block s
  | .anchorReadFailed => Sys2Proof.Machine.execAnchorReadFailed s
  | .hostReadTimeout read => Sys2Proof.Machine.execHostReadTimeout read s
  | .fetchDone r bytes => Sys2Proof.Machine.execFetchDone r bytes s
  | .fetchFailed r => Sys2Proof.Machine.execFetchFailed r s
  | .unknownKindRecord r => Sys2Proof.Machine.execUnknownKindRecord r s
  | .openLine r => Sys2Proof.Machine.execOpenLine r s
  | .closeLine r => Sys2Proof.Machine.execCloseLine r s
  | .setTaps r => Sys2Proof.Machine.execSetTaps r s
  | .tapListReadDone r bytes => Sys2Proof.Machine.execTapListReadDone r bytes s
  | .tapListReadFailed r => Sys2Proof.Machine.execTapListReadFailed r s
  | .push r => Sys2Proof.Machine.execPush r s
  | .pushSamplesReadDone r bytes => Sys2Proof.Machine.execPushSamplesReadDone r bytes s
  | .pushSamplesReadFailed r => Sys2Proof.Machine.execPushSamplesReadFailed r s
  | .clear r => Sys2Proof.Machine.execClear r s
  | .test r => Sys2Proof.Machine.execTest r s
  | .gather r => Sys2Proof.Machine.execGather r s
  | .readSpan r => Sys2Proof.Machine.execReadSpan r s
  | .step r => Sys2Proof.Machine.execStep r s
  | .stepInputReadDone r bytes => Sys2Proof.Machine.execStepInputReadDone r bytes s
  | .stepInputReadFailed r => Sys2Proof.Machine.execStepInputReadFailed r s
  | .mark r => Sys2Proof.Machine.execMark r s
  | .configureRing => Sys2Proof.Machine.execConfigureRing s
  | .configureCompletionRing => Sys2Proof.Machine.execConfigureCompletionRing s
  | .resetRing => Sys2Proof.Machine.execResetRing s
  | .configureDevice => Sys2Proof.Machine.execConfigureDevice s
  | .queryLine => Sys2Proof.Machine.execQueryLine s
  | .queryRing => Sys2Proof.Machine.execQueryRing s
  | .queryStore => Sys2Proof.Machine.execQueryStore s
  | .queryWriteDone => Sys2Proof.Machine.execQueryWriteDone s
  | .queryWriteFailed => Sys2Proof.Machine.execQueryWriteFailed s
  | .storeBurstEnd => Sys2Proof.Machine.execStoreBurstEnd s
  | .refreshEnd => Sys2Proof.Machine.execRefreshEnd s
  | .refreshTimerExpiry => Sys2Proof.Machine.execRefreshTimerExpiry s
  | .resultWriteCompleted r => Sys2Proof.Machine.execResultWriteCompleted r s
  | .resultWriteFailed r => Sys2Proof.Machine.execResultWriteFailed r s
  | .stepResultWriteFailed r => Sys2Proof.Machine.execStepResultWriteFailed r s
  | .completionWritePosted q => Sys2Proof.Machine.execCompletionWritePosted q s
  | .completionWriteFailed q => Sys2Proof.Machine.execCompletionWriteFailed q s
  | .holdoffTimerExpiry q => Sys2Proof.Machine.execHoldoffTimerExpiry q s
  | .fsyncStrobe level heldNs => Sys2Proof.Machine.execFsyncStrobe level heldNs s
  | .frameTimerExpiry => Sys2Proof.Machine.execFrameTimerExpiry s
  | .fundamentalResetAssert => Sys2Proof.Machine.execFundamentalResetAssert s

end Sys2Proof.Machine
end

