-- ==== Sys2Proof/Safety.lean ====
section
/-! DEFINITION. Safety.lean: the terms that statements about the part use: how a command begins and ends, what may
change, and the laws that every step keeps. -/

namespace Sys2Proof.Machine

/-! ## How a command begins -/

/-- The part is not held in its fundamental reset (R184). -/
def Released (s : State) : Prop := s.hp.inReset = false

/-- Ring `r` executes record `x`, whose guard has not been evaluated (R104). -/
def Executes (r : Ring) (x : Record) (s : State) : Prop := s.eng[r].exec = some ⟨x, .fresh⟩

/-- The guard of `x` is met by the flags of ring `r` (R107). -/
def GuardMet (r : Ring) (x : Record) (s : State) : Prop :=
  ∃ g, Guard.ofCode x.guardCode = some g ∧ g.met s.eng[r].lastOk s.eng[r].test = true

/-- Ring `r` executes record `x` of kind `k`, and its guard is met (R107, R109). -/
def Begins (r : Ring) (k : Kind) (x : Record) (s : State) : Prop :=
  Released s ∧ Executes r x s ∧ Kind.ofCode x.kind = some k ∧ GuardMet r x s

/-- Ring 0 executes control record `x` of kind `k`, and its guard is met (R154). -/
def BeginsControl (k : Kind) (x : Record) (s : State) : Prop := Begins 0 k x s

/-- A RESET RING of ring `r` is the next command that waits, and RE0 will carry it out: it meets a grant to `r` (R50, R162;
log 42). -/
def MeetsReset (r : Ring) (s : State) : Prop :=
  (∃ cs, s.pending = .resetRing :: cs) ∧ r ≠ 0 ∧ s.eng[(0 : Ring)].stop = none ∧
  ∃ x, BeginsControl .resetRing x s ∧ x.paramA.toNat = r.val

/-- The line that `x` names is LIVE, of the generation that `x` names (R6, steps 2, 3 and 5 of R55). -/
def NamesLive (x : Record) (s : State) : Prop :=
  x.line.toNat < 64 ∧ (s.lineOf x).state = .live ∧ (s.lineOf x).gen = x.gen

/-- Line `l` is configured as `g`, and ring `r` owns it (R7, step 4 of R55). -/
def OwnedBy (r : Ring) (g : LineCfg) (l : Line) : Prop := l.cfg = some g ∧ g.owner = r

/-- Ring `r` executes record `x` of line kind `k`; its guard is met, and steps 1 to 5 of the validation order are passed for
line `l`, configured as `g` (R55): the ring is a line ring, the line is LIVE and of the record's generation, and the ring owns
it if the kind is an owner's. -/
def Passes (r : Ring) (k : Kind) (x : Record) (g : LineCfg) (s : State) : Prop :=
  Begins r k x s ∧ r ≠ 0 ∧ NamesLive x s ∧ (s.lineOf x).cfg = some g ∧
  (k ∈ [.closeLine, .setTaps, .push, .clear, .step] → g.owner = r)

/-- The counts and ranges of step 6 for the kinds but OPEN (R56). -/
def RangesOk (k : Kind) (x : Record) (g : LineCfg) (taps : List Nat) : Prop :=
  match k with
  | .setTaps => x.count.toNat ≤ 16
  | .push => 1 ≤ x.count.toNat ∧ x.count.toNat ≤ 4096 ∧ x.count.toNat ≤ g.len
  | .test => x.paramA.toNat ≤ g.len
  | .readSpan => 1 ≤ x.count.toNat ∧ x.count.toNat ≤ 4096 ∧ x.paramA.toNat + x.count.toNat ≤ g.len
  | .step => 1 ≤ x.count.toNat ∧ x.count.toNat ≤ 1024 ∧ x.count.toNat * taps.length ≤ 16384
  | _ => True

/-- The alignment of step 7 (R57). -/
def Aligned (k : Kind) (x : Record) : Prop :=
  match k with
  | .push | .gather | .readSpan => x.addr.toNat % 4 = 0
  | .setTaps => x.count.toNat = 0 ∨ x.addr.toNat % 4 = 0
  | .step => x.addr.toNat % 4 = 0 ∧ x.paramC.toNat % 4 = 0
  | _ => True

/-- Ring `r`'s record `x` reaches the lock of its line (step 9 of R55). -/
def Claims (r : Ring) (k : Kind) (x : Record) (g : LineCfg) (s : State) : Prop :=
  Passes r k x g s ∧ RangesOk k x g (s.lineOf x).taps ∧ Aligned k x

/-- The line after `m` commits (R13, R14). -/
def Committed (m : Nat) (g : LineCfg) (l : Line) : Line :=
  { l with
    head := (l.head + m) % g.len, fill := min (l.fill + m) g.len, seq := min (l.seq + m) (2 ^ 48 - 1) }

/-- The store word that offset `d` names (R16). -/
def wordAt (g : LineCfg) (head d : Nat) : Nat := g.ext.base * 64 + (head + g.len - 1 - d) % g.len

/-- The offsets of result chunk number `i`: 16 results, fewer in the last chunk (R81). -/
def chunkOf (i : Nat) (offs : List Nat) : List Nat := (offs.drop (16 * i)).take 16

/-- The store words of the filled offsets among `offs`, in result order (R17, R77). -/
def filled (g : LineCfg) (head fill : Nat) (offs : List Nat) : List Nat :=
  (offs.filter (fun d => d < fill)).map (wordAt g head)

/-- The results of `offs`: the store word of a filled offset, zero for an unfilled one (R17). -/
def results (g : LineCfg) (head fill : Nat) (offs : List Nat) (s : State) : List Word :=
  offs.map (fun d => if d < fill then s.readWord (wordAt g head d) else 0)

/-- How many of `offs` are unfilled (R17). -/
def unfilledOf (fill : Nat) (offs : List Nat) : Nat := (offs.filter (fun d => fill ≤ d)).length

/-! ## Host transfers -/

/-- HP has taken a host write in state `s`: the write has the next number, and waits to leave behind those taken before it if
it can be issued (R182; log 38). -/
def handed (s : State) (addr : Addr) (data : List Byte) : HostPort :=
  { s.hp with
    taken := s.hp.taken + 1
    writes := s.hp.writes ++ (if s.canIssue then [{ addr := addr, data := data, num := s.hp.taken }] else []) }

/-- HP can report the write `w` as completed: it has left, or waits to leave. Any other write in flight has failed (R182;
log 38). -/
def CanComplete (w : HostWrite) (s : State) : Prop := w.num ∈ s.hp.left ∨ w ∈ s.hp.writes

/-- HP can report the read `t` as completed (R182, R183): it could be issued, the link and bus mastering have been there since,
and no more than its 10 ms have passed. -/
def CanDeliver (t : HostRead) (s : State) : Prop := t.issued = true ∧ s.now ≤ t.deadline

/-! ## Results and steps -/

/-- The chunk of results `ws` of ring `r`'s reader is written at its place in the host buffer, and the next chunk, if there
is one, is read ahead: its filled offsets are claimed, or its zeros are there at once (R77, R81). -/
def writesChunk (r : Ring) (x : Record) (g : LineCfg) (c : ReaderCtx) (ws : List Word) (s : State) : State :=
  let addr : Addr := x.addr + BitVec.ofNat 64 (16 * c.chunk * g.fmt.bytes)
  let data := g.fmt.bytesOf ws
  let next := chunkOf (c.chunk + 1) c.offs
  let words := filled g c.snap.head c.snap.fill next
  let c' := { c with chunk := c.chunk + 1, buf := none, reading := false }
  let after := fun c =>
    { s with
      eng := s.eng.set r { s.eng[r] with
        exec := some ⟨x, .reader c⟩, wr := some { addr := addr, data := data, num := s.hp.taken } }
      hp := handed s addr data }
  if next = [] then after c'
  else if words = [] then after { c' with buf := some (next.map (fun _ => 0)) }
  else
    let u := after { c' with reading := true }
    arbitrate { u with sc := { u.sc with claims := u.sc.claims.set r (some (.read words)) } }

/-- The next step of ring `r`'s STEP commits its sample, if its input is there: one store word is claimed (R87, R88). -/
def commitsNext (r : Ring) (x : Record) (g : LineCfg) (c : StepCtx) (s : State) : State :=
  match c.inputs with
  | w :: _ =>
    if c.committed < x.count.toNat then
      let u := { s with eng := s.eng.set r { s.eng[r] with
        exec := some ⟨x, .stepping { c with stage := .committing }⟩ } }
      arbitrate { u with sc := { u.sc with
        claims := u.sc.claims.set r (some (.write [(g.ext.base * 64 + (s.lineOf x).head, w)])) } }
    else s
  | [] => s

/-- The results `ws` of the current step of ring `r`'s STEP are written at their place, and the next step begins if its
input is there (R88, R89). -/
def writesStep (r : Ring) (x : Record) (g : LineCfg) (c : StepCtx) (ws : List Word) (s : State) : State :=
  let addr : Addr := x.paramC + BitVec.ofNat 64 ((c.committed - 1) * (s.lineOf x).taps.length * g.fmt.bytes)
  let data := g.fmt.bytesOf ws
  let c' := { c with stage := .ready, buf := [], unfWr := c.unfCur }
  commitsNext r x g c' { s with
    eng := s.eng.set r { s.eng[r] with
      exec := some ⟨x, .stepping c'⟩, wr := some { addr := addr, data := data, num := s.hp.taken } }
    hp := handed s addr data }

/-- The row of the opcode table that a record of kind `k` on ring `r` is. -/
def Kind.row (k : Kind) (r : Ring) : Instr :=
  match k with
  | .openLine => .openLine r
  | .closeLine => .closeLine r
  | .setTaps => .setTaps r
  | .push => .push r
  | .clear => .clear r
  | .test => .test r
  | .gather => .gather r
  | .readSpan => .readSpan r
  | .step => .step r
  | .mark => .mark r
  | .configureRing => .configureRing
  | .configureCompletionRing => .configureCompletionRing
  | .resetRing => .resetRing
  | .configureDevice => .configureDevice
  | .queryLine => .queryLine
  | .queryRing => .queryRing
  | .queryStore => .queryStore

/-- The kinds that go through steps 2 to 9 of the validation order: the line kinds but MARK (R55). -/
def Kind.namesLine : Kind → Bool
  | .openLine | .closeLine | .setTaps | .push | .clear | .test | .gather | .readSpan | .step => true
  | .mark | .configureRing | .configureCompletionRing | .resetRing | .configureDevice => false
  | .queryLine | .queryRing | .queryStore => false

/-! ## How a command ends -/

/-- `s` with the interrupt message on vector `v` sent, if messages can be: the host writes that waited have left before it, in
their order (R181, R182; log 25). -/
def MessageSent (v : Fin 5) (s : State) : State :=
  if s.canIssue ∧ s.hp.msi then
    { s with hp := { s.hp with
      writes := [], left := s.hp.left ++ s.hp.writes.map (·.num)
      out := s.hp.out ++ s.hp.writes.map (fun w => .write w.addr w.data) ++ [.message v] } }
  else s

/-- CU has taken claim `c` for completion ring `q` (R123, R120): its write is issued at once to slot tail, with the phase
and the source ring's head as they stand, if the ring is configured and not full and nothing is in flight or waiting;
otherwise the claim stands at the back of the wait queue. Nothing else of the completion rings has changed. -/
def ClaimTaken (q : CqIx) (c : Claim) (s t : State) : Prop :=
  (∀ k, k ≠ q → t.cq[k] = s.cq[k]) ∧
  ((∃ g, s.cq[q].cfg = some g ∧ s.cq[q].inflight = none ∧ s.cq[q].queue = [] ∧
      (s.cq[q].tail + 1) % g.size ≠ s.cq[q].head ∧
      (let addr := Addr.plus g.base (16 * s.cq[q].tail)
       let data := c.bytes s.cq[q].phase s.eng[c.ring].head
       t.cq[q] = { s.cq[q] with inflight := some ⟨c, { addr := addr, data := data, num := s.hp.taken }⟩ } ∧
       t.hp = handed s addr data)) ∨
    (¬ (∃ g, s.cq[q].cfg = some g ∧ s.cq[q].inflight = none ∧ s.cq[q].queue = [] ∧
        (s.cq[q].tail + 1) % g.size ≠ s.cq[q].head) ∧
      t.cq[q] = { s.cq[q] with queue := s.cq[q].queue ++ [c] } ∧ t.hp = s.hp))

/-- An engine that goes on, with nothing staged and halt-pending clear, fetches the record at its head when R101 lets it: no
fetch in flight, and a record pending. That it looks as it goes on is log 40. -/
def FetchesOn (s : State) (e u : Engine) : Prop :=
  match e.cfg with
  | none => u.fetch = e.fetch
  | some g =>
    if e.fetch = none ∧ 1 ≤ e.pendingRecords then
      u.fetch = some (s.hostRead (Addr.plus g.base (32 * e.head)) 32)
    else u.fetch = e.fetch

/-- Ring `r`'s engine goes on after a posted claim or a quiet end (R110): it halts if halt-pending is set, with owed
strobes 0 (R114, R150); it executes the staged record; it waits for a fetch, issued now if none is in flight (log 40); or it
is IDLE. -/
def GoesOn (r : Ring) (s t : State) : Prop :=
  let e := s.eng[r]
  let u := t.eng[r]
  u.cfg = e.cfg ∧ u.head = e.head ∧ u.tail = e.tail ∧ u.lastOk = e.lastOk ∧ u.test = e.test ∧
  u.rd = e.rd ∧ u.wr = e.wr ∧ u.staged = none ∧ u.haltPending = false ∧
  (if e.haltPending then
    u.state = .halted ∧ u.exec = none ∧ u.fetch = e.fetch ∧
      t.fu = { s.fu with pace := s.fu.pace.set r { s.fu.pace[r] with owed := 0 } }
  else
    t.fu = s.fu ∧ FetchesOn s e u ∧ u.stop = e.stop ∧
    match e.staged with
    | some y => u.state = .active ∧ u.exec = some ⟨y, .fresh⟩
    | none =>
      u.exec = e.exec ∧
        if e.fetch.isSome ∨ 1 ≤ e.pendingRecords then u.state = .active else u.state = .idle)

/-- From `s` to `t`, ring `r`'s executing record `x` has ended with `res` (R108, R110, R111): the outcome flag is set,
the flag test is kept; a quiet OK or SKIPPED makes no claim and the engine goes on, any other end leaves the engine in
WAIT_CQ with its claim taken by the ring's completion ring. Nothing else has changed but, at a quiet end, the owed
strobes of a ring that halts. -/
def Ended (r : Ring) (x : Record) (res : Result) (s t : State) : Prop :=
  (∀ k, k ≠ r → t.eng[k] = s.eng[k]) ∧
  t = { s with
    eng := t.eng, cq := t.cq, fu := t.fu, hp := { s.hp with taken := t.hp.taken, writes := t.hp.writes } } ∧
  (if x.quiet ∧ (res.status = .ok ∨ res.status = .skipped) then
    t.cq = s.cq ∧ t.hp = s.hp ∧
    GoesOn r
      (s.updEng r (fun e => { e with exec := none, lastOk := lastOkAfter res.status e.lastOk })) t
  else
    t.fu = s.fu ∧
    t.eng[r] = { s.eng[r] with
      exec := none, state := .waitCq, lastOk := lastOkAfter res.status s.eng[r].lastOk } ∧
    ∀ g, s.eng[r].cfg = some g →
      ClaimTaken g.cq { ring := r, notice := false, orphan := false, tag := x.tag, result := res } s t)

/-- The completion fields of a refusal or a skip that names no line state (R58, R107, R155). -/
def plain (status : Status) (x : Record) : Result :=
  { status := status, line := x.line, gen := x.gen, count := 0, unfilled := 0, seq := 0, aborted := false }

/-- The completion fields of a command about line `l`: its generation, and the low 32 bits of a sequence (R5, R12,
R58). -/
def about (status : Status) (x : Record) (l : Line) (count unfilled seq : Nat) : Result :=
  { status := status, line := x.line, gen := l.gen, count := count, unfilled := unfilled,
    seq := BitVec.ofNat 32 seq, aborted := false }

/-- From `s` to `t`, a fault with the code and number has been reported (R179, R181): it fills an empty record, with the
device interrupt on vector 4 if messages can be sent, and is counted in a full one, up to 255. Nothing else has changed but
the host writes that leave before the message (log 25). -/
def Reported (code : FaultCode) (num : Nat) (s t : State) : Prop :=
  (s.hp.fault.code = .none →
    t = MessageSent 4 { s with hp := { s.hp with fault := { code := code, num := num, count := 0 } } }) ∧
  (s.hp.fault.code ≠ .none →
    t = { s with hp := { s.hp with fault := { s.hp.fault with count := min (s.hp.fault.count + 1) 255 } } })

/-- `s` with ring `r`'s engine in HALTED: staged record, executing command and halt-pending are gone, owed strobes are 0;
configuration, head, tail, flags and the fetch in flight are kept (R114, R150). -/
def Stopped (r : Ring) (s : State) : State :=
  { s with
    eng := s.eng.set r { s.eng[r] with
      state := .halted, exec := none, staged := none, haltPending := false, stop := none, report := none }
    fu := { s.fu with pace := s.fu.pace.set r { s.fu.pace[r] with owed := 0 } } }

/-- From `s` to `t`, start-up has failed (R172): the device is FAILED, no anchor read is left, the fault is reported with
number 0. -/
def StartFails (code : FaultCode) (s t : State) : Prop :=
  Reported code 0 { s with hp := { s.hp with dev := .failed, anchorAddr := none, anchorRead := none } } t

/-- CU has examined the front claim of completion ring `q` (R124): if the ring is configured and not full and no write is
in flight, the front claim, if there is one, has left the queue and its write is issued. Nothing else has changed. -/
def Served (q : CqIx) (s t : State) : Prop :=
  match s.cq[q].cfg, s.cq[q].inflight, s.cq[q].queue with
  | some g, none, c :: cs =>
    if (s.cq[q].tail + 1) % g.size = s.cq[q].head then t = s
    else
      let addr := Addr.plus g.base (16 * s.cq[q].tail)
      let data := c.bytes s.cq[q].phase s.eng[c.ring].head
      t = { s with
        cq := s.cq.set q { s.cq[q] with
          inflight := some ⟨c, { addr := addr, data := data, num := s.hp.taken }⟩, queue := cs }
        hp := handed s addr data }
  | _, _, _ => t = s

/-- The queued readers `ks` of line `l` have been refused, one after the other, with LINE_CLOSING, count 0 and unfilled 0
(R48, R58). -/
def RefusedAll (l : Line) : (ks : List Ring) → State → State → Prop
  | [], s, t => t = s
  | k :: ks, s, t =>
    match s.eng[k].exec with
    | none => RefusedAll l ks s t
    | some y => ∃ u, Ended k y.rcd (about .lineClosing y.rcd l 0 0 l.seq) s u ∧ RefusedAll l ks u t

/-- HP has issued the first `k` of the host writes that wait, in their order (R182). -/
def issuedFirst (k : Nat) (s : State) : List LinkItem :=
  s.hp.out ++ (s.hp.writes.take k).map (fun w => .write w.addr w.data)

/-- A host read in flight that HP cannot issue any more (R182, R183). -/
def unissued (t : Option HostRead) : Option HostRead := t.map (fun t => { t with issued := false })

/-- From `s` to `t`, every transfer in flight has failed (R182, R183): every host read, and every host write that has not left.
Which of the writes that waited had left by then, the first `k` for some `k`, is the model's free value (log 38). -/
def TransfersFailed (s t : State) : Prop :=
  ∃ k : Nat,
    t = { s with
      hp := { s.hp with
        anchorRead := unissued s.hp.anchorRead
        writes := [], left := s.hp.left ++ (s.hp.writes.take k).map (·.num), out := issuedFirst k s }
      eng := t.eng, freeIdx := s.freeIdx + 1 } ∧
    ∀ r : Ring, t.eng[r] = { s.eng[r] with fetch := unissued s.eng[r].fetch, rd := unissued s.eng[r].rd }

/-- Every block but the anchor registers, the link's conditions and the store words has its value after a device reset,
as the table of R178 and the rules it names give them. -/
structure BlocksReset (t : State) : Prop where
  dev : t.hp.dev = .off
  transfers : t.hp.writes = [] ∧ t.hp.left = []
  anchor : t.hp.anchorAddr = none ∧ t.hp.anchorRead = none
  fault : t.hp.fault = { code := .none, num := 0, count := 0 }
  restart : t.hp.restart = false
  lines : ∀ l : LineIx, t.lines[l] = {
    state := .free, gen := 0, cfg := none, head := 0, fill := 0, seq := 0, taps := [],
    lock := { mode := .none, holders := [], queue := [] } }
  free : t.free = [⟨0, 131072⟩]
  sc : t.sc.state = .init ∧ t.sc.debt = 0 ∧ t.sc.code = 62 ∧ t.sc.timer = none ∧ t.sc.pacedMark = 7 ∧
    t.sc.bulkMark = 7 ∧ t.sc.port = .initialising
  claims : ∀ r : Ring, t.sc.claims[r] = none
  eng : ∀ r : Ring, t.eng[r].state = .disabled ∧ t.eng[r].cfg = none ∧ t.eng[r].head = 0 ∧ t.eng[r].tail = 0 ∧
    t.eng[r].exec = none ∧ t.eng[r].staged = none ∧ t.eng[r].lastOk = true ∧ t.eng[r].test = false ∧
    t.eng[r].haltPending = false ∧ t.eng[r].fetch = none ∧ t.eng[r].rd = none ∧ t.eng[r].wr = none ∧
    t.eng[r].stop = none
  cq : ∀ q : CqIx, t.cq[q] = {
    cfg := none, tail := 0, head := 0, phase := true, inflight := none, held := none, queue := [], unsig := 0,
    timer := none }
  fu : t.fu.source = .none ∧ t.fu.period = none ∧ t.fu.timer = none ∧ t.fu.frame = 0
  pace : ∀ r : Ring, t.fu.pace[r] = { armed := false, owed := 0, notice := none, late := 0 }

/-- The claims of completion ring `q` that satisfy `p` are withdrawn from its wait queue (R124, R130): CU examines the front of
what is left if there was one, and nothing changes if there was none. -/
def Withdrawn (q : CqIx) (p : Claim → Prop) [DecidablePred p] (s t : State) : Prop :=
  ((∃ c ∈ s.cq[q].queue, p c) →
    Served q { s with cq := s.cq.set q { s.cq[q] with queue := s.cq[q].queue.filter (fun c => ¬ p c) } } t) ∧
  ((∀ c ∈ s.cq[q].queue, ¬ p c) → t = s)

/-- The pending late notice of ring `r` is gone from CU (R130, R149): withdrawn from the wait queue of the ring's completion
ring; one that is being written goes on and belongs to no ring any more. -/
def NoticeDiscarded (r : Ring) (s t : State) : Prop :=
  match s.eng[r].cfg with
  | none => t = s
  | some g =>
    Withdrawn g.cq (fun c => c.ring = r ∧ c.notice = true)
      { s with cq := s.cq.set g.cq { s.cq[g.cq] with
        inflight := s.cq[g.cq].inflight.map (fun w =>
          if w.claim.ring = r ∧ w.claim.notice = true then { w with claim := { w.claim with orphan := true } }
          else w) } } t

/-- The Frame Unit has discarded the pacing state of ring `r` (R116, R151): its late notice is discarded, it is unarmed with
owed 0, and its late count is kept. -/
def PacingDiscarded (r : Ring) (s t : State) : Prop :=
  ∃ u, NoticeDiscarded r s u ∧
    t = { u with fu := { u.fu with
      pace := u.fu.pace.set r { u.fu.pace[r] with armed := false, owed := 0, notice := none } } }

/-- The ring reset of ring `r` (R97, R116, R151): its pacing state is discarded, and its engine takes the values of a ring
reset. -/
def RingReset (r : Ring) (s t : State) : Prop :=
  ∃ u, PacingDiscarded r s u ∧
    t = { u with eng := u.eng.set r {
      state := .disabled, cfg := none, head := 0, tail := 0, exec := none, staged := none, lastOk := true,
      test := false, haltPending := false, fetch := none, rd := none, wr := none, stop := none, report := none } }

/-- No host transfer and no store burst of ring `r`'s command is under way (R115). -/
def AtRest (r : Ring) (s : State) : Prop :=
  s.eng[r].rd = none ∧ s.eng[r].wr = none ∧ ∀ b, s.sc.port ≠ .burst r b

/-- RESTART RING 0 has ended (R136, R169, R173): RE0 is IDLE with head and tail 0, last_ok true, test false, nothing staged and
no command, its base and size kept; CQ0 is reset with its base, size, T and H kept; restart in progress is clear. -/
def Restarted (s : State) : State :=
  { s with
    hp := { s.hp with restart := false }
    eng := s.eng.set 0 {
      state := .idle, cfg := s.eng[(0 : Ring)].cfg, head := 0, tail := 0, exec := none, staged := none, lastOk := true,
      test := false, haltPending := false, fetch := none, rd := none, wr := none, stop := none, report := none }
    cq := s.cq.set 0 {
      cfg := s.cq[(0 : CqIx)].cfg, tail := 0, head := 0, phase := true, inflight := none, held := none, queue := []
      unsig := 0, timer := none } }

/-- RE0 is being restarted, and what its command or claim waited for is over (R169): the restart ends, or waits for RE0's fetch
with the command and the staged record given up (log 8). -/
def RestartGoesOn (s : State) : State :=
  if s.eng[(0 : Ring)].fetch.isSome then
    { s with eng := s.eng.set 0 { s.eng[(0 : Ring)] with state := .active, exec := none, staged := none } }
  else Restarted s

/-- Ring `r` is reset, and RE0 goes on: its RESET RING `x` ends with `res` (R160, R161), or, if RE0 is being restarted, the
restart does, with no completion (R169). -/
def ResetEnds (r : Ring) (x : Record) (res : Result) (s t : State) : Prop :=
  ∃ u, RingReset r s u ∧ (u.eng[(0 : Ring)].stop = none → Ended 0 x res u t) ∧
    (u.eng[(0 : Ring)].stop = some .restart → AtRest 0 u → u.eng[(0 : Ring)].state = .active →
      u.cq[(0 : CqIx)].inflight = none → t = RestartGoesOn u)

/-- A stop of the given cause has reached ring `r`'s engine, whose claim at the store arbiter is withdrawn (R34, R115). -/
def Told (r : Ring) (cause : StopCause) (s : State) : State :=
  { s with
    eng := s.eng.set r { s.eng[r] with stop := some cause }
    sc := { s.sc with claims := s.sc.claims.set r none } }

/-- Ring `r`'s engine has given up the executing record `y` and the staged record at a commit boundary: it has its report, with
the count committed, and the lock of `y`'s line is left with the grant step (R50, R72, R116). -/
def GivenUp (r : Ring) (y : Record) (count : Nat) (s : State) : State :=
  release r y.lineIx { s with eng := s.eng.set r { s.eng[r] with
    state := .active, exec := none, staged := none, report := some ⟨true, y.tag, y.line, y.gen, count⟩ } }

/-- The completion fields of a RESET RING (R161). -/
def resetReport (aborted : Bool) (line gen : BitVec 8) (count head : Nat) (tag : BitVec 16) : Result :=
  { status := .ok, line := line, gen := gen, count := count, unfilled := head, seq := BitVec.ofNat 32 tag.toNat,
    aborted := aborted }

/-- From `s` to `t`, ring `r`, which a stop has reached, has stopped its command `y` with `count` committed (R112, R115, R116,
R151, R160): it halts if the stop is for a failed late notice; if it is a ring reset, its pacing state is discarded and it is
reset, or waits for its fetch. -/
def StopsCommand (r : Ring) (y : Record) (count : Nat) (s t : State) : Prop :=
  let e := s.eng[r]
  let u := GivenUp r y count s
  (e.stop = some .noticeHalt → t = Stopped r u) ∧
  (e.stop = some .ringReset → e.fetch.isSome → PacingDiscarded r u t) ∧
  ∀ x : Record, e.stop = some .ringReset → e.fetch = none → s.eng[(0 : Ring)].exec = some ⟨x, .resetWait r⟩ →
    ResetEnds r x (resetReport true y.line y.gen count e.head y.tag) u t

/-! ## Records posted and lost -/

/-- The record in flight to completion ring `q` is posted (R121, R125): the tail moves, and the phase flips at the wrap. -/
def Posted (q : CqIx) (g : CqCfg) (s : State) : State :=
  let tail := (s.cq[q].tail + 1) % g.size
  { s with cq := s.cq.set q { s.cq[q] with
    inflight := none, tail := tail, phase := if tail = 0 then !s.cq[q].phase else s.cq[q].phase } }

/-- A posting to completion ring `q` is counted (R131, R132): at T the interrupt message is sent, unsignalled is 0 and the timer
is stopped; below T the timer starts with the first record unsignalled, if H is not 0. -/
def Counted (q : CqIx) (g : CqCfg) (s : State) : State :=
  let k := s.cq[q]
  if g.threshold ≤ k.unsig + 1 then
    MessageSent q.castSucc { s with cq := s.cq.set q { k with unsig := 0, timer := none } }
  else
    { s with cq := s.cq.set q { k with
      unsig := k.unsig + 1
      timer := if k.unsig = 0 ∧ g.holdoff ≠ 0 then some (s.now + g.holdoff * 8000) else k.timer } }

/-- A RETIRE held for the slot just posted is taken (R128): the head is at the tail. -/
def HeldTaken (q : CqIx) (s : State) : State :=
  let k := s.cq[q]
  { s with cq := s.cq.set q { k with held := none, head := if k.held.isSome then k.tail else k.head } }

/-- A record to completion ring `q` is lost (R126, R128): POST_FAULT is reported with the ring of its claim, then a held RETIRE
is refused with BAD_RETIRE (log 7). -/
def RecordIsLost (q : CqIx) (r : Ring) (s t : State) : Prop :=
  ∃ u, Reported .postFault r.val { s with cq := s.cq.set q { s.cq[q] with inflight := none } } u ∧
    if s.cq[q].held.isSome then
      Reported .badRetire q.val { u with cq := u.cq.set q { u.cq[q] with held := none } } t
    else t = u

/-- Completion ring `q` is set from CONFIGURE COMPLETION RING `x` (R119, R135). -/
def CqSet (q : CqIx) (x : Record) (s : State) : State :=
  { s with cq := s.cq.set q {
    cfg := some { base := x.addr, size := x.count.toNat, threshold := x.paramB.toNat, holdoff := x.paramC.toNat }
    tail := 0, head := 0, phase := true, inflight := none, held := none, queue := [], unsig := 0, timer := none } }

/-! ## What engines and completion rings never touch -/

/-- What the work of engines, locks, the store port and completion rings leaves alone: the store words, the refresh
unit, the frame source and counter, the anchor registers, the device state and the link's conditions, and the model's own
fields. -/
def Untouched (s t : State) : Prop :=
  t = { s with
    lines := t.lines, free := t.free, eng := t.eng, cq := t.cq
    sc := { s.sc with port := t.sc.port, pacedMark := t.sc.pacedMark, bulkMark := t.sc.bulkMark, claims := t.sc.claims }
    fu := { s.fu with pace := t.fu.pace }
    hp := { s.hp with
      fault := t.hp.fault, restart := t.hp.restart
      taken := t.hp.taken, writes := t.hp.writes, left := t.hp.left, out := t.hp.out } }

/-- No line's generation has changed (R5). -/
def GenerationsKept (s t : State) : Prop := ∀ l : LineIx, t.lines[l].gen = s.lines[l].gen

/-- What every work but an OPEN's leaves alone. -/
def Kept (s t : State) : Prop := Untouched s t ∧ GenerationsKept s t

/-! ## Laws that every step keeps -/

/-- The canonical form of the line store (log 10). -/
def StoreLaw (s : State) : Prop := Memory.wf s.store

/-- "refresh debt never exceeds 8" (R37); in INIT the debt is 0, the timer is stopped and the initialisation holds the
port; in READY the timer runs and it does not (R36, R39); the code is 8 to 255 (R36). -/
def RefreshLaw (s : State) : Prop :=
  s.sc.debt ≤ 8 ∧ 8 ≤ s.sc.code ∧ s.sc.code ≤ 255 ∧
  match s.sc.state with
  | .init => s.sc.debt = 0 ∧ s.sc.timer = none ∧ s.sc.port = .initialising
  | .ready => s.sc.timer.isSome ∧ s.sc.port ≠ .initialising

/-- "a line lock is held either by exactly one writer with no readers, by one or more readers, or by nobody" (R40). -/
def Lock.Lawful (k : Lock) : Prop :=
  match k.mode with
  | .none => k.holders = []
  | .write => ∃ r, k.holders = [r]
  | .read => k.holders ≠ []

/-- What R1, R5, R9, R11, R12 and R18 say of one line record between two steps. -/
def Line.Lawful (l : Line) : Prop :=
  l.lock.Lawful ∧
  match l.cfg with
  | none => l = .freeRecord l.gen
  | some g =>
    l.state ≠ .free ∧ l.gen ≠ 0 ∧ 16 ≤ g.len ∧ g.len ≤ 4194304 ∧ g.ext.count = (g.len + 63) / 64 ∧
    l.head < g.len ∧ l.fill ≤ g.len ∧ (l.fill < g.len → l.head = l.fill) ∧ l.seq < 2 ^ 48 ∧
    ∀ d ∈ l.taps, d < g.len

/-- Every line record is lawful. -/
def LineLaw (s : State) : Prop := ∀ l : LineIx, s.lines[l].Lawful

/-- The extents of the lines that are not FREE, in the order of their indices (R24). -/
def State.held (s : State) : List Extent := s.lines.toList.filterMap (fun l => l.cfg.map (·.ext))

/-- Two extents share no granule. -/
def Extent.apart (a b : Extent) : Prop := a.base + a.count ≤ b.base ∨ b.base + b.count ≤ a.base

/-- The free-extent list is in ascending base order, and no two of its entries overlap or touch (R23). -/
def FreeListLaw (es : List Extent) : Prop :=
  es.Pairwise (fun a b => a.base + a.count < b.base) ∧ ∀ e ∈ es, 1 ≤ e.count

/-- The granules of the extents of all lines that are not FREE and of all free-extent entries sum to 131,072, and no two
of these regions overlap (R24); the free-extent list keeps its law (R23), and the lines theirs. -/
def AccountingLaw (s : State) : Prop :=
  LineLaw s ∧ FreeListLaw s.free ∧
  (s.held ++ s.free).Pairwise Extent.apart ∧
  (∀ e ∈ s.held ++ s.free, e.base + e.count ≤ 131072) ∧
  ((s.held ++ s.free).map (·.count)).sum = 131072

/-- "the owed-strobe count of a paced ring never exceeds 3, and is 0 for every bulk, unarmed, DISABLED or HALTED ring"
(R141), for the rings 1 to 7. -/
def OwedLaw (s : State) : Prop :=
  ∀ r : Ring, r ≠ 0 →
    s.fu.pace[r].owed ≤ 3 ∧
    (s.classOf r ≠ some .paced ∨ s.fu.pace[r].armed = false ∨ s.eng[r].state = .disabled ∨ s.eng[r].state = .halted →
      s.fu.pace[r].owed = 0)

/-- What HP holds of host writes (R182): those that wait to leave stand in the order of their numbers, behind those that have
left; none waits while the link is down or bus mastering is disabled. -/
def LinkLaw (s : State) : Prop :=
  s.hp.writes.Pairwise (fun v w => v.num < w.num) ∧ s.hp.left.Nodup ∧
  (∀ w ∈ s.hp.writes, w.num < s.hp.taken) ∧
  (∀ n ∈ s.hp.left, n < s.hp.taken ∧ ∀ w ∈ s.hp.writes, n < w.num) ∧
  (s.canIssue = false → s.hp.writes = [])

/-- A completion ring (R122, R128, R131, R132): an unconfigured one has no write in flight and no held RETIRE; of a configured
one "the number of posted and unretired records in a completion ring never exceeds its size minus one", the write in flight
goes to a slot that is not the host's head, unsignalled is below the threshold, the timer runs only with a record unsignalled,
and a RETIRE is held only while a write is in flight. -/
def Cq.Lawful (c : Cq) : Prop :=
  match c.cfg with
  | none => c.inflight = none ∧ c.held = none
  | some g =>
    16 ≤ g.size ∧ 1 ≤ g.threshold ∧ c.tail < g.size ∧ c.head < g.size ∧
    (c.tail + g.size - c.head) % g.size ≤ g.size - 1 ∧
    (c.inflight.isSome → (c.tail + 1) % g.size ≠ c.head) ∧
    c.unsig < g.threshold ∧ (c.timer.isSome → 1 ≤ c.unsig) ∧ (c.held.isSome → c.inflight.isSome)

/-- Every completion ring is lawful, and a CONFIGURE COMPLETION RING that waits has passed its checks of size and T (R158). -/
def CqLaw (s : State) : Prop :=
  (∀ q : CqIx, s.cq[q].Lawful) ∧
  ∀ x : Record, s.eng[(0 : Ring)].exec = some ⟨x, .cqWait⟩ → 16 ≤ x.count.toNat ∧ 1 ≤ x.paramB.toNat

/-- The ring order law of R104, with what the states of 6.3 mean: a command executes only in ACTIVE, WAIT_LOCK or WAIT_FRAME,
and in WAIT_FRAME it is a MARK that waits; a record is staged only behind a command or its claim, with no fetch in flight; a
DISABLED or IDLE engine has no fetch in flight, and a HALTED one is not halt-pending; head and tail are slots of the ring, and
in IDLE no record is pending. -/
def Engine.Lawful (e : Engine) : Prop :=
  (e.exec.isSome → e.state = .active ∨ e.state = .waitLock ∨ e.state = .waitFrame) ∧
  (e.state = .waitFrame → ∃ x, e.exec = some ⟨x, .waitFrame⟩) ∧
  (e.staged.isSome → e.fetch = none ∧ (e.exec.isSome ∨ e.state = .waitCq)) ∧
  (e.state = .disabled ∨ e.state = .idle → e.fetch = none) ∧
  (e.state = .halted → e.haltPending = false) ∧
  ∀ g, e.cfg = some g → 16 ≤ g.size ∧ e.head < g.size ∧ e.tail < g.size ∧ (e.state = .idle → e.head = e.tail)

/-- A command whose lock has been granted and that has not released it (R41). -/
def Phase.holdsLock : Phase → Prop
  | .granted | .tapRead | .pushing _ _ | .reader _ | .stepping _ => True
  | .fresh | .waitLock | .waitClose _ | .waitFrame | .cqWait | .resetWait _ | .querying _ => False

/-- Ring `r` is a line ring that executes a record of line `l` whose kind and progress are as `p` says. -/
def OnLine (r : Ring) (l : LineIx) (p : Option Kind → Phase → Prop) (s : State) : Prop :=
  r ≠ 0 ∧ ∃ x ph, s.eng[r].exec = some ⟨x, ph⟩ ∧ x.lineIx = l ∧ p (Kind.ofCode x.kind) ph

/-- The second half of the lock law of R40: each ring is at most once a holder or a waiter of a lock, and then it executes a
record of that line; a holder's command has been granted, a waiter's waits as the kind of its entry says (R41, R42, R43,
R48). -/
def RingsAtLock (l : LineIx) (s : State) : Prop :=
  let k := s.lines[l].lock
  (k.holders ++ k.queue.map (·.ring)).Nodup ∧
  (∀ r ∈ k.holders, OnLine r l (fun _ p => p.holdsLock) s) ∧
  ∀ w ∈ k.queue, OnLine w.ring l (fun kind p =>
    match w.kind with
    | .reader => p = .waitLock ∧ (kind = some .gather ∨ kind = some .readSpan)
    | .writer => p = .waitLock ∧ (kind = some .push ∨ kind = some .setTaps ∨ kind = some .clear ∨ kind = some .step)
    | .close => ∃ q, p = .waitClose q) s

/-- A tap list holds at most 16 offsets (R18): that of every line, and that of every SET TAPS which waits or reads. -/
def TapLaw (s : State) : Prop :=
  (∀ l : LineIx, s.lines[l].taps.length ≤ 16) ∧
  ∀ (r : Ring) (x : Record),
    (s.eng[r].exec = some ⟨x, .waitLock⟩ → Kind.ofCode x.kind = some .setTaps → x.count.toNat ≤ 16) ∧
    (s.eng[r].exec = some ⟨x, .tapRead⟩ → ∀ t, s.eng[r].rd = some t → t.len ≤ 64)

/-- The engines, the rings at the locks, and the tap lists are lawful together. -/
def RingLaw (s : State) : Prop :=
  (∀ r : Ring, s.eng[r].Lawful) ∧ (∀ l : LineIx, RingsAtLock l s) ∧ TapLaw s

/-- The fault record is empty, or holds a code, a number below 8 and a count below 256 (10.7). -/
def FaultLaw (s : State) : Prop :=
  s.hp.fault.num < 8 ∧ s.hp.fault.count < 256 ∧ (s.hp.fault.code = .none → s.hp.fault = .empty)

end Sys2Proof.Machine
end

