-- ==== Sys2Proof/WellFormed.lean ====
section
/-! DEFINITION. WellFormed.lean: which commands are forms of their row. The widths of words, rings and
indices are in the types; here stand the checks that types do not make. -/

namespace Sys2Proof

/-- Line kinds run on line rings 1 to 7 (R55). -/
def isLineRing (r : Ring) : Bool := r != 0

/-- A PUSH burst or STEP input chunk is 1 to 16 samples of 2 to 4 bytes (R65, R87). -/
def isSampleData (bytes : List Byte) : Bool := 2 ≤ bytes.length && bytes.length ≤ 64

/-- A tap list is 1 to 16 offsets of 4 bytes each (R54, R56, R63). -/
def isTapData (bytes : List Byte) : Bool :=
  bytes.length % 4 == 0 && 4 ≤ bytes.length && bytes.length ≤ 64

/-- Is the command a form of its row? -/
def Instr.wf : Instr → Bool
  -- RESET is taken in every device state, so a write of it is never of this row (R173).
  | .controlOtherCode code => code != 2#32
  -- STATUS, an unused offset, or fewer than 4 bytes (R171).
  | .registerWrite offset nbytes _ =>
    1 ≤ nbytes && nbytes ≤ 4 && offset + nbytes ≤ 4096 &&
      (nbytes < 4 || offset == 0x04 || 0x1C ≤ offset)
  | .hostReadTimeout (.command r) => isLineRing r
  | .openLine r | .closeLine r | .setTaps r | .push r | .clear r | .test r => isLineRing r
  | .gather r | .readSpan r | .step r | .mark r => isLineRing r
  | .tapListReadDone r bytes => isLineRing r && isTapData bytes
  | .tapListReadFailed r | .pushSamplesReadFailed r | .stepInputReadFailed r => isLineRing r
  | .pushSamplesReadDone r bytes => isLineRing r && isSampleData bytes
  | .stepInputReadDone r bytes => isLineRing r && isSampleData bytes
  | .resultWriteCompleted r | .resultWriteFailed r | .stepResultWriteFailed r => isLineRing r
  | .powerOnReset | .start | .reset | .restartRing0 | .post _ | .retire _ | .faultWrite _ => true
  | .anchorLoWrite _ | .anchorHiWrite _ | .configSpaceWrite _ _ | .linkUp | .linkDown => true
  | .storeReady | .anchorReadDone _ | .anchorReadFailed | .hostReadTimeout .anchor => true
  | .hostReadTimeout (.fetch _) | .fetchDone _ _ | .fetchFailed _ | .unknownKindRecord _ => true
  | .configureRing | .configureCompletionRing | .resetRing | .configureDevice => true
  | .queryLine | .queryRing | .queryStore | .queryWriteDone | .queryWriteFailed => true
  | .storeBurstEnd | .refreshEnd | .refreshTimerExpiry => true
  | .completionWritePosted _ | .completionWriteFailed _ | .holdoffTimerExpiry _ => true
  | .fsyncStrobe _ _ | .frameTimerExpiry | .fundamentalResetAssert => true

end Sys2Proof
end

