-- ==== Sys2Proof/Certificates/Slice0/Obligations.lean ====
section
/-! DEFINITION. Certificates/Slice0/Obligations.lean: the statements about the part. -/

open Sys2Proof Sys2Proof.Machine

/-! ## The queue and resets -/

/-- A step takes the command at the front of the queue and carries it out with the rest of the queue. That an empty queue
idles for one nanosecond of model time is the model's choice (log 2). -/
def Obligations.StepTakesFront : Prop :=
  (∀ (c : Instr) (cs : List Instr) (s : State), s.pending = c :: cs →
    step s = exec c { s with pending := cs }) ∧
  ∀ s : State, s.pending = [] → step s = .next { s with now := s.now + 1 }

/-- The fundamental reset input (R178, R184). FUNDAMENTAL_RESET_ASSERT holds the part in reset; while it is held no command but
POWER_ON_RESET has an effect, save that the level of the FSYNC pin is the pin's. At POWER_ON_RESET every block has its value
of the table of R178, the anchor registers are 0, the three conditions of the link are clear and the store content is
unknown. That the assertion keeps every value until the release (log 12), that an unknown word is a free value of this
power-on (log 10), and which of the host writes that waited have left (log 38), are the model's choice. -/
def Obligations.FundamentalReset : Prop :=
  (∀ s : State, exec .fundamentalResetAssert s = .next { s with hp := { s.hp with inReset := true } }) ∧
  (∀ s : State, ¬ Released s →
    (∀ (level : Bool) (heldNs : Held),
      exec (.fsyncStrobe level heldNs) s = .next { s with fu := { s.fu with fsync := level } }) ∧
    ∀ c : Instr, c ≠ .powerOnReset → (∀ level heldNs, c ≠ .fsyncStrobe level heldNs) →
      exec c s = .next s) ∧
  ∀ s : State, ∃ t, exec .powerOnReset s = .next t ∧ BlocksReset t ∧ Released t ∧
    t.hp.anchorLo = 0 ∧ t.hp.anchorHi = 0 ∧
    t.hp.linkUp = false ∧ t.hp.busMaster = false ∧ t.hp.msi = false ∧
    (∀ a, t.readWord a = Config.unknownStoreWord (s.epoch + 1) a) ∧
    t.fu.fsync = s.fu.fsync ∧ (∃ k, t.hp.out = issuedFirst k s) ∧ t.now = s.now ∧ t.pending = s.pending

/-- CONTROL RESET in any device state: every block as the table of R178 gives it; the anchor registers and the conditions
of the link are kept; every store word is kept but the words of a write burst in progress, which may have been written. Of the
host writes that waited to leave, the first ones, none or some, have left (log 38). -/
def Obligations.ControlResetKeeps : Prop :=
  ∀ s : State, Released s → ∃ t, exec .reset s = .next t ∧ BlocksReset t ∧
    (∃ k, t.hp = { s.hp with
      dev := .off, anchorAddr := none, anchorRead := none, fault := .empty, restart := false
      writes := [], left := [], out := issuedFirst k s }) ∧
    (∀ a, t.readWord a = s.readWord a ∨
      ∃ r ws w, s.sc.port = .burst r (.write ws) ∧ (a, w) ∈ ws ∧ t.readWord a = w) ∧
    t.fu.fsync = s.fu.fsync ∧ t.now = s.now ∧ t.epoch = s.epoch ∧ t.pending = s.pending

/-- The part right after a power-on reset has the values the spec gives (R178) and meets the laws that every step keeps.
The values of the model's own fields are its choice (log 14). -/
def Obligations.ResetStateMeetsLaws : Prop :=
  BlocksReset State.reset ∧ Released State.reset ∧
  State.reset.hp.anchorLo = 0 ∧ State.reset.hp.anchorHi = 0 ∧
  State.reset.hp.linkUp = false ∧ State.reset.hp.busMaster = false ∧ State.reset.hp.msi = false ∧
  StoreLaw State.reset ∧ RefreshLaw State.reset ∧ AccountingLaw State.reset ∧ OwedLaw State.reset ∧
  FaultLaw State.reset ∧ LinkLaw State.reset ∧ CqLaw State.reset ∧ RingLaw State.reset

/-! ## The Host Port: start-up, registers, the link -/

/-- CONTROL START taken in OFF (R173, R174): the device is STARTING, the anchor address is taken from ANCHOR_HI and
ANCHOR_LO; with the store not READY, HP waits; with the store READY, an address that is no multiple of 64 fails the start
with BAD_ANCHOR and number 0, and any other is read, 32 bytes in one host read. The time at which that read fails for want of
data is on the model's clock (log 2). -/
def Obligations.StartTakesAnchorAddress : Prop :=
  ∀ s : State, Released s → s.hp.dev = .off →
    ∃ t, exec .start s = .next t ∧
      let a : Addr := s.hp.anchorHi ++ s.hp.anchorLo
      (s.sc.state = .init → t = { s with hp := { s.hp with dev := .starting, anchorAddr := some a } }) ∧
      (s.sc.state = .ready → a.toNat % 64 = 0 →
        t = { s with hp := { s.hp with
          dev := .starting
          anchorAddr := some a
          anchorRead := some { addr := a, len := 32, issued := s.canIssue, deadline := s.now + 10000000 } } }) ∧
      (s.sc.state = .ready → a.toNat % 64 ≠ 0 → StartFails .badAnchor s t)

/-- What HP ignores (R171, R172, R173): a START not written in OFF, a RESTART RING 0 not written in RUNNING, a code that is
no command, and a write to STATUS, to an unused offset or of fewer than 4 bytes. That a 4-byte write at an offset that is
no register's and a write of more than 4 bytes are ignored too is the model's choice (log 16). -/
def Obligations.IgnoredRegisterWrites : Prop :=
  ∀ s : State, Released s →
    (s.hp.dev ≠ .off → exec .start s = .next s ∧ exec (.controlOtherCode 1#32) s = .next s) ∧
    (s.hp.dev ≠ .running → exec .restartRing0 s = .next s ∧ exec (.controlOtherCode 3#32) s = .next s) ∧
    (∀ code : Word, code ≠ 1#32 → code ≠ 2#32 → code ≠ 3#32 → exec (.controlOtherCode code) s = .next s) ∧
    ∀ (offset nbytes : Nat) (v : Word),
      nbytes < 4 ∨ 4 < nbytes ∨ offset = 0x04 ∨ 0x1C ≤ offset ∨ offset % 4 ≠ 0 →
        exec (.registerWrite offset nbytes v) s = .next s

/-- STORE_READY (R39, R174): SC is READY, the refresh timer runs with the refresh code, the port is free and the arbiter
chooses; a START that waits goes on, with the anchor read or with BAD_ANCHOR. The timer's first expiry and the time at which
the read fails for want of data are on the model's clock (log 2). -/
def Obligations.StoreReadyGoesOn : Prop :=
  ∀ s : State, Released s → s.sc.state = .init →
    ∃ t, exec .storeReady s = .next t ∧
      let u := arbitrate { s with sc := { s.sc with
        state := .ready, port := .idle, timer := some (s.now + s.sc.code * 125) } }
      (s.hp.dev ≠ .starting → t = u) ∧
      ∀ a : Addr, s.hp.dev = .starting → s.hp.anchorAddr = some a →
        (a.toNat % 64 = 0 →
          t = { u with hp := { s.hp with
            anchorRead := some { addr := a, len := 32, issued := s.canIssue, deadline := s.now + 10000000 } } }) ∧
        (a.toNat % 64 ≠ 0 → StartFails .badAnchor u t)

/-- The end of the anchor read (R172, R175, R188): with all six values valid, RE0 and CQ0 are configured from the block and the
device is RUNNING; with a value that is not, the device is FAILED with BAD_ANCHOR, number 0, and nothing is configured; a
failed read leaves it FAILED with ANCHOR_FAULT, number 0. Data comes only within the 10 ms of the read and with the link and
bus mastering kept (R182); the end of the 10 ms is on the model's clock (log 2). -/
def Obligations.AnchorReadEnds : Prop :=
  ∀ (s : State) (rd : HostRead), Released s → s.hp.anchorRead = some rd →
    (∃ t, exec .anchorReadFailed s = .next t ∧ StartFails .anchorFault s t) ∧
    ∀ block : BitVec 256, CanDeliver rd s →
    ∃ t, exec (.anchorReadDone block) s = .next t ∧
      let rbase : Addr := block.extractLsb' 0 64
      let rsize := (block.extractLsb' 64 32).toNat
      let cbase : Addr := block.extractLsb' 128 64
      let csize := (block.extractLsb' 192 32).toNat
      let T := (block.extractLsb' 224 8).toNat
      let H := (block.extractLsb' 232 8).toNat
      let sizes := [16, 32, 64, 128, 256, 512, 1024, 2048, 4096]
      let valid := rbase.toNat % 64 = 0 ∧ rsize ∈ sizes ∧ cbase.toNat % 64 = 0 ∧ csize ∈ sizes ∧ 1 ≤ T
      (valid →
        t = { s with
          hp := { s.hp with dev := .running, anchorAddr := none, anchorRead := none }
          eng := s.eng.set 0 { Engine.resetValue with
            state := .idle, cfg := some { base := rbase, size := rsize, cls := none, cq := 0 } }
          cq := s.cq.set 0 {
            cfg := some { base := cbase, size := csize, threshold := T, holdoff := H }
            tail := 0, head := 0, phase := true, inflight := none, held := none, queue := [], unsig := 0,
            timer := none } }) ∧
      (¬ valid → StartFails .badAnchor s t)

/-- HOST_READ_TIMEOUT reports the read failed for which no data arrived within 10 ms (R182, R183): what the row of its failure
does, at the time at which the 10 ms are over. That time stands on the model's clock (log 2). -/
def Obligations.TimeoutIsAFailedRead : Prop :=
  ∀ (s : State) (r : Ring) (rd : HostRead), Released s →
    let u := { s with now := max s.now rd.deadline }
    (s.hp.anchorRead = some rd → ∃ t, exec (.hostReadTimeout .anchor) s = .next t ∧ exec .anchorReadFailed u = .next t) ∧
    (s.eng[r].fetch = some rd → ∃ t, exec (.hostReadTimeout (.fetch r)) s = .next t ∧ exec (.fetchFailed r) u = .next t) ∧
    (s.eng[r].rd = some rd → ∀ x : Exec, s.eng[r].exec = some x →
      ∃ t, exec (.hostReadTimeout (.command r)) s = .next t ∧
        match x.phase with
        | .tapRead => exec (.tapListReadFailed r) u = .next t
        | .pushing _ _ => exec (.pushSamplesReadFailed r) u = .next t
        | .stepping _ => exec (.stepInputReadFailed r) u = .next t
        | _ => t = u)

/-- RESTART RING 0 (R115, R136, R168, R169, R173). Taken in RUNNING: one that is in progress is joined; otherwise RE0 stops at
its commit boundary. With no command, or one whose guard is not evaluated, and nothing in flight, or with its claim in CQ0's
wait queue, the restart ends at once. With a claim being written, a query's write in flight, or a wait for a completion ring or
a ring, nothing changes but that RE0 is told; a fetch in flight is waited for with the claim withdrawn and the command whose
guard is not evaluated and the staged record discarded. The restart ends when what it waited for does: a discarded fetch, a
query's write, the record of ring 0, which is counted or reported as POST_FAULT before, the configuration of the completion
ring, the stop of the target ring; if RE0's fetch is then still in flight, RE0 has given up its command and waits for the fetch
alone. The other ways in which a target ring stops stand in StopsAtBoundary, RecordPosted and RecordLost. That CQ0 is reset
after the report of ring 0's record has been taken whole, and POST_FAULT before a refused RETIRE, is log 7; that RE0 gives up
its command or claim, and is shown ACTIVE, before the end of a fetch is log 8; that a write leaves no later than its report is
log 38. -/
def Obligations.RestartRing0Restarts : Prop :=
  (∀ s : State, Released s → s.hp.dev = .running →
    (s.hp.restart = true → exec .restartRing0 s = .next s) ∧
    (s.hp.restart = false →
      let e := s.eng[(0 : Ring)]
      let k := s.cq[(0 : CqIx)]
      let told := Told 0 .restart { s with hp := { s.hp with restart := true } }
      let stops := fun state => { told with eng := told.eng.set 0 { e with
        stop := some .restart, state := state, exec := none, staged := none } }
      let waits := AtRest 0 s ∧ e.exec = none ∧ e.state = .waitCq ∧ k.inflight = none ∧
        (∃ g, e.cfg = some g ∧ g.cq = 0) ∧ ∀ c ∈ k.queue, c.ring = 0 ∧ c.notice = false
      (AtRest 0 s → e.exec = none → e.state ≠ .waitCq → e.fetch = none → k.inflight = none →
        exec .restartRing0 s = .next (Restarted told)) ∧
      (AtRest 0 s → e.exec = none → e.state ≠ .waitCq → e.fetch.isSome →
        exec .restartRing0 s = .next (stops e.state)) ∧
      (∀ y : Record, AtRest 0 s → e.exec = some ⟨y, .fresh⟩ → e.state = .active →
        (e.fetch = none → k.inflight = none → exec .restartRing0 s = .next (Restarted told)) ∧
        (e.fetch.isSome → exec .restartRing0 s = .next (stops .active))) ∧
      (waits → e.fetch = none → exec .restartRing0 s = .next (Restarted told)) ∧
      (waits → e.fetch.isSome →
        exec .restartRing0 s = .next { stops .active with cq := s.cq.set 0 { k with queue := [] } }) ∧
      (∀ (g : RingCfg) (w : CqWrite), e.state = .waitCq → e.cfg = some g → g.cq = 0 → k.inflight = some w →
        w.claim.ring = 0 → w.claim.notice = false → exec .restartRing0 s = .next told) ∧
      (e.wr.isSome → exec .restartRing0 s = .next told) ∧
      ∀ y : Record, (e.exec = some ⟨y, .cqWait⟩ ∨ ∃ r, e.exec = some ⟨y, .resetWait r⟩) →
        exec .restartRing0 s = .next told)) ∧
  ∀ s : State, Released s → s.eng[(0 : Ring)].stop = some .restart →
    let e := s.eng[(0 : Ring)]
    let k := s.cq[(0 : CqIx)]
    let heldIsNext := fun (q : CqIx) (g : CqCfg) =>
      s.cq[q].held = none ∨ s.cq[q].held = some ((s.cq[q].tail + 1) % g.size)
    (∀ rd : HostRead, AtRest 0 s → e.exec = none → e.state ≠ .waitCq → k.inflight = none → e.fetch = some rd →
      (∀ b, CanDeliver rd s → exec (.fetchDone 0 b) s = .next (Restarted s)) ∧
      exec (.fetchFailed 0) s = .next (Restarted s)) ∧
    (∀ (y : Record) (res : Result) (w : HostWrite), e.exec = some ⟨y, .querying res⟩ → e.state = .active → e.rd = none →
      (∀ b, s.sc.port ≠ .burst 0 b) → k.inflight = none → e.wr = some w →
      let u := { s with eng := s.eng.set 0 { e with wr := none } }
      (CanComplete w s → exec .queryWriteDone s = .next (RestartGoesOn { writeReported w s with eng := u.eng })) ∧
      (¬ CanComplete w s → exec .queryWriteFailed s = .next (RestartGoesOn u))) ∧
    (∀ (g0 : RingCfg) (g : CqCfg) (c : Claim) (w : HostWrite), AtRest 0 s → e.exec = none → e.state = .waitCq →
      e.cfg = some g0 → g0.cq = 0 → k.cfg = some g → 1 ≤ g.size → k.inflight = some ⟨c, w⟩ →
      c.ring = 0 → c.notice = false → k.queue = [] → heldIsNext 0 g →
      (CanComplete w s → exec (.completionWritePosted 0) s =
        .next (RestartGoesOn (HeldTaken 0 (Counted 0 g (Posted 0 g (writeReported w s)))))) ∧
      (¬ CanComplete w s →
        ∃ u, exec (.completionWriteFailed 0) s = .next (RestartGoesOn u) ∧ RecordIsLost 0 0 s u)) ∧
    (∀ (x : Record) (q : CqIx) (g : CqCfg) (c : Claim) (w : HostWrite), AtRest 0 s → e.exec = some ⟨x, .cqWait⟩ →
      e.state = .active → k.inflight = none → q ≠ 0 → x.cqA = q → s.cq[q].cfg = some g → 1 ≤ g.size →
      s.cq[q].inflight = some ⟨c, w⟩ → c.notice = true → c.orphan = true → s.cq[q].queue = [] → heldIsNext q g →
      (CanComplete w s →
        exec (.completionWritePosted q) s = .next (RestartGoesOn (CqSet q x (Counted q g (writeReported w s))))) ∧
      (¬ CanComplete w s →
        ∃ u, exec (.completionWriteFailed q) s = .next (RestartGoesOn (CqSet q x u)) ∧ RecordIsLost q c.ring s u)) ∧
    ∀ (x : Record) (r : Ring) (rd : HostRead), AtRest 0 s → e.exec = some ⟨x, .resetWait r⟩ → e.state = .active →
      k.inflight = none → r ≠ 0 → (∀ g, s.eng[r].cfg = some g → g.cq ≠ 0) → AtRest r s →
      s.eng[r].exec = none → s.eng[r].state ≠ .waitCq → s.eng[r].stop = some .ringReset → s.eng[r].fetch = some rd →
      (∀ b, CanDeliver rd s →
        ∃ u, exec (.fetchDone r b) s = .next (RestartGoesOn u) ∧
          RingReset r { s with eng := s.eng.set r { s.eng[r] with fetch := none } } u) ∧
      ∃ u, exec (.fetchFailed r) s = .next (RestartGoesOn u) ∧
        RingReset r { s with eng := s.eng.set r { s.eng[r] with fetch := none } } u

/-- The writes that set a register or a condition, and what the link does to host writes (R171, R176, R179, R182, R183): FAULT
empties the fault record, ANCHOR_LO and ANCHOR_HI hold what was written, in any device state; bus master enable, MSI enable and
link up are set and cleared by their events, and the loss of the link or of bus mastering fails every transfer in flight; nothing
else changes. A host write that is reported completed has left the part, with every write that HP took before it, in the order
in which HP took them; the writes that had left by a loss of the link are a free value (log 38). -/
def Obligations.RegisterAndLinkWrites : Prop :=
  (∀ s : State, Released s →
    (∀ v : Word,
      exec (.faultWrite v) s =
        .next { s with hp := { s.hp with fault := { code := .none, num := 0, count := 0 } } } ∧
      exec (.anchorLoWrite v) s = .next { s with hp := { s.hp with anchorLo := v } } ∧
      exec (.anchorHiWrite v) s = .next { s with hp := { s.hp with anchorHi := v } }) ∧
    exec (.configSpaceWrite .busMaster true) s = .next { s with hp := { s.hp with busMaster := true } } ∧
    (∀ v : Bool, exec (.configSpaceWrite .msi v) s = .next { s with hp := { s.hp with msi := v } }) ∧
    exec .linkUp s = .next { s with hp := { s.hp with linkUp := true } } ∧
    (∃ t, exec (.configSpaceWrite .busMaster false) s = .next t ∧
      TransfersFailed { s with hp := { s.hp with busMaster := false } } t) ∧
    ∃ t, exec .linkDown s = .next t ∧ TransfersFailed { s with hp := { s.hp with linkUp := false } } t) ∧
  ∀ (s : State) (w : HostWrite),
    (w.num ∈ s.hp.left →
      writeReported w s = { s with hp := { s.hp with left := s.hp.left.erase w.num } }) ∧
    ∀ before after : List HostWrite, w.num ∉ s.hp.left → s.hp.writes = before ++ w :: after →
      (∀ v ∈ before, v.num < w.num) → (∀ v ∈ after, w.num < v.num) →
      writeReported w s = { s with hp := { s.hp with
        writes := after
        left := s.hp.left ++ before.map (·.num)
        out := s.hp.out ++ (before ++ [w]).map (fun v => .write v.addr v.data) } }

/-- The registers as they read (R171, R176, R177, R179, R188): STATUS gives the device state, store ready, the state of ring 0,
restart in progress and fault present in their bits; FAULT gives code, number and count; the anchor registers give what they
hold; CONTROL, POST, RETIRE and the offsets from 0x1C on read as 0. That the fields of one read stand at one moment is the
model's choice (log 36). -/
def Obligations.RegisterReads : Prop :=
  ∀ s : State, FaultLaw s →
    (let w := valueLE (readWindow s 0x04 4)
     let field := fun lo n => w / 2 ^ lo % 2 ^ n
     field 0 2 = s.hp.dev.code ∧ (field 2 1 = 1 ↔ s.sc.state = .ready) ∧
     field 4 3 = s.eng[(0 : Ring)].state.code ∧ (field 8 1 = 1 ↔ s.hp.restart = true) ∧
     (field 9 1 = 1 ↔ s.hp.fault.code ≠ .none) ∧ field 3 1 = 0 ∧ field 7 1 = 0 ∧ field 10 22 = 0) ∧
    (let w := valueLE (readWindow s 0x18 4)
     let field := fun lo n => w / 2 ^ lo % 2 ^ n
     field 0 4 = s.hp.fault.code.code ∧ field 8 3 = s.hp.fault.num ∧ field 16 8 = s.hp.fault.count ∧
     field 4 4 = 0 ∧ field 11 5 = 0 ∧ field 24 8 = 0) ∧
    valueLE (readWindow s 0x08 4) = s.hp.anchorLo.toNat ∧ valueLE (readWindow s 0x0C 4) = s.hp.anchorHi.toNat ∧
    ∀ (offset n : Nat), (offset + n ≤ 0x04 ∨ (0x10 ≤ offset ∧ offset + n ≤ 0x18) ∨ 0x1C ≤ offset) →
      readWindow s offset n = List.replicate n 0#8

/-! ## Ring engines: POST, RETIRE, fetches, guards -/

/-- POST (R100, R188): the ring number is bits 0 to 2 of the word, the new tail bits 16 to 31. A DISABLED or HALTED ring,
and a tail of the ring's size or more, are refused with BAD_POST and the ring number. Any other POST sets the tail; an IDLE
engine whose new tail differs from its head enters ACTIVE; the engine fetches the record at its head if R101 lets it. That an
engine in another state, or one that a stop has reached, looks at R101's conditions at the POST is log 40. -/
def Obligations.PostSetsTail : Prop :=
  ∀ (s : State) (v : Word) (r : Ring), Released s → r.val = v.toNat % 8 →
    let e := s.eng[r]
    let n := v.toNat / 65536
    (e.state = .disabled ∨ e.state = .halted ∨ (∀ g, e.cfg = some g → g.size ≤ n) →
      ∃ t, exec (.post v) s = .next t ∧ Reported .badPost r.val s t) ∧
    ∀ g : RingCfg, e.cfg = some g → e.state ≠ .disabled → e.state ≠ .halted → n < g.size → e.head < g.size →
      exec (.post v) s = .next { s with eng := s.eng.set r { e with
        tail := n
        state := if e.state = .idle ∧ n ≠ e.head then .active else e.state
        fetch :=
          if e.haltPending = false ∧ e.staged = none ∧ e.fetch = none ∧ n ≠ e.head then
            some (s.hostRead (Addr.plus g.base (32 * e.head)) 32)
          else e.fetch } }

/-- RETIRE (R127, R128, R188): the completion ring number is bits 0 and 1 of the word, the new head bits 16 to 31. A RETIRE
held before is discarded. One that names the slot one past the tail while a write is in flight is held; one to a slot of the
span from head to tail moves the head and lets CU examine the front claim; any other, and one to an unconfigured ring, is
refused with BAD_RETIRE and the number. -/
def Obligations.RetireMovesHead : Prop :=
  ∀ (s : State) (v : Word) (q : CqIx), Released s → q.val = v.toNat % 4 →
    let c := s.cq[q]
    let h := v.toNat / 65536
    let u := { s with cq := s.cq.set q { c with held := none } }
    (c.cfg = none → ∃ t, exec (.retire v) s = .next t ∧ Reported .badRetire q.val u t) ∧
    ∀ g : CqCfg, c.cfg = some g →
      let early := c.inflight.isSome ∧ h = (c.tail + 1) % g.size
      let inSpan := h < g.size ∧ (h + g.size - c.head) % g.size ≤ (c.tail + g.size - c.head) % g.size
      (early → exec (.retire v) s = .next { s with cq := s.cq.set q { c with held := some h } }) ∧
      (¬ early → inSpan →
        ∃ t, exec (.retire v) s = .next t ∧
          Served q { s with cq := s.cq.set q { c with held := none, head := h } } t) ∧
      (¬ early → ¬ inSpan → ∃ t, exec (.retire v) s = .next t ∧ Reported .badRetire q.val u t)

/-- FETCH_DONE (R101, R104, R114, R185): the record is read as the fields of R185 and head advances by one; an engine that
holds nothing executes it at once and fetches on, any other stages it. A HALTED engine discards it, and head stays. That an
engine told to halt for a failed late notice stages it like any other until its commit boundary is log 21, that an engine fetches
on at once is log 40. -/
def Obligations.FetchStagesRecord : Prop :=
  ∀ (s : State) (r : Ring) (rd : HostRead) (g : RingCfg) (b : BitVec 256),
    Released s → s.eng[r].fetch = some rd → CanDeliver rd s → s.eng[r].cfg = some g →
    (s.eng[r].stop = none ∨ s.eng[r].stop = some .noticeHalt) →
    let e := s.eng[r]
    let x : Record := {
      kind := b.extractLsb' 0 8, guardCode := b.extractLsb' 8 4, quiet := b.extractLsb' 15 1 == 1#1,
      tag := b.extractLsb' 16 16, line := b.extractLsb' 32 8, gen := b.extractLsb' 40 8,
      paramB := b.extractLsb' 48 16, count := b.extractLsb' 64 32, paramA := b.extractLsb' 96 32,
      addr := b.extractLsb' 128 64, paramC := b.extractLsb' 192 64 }
    let head := (e.head + 1) % g.size
    (e.state = .halted → e.stop = none → exec (.fetchDone r b) s = .next { s with eng := s.eng.set r { e with fetch := none } }) ∧
    (e.state ≠ .halted → (e.exec.isSome ∨ e.state = .waitCq) →
      exec (.fetchDone r b) s =
        .next { s with eng := s.eng.set r { e with fetch := none, head := head, staged := some x } }) ∧
    (e.state ≠ .halted → e.state ≠ .waitCq → e.exec = none →
      exec (.fetchDone r b) s = .next { s with eng := s.eng.set r { e with
        head := head
        state := .active
        exec := some ⟨x, .fresh⟩
        staged := none
        fetch :=
          if e.haltPending = false ∧ 1 ≤ (e.tail + g.size - head) % g.size then
            some (s.hostRead (Addr.plus g.base (32 * head)) 32)
          else none } })

/-- FETCH_FAILED (R106, R114): head stays and FETCH_FAULT is reported with the ring number; an engine with an executing
command or a completion claim becomes halt-pending, any other enters HALTED. A HALTED engine's failed fetch is not
reported. That an engine told to halt for a failed late notice takes the failure like any other until its commit boundary is
logs 20 and 21. -/
def Obligations.FetchFailureHalts : Prop :=
  ∀ (s : State) (r : Ring) (rd : HostRead),
    Released s → s.eng[r].fetch = some rd → (s.eng[r].stop = none ∨ s.eng[r].stop = some .noticeHalt) →
    let e := s.eng[r]
    let u := { s with eng := s.eng.set r { e with fetch := none } }
    (e.state = .halted → e.stop = none → exec (.fetchFailed r) s = .next u) ∧
    (e.state ≠ .halted → (e.exec.isSome ∨ e.state = .waitCq) →
      ∃ t, exec (.fetchFailed r) s = .next t ∧
        Reported .fetchFault r.val { s with eng := s.eng.set r { e with fetch := none, haltPending := true } } t) ∧
    (e.state ≠ .halted → e.state ≠ .waitCq → e.exec = none → e.stop = none →
      ∃ t, exec (.fetchFailed r) s = .next t ∧ Reported .fetchFault r.val (Stopped r u) t)

/-- The guard of every command (R107): a guard field that holds none of the five codes ends the command with BAD_PARAM, a
guard that is not met with SKIPPED, whatever the kind; the kinds of ring 0 stand on ring 0. -/
def Obligations.GuardsRefuseOrSkip : Prop :=
  ∀ (s : State) (r : Ring) (x : Record), Released s → Executes r x s →
    ∀ c : Instr, (c = .unknownKindRecord r ∧ x.kindOfRing r = false ∨
        ∃ k, Kind.ofCode x.kind = some k ∧ c = k.row r ∧ (k.isControl = true → r = 0)) →
      let code := x.guardCode.toNat
      let met := code = 0 ∨ code = 1 ∧ s.eng[r].lastOk = true ∨ code = 2 ∧ s.eng[r].lastOk = false ∨
        code = 3 ∧ s.eng[r].test = true ∨ code = 4 ∧ s.eng[r].test = false
      (5 ≤ code → ∃ t, exec c s = .next t ∧ Ended r x (plain .badParam x) s t) ∧
      (code < 5 → ¬ met → ∃ t, exec c s = .next t ∧ Ended r x (plain .skipped x) s t)

/-- BAD_KIND (R55, R118, R154, R186): a record whose kind value is no kind, a control kind on a line ring, and a line kind
on ring 0, MARK included, end with it once the guard is met. -/
def Obligations.UnknownKindsRefused : Prop :=
  (∀ (s : State) (r : Ring) (x : Record), Released s → Executes r x s → GuardMet r x s →
    (Kind.ofCode x.kind = none ∨ ∃ k, Kind.ofCode x.kind = some k ∧ (k.isControl = true ↔ r ≠ 0)) →
    ∃ t, exec (.unknownKindRecord r) s = .next t ∧ Ended r x (plain .badKind x) s t) ∧
  (∀ (s : State) (x : Record) (k : Kind), BeginsControl k x s → k.isControl = false →
    ∃ t, exec (k.row 0) s = .next t ∧ Ended 0 x (plain .badKind x) s t) ∧
  ∀ code : BitVec 8, Kind.ofCode code = none ↔
    ¬ (1 ≤ code.toNat ∧ code.toNat ≤ 0x0A ∨ 0x20 ≤ code.toNat ∧ code.toNat ≤ 0x26)

/-! ## Lines and the store: validation, OPEN, CLOSE -/

/-- Steps 2 to 5 of the validation order for every kind that goes through it (R1, R3, R6, R8, R55, R58): the first check
that fails gives the status; the completion carries the line's generation, and from step 4 on its sequence; nothing else of
the line, its lock or the host is touched. -/
def Obligations.LineChecksRefuse : Prop :=
  ∀ (s : State) (r : Ring) (k : Kind) (x : Record), Begins r k x s → r ≠ 0 → k.namesLine = true →
    let l := s.lineOf x
    let ownerOnly := k ∈ [.closeLine, .setTaps, .push, .clear, .step]
    let refused := fun res => ∃ t, exec (k.row r) s = .next t ∧ Ended r x res s t
    (64 ≤ x.line.toNat → refused (plain .badLine x)) ∧
    (x.line.toNat < 64 →
      (k = .openLine → l.state ≠ .free → refused (about .lineBusy x l 0 0 0)) ∧
      (k ≠ .openLine → (l.state = .free ∨ x.gen ≠ l.gen) → refused (about .staleLine x l 0 0 0)) ∧
      ∀ g : LineCfg, k ≠ .openLine → l.state ≠ .free → x.gen = l.gen → l.cfg = some g →
        (ownerOnly → g.owner ≠ r → refused (about .notOwner x l 0 0 l.seq)) ∧
        ((ownerOnly → g.owner = r) → l.state = .closing → refused (about .lineClosing x l 0 0 l.seq)))

/-- Steps 6 and 7 of the validation order (R56, R57): the counts and ranges of each kind, in the order of the table, and after
them the buffer addresses that the command will use, each of which must be a multiple of 4. -/
def Obligations.RangeAndAlignmentChecks : Prop :=
  ∀ (s : State) (r : Ring) (k : Kind) (x : Record) (g : LineCfg),
    let l := s.lineOf x
    let n := x.count.toNat
    let a := x.paramA.toNat
    let refused := fun st => ∃ t, exec (k.row r) s = .next t ∧ Ended r x (about st x l 0 0 l.seq) s t
    (Begins r .openLine x s → r ≠ 0 → x.line.toNat < 64 → l.state = .free → k = .openLine →
      (a < 16 ∨ 4194304 < a → refused .badLength) ∧
      (16 ≤ a → a ≤ 4194304 → x.paramB.toNat ∉ [1, 2, 3] → refused .badFormat)) ∧
    (Passes r k x g s →
      (k = .setTaps → 16 < n → refused .badCount) ∧
      (k = .push → (n < 1 ∨ 4096 < n ∨ g.len < n) → refused .badCount) ∧
      (k = .test → g.len < a → refused .badRange) ∧
      (k = .readSpan → (n < 1 ∨ 4096 < n) → refused .badCount) ∧
      (k = .readSpan → 1 ≤ n → n ≤ 4096 → g.len < a + n → refused .badRange) ∧
      (k = .step → (n < 1 ∨ 1024 < n) → refused .badCount) ∧
      (k = .step → 1 ≤ n → n ≤ 1024 → 16384 < n * l.taps.length → refused .badCount) ∧
      (RangesOk k x g l.taps →
        (k ∈ [.push, .gather, .readSpan] → x.addr.toNat % 4 ≠ 0 → refused .badAlign) ∧
        (k = .setTaps → 1 ≤ n → x.addr.toNat % 4 ≠ 0 → refused .badAlign) ∧
        (k = .step → (x.addr.toNat % 4 ≠ 0 ∨ x.paramC.toNat % 4 ≠ 0) → refused .badAlign)))

/-- OPEN of a FREE line (R5, R7, R9, R10, R25, R26, R59): with an extent from SA the line is LIVE with the next generation,
the issuing ring as owner, the length, format and extent given, and everything else empty; without one the OPEN ends with
NO_SPACE and changes no line. -/
def Obligations.OpenMakesLineLive : Prop :=
  ∀ (s : State) (r : Ring) (x : Record) (fmt : Format),
    Begins r .openLine x s → r ≠ 0 → x.line.toNat < 64 →
    (s.lineOf x).state = .free → 16 ≤ x.paramA.toNat → x.paramA.toNat ≤ 4194304 → x.paramB.toNat = fmt.code →
    let l := s.lineOf x
    let need := (x.paramA.toNat + 63) / 64
    (∀ (ext : Extent) (rest : List Extent), allocate need s.free = some (ext, rest) →
      let l' : Line := {
        state := .live
        gen := if l.gen = 255 then 1 else l.gen + 1
        cfg := some { owner := r, len := x.paramA.toNat, fmt := fmt, ext := ext }
        head := 0, fill := 0, seq := 0, taps := []
        lock := { mode := .none, holders := [], queue := [] } }
      ∃ t, exec (.openLine r) s = .next t ∧
        Ended r x (about .ok x l' 0 0 0)
          { s with lines := s.lines.set x.lineIx l', free := rest } t) ∧
    (allocate need s.free = none →
      ∃ t, exec (.openLine r) s = .next t ∧ Ended r x (about .noSpace x l 0 0 l.seq) s t)

/-- The free-extent list (R25, R26, R28). First fit: a request is served from the low end of the first entry that holds it,
which is removed when it is used up; a request that no entry holds is refused. The table of R28: an extent taken back is inserted
in base order and merged with the entries it touches. -/
def Obligations.FreeListOperations : Prop :=
  (∀ need : Nat,
    (∀ (pre post : List Extent) (e : Extent), (∀ p ∈ pre, p.count < need) → need ≤ e.count →
      allocate need (pre ++ e :: post) =
        some (⟨e.base, need⟩,
          pre ++ (if e.count = need then post else ⟨e.base + need, e.count - need⟩ :: post))) ∧
    ∀ es : List Extent, (∀ e ∈ es, e.count < need) → allocate need es = none) ∧
  ∀ (pre post : List Extent) (x : Extent), FreeListLaw (pre ++ post) →
    (∀ e ∈ pre, e.base < x.base) → (∀ f ∈ post, x.base < f.base) →
    let below := fun e : Extent => e.base + e.count = x.base
    let above := fun f : Extent => x.base + x.count = f.base
    ((∀ e, pre.getLast? = some e → ¬ below e) → (∀ f, post.head? = some f → ¬ above f) →
      releaseExtent x (pre ++ post) = pre ++ x :: post) ∧
    (∀ pre' e, pre = pre' ++ [e] → below e → (∀ f, post.head? = some f → ¬ above f) →
      releaseExtent x (pre ++ post) = pre' ++ ⟨e.base, e.count + x.count⟩ :: post) ∧
    (∀ f post', post = f :: post' → above f → (∀ e, pre.getLast? = some e → ¬ below e) →
      releaseExtent x (pre ++ post) = pre ++ ⟨x.base, x.count + f.count⟩ :: post') ∧
    (∀ pre' e f post', pre = pre' ++ [e] → post = f :: post' → below e → above f →
      releaseExtent x (pre ++ post) = pre' ++ ⟨e.base, e.count + x.count + f.count⟩ :: post')

/-- CLOSE (R4, R48, R49, R61). With the lock empty, the line is FREE in one step, its generation kept and its extent back in
the free-extent list, and the CLOSE ends with OK and the line's sequence. With holders, the line is CLOSING, every queued
reader is refused with LINE_CLOSING, the holders are left as they are, the CLOSE is the one entry of the queue and its engine
is in WAIT_LOCK. That the refused readers make their claims in the order of the queue is the model's choice (log 37). -/
def Obligations.CloseFreesOrWaits : Prop :=
  ∀ (s : State) (r : Ring) (x : Record) (g : LineCfg), Passes r .closeLine x g s →
    let l := s.lineOf x
    (l.lock = { mode := .none, holders := [], queue := [] } →
      let l' : Line := {
        state := .free, gen := l.gen, cfg := none, head := 0, fill := 0, seq := 0, taps := [],
        lock := { mode := .none, holders := [], queue := [] } }
      ∃ t, exec (.closeLine r) s = .next t ∧
        Ended r x (about .ok x l 0 0 l.seq)
          { s with lines := s.lines.set x.lineIx l', free := releaseExtent g.ext s.free } t) ∧
    (l.lock.holders ≠ [] → (∀ w ∈ l.lock.queue, w.kind = .reader ∧ w.ring ≠ r) →
      let l' := { l with state := .closing, lock := { l.lock with queue := [⟨r, .close⟩] } }
      ∃ t, exec (.closeLine r) s = .next t ∧
        RefusedAll l (l.lock.queue.map (·.ring))
          { s with
            lines := s.lines.set x.lineIx l'
            eng := s.eng.set r { s.eng[r] with state := .waitLock, exec := some ⟨x, .waitClose l.seq⟩ } } t)

/-- TEST (R70): without the lock, the fill as it stands is compared with param A; the ring's test flag is set if it is
param A or more and cleared otherwise; the completion carries the fill and the sequence. -/
def Obligations.TestComparesFill : Prop :=
  ∀ (s : State) (r : Ring) (x : Record) (g : LineCfg), Passes r .test x g s → x.paramA.toNat ≤ g.len →
    let l := s.lineOf x
    ∃ t, exec (.test r) s = .next t ∧
      Ended r x (about .ok x l l.fill 0 l.seq)
        { s with eng := s.eng.set r { s.eng[r] with test := decide (x.paramA.toNat ≤ l.fill) } } t

/-! ## The line lock -/

/-- Writers granted on arrival (R43, R44, R63, R65, R87): at a lock in mode NONE a PUSH, a SET TAPS of one tap or more and a
STEP become the one holder in mode WRITE, and their first host read is made; for a PUSH it is a burst of at most 16 samples
that ends before the wrap point (R14). -/
def Obligations.WriterGranted : Prop :=
  ∀ (s : State) (r : Ring) (k : Kind) (x : Record) (g : LineCfg), Claims r k x g s →
    (s.lineOf x).lock.mode = .none →
    let l := s.lineOf x
    let e := s.eng[r]
    let n := x.count.toNat
    let l' := { l with lock := { l.lock with mode := .write, holders := [r] } }
    let granted := fun (p : Phase) (len : Nat) =>
      { s with
        lines := s.lines.set x.lineIx l'
        eng := s.eng.set r { e with
          state := .active, exec := some ⟨x, p⟩, rd := some (s.hostRead x.addr len) } }
    (k = .push → exec (.push r) s =
      .next (granted (.pushing 0 (min 16 (min n (g.len - l.head))))
        (min 16 (min n (g.len - l.head)) * g.fmt.bytes))) ∧
    (k = .setTaps → 1 ≤ n → exec (.setTaps r) s = .next (granted .tapRead (4 * n))) ∧
    (k = .step → exec (.step r) s =
      .next (granted
        (.stepping { committed := 0, written := 0, inputs := [], chunks := 1, stage := .ready, buf := [],
                     unfCur := 0, unfWr := 0, unfDone := 0, rdFailed := false, wrFailed := false })
        (min 16 n * g.fmt.bytes)))

/-- CLEAR, and a SET TAPS of no taps, granted on arrival at an empty lock (R63, R69): in one step the fill is taken and head
and fill are 0, or the tap list is empty; the lock is free again; everything else of the line is kept. -/
def Obligations.ClearAndEmptyTaps : Prop :=
  ∀ (s : State) (r : Ring) (k : Kind) (x : Record) (g : LineCfg), Claims r k x g s →
    (s.lineOf x).lock = { mode := .none, holders := [], queue := [] } →
    let l := s.lineOf x
    (k = .clear →
      ∃ t, exec (.clear r) s = .next t ∧
        Ended r x (about .ok x l l.fill 0 l.seq)
          { s with lines := s.lines.set x.lineIx { l with head := 0, fill := 0 } } t) ∧
    (k = .setTaps → x.count.toNat = 0 →
      ∃ t, exec (.setTaps r) s = .next t ∧
        Ended r x (about .ok x l 0 0 l.seq) { s with lines := s.lines.set x.lineIx { l with taps := [] } } t)

/-- Claims that are queued (R42, R43): a writer at a lock that is held, and a reader at a lock in mode WRITE or with a queue,
join the back of the queue, and their engine is in WAIT_LOCK; nothing else changes. -/
def Obligations.ClaimsQueue : Prop :=
  ∀ (s : State) (r : Ring) (k : Kind) (x : Record) (g : LineCfg), Claims r k x g s →
    let l := s.lineOf x
    let queued := fun kind =>
      { s with
        lines := s.lines.set x.lineIx { l with lock := { l.lock with queue := l.lock.queue ++ [⟨r, kind⟩] } }
        eng := s.eng.set r { s.eng[r] with state := .waitLock, exec := some ⟨x, .waitLock⟩ } }
    (k ∈ [.push, .setTaps, .clear, .step] → l.lock.mode ≠ .none →
      exec (k.row r) s = .next (queued .writer)) ∧
    (k ∈ [.gather, .readSpan] → (l.lock.mode = .write ∨ l.lock.queue ≠ []) →
      exec (k.row r) s = .next (queued .reader))

/-- Readers granted on arrival (R42, R46, R76, R79, R81): at a lock that no writer holds and with no queue, a GATHER or READ
SPAN joins the holders in mode READ and takes its snapshot; the filled offsets of its first 16 results are claimed at the
store port in one read burst; with none filled, the zero results are written at once, and the next chunk, if there is one, is
read ahead. The offsets of a READ SPAN are d + n - 1 down to d. A GATHER of an empty tap list ends at once with OK and no
results, and leaves the other holders of the lock as they are. That the chunk is read ahead at the first moment is the model's
choice (log 23). -/
def Obligations.ReaderGranted : Prop :=
  (∀ (s : State) (r : Ring) (x : Record) (g : LineCfg), Claims r .gather x g s →
    (s.lineOf x).taps = [] → (s.lineOf x).lock.queue = [] → (s.lineOf x).lock.Lawful →
    (s.lineOf x).lock.mode ≠ .write → r ∉ (s.lineOf x).lock.holders →
    ∃ t, exec (.gather r) s = .next t ∧
      Ended r x (about .ok x (s.lineOf x) 0 0 (s.lineOf x).seq) s t) ∧
  ∀ (s : State) (r : Ring) (k : Kind) (x : Record) (g : LineCfg) (offs : List Nat), Claims r k x g s →
    (s.lineOf x).lock.mode ≠ .write → (s.lineOf x).lock.queue = [] → offs ≠ [] → s.eng[r].wr = none →
    (k = .gather ∧ offs = (s.lineOf x).taps ∨
      k = .readSpan ∧ offs.length = x.count.toNat ∧
        ∀ i < x.count.toNat, offs[i]? = some (x.paramA.toNat + x.count.toNat - 1 - i)) →
    let l := s.lineOf x
    let l' := { l with lock := { l.lock with mode := .read, holders := l.lock.holders ++ [r] } }
    let ws := ((offs.take 16).filter (fun d => d < l.fill)).map (wordAt g l.head)
    let c : ReaderCtx := {
      snap := ⟨l.head, l.fill, l.seq⟩, offs := offs, chunk := 0, reading := true, buf := none, done := 0,
      failed := false }
    (ws ≠ [] →
      exec (k.row r) s = .next (arbitrate { s with
        lines := s.lines.set x.lineIx l'
        eng := s.eng.set r { s.eng[r] with state := .active, exec := some ⟨x, .reader c⟩ }
        sc := { s.sc with claims := s.sc.claims.set r (some (.read ws)) } })) ∧
    (ws = [] →
      exec (k.row r) s = .next (writesChunk r x g { c with reading := false } ((offs.take 16).map (fun _ => 0#32)) { s with
        lines := s.lines.set x.lineIx l'
        eng := s.eng.set r { s.eng[r] with state := .active } }))

/-- Leaving a lock and the grant step (R4, R44, R45, R49). A ring that leaves is no holder and no waiter any more; the other
holders and waiters keep their places, and the mode is NONE if it was the last holder, and as it was otherwise; then the grant
step follows. The table of R45 row by row, on the lock that a release or a removal leaves. A granted claim
goes on with its command, and the examination goes on with what that leaves. On a CLOSING line with no holders the close ends:
the line is FREE with its generation kept, the extent is back in the free-extent list, and the CLOSE that waits ends with OK and
the sequence it took; with no CLOSE waiting there is no completion. A grant that a ring reset meets leaves the ring a holder with
nothing done (R50). That what a granted command does at once comes before the next grant is the model's choice (log 41), and so is
when a reset meets a grant (log 42). -/
def Obligations.GrantStepTable : Prop :=
  (∀ (s : State) (r : Ring) (l : LineIx) (hs hs' : List Ring) (ws ws' : List Waiter),
    let k := s.lines[l].lock
    let left := fun mode holders queue => grantStep l { s with
      lines := s.lines.set l { s.lines[l] with lock := { mode := mode, holders := holders, queue := queue } } }
    (k.holders = hs ++ r :: hs' → r ∉ hs ++ hs' → (∀ w ∈ k.queue, w.ring ≠ r) →
      (hs ++ hs' = [] → release r l s = left .none [] k.queue) ∧
      (hs ++ hs' ≠ [] → release r l s = left k.mode (hs ++ hs') k.queue)) ∧
    ∀ kind, k.queue = ws ++ ⟨r, kind⟩ :: ws' → (∀ w ∈ ws ++ ws', w.ring ≠ r) → r ∉ k.holders → k.Lawful →
      release r l s = left k.mode k.holders (ws ++ ws')) ∧
  ∀ (s : State) (l : LineIx),
    let k := s.lines[l].lock
    let given := fun (w : Waiter) (lock : Lock) =>
      let u := { s with lines := s.lines.set l { s.lines[l] with lock := lock } }
      (¬ MeetsReset w.ring s → grantStep l s = grantStep l (beginGranted w.ring u)) ∧
      (MeetsReset w.ring s → ∀ x p, s.eng[w.ring].exec = some ⟨x, p⟩ →
        grantStep l s = grantStep l { u with eng := s.eng.set w.ring { s.eng[w.ring] with
          state := .active, exec := some ⟨x, .granted⟩ } })
    (∀ g : LineCfg, s.lines[l].state = .closing → k.holders = [] → s.lines[l].cfg = some g →
      let u := { s with
        lines := s.lines.set l {
          state := .free, gen := s.lines[l].gen, cfg := none, head := 0, fill := 0, seq := 0, taps := [],
          lock := { mode := .none, holders := [], queue := [] } }
        free := releaseExtent g.ext s.free }
      (k.queue = [] → grantStep l s = u) ∧
      ∀ (r : Ring) (x : Record) (q : Nat), k.queue = [⟨r, .close⟩] → s.eng[r].exec = some ⟨x, .waitClose q⟩ →
        Ended r x (about .ok x s.lines[l] 0 0 q) u (grantStep l s)) ∧
    (¬ (s.lines[l].state = .closing ∧ k.holders = []) →
      (k.queue = [] → grantStep l s = s) ∧
      ∀ (w : Waiter) (ws : List Waiter), k.queue = w :: ws →
        (w.kind = .writer → k.mode = .none → given w ⟨.write, [w.ring], ws⟩) ∧
        (w.kind = .writer → k.mode ≠ .none → grantStep l s = s) ∧
        (w.kind = .reader → k.mode = .none → given w ⟨.read, [w.ring], ws⟩) ∧
        (w.kind = .reader → k.mode = .read → given w ⟨.read, k.holders ++ [w.ring], ws⟩) ∧
        (w.kind = .reader → k.mode = .write → grantStep l s = s) ∧
        (w.kind = .close → grantStep l s = s))

/-! ## Host reads and store bursts of the line commands -/

/-- The end of a tap list read (R63, R64): with every offset below the length, the list is installed whole and the SET TAPS
ends with OK and count k; with an offset that is not, the old list stays and the count is the position of the first such
offset; a failed read ends with HOST_FAULT and count 0. In each case the lock is released first (R44). -/
def Obligations.TapListReadEnds : Prop :=
  ∀ (s : State) (r : Ring) (x : Record) (g : LineCfg) (rd : HostRead) (taps : List (BitVec 32)),
    Released s → s.eng[r].exec = some ⟨x, .tapRead⟩ → s.eng[r].stop = none → s.eng[r].rd = some rd →
    (s.lineOf x).cfg = some g →
    let l := s.lineOf x
    let bytes := taps.flatMap (fun d => bytesLE 4 d.toNat)
    let u := { s with eng := s.eng.set r { s.eng[r] with rd := none } }
    let offs := taps.map (·.toNat)
    (CanDeliver rd s → rd.len = 4 * taps.length →
      ((∀ d ∈ offs, d < g.len) →
        ∃ t, exec (.tapListReadDone r bytes) s = .next t ∧
          Ended r x (about .ok x l taps.length 0 l.seq)
            (release r x.lineIx { u with lines := u.lines.set x.lineIx { l with taps := offs } }) t) ∧
      ∀ i d, offs[i]? = some d → g.len ≤ d → (∀ j < i, ∀ d', offs[j]? = some d' → d' < g.len) →
        ∃ t, exec (.tapListReadDone r bytes) s = .next t ∧
          Ended r x (about .badTap x l i 0 l.seq) (release r x.lineIx u) t) ∧
    ∃ t, exec (.tapListReadFailed r) s = .next t ∧
      Ended r x (about .hostFault x l 0 0 l.seq) (release r x.lineIx u) t

/-- The end of a PUSH's host read (R65, R67): the samples are converted, and the store port is claimed for a write of them
to the slots from the head on; a failed read ends the PUSH with HOST_FAULT and the samples committed so far. -/
def Obligations.PushReadEnds : Prop :=
  ∀ (s : State) (r : Ring) (x : Record) (g : LineCfg) (done m : Nat) (rd : HostRead) (bytes : List Byte),
    Released s → s.eng[r].exec = some ⟨x, .pushing done m⟩ → s.eng[r].stop = none → s.eng[r].rd = some rd →
    (s.lineOf x).cfg = some g →
    let l := s.lineOf x
    let u := { s with eng := s.eng.set r { s.eng[r] with rd := none } }
    let words := (g.fmt.wordsOf bytes).mapIdx (fun i w => (g.ext.base * 64 + (l.head + i), w))
    (CanDeliver rd s → rd.len = bytes.length →
      exec (.pushSamplesReadDone r bytes) s =
        .next (arbitrate { u with sc := { u.sc with claims := u.sc.claims.set r (some (.write words)) } })) ∧
    ∃ t, exec (.pushSamplesReadFailed r) s = .next t ∧
      Ended r x (about .hostFault x l done 0 l.seq) (release r x.lineIx u) t

/-- The end of a PUSH's store burst (R13, R14, R31, R32, R65): its words are in the store, head, fill and sequence have
advanced by their number, the port has fallen free and the arbiter has chosen; then the next burst's samples are read, or
the PUSH ends with OK, count n and the sequence after the last commit. That the arbiter chooses before the PUSH goes on is
log 6. -/
def Obligations.PushBurstCommits : Prop :=
  ∀ (s : State) (r : Ring) (x : Record) (g : LineCfg) (done m : Nat) (ws : List (Nat × Word)),
    Released s → s.sc.port = .burst r (.write ws) → (∀ p ∈ ws, p.1 < 8388608) →
    s.eng[r].exec = some ⟨x, .pushing done m⟩ → s.eng[r].stop = none → (s.lineOf x).cfg = some g →
    let l := Committed ws.length g (s.lineOf x)
    let n := x.count.toNat
    let done' := done + ws.length
    let m' := min 16 (min (n - done') (g.len - l.head))
    let u := arbitrate { s with
      store := Memory.writeAll ws s.store
      lines := s.lines.set x.lineIx l
      eng := s.eng.set r { s.eng[r] with exec := some ⟨x, .pushing done' m⟩ }
      sc := { s.sc with port := .idle } }
    (done' < n →
      exec .storeBurstEnd s = .next { u with eng := u.eng.set r { s.eng[r] with
        exec := some ⟨x, .pushing done' m'⟩
        rd := some (s.hostRead (x.addr + BitVec.ofNat 64 (done' * g.fmt.bytes)) (m' * g.fmt.bytes)) } }) ∧
    (n ≤ done' → ∃ t, exec .storeBurstEnd s = .next t ∧
      Ended r x (about .ok x l done' 0 l.seq) (release r x.lineIx u) t)

/-- The store words (R13, R22, R31): a command keeps every word, save that the end of a write burst leaves in each word of
the burst what was written to it, and that the two device resets do as they do. A burst that names a word the store does not
have stops the model with its fault, which is the model's choice (log 24). -/
def Obligations.StoreFrame : Prop :=
  (∀ (c : Instr) (s t : State) (a : Nat), c.wf = true → c ≠ .powerOnReset → c ≠ .reset → exec c s = .next t →
    (∀ r ws, c = .storeBurstEnd → s.sc.port = .burst r (.write ws) → ∀ p ∈ ws, p.1 ≠ a) →
    t.readWord a = s.readWord a) ∧
  (∀ (s t : State) (r : Ring) (ws : List (Nat × Word)) (a : Nat) (w : Word), Released s →
    s.sc.port = .burst r (.write ws) → ws.Pairwise (fun p q => p.1 ≠ q.1) → (a, w) ∈ ws →
    exec .storeBurstEnd s = .next t → t.readWord a = w) ∧
  ∀ (s : State) (r : Ring) (b : Burst) (pre post : List Nat) (a : Nat), Released s →
    s.sc.port = .burst r b → b.words = pre ++ a :: post → (∀ p ∈ pre, p < 8388608) → 8388608 ≤ a →
    exec .storeBurstEnd s = .fault (.storeWordAbsent a)

/-- The end of a reader's store burst (R17, R20, R77, R81): the results of the chunk are the words of its filled offsets and
zero for the others, as the snapshot gives them; they are written at once if no write of the command is in flight, and wait
for it otherwise. That the arbiter chooses before the reader goes on is log 6, and that the next chunk is read ahead at the first
moment is log 23, both the model's choice. -/
def Obligations.ReaderBurstRead : Prop :=
  ∀ (s : State) (r : Ring) (x : Record) (g : LineCfg) (c : ReaderCtx) (ws : List Nat),
    Released s → s.sc.port = .burst r (.read ws) → (∀ a ∈ ws, a < 8388608) →
    s.eng[r].exec = some ⟨x, .reader c⟩ → c.failed = false → s.eng[r].stop = none →
    (s.lineOf x).cfg = some g →
    let u := arbitrate { s with sc := { s.sc with port := .idle } }
    let res := results g c.snap.head c.snap.fill (chunkOf c.chunk c.offs) s
    (s.eng[r].wr = none →
      exec .storeBurstEnd s = .next (writesChunk r x g c res u)) ∧
    (s.eng[r].wr.isSome →
      exec .storeBurstEnd s = .next { u with eng := u.eng.set r { s.eng[r] with
        exec := some ⟨x, .reader { c with reading := false, buf := some res }⟩ } })

/-- The end of a result write of a GATHER or READ SPAN (R78, R81, R82, R83). Completed: after the last chunk the lock is released
and the command ends with OK, its results, the unfilled ones among them and the sequence of its snapshot; before it, a chunk
that has been read is written, and one being read is waited for. Failed: a claim that waits at the store port is withdrawn, a
granted burst is waited for; then the lock is released and the command ends with HOST_FAULT, with the results of the chunks
written before it and the unfilled ones among them. That the next chunk is read ahead at the first moment is the model's choice
(log 23), and so are that the arbiter chooses at the end of a burst before the command goes on (log 6) and that a write leaves no
later than its report (log 38). -/
def Obligations.ReaderWriteEnds : Prop :=
  ∀ (s : State) (r : Ring) (x : Record) (g : LineCfg) (c : ReaderCtx),
    Released s → s.eng[r].exec = some ⟨x, .reader c⟩ → s.eng[r].stop = none → (s.lineOf x).cfg = some g →
    let last := c.done + 1 = (c.offs.length + 15) / 16
    let c' := { c with done := c.done + 1 }
    let fails := about .hostFault x (s.lineOf x) (16 * c.done)
      (unfilledOf c.snap.fill (c.offs.take (16 * c.done))) c.snap.seq
    let v := { s with
      eng := s.eng.set r { s.eng[r] with wr := none, exec := some ⟨x, .reader { c with failed := true }⟩ }
      sc := { s.sc with claims := s.sc.claims.set r none } }
    (∀ w : HostWrite, s.eng[r].wr = some w → CanComplete w s →
      let u := { writeReported w s with eng := s.eng.set r { s.eng[r] with wr := none } }
      (last → ∃ t, exec (.resultWriteCompleted r) s = .next t ∧
        Ended r x (about .ok x (s.lineOf x) c.offs.length (unfilledOf c.snap.fill c.offs) c.snap.seq)
          (release r x.lineIx u) t) ∧
      (∀ res, ¬ last → c.buf = some res → c.reading = false →
        exec (.resultWriteCompleted r) s = .next (writesChunk r x g c' res u)) ∧
      (¬ last → c.buf = none → c.reading = true →
        exec (.resultWriteCompleted r) s =
          .next { u with eng := u.eng.set r { u.eng[r] with exec := some ⟨x, .reader c'⟩ } })) ∧
    (∀ w : HostWrite, s.eng[r].wr = some w → ¬ CanComplete w s →
      ((∀ b, s.sc.port ≠ .burst r b) →
        ∃ t, exec (.resultWriteFailed r) s = .next t ∧ Ended r x fails (release r x.lineIx v) t) ∧
      ∀ b, s.sc.port = .burst r b → exec (.resultWriteFailed r) s = .next v) ∧
    ∀ ws, s.sc.port = .burst r (.read ws) → (∀ a ∈ ws, a < 8388608) → c.failed = true →
      ∃ t, exec .storeBurstEnd s = .next t ∧
        Ended r x fails (release r x.lineIx (arbitrate { s with sc := { s.sc with port := .idle } })) t

/-- The end of a STEP's input read (R87, R93, R94): the samples join the inputs, and a STEP that waits for them commits its
next step; a failed read ends a STEP that has nothing left to do with HOST_FAULT and the steps committed, and lets the others go
on. A STEP whose result write failed discards the samples and ignores the failure, waits for a granted burst and ends with
HOST_FAULT and the steps written. That the next step commits at the first moment is the model's choice (log 23). -/
def Obligations.StepInputReadEnds : Prop :=
  ∀ (s : State) (r : Ring) (x : Record) (g : LineCfg) (c : StepCtx) (rd : HostRead) (bytes : List Byte),
    Released s → s.eng[r].exec = some ⟨x, .stepping c⟩ → s.eng[r].stop = none → s.eng[r].rd = some rd →
    (s.lineOf x).cfg = some g →
    let l := s.lineOf x
    let u := { s with eng := s.eng.set r { s.eng[r] with rd := none } }
    let withCtx := fun c' => { u with eng := u.eng.set r { u.eng[r] with exec := some ⟨x, .stepping c'⟩ } }
    let c' := { c with inputs := c.inputs ++ g.fmt.wordsOf bytes }
    let cf := { c with rdFailed := true }
    let busy := c.stage = .committing ∨ c.stage = .reading ∨ (c.stage = .writing ∧ s.eng[r].wr.isSome)
    (CanDeliver rd s → rd.len = bytes.length →
      (c.wrFailed = false → c.stage = .ready → c'.inputs ≠ [] → c.committed < x.count.toNat →
        exec (.stepInputReadDone r bytes) s = .next (commitsNext r x g c' (withCtx c'))) ∧
      (c.wrFailed = false → busy → exec (.stepInputReadDone r bytes) s = .next (withCtx c')) ∧
      (c.wrFailed = true → (∀ b, s.sc.port ≠ .burst r b) →
        ∃ t, exec (.stepInputReadDone r bytes) s = .next t ∧
          Ended r x (about .hostFault x l c.written c.unfDone l.seq) (release r x.lineIx u) t) ∧
      (∀ b, c.wrFailed = true → s.sc.port = .burst r b → exec (.stepInputReadDone r bytes) s = .next u)) ∧
    (c.wrFailed = true → (∀ b, s.sc.port ≠ .burst r b) →
      ∃ t, exec (.stepInputReadFailed r) s = .next t ∧
        Ended r x (about .hostFault x l c.written c.unfDone l.seq) (release r x.lineIx (withCtx cf)) t) ∧
    (∀ b, c.wrFailed = true → s.sc.port = .burst r b → exec (.stepInputReadFailed r) s = .next (withCtx cf)) ∧
    (c.wrFailed = false → c.stage = .ready → c.inputs = [] → s.eng[r].wr = none → c.committed < x.count.toNat →
      ∃ t, exec (.stepInputReadFailed r) s = .next t ∧
        Ended r x (about .hostFault x l c.committed c.unfDone l.seq) (release r x.lineIx (withCtx cf)) t) ∧
    (c.wrFailed = false → (busy ∨ c.stage = .ready ∧ c.inputs = [] ∧ s.eng[r].wr.isSome) →
      exec (.stepInputReadFailed r) s = .next (withCtx cf))

/-- The end of a step's commit burst (R15, R87, R88, R92): one sample is committed and the port has fallen free; after the
first step of an input chunk the next chunk, if there is one, is read; the step's filled taps are claimed in one read burst
with the head and fill as the commit left them. With taps that are all unfilled the zero results are written without a burst, or
wait for the result write in flight. With no taps the next step commits, or waits for its input, or the STEP ends: with OK after
the last step, with HOST_FAULT where the next input could not be read. That the arbiter chooses before the STEP claims again
is log 6, that the next input chunk is read in this step is log 29, that the next step commits at the first moment is log 23. -/
def Obligations.StepCommits : Prop :=
  ∀ (s : State) (r : Ring) (x : Record) (g : LineCfg) (c : StepCtx) (a : Nat) (w : Word),
    Released s → s.sc.port = .burst r (.write [(a, w)]) → a < 8388608 →
    s.eng[r].exec = some ⟨x, .stepping c⟩ → c.stage = .committing → c.wrFailed = false → s.eng[r].stop = none →
    (s.lineOf x).cfg = some g →
    let l := Committed 1 g (s.lineOf x)
    let n := x.count.toNat
    let asks := (c.committed + 1) % 16 = 1 ∧ c.rdFailed = false ∧ 16 * c.chunks < n
    let c' := { c with
      committed := c.committed + 1, inputs := c.inputs.drop 1, chunks := if asks then c.chunks + 1 else c.chunks }
    let words := filled g l.head l.fill l.taps
    let u := arbitrate { s with
      store := Memory.writeAll [(a, w)] s.store
      lines := s.lines.set x.lineIx l
      eng := s.eng.set r { s.eng[r] with exec := some ⟨x, .stepping { c with
        committed := c.committed + 1, inputs := c.inputs.drop 1 }⟩ }
      sc := { s.sc with port := .idle } }
    let withCtx := fun c' => { u with eng := u.eng.set r { u.eng[r] with
      exec := some ⟨x, .stepping c'⟩
      rd := if asks then some (s.hostRead (x.addr + BitVec.ofNat 64 (16 * c.chunks * g.fmt.bytes))
        (min 16 (n - 16 * c.chunks) * g.fmt.bytes)) else s.eng[r].rd } }
    (words ≠ [] →
      let v := withCtx { c' with stage := .reading, unfCur := unfilledOf l.fill l.taps }
      exec .storeBurstEnd s =
        .next (arbitrate { v with sc := { v.sc with claims := v.sc.claims.set r (some (.read words)) } })) ∧
    (l.taps ≠ [] → words = [] →
      let zeros := l.taps.map (fun _ => 0#32)
      let c'' := { c' with stage := .writing, buf := zeros, unfCur := unfilledOf l.fill l.taps }
      (s.eng[r].wr = none → exec .storeBurstEnd s = .next (writesStep r x g c'' zeros (withCtx c''))) ∧
      (s.eng[r].wr.isSome → exec .storeBurstEnd s = .next (withCtx c''))) ∧
    (l.taps = [] → c.inputs.drop 1 = [] → c.committed + 1 < n → s.eng[r].wr = none →
      (c.rdFailed = false → exec .storeBurstEnd s = .next (withCtx { c' with stage := .ready })) ∧
      (c.rdFailed = true → ∃ t, exec .storeBurstEnd s = .next t ∧
        Ended r x (about .hostFault x l (c.committed + 1) c.unfDone l.seq)
          (release r x.lineIx (withCtx { c' with stage := .ready })) t)) ∧
    (l.taps = [] → c.inputs.drop 1 ≠ [] → c.committed + 1 < n →
      exec .storeBurstEnd s =
        .next (commitsNext r x g { c' with stage := .ready } (withCtx { c' with stage := .ready }))) ∧
    (l.taps = [] → c.committed + 1 = n → s.eng[r].wr = none →
      ∃ t, exec .storeBurstEnd s = .next t ∧
        Ended r x (about .ok x l n c.unfDone l.seq)
          (release r x.lineIx (withCtx { c' with stage := .ready })) t)

/-- The taps of a step are read (R17, R88, R89): the results are written at once if no result write of the command is in
flight, and the next step begins while they are being written; otherwise they wait for it. That the arbiter chooses before the
STEP claims again is log 6, and that the next step commits at the first moment is log 23, the model's choice. -/
def Obligations.StepTapsRead : Prop :=
  ∀ (s : State) (r : Ring) (x : Record) (g : LineCfg) (c : StepCtx) (ws : List Nat),
    Released s → s.sc.port = .burst r (.read ws) → (∀ a ∈ ws, a < 8388608) →
    s.eng[r].exec = some ⟨x, .stepping c⟩ → c.stage = .reading → c.wrFailed = false → s.eng[r].stop = none →
    (s.lineOf x).cfg = some g →
    let l := s.lineOf x
    let u := arbitrate { s with sc := { s.sc with port := .idle } }
    let res := results g l.head l.fill l.taps s
    (s.eng[r].wr = none → exec .storeBurstEnd s = .next (writesStep r x g c res u)) ∧
    (s.eng[r].wr.isSome →
      exec .storeBurstEnd s = .next { u with eng := u.eng.set r { s.eng[r] with
        exec := some ⟨x, .stepping { c with stage := .writing, buf := res }⟩ } })

/-- The end of a STEP's result write (R89, R90, R93, R94). Completed: the step is counted; results that wait are written; after
the last step the lock is released and the STEP ends with OK, n and the unfilled results of all steps, and after a failed input
read with HOST_FAULT and the steps committed. Failed: no further step begins, a claim that waits at the store port is withdrawn, a
granted burst, whose effect stands, and an input read in flight are waited for; then the lock is released and the STEP ends with
HOST_FAULT and the steps whose results were all written. That the next step commits at the first moment is log 23, that the
arbiter chooses at the end of a burst before the command goes on is log 6, that a write leaves no later than its report is
log 38. -/
def Obligations.StepWriteEnds : Prop :=
  ∀ (s : State) (r : Ring) (x : Record) (g : LineCfg) (c : StepCtx),
    Released s → s.eng[r].exec = some ⟨x, .stepping c⟩ → s.eng[r].stop = none → (s.lineOf x).cfg = some g →
    let l := s.lineOf x
    let n := x.count.toNat
    let fails := fun l => about .hostFault x l c.written c.unfDone l.seq
    (∀ w : HostWrite, s.eng[r].wr = some w → CanComplete w s → c.wrFailed = false →
      let c' := { c with written := c.written + 1, unfDone := c.unfDone + c.unfWr, unfWr := 0 }
      let u := { writeReported w s with
        eng := s.eng.set r { s.eng[r] with wr := none, exec := some ⟨x, .stepping c'⟩ } }
      (c.stage = .ready → c.committed = n →
        ∃ t, exec (.resultWriteCompleted r) s = .next t ∧
          Ended r x (about .ok x l n c'.unfDone l.seq) (release r x.lineIx u) t) ∧
      (c.stage = .ready → c.committed < n → c.inputs = [] → c.rdFailed = true →
        ∃ t, exec (.resultWriteCompleted r) s = .next t ∧
          Ended r x (about .hostFault x l c.committed c'.unfDone l.seq) (release r x.lineIx u) t) ∧
      (c.stage = .ready → c.committed < n → c.inputs = [] → c.rdFailed = false →
        exec (.resultWriteCompleted r) s = .next u) ∧
      (c.stage = .writing → exec (.resultWriteCompleted r) s = .next (writesStep r x g c' c.buf u)) ∧
      (c.stage = .committing ∨ c.stage = .reading → exec (.resultWriteCompleted r) s = .next u)) ∧
    (∀ w : HostWrite, s.eng[r].wr = some w → ¬ CanComplete w s →
      let u := { s with
        eng := s.eng.set r { s.eng[r] with wr := none, exec := some ⟨x, .stepping { c with wrFailed := true }⟩ }
        sc := { s.sc with claims := s.sc.claims.set r none } }
      ((s.eng[r].rd.isSome ∨ ∃ b, s.sc.port = .burst r b) → exec (.stepResultWriteFailed r) s = .next u) ∧
      (s.eng[r].rd = none → (∀ b, s.sc.port ≠ .burst r b) →
        ∃ t, exec (.stepResultWriteFailed r) s = .next t ∧ Ended r x (fails l) (release r x.lineIx u) t)) ∧
    (c.wrFailed = true → s.sc.claims[r] = none →
      let atEnd := fun u l' =>
        (s.eng[r].rd.isSome → exec .storeBurstEnd s = .next u) ∧
        (s.eng[r].rd = none →
          ∃ t, exec .storeBurstEnd s = .next t ∧ Ended r x (fails l') (release r x.lineIx u) t)
      (∀ ws, s.sc.port = .burst r (.read ws) → (∀ a ∈ ws, a < 8388608) →
        atEnd (arbitrate { s with sc := { s.sc with port := .idle } }) l) ∧
      ∀ (a : Nat) (w : Word), s.sc.port = .burst r (.write [(a, w)]) → a < 8388608 →
        let l' := Committed 1 g l
        atEnd
          (arbitrate { s with
            store := Memory.writeAll [(a, w)] s.store
            lines := s.lines.set x.lineIx l'
            eng := s.eng.set r { s.eng[r] with exec := some ⟨x, .stepping { c with
              committed := c.committed + 1, inputs := c.inputs.drop 1 }⟩ }
            sc := { s.sc with port := .idle } }) l')

/-! ## Frame pacing -/

/-- MARK (R98, R142, R143, R144): on a BULK ring it is refused with NOT_PACED; on a PACED ring it arms the ring and, with a
strobe owed, consumes it and ends at once with OK, the strobes still owed and the frame counter; with none owed the ring waits
in WAIT_FRAME. -/
def Obligations.MarkConsumesOrWaits : Prop :=
  ∀ (s : State) (r : Ring) (x : Record) (g : RingCfg),
    Begins r .mark x s → r ≠ 0 → s.eng[r].cfg = some g →
    let p := s.fu.pace[r]
    let paced := fun p' => { s with fu := { s.fu with pace := s.fu.pace.set r p' } }
    (g.cls ≠ some .paced →
      ∃ t, exec (.mark r) s = .next t ∧ Ended r x (plain .notPaced x) s t) ∧
    (g.cls = some .paced → 1 ≤ p.owed →
      ∃ t, exec (.mark r) s = .next t ∧
        Ended r x { plain .ok x with count := p.owed - 1, seq := s.fu.frame }
          (paced { p with armed := true, owed := p.owed - 1 }) t) ∧
    (g.cls = some .paced → p.owed = 0 →
      exec (.mark r) s = .next { paced { p with armed := true } with
        eng := s.eng.set r { s.eng[r] with state := .waitFrame, exec := some ⟨x, .waitFrame⟩ } })

/-- Strobes (R138, R140, R184): an edge of the FSYNC pin of the selected kind, from a level that held for 100 ns to one that
holds for 100 ns, and an expiry of the frame timer under TIMER, which begins its next period at once, are strobes; any other
change of the pin sets its level and nothing else. A strobe raises the frame counter, which wraps, and deals with the rings 1 to
7, here in the order of their numbers, which is the model's choice (log 9); the timer's time is the model's clock (log 2). That
the two times for which the levels hold come with the edge, at which the strobe is taken, is log 13; that an expiry under
another source than TIMER, of a timer that does not run, changes nothing is log 1. -/
def Obligations.StrobesTaken : Prop :=
  ∀ s : State, Released s →
    let strobed := fun u : State =>
      ([1, 2, 3, 4, 5, 6, 7] : List Ring).foldl strobeRing { u with fu := { u.fu with frame := u.fu.frame + 1 } }
    (∀ (level : Bool) (before after : Nat),
      let u := { s with fu := { s.fu with fsync := level } }
      let edge := level ≠ s.fu.fsync ∧ 100 ≤ before ∧ 100 ≤ after ∧
        (s.fu.source = .pinRising ∧ level = true ∨ s.fu.source = .pinFalling ∧ level = false)
      (edge → exec (.fsyncStrobe level ⟨before, after⟩) s = .next (strobed u)) ∧
      (¬ edge → exec (.fsyncStrobe level ⟨before, after⟩) s = .next u)) ∧
    (∀ at' p : Nat, s.fu.source = .timer → s.fu.timer = some at' → s.fu.period = some p →
      exec .frameTimerExpiry s =
        .next (strobed { s with now := max s.now at', fu := { s.fu with timer := some (at' + p * 1000) } })) ∧
    (s.fu.source ≠ .timer → exec .frameTimerExpiry s = .next s)

/-- What a strobe does to one ring (R145, R146, R147): a ring that is not PACED, armed and in work is not reached; one in
WAIT_FRAME is released, its MARK ending with OK, count 0 and the strobe's frame number; a late ring has its late count and,
below 3, its owed strobes raised, with a late notice if none is pending; a late ring that owes 3 reports FRAME_OVERRUN and
halts, after its command if it has one. -/
def Obligations.StrobeOnOneRing : Prop :=
  ∀ (s : State) (r : Ring),
    let e := s.eng[r]
    let p := s.fu.pace[r]
    let late := min (p.late + 1) 65535
    let paced := fun p' => { s with fu := { s.fu with pace := s.fu.pace.set r p' } }
    (((∀ g, e.cfg = some g → g.cls ≠ some .paced) ∨ p.armed = false ∨ e.state = .disabled ∨ e.state = .halted) →
      strobeRing s r = s) ∧
    ∀ g : RingCfg, e.cfg = some g → g.cls = some .paced → p.armed = true → e.state ≠ .disabled →
      e.state ≠ .halted →
      (∀ x : Exec, e.state = .waitFrame → e.exec = some x →
        Ended r x.rcd { plain .ok x.rcd with seq := s.fu.frame } s (strobeRing s r)) ∧
      (e.state ≠ .waitFrame → p.owed < 3 → p.notice.isSome →
        strobeRing s r = paced { p with late := late, owed := p.owed + 1 }) ∧
      (e.state ≠ .waitFrame → p.owed < 3 → p.notice = none →
        let u := paced { p with late := late, owed := p.owed + 1, notice := some ⟨p.owed + 1, s.fu.frame⟩ }
        let n : Claim := {
          ring := r, notice := true, orphan := false, tag := 0xFFFF
          result := { status := .frameLate, line := 0, gen := 0, count := p.owed + 1, unfilled := 0,
                      seq := s.fu.frame, aborted := false } }
        ClaimTaken g.cq n u (strobeRing s r) ∧
        strobeRing s r = { u with cq := (strobeRing s r).cq, hp := (strobeRing s r).hp }) ∧
      (e.state ≠ .waitFrame → p.owed = 3 → (e.exec.isSome ∨ e.state = .waitCq) →
        Reported .frameOverrun r.val
          { paced { p with late := late } with eng := s.eng.set r { e with haltPending := true } }
          (strobeRing s r)) ∧
      (e.state ≠ .waitFrame → p.owed = 3 → e.exec = none → e.state ≠ .waitCq → e.stop = none →
        Reported .frameOverrun r.val (Stopped r (paced { p with late := late })) (strobeRing s r))

/-! ## Ring 0 -/

/-- The checks of the control commands, each table in its order (R155, R156, R158, R159, R163, R164 to R167): the first that
fails ends the command with its status, the line and generation of the record, and nothing changed. -/
def Obligations.ControlChecksRefuse : Prop :=
  ∀ (s : State) (k : Kind) (x : Record), BeginsControl k x s →
    let refused := fun st => ∃ t, exec (k.row 0) s = .next t ∧ Ended 0 x (plain st x) s t
    let a := x.paramA.toNat
    let sizes := [16, 32, 64, 128, 256, 512, 1024, 2048, 4096]
    (k = .configureRing → (a < 1 ∨ 7 < a) → refused .badRing) ∧
    (∀ r : Ring, k = .configureRing → r.val = a → r ≠ 0 →
      let ready := s.eng[r].state = .disabled
      let based := ready ∧ x.addr.toNat % 64 = 0
      let sized := based ∧ x.count.toNat ∈ sizes
      let classed := sized ∧ (x.paramB.toNat = 1 ∨ x.paramB.toNat = 2)
      (¬ ready → refused .ringActive) ∧
      (ready → ¬ based → refused .badAlign) ∧
      (based → ¬ classed → refused .badParam) ∧
      (classed → (∀ q : CqIx, x.paramC.toNat = q.val → q ≠ 0 → s.cq[q].cfg = none) → refused .badRing)) ∧
    (k = .configureCompletionRing → (a < 1 ∨ 3 < a) → refused .badRing) ∧
    (∀ q : CqIx, k = .configureCompletionRing → q.val = a → q ≠ 0 →
      let unused := ∀ r : Ring, r ≠ 0 → s.eng[r].state ≠ .disabled → s.eng[r].cfg.map (·.cq) ≠ some q
      let based := unused ∧ x.addr.toNat % 64 = 0
      (¬ unused → refused .cqInUse) ∧
      (unused → ¬ based → refused .badAlign) ∧
      (based → (x.count.toNat ∉ sizes ∨ x.paramB.toNat < 1 ∨ 255 < x.paramB.toNat ∨ 255 < x.paramC.toNat) →
        refused .badParam)) ∧
    (k = .resetRing → (a < 1 ∨ 7 < a) → refused .badRing) ∧
    (k = .configureDevice →
      (a < 8 ∨ 255 < a ∨ 3 < x.paramB.toNat ∨
        (x.paramB.toNat = 3 ∧ (x.paramC.toNat < 20 ∨ 1000000 < x.paramC.toNat))) → refused .badParam) ∧
    (k = .queryLine → 64 ≤ x.line.toNat → refused .badLine) ∧
    (k = .queryRing → 8 ≤ a → refused .badRing) ∧
    ((k = .queryLine ∧ x.line.toNat < 64 ∨ k = .queryRing ∧ a < 8 ∨ k = .queryStore) → x.addr.toNat % 4 ≠ 0 →
      refused .badAlign)

/-- CONFIGURE RING and CONFIGURE COMPLETION RING carried out (R97, R119, R135, R141, R157, R158): the engine is IDLE with the
base, size, class and completion ring given, its flags and pacing state set afresh; the completion ring is set from the
command at once, and a command that meets a write in flight to it waits. RecordPosted and RecordLost say that it is set at the
report of that write. That the completions carry the line and generation fields of the record is log 30. -/
def Obligations.RingsConfigured : Prop :=
  (∀ (s : State) (x : Record) (r : Ring) (q : CqIx) (cls : RingClass), BeginsControl .configureRing x s →
    r ≠ 0 → x.paramA.toNat = r.val → s.eng[r].state = .disabled → x.addr.toNat % 64 = 0 →
    x.count.toNat ∈ [16, 32, 64, 128, 256, 512, 1024, 2048, 4096] → x.paramB.toNat = cls.code →
    q ≠ 0 → x.paramC.toNat = q.val → s.cq[q].cfg.isSome →
    ∃ t, exec .configureRing s = .next t ∧
      Ended 0 x (plain .ok x)
        { s with
          eng := s.eng.set r {
            state := .idle, cfg := some { base := x.addr, size := x.count.toNat, cls := some cls, cq := q }
            head := 0, tail := 0, exec := none, staged := none, lastOk := true, test := false
            haltPending := false, fetch := none, rd := none, wr := none, stop := none, report := none }
          fu := { s.fu with pace := s.fu.pace.set r { armed := false, owed := 0, notice := none, late := 0 } } }
        t) ∧
  ∀ (s : State) (x : Record) (q : CqIx), BeginsControl .configureCompletionRing x s →
    q ≠ 0 → x.paramA.toNat = q.val →
    (∀ r : Ring, r ≠ 0 → s.eng[r].state ≠ .disabled → s.eng[r].cfg.map (·.cq) ≠ some q) →
    x.addr.toNat % 64 = 0 → x.count.toNat ∈ [16, 32, 64, 128, 256, 512, 1024, 2048, 4096] →
    1 ≤ x.paramB.toNat → x.paramB.toNat ≤ 255 → x.paramC.toNat ≤ 255 →
    (s.cq[q].inflight = none → s.eng[(0 : Ring)].stop = none →
      ∃ t, exec .configureCompletionRing s = .next t ∧ Ended 0 x (plain .ok x) (CqSet q x s) t) ∧
    (s.cq[q].inflight.isSome →
      exec .configureCompletionRing s =
        .next { s with eng := s.eng.set 0 { s.eng[(0 : Ring)] with exec := some ⟨x, .cqWait⟩ } })

/-- RESET RING (R50, R115, R116, R130, R151, R159, R160, R161, R162). A ring with no command and nothing in flight is reset at
once with the aborted flag clear, and so is one whose record has begun nothing, its guard not evaluated (R72), and one whose
claim waits in CU, which is withdrawn. A ring whose command waits for a lock, for the holders of its line, for a strobe, or at
the store arbiter, or has just been granted its lock (R50; log 42), is stopped at once: it leaves the lock, and is reported as
aborted with the samples of a PUSH or the steps of a STEP committed before, 0 for any other. A ring with a host transfer or a
store burst of its command under way, a fetch in flight, or its claim being written, is told to stop, and RE0 waits. A command
that is stopped while a fetch is in flight is given up, with its lock and the ring's pacing state, before the end of the fetch,
which is the model's choice (log 8). -/
def Obligations.ResetRingStops : Prop :=
  ∀ (s : State) (x : Record) (r : Ring), r ≠ 0 → s.eng[(0 : Ring)].stop = none → s.eng[r].report = none →
    BeginsControl .resetRing x s → x.paramA.toNat = r.val →
    let e := s.eng[r]
    let re0 := { s.eng[(0 : Ring)] with exec := some ⟨x, .resetWait r⟩ }
    let told := Told r .ringReset { s with eng := s.eng.set 0 re0 }
    let stopped := fun y n => ∃ t, exec .resetRing s = .next t ∧ StopsCommand r y n told t
    let bare := resetReport false 0 0 0 e.head 0
    (AtRest r s → e.exec = none → e.state ≠ .waitCq →
      (e.fetch = none → ∃ t, exec .resetRing s = .next t ∧ ResetEnds r x bare told t) ∧
      (e.fetch.isSome → ∃ t, exec .resetRing s = .next t ∧
        PacingDiscarded r { told with eng := told.eng.set r { told.eng[r] with staged := none } } t)) ∧
    (∀ g : RingCfg, AtRest r s → e.exec = none → e.state = .waitCq → e.cfg = some g →
      ((∃ w, s.cq[g.cq].inflight = some w ∧ w.claim.ring = r ∧ w.claim.notice = false) →
        exec .resetRing s = .next told) ∧
      ((∀ w, s.cq[g.cq].inflight = some w → ¬ (w.claim.ring = r ∧ w.claim.notice = false)) →
        ∃ u t, exec .resetRing s = .next t ∧
          Withdrawn g.cq (fun c => c.ring = r ∧ c.notice = false)
            { told with eng := told.eng.set r { told.eng[r] with state := .active, staged := none } } u ∧
          (e.fetch.isSome → PacingDiscarded r u t) ∧ (e.fetch = none → ResetEnds r x bare u t))) ∧
    (∀ y : Record, AtRest r s →
      (e.exec = some ⟨y, .waitLock⟩ → e.state = .waitLock → stopped y 0) ∧
      (∀ q, e.exec = some ⟨y, .waitClose q⟩ → e.state = .waitLock → stopped y 0) ∧
      (e.exec = some ⟨y, .granted⟩ → e.state = .active → stopped y 0) ∧
      (e.exec = some ⟨y, .fresh⟩ → e.state = .active →
        (e.fetch = none → ∃ t, exec .resetRing s = .next t ∧ ResetEnds r x bare told t) ∧
        (e.fetch.isSome → ∃ t, exec .resetRing s = .next t ∧
          PacingDiscarded r { told with eng := told.eng.set r { told.eng[r] with exec := none, staged := none } } t)) ∧
      (∀ done m, e.exec = some ⟨y, .pushing done m⟩ → e.state = .active → stopped y done) ∧
      (∀ c, e.exec = some ⟨y, .stepping c⟩ → e.state = .active → stopped y c.committed) ∧
      (∀ c, e.exec = some ⟨y, .reader c⟩ → e.state = .active → stopped y 0) ∧
      (e.exec = some ⟨y, .waitFrame⟩ → e.state = .waitFrame →
        (e.fetch = none →
          ∃ t, exec .resetRing s = .next t ∧ ResetEnds r x (resetReport true y.line y.gen 0 e.head y.tag) told t) ∧
        (e.fetch.isSome → ∃ t, exec .resetRing s = .next t ∧
          PacingDiscarded r { told with eng := told.eng.set r { told.eng[r] with
            state := .active, exec := none, staged := none, report := some ⟨true, y.tag, y.line, y.gen, 0⟩ } } t))) ∧
    (¬ AtRest r s → exec .resetRing s = .next told)

/-- The commit boundary (R50, R66, R84, R95, R112, R115, R116, R130, R160, R161). A ring that a reset or a failed late notice
has told to stop stops at the end of its store burst, whose samples count as committed, of its host read, whose samples are not
stored, or of its host write, whatever the end of these; while another transfer or burst of its command is under way, the end of
one has no other effect than its own and the ring goes on waiting. The end of a fetch that was all it waited for is discarded,
and the reset ends, also that of a HALTED ring, whose fetch is waited for too (log 33); RE0 goes on, or its restart does. The
stop at the report of a claim stands in RecordPosted and RecordLost. The premise RingLaw keeps ring 0 out of the locks. That a
command gives up its lock before the end of a fetch is log 8, that the arbiter chooses before is log 6, that a write leaves no
later than its report is log 38. -/
def Obligations.StopsAtBoundary : Prop :=
  ∀ (s : State) (r : Ring), Released s → RingLaw s → r ≠ 0 → s.sc.claims[r] = none →
    (s.eng[r].stop = some .ringReset ∨ s.eng[r].stop = some .noticeHalt) →
    let e := s.eng[r]
    let stopsBy := fun c y n u => ∃ t, exec c s = .next t ∧ StopsCommand r y n u t
    let quiet := ∀ b, s.sc.port ≠ .burst r b
    let readOver := { s with eng := s.eng.set r { e with rd := none } }
    let writeOver := { s with eng := s.eng.set r { e with wr := none } }
    (e.state = .active →
      (∀ (y : Record) (g : LineCfg) (ws : List (Nat × Word)) (done m : Nat), s.sc.port = .burst r (.write ws) →
        (∀ p ∈ ws, p.1 < 8388608) → e.exec = some ⟨y, .pushing done m⟩ → (s.lineOf y).cfg = some g → e.rd = none →
        e.wr = none →
        stopsBy .storeBurstEnd y (done + ws.length) (arbitrate { s with
          store := Memory.writeAll ws s.store
          lines := s.lines.set y.lineIx (Committed ws.length g (s.lineOf y))
          eng := s.eng.set r { e with exec := some ⟨y, .pushing (done + ws.length) m⟩ }
          sc := { s.sc with port := .idle } })) ∧
      (∀ (y : Record) (g : LineCfg) (a : Nat) (w : Word) (c : StepCtx), s.sc.port = .burst r (.write [(a, w)]) →
        a < 8388608 → e.exec = some ⟨y, .stepping c⟩ → (s.lineOf y).cfg = some g →
        let u := arbitrate { s with
          store := Memory.writeAll [(a, w)] s.store
          lines := s.lines.set y.lineIx (Committed 1 g (s.lineOf y))
          eng := s.eng.set r { e with exec := some ⟨y, .stepping { c with
            committed := c.committed + 1, inputs := c.inputs.drop 1 }⟩ }
          sc := { s.sc with port := .idle } }
        (e.rd = none ∧ e.wr = none → stopsBy .storeBurstEnd y (c.committed + 1) u) ∧
        (e.rd.isSome ∨ e.wr.isSome → exec .storeBurstEnd s = .next u)) ∧
      (∀ (y : Record) (ws : List Nat), s.sc.port = .burst r (.read ws) → (∀ a ∈ ws, a < 8388608) →
        let u := arbitrate { s with sc := { s.sc with port := .idle } }
        (∀ c, e.exec = some ⟨y, .stepping c⟩ → e.rd = none → e.wr = none → stopsBy .storeBurstEnd y c.committed u) ∧
        (∀ c, e.exec = some ⟨y, .reader c⟩ → e.rd = none → e.wr = none → stopsBy .storeBurstEnd y 0 u) ∧
        (∀ c, e.exec = some ⟨y, .stepping c⟩ ∨ (∃ c', e.exec = some ⟨y, .reader c'⟩) → e.rd.isSome ∨ e.wr.isSome →
          exec .storeBurstEnd s = .next u)) ∧
      (∀ (y : Record) (rd : HostRead), e.rd = some rd → e.wr = none → quiet →
        (e.exec = some ⟨y, .tapRead⟩ →
          stopsBy (.tapListReadFailed r) y 0 readOver ∧
          ∀ bytes, CanDeliver rd s → rd.len = bytes.length → stopsBy (.tapListReadDone r bytes) y 0 readOver) ∧
        (∀ done m, e.exec = some ⟨y, .pushing done m⟩ →
          stopsBy (.pushSamplesReadFailed r) y done readOver ∧
          ∀ bytes, CanDeliver rd s → rd.len = bytes.length → stopsBy (.pushSamplesReadDone r bytes) y done readOver) ∧
        (∀ c, e.exec = some ⟨y, .stepping c⟩ →
          stopsBy (.stepInputReadFailed r) y c.committed readOver ∧
          ∀ bytes, CanDeliver rd s → rd.len = bytes.length →
            stopsBy (.stepInputReadDone r bytes) y c.committed readOver)) ∧
      (∀ (y : Record) (w : HostWrite), e.wr = some w → e.rd = none → quiet →
        (∀ c, e.exec = some ⟨y, .reader c⟩ →
          (CanComplete w s →
            stopsBy (.resultWriteCompleted r) y 0 { writeReported w s with eng := writeOver.eng }) ∧
          (¬ CanComplete w s → stopsBy (.resultWriteFailed r) y 0 writeOver)) ∧
        (∀ c, e.exec = some ⟨y, .stepping c⟩ →
          (CanComplete w s →
            stopsBy (.resultWriteCompleted r) y c.committed { writeReported w s with eng := writeOver.eng }) ∧
          (¬ CanComplete w s → stopsBy (.stepResultWriteFailed r) y c.committed writeOver))) ∧
      (∀ (y : Record) (c : StepCtx) (rd : HostRead), e.exec = some ⟨y, .stepping c⟩ → e.rd = some rd →
        (e.wr.isSome ∨ ∃ b, s.sc.port = .burst r b) →
        exec (.stepInputReadFailed r) s = .next readOver ∧
        ∀ bytes, CanDeliver rd s → rd.len = bytes.length → exec (.stepInputReadDone r bytes) s = .next readOver) ∧
      (∀ (y : Record) (w : HostWrite), e.wr = some w → (e.rd.isSome ∨ ∃ b, s.sc.port = .burst r b) →
        (CanComplete w s → ((∃ c, e.exec = some ⟨y, .stepping c⟩) ∨ ∃ c, e.exec = some ⟨y, .reader c⟩) →
          exec (.resultWriteCompleted r) s = .next { writeReported w s with eng := writeOver.eng }) ∧
        (¬ CanComplete w s →
          (∀ c, e.exec = some ⟨y, .stepping c⟩ → exec (.stepResultWriteFailed r) s = .next writeOver) ∧
          ∀ c, e.exec = some ⟨y, .reader c⟩ → exec (.resultWriteFailed r) s = .next writeOver))) ∧
    ∀ (x : Record) (rd : HostRead), AtRest r s → e.exec = none → e.state ≠ .waitCq → e.stop = some .ringReset → e.fetch = some rd →
      s.eng[(0 : Ring)].exec = some ⟨x, .resetWait r⟩ →
      let u := { s with eng := s.eng.set r { e with fetch := none } }
      let rep := e.report.getD ⟨false, 0, 0, 0, 0⟩
      let ends := fun c => ∃ t, exec c s = .next t ∧
        ResetEnds r x (resetReport rep.aborted rep.line rep.gen rep.count e.head rep.tag) u t
      ends (.fetchFailed r) ∧ ∀ b, CanDeliver rd s → ends (.fetchDone r b)

/-- CONFIGURE DEVICE carried out (R36, R139, R163): SC takes the code and restarts its timer with the new interval, keeping
the debt; FU takes the source, and under TIMER the period, restarting the frame timer, which is stopped otherwise. That a
refresh timer which does not run is not started is the model's choice (log 34), and so are the line and generation fields of
the completion (log 30); the times stand on its clock (log 2). -/
def Obligations.DeviceConfigured : Prop :=
  ∀ (s : State) (x : Record), BeginsControl .configureDevice x s →
    8 ≤ x.paramA.toNat → x.paramA.toNat ≤ 255 →
    let code := x.paramA.toNat
    let p := x.paramC.toNat
    let sc := { s.sc with code := code, timer := s.sc.timer.map (fun _ => s.now + code * 125) }
    let set := fun fu => ∃ t, exec .configureDevice s = .next t ∧
      Ended 0 x (plain .ok x) { s with sc := sc, fu := fu } t
    (x.paramB.toNat = 0 → set { s.fu with source := .none, period := none, timer := none }) ∧
    (x.paramB.toNat = 1 → set { s.fu with source := .pinRising, period := none, timer := none }) ∧
    (x.paramB.toNat = 2 → set { s.fu with source := .pinFalling, period := none, timer := none }) ∧
    (x.paramB.toNat = 3 → 20 ≤ p → p ≤ 1000000 →
      set { s.fu with source := .timer, period := some p, timer := some (s.now + p * 1000) })

/-- The three queries (R164 to R167): the snapshot is written to the address in one transfer, and no block changes; when
the write is reported completed the query ends with OK, when it is reported failed with HOST_FAULT and count 0, the other
fields being the same. That QUERY RING takes the engine's part and the pacing part at one moment is the model's choice
(log 22), and so is that a write leaves no later than its report (log 38); the bit of its snapshot that R190 does not name is a
free value of the write (log 43). -/
def Obligations.QueriesWriteSnapshots : Prop :=
  (∀ (s : State) (k : Kind) (x : Record), BeginsControl k x s → x.addr.toNat % 4 = 0 →
    let queried := fun (data : List Byte) (res : Result) =>
      exec (k.row 0) s = .next { s with
        eng := s.eng.set 0 { s.eng[(0 : Ring)] with
          exec := some ⟨x, .querying res⟩
          wr := some { addr := x.addr, data := data, num := s.hp.taken } }
        hp := handed s x.addr data }
    (k = .queryLine → x.line.toNat < 64 →
      queried (lineSnapshot (s.lineOf x)) (about .ok x (s.lineOf x) 0 0 (s.lineOf x).seq)) ∧
    (∀ r : Ring, k = .queryRing → x.paramA.toNat = r.val →
      queried
        (ringSnapshot s.eng[r] (if r = 0 then ⟨false, 0, none, 0⟩ else s.fu.pace[r]) s.fu.frame
          (Config.ringSnapshotBit s.hp.taken))
        { plain .ok x with seq := s.fu.frame }) ∧
    (k = .queryStore →
      queried (storeSnapshot s.free)
        { plain .ok x with
          count := s.free.length, seq := BitVec.ofNat 32 (s.free.map (·.count)).sum })) ∧
  ∀ (s : State) (x : Record) (res : Result) (w : HostWrite), Released s →
    s.eng[(0 : Ring)].exec = some ⟨x, .querying res⟩ → s.eng[(0 : Ring)].wr = some w →
    s.eng[(0 : Ring)].stop = none →
    let eng := s.eng.set 0 { s.eng[(0 : Ring)] with wr := none }
    (CanComplete w s →
      ∃ t, exec .queryWriteDone s = .next t ∧ Ended 0 x res { writeReported w s with eng := eng } t) ∧
    (¬ CanComplete w s →
      ∃ t, exec .queryWriteFailed s = .next t ∧
        Ended 0 x { res with status := .hostFault, count := 0 } { s with eng := eng } t)

/-! ## Completion rings, refresh, the arbiter -/

/-- The report of a posted record (R110, R121, R125, R128, R130, R131, R132, R135). The tail moves and the phase flips at the
wrap; the source is told: its engine goes on, or its late notice is pending no more, or a ring that is being reset stops; the
posting is counted and brings the interrupt message at T, or starts the holdoff timer; a RETIRE held for the slot is taken; CU
examines the front claim; a CONFIGURE COMPLETION RING that waits for the write sets the ring and ends. The order of what follows
the count is the model's choice (log 7), and so are that a ring under reset is shown ACTIVE with no command and no pacing state
until its fetch ends (log 8), that the write leaves no later than its report (log 38), and the writes that wait no later than
the message (log 25); the completion fields of the CONFIGURE are log 30, and the timer's time is on its clock (log 2). -/
def Obligations.RecordPosted : Prop :=
  ∀ (s : State) (q : CqIx) (g : CqCfg) (c : Claim) (w : HostWrite),
    Released s → s.cq[q].inflight = some ⟨c, w⟩ → CanComplete w s → s.cq[q].cfg = some g → 1 ≤ g.size →
    (s.cq[q].held = none ∨ s.cq[q].held = some ((s.cq[q].tail + 1) % g.size)) →
    let posted := Posted q g (writeReported w s)
    let answers := fun u => ∃ t, exec (.completionWritePosted q) s = .next t ∧ Served q (HeldTaken q (Counted q g u)) t
    let noWait := ∀ x, s.eng[(0 : Ring)].exec = some ⟨x, .cqWait⟩ → x.cqA ≠ q
    (noWait → c.notice = false → s.eng[c.ring].stop = none → s.eng[c.ring].state = .waitCq →
      ∃ u, GoesOn c.ring posted u ∧ u = { posted with eng := u.eng, fu := u.fu } ∧
        (∀ j, j ≠ c.ring → u.eng[j] = s.eng[j]) ∧ answers u) ∧
    (noWait → c.notice = true → c.orphan = false →
      answers { posted with fu := { s.fu with
        pace := s.fu.pace.set c.ring { s.fu.pace[c.ring] with notice := none } } }) ∧
    (noWait → c.notice = true → c.orphan = true → answers posted) ∧
    (∀ (x : Record) (g' : RingCfg), c.notice = false → c.ring ≠ 0 → q ≠ 0 → s.eng[c.ring].stop = some .ringReset →
      s.eng[c.ring].state = .waitCq → s.eng[c.ring].exec = none → AtRest c.ring s → s.eng[c.ring].report = none →
      s.eng[c.ring].cfg = some g' → g'.cq = q → (∀ d ∈ s.cq[q].queue, ¬ (d.ring = c.ring ∧ d.notice = false)) →
      s.eng[(0 : Ring)].exec = some ⟨x, .resetWait c.ring⟩ →
      let idle := { posted with eng := s.eng.set c.ring { s.eng[c.ring] with state := .active, staged := none } }
      (s.eng[c.ring].fetch.isSome → ∃ u, PacingDiscarded c.ring idle u ∧ answers u) ∧
      (s.eng[c.ring].fetch = none →
        ∃ u, ResetEnds c.ring x (resetReport false 0 0 0 s.eng[c.ring].head 0) idle u ∧ answers u)) ∧
    ∀ x : Record, c.notice = true → c.orphan = true → q ≠ 0 → s.cq[q].queue = [] →
      s.eng[(0 : Ring)].exec = some ⟨x, .cqWait⟩ → s.eng[(0 : Ring)].stop = none → x.cqA = q →
      ∃ t, exec (.completionWritePosted q) s = .next t ∧ Ended 0 x (plain .ok x) (CqSet q x (Counted q g posted)) t

/-- The report of a record that could not be written (R112, R115, R126, R128, R130, R135): the tail and the phase stay,
POST_FAULT is reported with the ring of the claim, a held RETIRE is refused with BAD_RETIRE, an engine in WAIT_CQ halts at once,
and one that is being reset stops. The ring of a late notice halts at once if nothing is under way on it, withdrawing its claim
in CU or at the store arbiter and leaving its lock, a waiting CLOSE among them, or is told to stop at its commit boundary; a
HALTED ring stays so, and a discarded notice halts nothing. CU examines the front claim, and a CONFIGURE COMPLETION RING that
waits for the write sets the ring and ends. That POST_FAULT comes before BAD_RETIRE is log 7, that a failed notice changes
nothing of a stop on its way is log 20, that a ring under reset is shown ACTIVE with no command and no pacing state until its
fetch ends is log 8, the completion fields of the CONFIGURE are log 30. -/
def Obligations.RecordLost : Prop :=
  ∀ (s : State) (q : CqIx) (c : Claim) (w : HostWrite),
    Released s → s.cq[q].inflight = some ⟨c, w⟩ → ¬ CanComplete w s →
    let e := s.eng[c.ring]
    let unpend := fun v : State => { v with fu := { v.fu with
      pace := v.fu.pace.set c.ring { v.fu.pace[c.ring] with notice := none } } }
    let answers := fun f => ∃ v t, exec (.completionWriteFailed q) s = .next t ∧ RecordIsLost q c.ring s v ∧
      Served q (f v) t
    let noWait := ∀ x, s.eng[(0 : Ring)].exec = some ⟨x, .cqWait⟩ → x.cqA ≠ q
    (noWait → c.notice = false → e.stop = none → e.state = .waitCq → answers (Stopped c.ring)) ∧
    (noWait → c.notice = true → c.orphan = true → answers id) ∧
    (noWait → c.notice = true → c.orphan = false → (e.state = .halted ∨ e.state = .disabled ∨ e.stop.isSome) →
      answers unpend) ∧
    (noWait → c.notice = true → c.orphan = false → c.ring ≠ 0 → e.stop = none → e.state ≠ .halted →
      e.state ≠ .disabled →
      let told := fun v => Told c.ring .noticeHalt (unpend v)
      (AtRest c.ring s → (e.exec = none ∨ ∃ y, e.exec = some ⟨y, .fresh⟩) → e.state ≠ .waitCq →
        answers (fun v => Stopped c.ring (told v))) ∧
      (∀ g' : RingCfg, AtRest c.ring s → e.exec = none → e.state = .waitCq → e.cfg = some g' → g'.cq = q →
        answers (fun v => Stopped c.ring { told v with cq := v.cq.set q { v.cq[q] with
          queue := v.cq[q].queue.filter (fun d => ¬ (d.ring = c.ring ∧ d.notice = false)) } })) ∧
      (∀ (y : Record) (p : Phase), AtRest c.ring s → e.exec = some ⟨y, p⟩ →
        (p = .waitLock ∨ (∃ n, p = .waitClose n) ∨ p.holdsLock) → (e.state = .waitLock ∨ e.state = .active) →
        answers (fun v => Stopped c.ring (GivenUp c.ring y 0 (told v)))) ∧
      (∀ y : Record, AtRest c.ring s → e.state = .waitFrame → e.exec = some ⟨y, .waitFrame⟩ →
        answers (fun v => Stopped c.ring (told v))) ∧
      (¬ AtRest c.ring s → e.exec.isSome → answers told)) ∧
    (∀ (x : Record) (g' : RingCfg), c.notice = false → c.ring ≠ 0 → q ≠ 0 → e.stop = some .ringReset →
      e.state = .waitCq → e.exec = none → AtRest c.ring s → e.report = none → e.cfg = some g' →
      g'.cq = q → (∀ d ∈ s.cq[q].queue, ¬ (d.ring = c.ring ∧ d.notice = false)) →
      s.eng[(0 : Ring)].exec = some ⟨x, .resetWait c.ring⟩ →
      ∃ u v t, exec (.completionWriteFailed q) s = .next t ∧ RecordIsLost q c.ring s v ∧ Served q u t ∧
        let idle := { v with eng := s.eng.set c.ring { e with state := .active, staged := none } }
        (e.fetch.isSome → PacingDiscarded c.ring idle u) ∧
        (e.fetch = none → ResetEnds c.ring x (resetReport false 0 0 0 e.head 0) idle u)) ∧
    ∀ x : Record, c.notice = true → c.orphan = true → q ≠ 0 → s.cq[q].queue = [] →
      s.eng[(0 : Ring)].exec = some ⟨x, .cqWait⟩ → s.eng[(0 : Ring)].stop = none → x.cqA = q →
      ∃ v t, exec (.completionWriteFailed q) s = .next t ∧ RecordIsLost q c.ring s v ∧
        Ended 0 x (plain .ok x) (CqSet q x v) t

/-- Refresh and holdoff (R36, R37, R38, R132). At an expiry of the refresh interval timer, which begins its next interval at
once, the debt rises by 1 if it is 7 or less, and the arbiter chooses if the port is free; at 8 it stays and REFRESH_MISSED is
reported; at the end of a refresh operation the debt falls by 1 and the arbiter chooses again. At the expiry of a holdoff timer
CU sends the interrupt message of the completion ring, unsignalled is 0 and the timer is stopped; the host writes that wait leave
before the message (log 25). The times of the expiries are on the model's clock (log 2). -/
def Obligations.RefreshAndHoldoff : Prop :=
  ∀ s : State, Released s →
    (∀ at' : Nat, s.sc.timer = some at' →
      let next := some (at' + s.sc.code * 125)
      (s.sc.debt ≤ 7 →
        exec .refreshTimerExpiry s = .next (arbitrate { s with
          now := max s.now at', sc := { s.sc with timer := next, debt := s.sc.debt + 1 } })) ∧
      (s.sc.debt = 8 →
        ∃ t, exec .refreshTimerExpiry s = .next t ∧
          Reported .refreshMissed 0 { s with now := max s.now at', sc := { s.sc with timer := next } } t)) ∧
    (s.sc.port = .refresh →
      exec .refreshEnd s =
        .next (arbitrate { s with sc := { s.sc with port := .idle, debt := s.sc.debt - 1 } })) ∧
    ∀ (q : CqIx) (at' : Nat), s.cq[q].timer = some at' →
      exec (.holdoffTimerExpiry q) s = .next (MessageSent q.castSucc { s with
        now := max s.now at', cq := s.cq.set q { s.cq[q] with unsig := 0, timer := none } })

/-- The arbiter (R32, R33): a port that is held is left alone; a free one goes to an urgent refresh, a paced claim, a bulk
claim or a background refresh, the first of these that applies; among the claims of a class it goes to the first in the
order that begins after the class's mark, which becomes that ring. -/
def Obligations.ArbiterChooses : Prop :=
  ∀ s : State,
    let waits := fun cls (r : Ring) =>
      r ≠ 0 ∧ s.sc.claims[r].isSome ∧ ∃ g, s.eng[r].cfg = some g ∧ g.cls = some cls
    let first := fun cls (mark : Nat) (r : Ring) =>
      waits cls r ∧ ∀ k, waits cls k → (r.val + 6 - mark) % 7 ≤ (k.val + 6 - mark) % 7
    let quiet := fun cls => ∀ r, ¬ waits cls r
    let refresh := { s with sc := { s.sc with port := .refresh } }
    (s.sc.port ≠ .idle → arbitrate s = s) ∧
    (s.sc.port = .idle →
      (6 ≤ s.sc.debt → arbitrate s = refresh) ∧
      (s.sc.debt < 6 → s.sc.pacedMark ≤ 7 → s.sc.bulkMark ≤ 7 →
        1 ≤ s.sc.pacedMark → 1 ≤ s.sc.bulkMark →
        (∀ r b, first .paced s.sc.pacedMark r → s.sc.claims[r] = some b →
          arbitrate s = { s with sc := { s.sc with
            port := .burst r b, claims := s.sc.claims.set r none, pacedMark := r.val } }) ∧
        (∀ r b, quiet .paced → first .bulk s.sc.bulkMark r → s.sc.claims[r] = some b →
          arbitrate s = { s with sc := { s.sc with
            port := .burst r b, claims := s.sc.claims.set r none, bulkMark := r.val } }) ∧
        (quiet .paced → quiet .bulk → 1 ≤ s.sc.debt → arbitrate s = refresh) ∧
        (quiet .paced → quiet .bulk → s.sc.debt = 0 → arbitrate s = s)))

/-! ## Layouts -/

/-- Samples (R19, R20): a sample's bytes, least significant first, form the upper bits of its store word, and the lower bits
are zero, so its sign is the word's sign; a result gives the upper bits of the word, and a sample that passes through the
store unchanged reads as it was written. -/
def Obligations.SamplesConvert : Prop :=
  (∀ b0 b1 : Byte, Format.s16.toWord [b0, b1] = b1 ++ b0 ++ 0#16) ∧
  (∀ b0 b1 b2 : Byte, Format.s24.toWord [b0, b1, b2] = b2 ++ b1 ++ b0 ++ 0#8) ∧
  (∀ b0 b1 b2 b3 : Byte, Format.s32.toWord [b0, b1, b2, b3] = b3 ++ b2 ++ b1 ++ b0) ∧
  (∀ w : Word, Format.s16.ofWord w = [w.extractLsb' 16 8, w.extractLsb' 24 8]) ∧
  (∀ w : Word, Format.s24.ofWord w = [w.extractLsb' 8 8, w.extractLsb' 16 8, w.extractLsb' 24 8]) ∧
  (∀ w : Word, Format.s32.ofWord w =
    [w.extractLsb' 0 8, w.extractLsb' 8 8, w.extractLsb' 16 8, w.extractLsb' 24 8]) ∧
  ∀ (f : Format) (samples : List (List Byte)), (∀ x ∈ samples, x.length = f.bytes) →
    f.wordsOf samples.flatten = samples.map f.toWord ∧ f.bytesOf (f.wordsOf samples.flatten) = samples.flatten

/-- A completion record is 16 bytes, and every field stands at its bits, within the ranges the part reports; the statuses
have the codes of the table (R187). -/
def Obligations.CompletionRecordLayout : Prop :=
  ([.ok, .skipped, .frameLate, .badKind, .badLine, .staleLine, .notOwner, .lineBusy, .lineClosing, .noSpace, .badLength,
      .badFormat, .badCount, .badRange, .badTap, .badAlign, .badRing, .ringActive, .cqInUse, .badParam, .notPaced,
      .hostFault] : List Status).map Status.code =
    [0x00, 0x01, 0x02, 0x10, 0x11, 0x12, 0x13, 0x14, 0x15, 0x16, 0x17, 0x18, 0x19, 0x1A, 0x1B, 0x1C, 0x1D, 0x1E, 0x1F,
      0x20, 0x21, 0x30] ∧
  ∀ (c : Claim) (phase : Bool) (head : Nat),
    c.result.count < 2 ^ 23 → c.result.unfilled < 2 ^ 15 → head < 2 ^ 12 →
    let bytes := c.bytes phase head
    let field := fun lo w => valueLE bytes / 2 ^ lo % 2 ^ w
    bytes.length = 16 ∧
    field 0 16 = c.tag.toNat ∧ field 16 8 = c.result.status.code ∧ field 24 8 = c.result.line.toNat ∧
    field 32 8 = c.result.gen.toNat ∧ field 40 23 = c.result.count ∧ field 63 1 = phase.toNat ∧
    field 64 32 = c.result.seq.toNat ∧ field 96 12 = head ∧ field 108 15 = c.result.unfilled ∧
    field 123 3 = c.ring.val ∧ field 126 1 = c.notice.toNat ∧ field 127 1 = c.result.aborted.toNat

/-- The snapshot records (R189, R190). A line snapshot is 64 bytes, and every field of a line that is not FREE stands at its
bits; a FREE line reads with every field 0 but its generation. A ring snapshot is 32 bytes, with the engine, its pacing state and
the frame counter; bit 7 of its byte 3, which R190 does not name, is a free value, and the rest of the record stands for every
value of it (log 43). A store snapshot is 8 bytes with the number of entries and their granules, and 8 bytes for each entry, in
the order of the list. -/
def Obligations.SnapshotLayouts : Prop :=
  (∀ gen : BitVec 8, (lineSnapshot (.freeRecord gen)).length = 64 ∧
    valueLE (lineSnapshot (.freeRecord gen)) = gen.toNat * 2 ^ 8) ∧
  (∀ (l : Line) (g : LineCfg), l.Lawful → l.cfg = some g → g.ext.base < 131072 → l.taps.length ≤ 16 →
    let bytes := lineSnapshot l
    let field := fun lo w => valueLE bytes / 2 ^ lo % 2 ^ w
    bytes.length = 64 ∧
    field 0 2 = l.state.code ∧ field 2 2 = g.fmt.code ∧ field 4 3 = g.owner.val ∧
    (field 7 1 = 1 ↔ l.fill = g.len) ∧ field 8 8 = l.gen.toNat ∧ field 16 5 = l.taps.length ∧
    (∀ r : Ring, r ≠ 0 → (field (20 + r.val) 1 = 1 ↔ r ∈ l.lock.holders)) ∧
    (field 28 1 = 1 ↔ l.lock.mode = .write) ∧
    (field 29 1 = 1 ↔ l.state = .live ∧ ⟨g.owner, .writer⟩ ∈ l.lock.queue) ∧
    field 30 22 = g.len - 1 ∧ field 52 17 = g.ext.base ∧ (field 69 22 = l.head) ∧ field 91 48 = l.seq ∧
    (∀ i < 7, field (139 + 3 * i) 3 = ((l.lock.queue[i]?).map (·.ring.val)).getD 0) ∧
    ∀ i < 16, field (160 + 22 * i) 22 = (l.taps[i]?).getD 0) ∧
  (∀ (e : Engine) (p : Pacing) (frame : BitVec 32) (unnamed : Bool),
    (∀ g, e.cfg = some g → g.size ≤ 4096) → e.head < 65536 → e.tail < 65536 → p.owed < 256 → p.late < 65536 →
    let bytes := ringSnapshot e p frame unnamed
    let field := fun lo w => valueLE bytes / 2 ^ lo % 2 ^ w
    bytes.length = 32 ∧
    field 0 8 = e.state.code ∧
    (∀ g, e.cfg = some g →
      field 8 8 = ((g.cls.map RingClass.code).getD 0) ∧ field 16 8 = g.cq.val ∧ field 64 16 = g.size ∧
      field 128 64 = g.base.toNat) ∧
    (e.cfg = none → field 8 8 = 0 ∧ field 16 8 = 0xFF ∧ field 64 16 = 0 ∧ field 128 64 = 0) ∧
    (field 24 1 = 1 ↔ e.lastOk = true) ∧ (field 25 1 = 1 ↔ e.test = true) ∧ (field 26 1 = 1 ↔ e.haltPending = true) ∧
    (field 27 1 = 1 ↔ e.staged.isSome) ∧ (field 28 1 = 1 ↔ e.exec.isSome) ∧ (field 29 1 = 1 ↔ p.armed = true) ∧
    (field 30 1 = 1 ↔ p.notice.isSome) ∧ field 31 1 = unnamed.toNat ∧ field 32 16 = e.head ∧ field 48 16 = e.tail ∧
    field 80 8 = p.owed ∧
    (∀ x ph, e.exec = some ⟨x, ph⟩ → field 88 8 = x.kind.toNat ∧ field 96 16 = x.tag.toNat ∧
      field 112 8 = (if e.state = .waitLock then x.line.toNat else 0)) ∧
    (e.exec = none → field 88 8 = 0 ∧ field 96 16 = 0 ∧ field 112 8 = 0) ∧
    field 120 8 = 0 ∧ field 192 32 = frame.toNat ∧ field 224 16 = p.late ∧ field 240 16 = 0) ∧
  ∀ es : List Extent, es.length < 65536 → (es.map (·.count)).sum < 2 ^ 32 →
    (∀ e ∈ es, e.base < 2 ^ 32) →
    (storeSnapshot es).length = 8 + 8 * es.length ∧
    (let v := valueLE ((storeSnapshot es).take 8)
     v % 2 ^ 16 = es.length ∧ v / 2 ^ 16 % 2 ^ 16 = 0 ∧ v / 2 ^ 32 = (es.map (·.count)).sum) ∧
    ∀ (i : Nat) (e : Extent), es[i]? = some e →
      (let v := valueLE (((storeSnapshot es).drop (8 + 8 * i)).take 8)
       v % 2 ^ 32 = e.base ∧ v / 2 ^ 32 = e.count)

/-! ## Laws that every step keeps -/

/-- The canonical form of the store (log 10), the laws of the refresh unit (R36, R37, R39) and of the fault record (10.7), what HP
holds of host writes (R182; log 38), and the law of the completion rings (R122) hold after every step from a state in which they
hold. -/
def Obligations.UnitLawsKept : Prop :=
  ∀ s t : State, StoreLaw s ∧ RefreshLaw s ∧ FaultLaw s ∧ LinkLaw s ∧ CqLaw s → step s = .next t →
    StoreLaw t ∧ RefreshLaw t ∧ FaultLaw t ∧ LinkLaw t ∧ CqLaw t

/-- "the owed-strobe count of a paced ring never exceeds 3, and is 0 for every bulk, unarmed, DISABLED or HALTED ring": the
owed law of R141 holds after every step from a state in which it holds. -/
def Obligations.OwedLawKept : Prop :=
  ∀ s t : State, OwedLaw s → step s = .next t → OwedLaw t

/-- The line records (R1, R9, R11), the modes of the locks (R40) and the granules (R23, R24) keep their laws at every step: no
granule is lost, none belongs to two lines, and the free-extent list stays ordered and merged, with at most 65 entries. -/
def Obligations.AccountingLawKept : Prop :=
  (∀ s t : State, AccountingLaw s → step s = .next t → AccountingLaw t) ∧
  ∀ s : State, AccountingLaw s → s.free.length ≤ 65

/-- The ring engines, the rings at the locks and the tap lists keep their laws at every step (R18, R40, R41, R104): a ring has at
most one executing and one staged command, is at most once a holder or a waiter of a lock, and is one only while it executes a
record of that line; a tap list has at most 16 offsets. -/
def Obligations.RingLawKept : Prop :=
  ∀ s t : State, RingLaw s → step s = .next t → RingLaw t

/-- R5: only a successful OPEN and a device reset change a line's generation. -/
def Obligations.GenerationChangesAtOpen : Prop :=
  ∀ (c : Instr) (s t : State) (l : LineIx), c.wf = true → exec c s = .next t → t.lines[l].gen ≠ s.lines[l].gen →
    c = .powerOnReset ∨ c = .reset ∨
    ∃ r x, c = .openLine r ∧ Begins r .openLine x s ∧ x.line.toNat = l.val ∧ s.lines[l].state = .free ∧
      t.lines[l].state = .live ∧ t.lines[l].gen = (if s.lines[l].gen = 255 then 1 else s.lines[l].gen + 1)
end

