-- ==== Sys2Proof/Laws/State.lean ====
section
/-! SUPPORT. Laws/State.lean: one lemma per field of State per update, and what each update leaves at every place. -/

namespace Sys2Proof.Machine

/-! ### State.updEng -/

@[simp] theorem State.updEng_hp (s : State) (r : Ring) (f : Engine → Engine) : (s.updEng r f).hp = s.hp := rfl
@[simp] theorem State.updEng_lines (s : State) (r : Ring) (f : Engine → Engine) : (s.updEng r f).lines = s.lines := rfl
@[simp] theorem State.updEng_free (s : State) (r : Ring) (f : Engine → Engine) : (s.updEng r f).free = s.free := rfl
@[simp] theorem State.updEng_sc (s : State) (r : Ring) (f : Engine → Engine) : (s.updEng r f).sc = s.sc := rfl
@[simp] theorem State.updEng_store (s : State) (r : Ring) (f : Engine → Engine) : (s.updEng r f).store = s.store := rfl
@[simp] theorem State.updEng_cq (s : State) (r : Ring) (f : Engine → Engine) : (s.updEng r f).cq = s.cq := rfl
@[simp] theorem State.updEng_fu (s : State) (r : Ring) (f : Engine → Engine) : (s.updEng r f).fu = s.fu := rfl
@[simp] theorem State.updEng_now (s : State) (r : Ring) (f : Engine → Engine) : (s.updEng r f).now = s.now := rfl
@[simp] theorem State.updEng_epoch (s : State) (r : Ring) (f : Engine → Engine) : (s.updEng r f).epoch = s.epoch := rfl
@[simp] theorem State.updEng_freeIdx (s : State) (r : Ring) (f : Engine → Engine) : (s.updEng r f).freeIdx = s.freeIdx := rfl
@[simp] theorem State.updEng_pending (s : State) (r : Ring) (f : Engine → Engine) : (s.updEng r f).pending = s.pending := rfl

/-! ### State.updLine -/

@[simp] theorem State.updLine_hp (s : State) (l : LineIx) (f : Line → Line) : (s.updLine l f).hp = s.hp := rfl
@[simp] theorem State.updLine_free (s : State) (l : LineIx) (f : Line → Line) : (s.updLine l f).free = s.free := rfl
@[simp] theorem State.updLine_sc (s : State) (l : LineIx) (f : Line → Line) : (s.updLine l f).sc = s.sc := rfl
@[simp] theorem State.updLine_store (s : State) (l : LineIx) (f : Line → Line) : (s.updLine l f).store = s.store := rfl
@[simp] theorem State.updLine_eng (s : State) (l : LineIx) (f : Line → Line) : (s.updLine l f).eng = s.eng := rfl
@[simp] theorem State.updLine_cq (s : State) (l : LineIx) (f : Line → Line) : (s.updLine l f).cq = s.cq := rfl
@[simp] theorem State.updLine_fu (s : State) (l : LineIx) (f : Line → Line) : (s.updLine l f).fu = s.fu := rfl
@[simp] theorem State.updLine_now (s : State) (l : LineIx) (f : Line → Line) : (s.updLine l f).now = s.now := rfl
@[simp] theorem State.updLine_epoch (s : State) (l : LineIx) (f : Line → Line) : (s.updLine l f).epoch = s.epoch := rfl
@[simp] theorem State.updLine_freeIdx (s : State) (l : LineIx) (f : Line → Line) : (s.updLine l f).freeIdx = s.freeIdx := rfl
@[simp] theorem State.updLine_pending (s : State) (l : LineIx) (f : Line → Line) : (s.updLine l f).pending = s.pending := rfl

/-! ### State.updCq -/

@[simp] theorem State.updCq_hp (s : State) (q : CqIx) (f : Cq → Cq) : (s.updCq q f).hp = s.hp := rfl
@[simp] theorem State.updCq_lines (s : State) (q : CqIx) (f : Cq → Cq) : (s.updCq q f).lines = s.lines := rfl
@[simp] theorem State.updCq_free (s : State) (q : CqIx) (f : Cq → Cq) : (s.updCq q f).free = s.free := rfl
@[simp] theorem State.updCq_sc (s : State) (q : CqIx) (f : Cq → Cq) : (s.updCq q f).sc = s.sc := rfl
@[simp] theorem State.updCq_store (s : State) (q : CqIx) (f : Cq → Cq) : (s.updCq q f).store = s.store := rfl
@[simp] theorem State.updCq_eng (s : State) (q : CqIx) (f : Cq → Cq) : (s.updCq q f).eng = s.eng := rfl
@[simp] theorem State.updCq_fu (s : State) (q : CqIx) (f : Cq → Cq) : (s.updCq q f).fu = s.fu := rfl
@[simp] theorem State.updCq_now (s : State) (q : CqIx) (f : Cq → Cq) : (s.updCq q f).now = s.now := rfl
@[simp] theorem State.updCq_epoch (s : State) (q : CqIx) (f : Cq → Cq) : (s.updCq q f).epoch = s.epoch := rfl
@[simp] theorem State.updCq_freeIdx (s : State) (q : CqIx) (f : Cq → Cq) : (s.updCq q f).freeIdx = s.freeIdx := rfl
@[simp] theorem State.updCq_pending (s : State) (q : CqIx) (f : Cq → Cq) : (s.updCq q f).pending = s.pending := rfl

/-! ### State.updPace -/

@[simp] theorem State.updPace_hp (s : State) (r : Ring) (f : Pacing → Pacing) : (s.updPace r f).hp = s.hp := rfl
@[simp] theorem State.updPace_lines (s : State) (r : Ring) (f : Pacing → Pacing) : (s.updPace r f).lines = s.lines := rfl
@[simp] theorem State.updPace_free (s : State) (r : Ring) (f : Pacing → Pacing) : (s.updPace r f).free = s.free := rfl
@[simp] theorem State.updPace_sc (s : State) (r : Ring) (f : Pacing → Pacing) : (s.updPace r f).sc = s.sc := rfl
@[simp] theorem State.updPace_store (s : State) (r : Ring) (f : Pacing → Pacing) : (s.updPace r f).store = s.store := rfl
@[simp] theorem State.updPace_eng (s : State) (r : Ring) (f : Pacing → Pacing) : (s.updPace r f).eng = s.eng := rfl
@[simp] theorem State.updPace_cq (s : State) (r : Ring) (f : Pacing → Pacing) : (s.updPace r f).cq = s.cq := rfl
@[simp] theorem State.updPace_now (s : State) (r : Ring) (f : Pacing → Pacing) : (s.updPace r f).now = s.now := rfl
@[simp] theorem State.updPace_epoch (s : State) (r : Ring) (f : Pacing → Pacing) : (s.updPace r f).epoch = s.epoch := rfl
@[simp] theorem State.updPace_freeIdx (s : State) (r : Ring) (f : Pacing → Pacing) : (s.updPace r f).freeIdx = s.freeIdx := rfl
@[simp] theorem State.updPace_pending (s : State) (r : Ring) (f : Pacing → Pacing) : (s.updPace r f).pending = s.pending := rfl

/-! ### State.setClaim -/

@[simp] theorem State.setClaim_hp (s : State) (r : Ring) (b : Option Burst) : (s.setClaim r b).hp = s.hp := rfl
@[simp] theorem State.setClaim_lines (s : State) (r : Ring) (b : Option Burst) : (s.setClaim r b).lines = s.lines := rfl
@[simp] theorem State.setClaim_free (s : State) (r : Ring) (b : Option Burst) : (s.setClaim r b).free = s.free := rfl
@[simp] theorem State.setClaim_store (s : State) (r : Ring) (b : Option Burst) : (s.setClaim r b).store = s.store := rfl
@[simp] theorem State.setClaim_eng (s : State) (r : Ring) (b : Option Burst) : (s.setClaim r b).eng = s.eng := rfl
@[simp] theorem State.setClaim_cq (s : State) (r : Ring) (b : Option Burst) : (s.setClaim r b).cq = s.cq := rfl
@[simp] theorem State.setClaim_fu (s : State) (r : Ring) (b : Option Burst) : (s.setClaim r b).fu = s.fu := rfl
@[simp] theorem State.setClaim_now (s : State) (r : Ring) (b : Option Burst) : (s.setClaim r b).now = s.now := rfl
@[simp] theorem State.setClaim_epoch (s : State) (r : Ring) (b : Option Burst) : (s.setClaim r b).epoch = s.epoch := rfl
@[simp] theorem State.setClaim_freeIdx (s : State) (r : Ring) (b : Option Burst) : (s.setClaim r b).freeIdx = s.freeIdx := rfl
@[simp] theorem State.setClaim_pending (s : State) (r : Ring) (b : Option Burst) : (s.setClaim r b).pending = s.pending := rfl

/-! ### State.setPhase -/

@[simp] theorem State.setPhase_hp (s : State) (r : Ring) (p : Phase) : (s.setPhase r p).hp = s.hp := rfl
@[simp] theorem State.setPhase_lines (s : State) (r : Ring) (p : Phase) : (s.setPhase r p).lines = s.lines := rfl
@[simp] theorem State.setPhase_free (s : State) (r : Ring) (p : Phase) : (s.setPhase r p).free = s.free := rfl
@[simp] theorem State.setPhase_sc (s : State) (r : Ring) (p : Phase) : (s.setPhase r p).sc = s.sc := rfl
@[simp] theorem State.setPhase_store (s : State) (r : Ring) (p : Phase) : (s.setPhase r p).store = s.store := rfl
@[simp] theorem State.setPhase_cq (s : State) (r : Ring) (p : Phase) : (s.setPhase r p).cq = s.cq := rfl
@[simp] theorem State.setPhase_fu (s : State) (r : Ring) (p : Phase) : (s.setPhase r p).fu = s.fu := rfl
@[simp] theorem State.setPhase_now (s : State) (r : Ring) (p : Phase) : (s.setPhase r p).now = s.now := rfl
@[simp] theorem State.setPhase_epoch (s : State) (r : Ring) (p : Phase) : (s.setPhase r p).epoch = s.epoch := rfl
@[simp] theorem State.setPhase_freeIdx (s : State) (r : Ring) (p : Phase) : (s.setPhase r p).freeIdx = s.freeIdx := rfl
@[simp] theorem State.setPhase_pending (s : State) (r : Ring) (p : Phase) : (s.setPhase r p).pending = s.pending := rfl

/-! ### State.writesLeave -/

@[simp] theorem State.writesLeave_lines (s : State) : s.writesLeave.lines = s.lines := rfl
@[simp] theorem State.writesLeave_free (s : State) : s.writesLeave.free = s.free := rfl
@[simp] theorem State.writesLeave_sc (s : State) : s.writesLeave.sc = s.sc := rfl
@[simp] theorem State.writesLeave_store (s : State) : s.writesLeave.store = s.store := rfl
@[simp] theorem State.writesLeave_eng (s : State) : s.writesLeave.eng = s.eng := rfl
@[simp] theorem State.writesLeave_cq (s : State) : s.writesLeave.cq = s.cq := rfl
@[simp] theorem State.writesLeave_fu (s : State) : s.writesLeave.fu = s.fu := rfl
@[simp] theorem State.writesLeave_now (s : State) : s.writesLeave.now = s.now := rfl
@[simp] theorem State.writesLeave_epoch (s : State) : s.writesLeave.epoch = s.epoch := rfl
@[simp] theorem State.writesLeave_freeIdx (s : State) : s.writesLeave.freeIdx = s.freeIdx := rfl
@[simp] theorem State.writesLeave_pending (s : State) : s.writesLeave.pending = s.pending := rfl
@[simp] theorem State.writesLeave_writes (s : State) : s.writesLeave.hp.writes = [] := rfl

/-! ### State.emit -/

@[simp] theorem State.emit_lines (s : State) (x : LinkItem) : (s.emit x).lines = s.lines := rfl
@[simp] theorem State.emit_free (s : State) (x : LinkItem) : (s.emit x).free = s.free := rfl
@[simp] theorem State.emit_sc (s : State) (x : LinkItem) : (s.emit x).sc = s.sc := rfl
@[simp] theorem State.emit_store (s : State) (x : LinkItem) : (s.emit x).store = s.store := rfl
@[simp] theorem State.emit_eng (s : State) (x : LinkItem) : (s.emit x).eng = s.eng := rfl
@[simp] theorem State.emit_cq (s : State) (x : LinkItem) : (s.emit x).cq = s.cq := rfl
@[simp] theorem State.emit_fu (s : State) (x : LinkItem) : (s.emit x).fu = s.fu := rfl
@[simp] theorem State.emit_now (s : State) (x : LinkItem) : (s.emit x).now = s.now := rfl
@[simp] theorem State.emit_epoch (s : State) (x : LinkItem) : (s.emit x).epoch = s.epoch := rfl
@[simp] theorem State.emit_freeIdx (s : State) (x : LinkItem) : (s.emit x).freeIdx = s.freeIdx := rfl
@[simp] theorem State.emit_pending (s : State) (x : LinkItem) : (s.emit x).pending = s.pending := rfl

/-! ### State.takeWrite -/

@[simp] theorem State.takeWrite_lines (s : State) (a : Addr) (d : List Byte) : (s.takeWrite a d).lines = s.lines := rfl
@[simp] theorem State.takeWrite_free (s : State) (a : Addr) (d : List Byte) : (s.takeWrite a d).free = s.free := rfl
@[simp] theorem State.takeWrite_sc (s : State) (a : Addr) (d : List Byte) : (s.takeWrite a d).sc = s.sc := rfl
@[simp] theorem State.takeWrite_store (s : State) (a : Addr) (d : List Byte) : (s.takeWrite a d).store = s.store := rfl
@[simp] theorem State.takeWrite_eng (s : State) (a : Addr) (d : List Byte) : (s.takeWrite a d).eng = s.eng := rfl
@[simp] theorem State.takeWrite_cq (s : State) (a : Addr) (d : List Byte) : (s.takeWrite a d).cq = s.cq := rfl
@[simp] theorem State.takeWrite_fu (s : State) (a : Addr) (d : List Byte) : (s.takeWrite a d).fu = s.fu := rfl
@[simp] theorem State.takeWrite_now (s : State) (a : Addr) (d : List Byte) : (s.takeWrite a d).now = s.now := rfl
@[simp] theorem State.takeWrite_epoch (s : State) (a : Addr) (d : List Byte) : (s.takeWrite a d).epoch = s.epoch := rfl
@[simp] theorem State.takeWrite_freeIdx (s : State) (a : Addr) (d : List Byte) : (s.takeWrite a d).freeIdx = s.freeIdx := rfl
@[simp] theorem State.takeWrite_pending (s : State) (a : Addr) (d : List Byte) : (s.takeWrite a d).pending = s.pending := rfl

/-! ### State.atTime -/

@[simp] theorem State.atTime_hp (s : State) (n : Nat) : (s.atTime n).hp = s.hp := rfl
@[simp] theorem State.atTime_lines (s : State) (n : Nat) : (s.atTime n).lines = s.lines := rfl
@[simp] theorem State.atTime_free (s : State) (n : Nat) : (s.atTime n).free = s.free := rfl
@[simp] theorem State.atTime_sc (s : State) (n : Nat) : (s.atTime n).sc = s.sc := rfl
@[simp] theorem State.atTime_store (s : State) (n : Nat) : (s.atTime n).store = s.store := rfl
@[simp] theorem State.atTime_eng (s : State) (n : Nat) : (s.atTime n).eng = s.eng := rfl
@[simp] theorem State.atTime_cq (s : State) (n : Nat) : (s.atTime n).cq = s.cq := rfl
@[simp] theorem State.atTime_fu (s : State) (n : Nat) : (s.atTime n).fu = s.fu := rfl
@[simp] theorem State.atTime_epoch (s : State) (n : Nat) : (s.atTime n).epoch = s.epoch := rfl
@[simp] theorem State.atTime_freeIdx (s : State) (n : Nat) : (s.atTime n).freeIdx = s.freeIdx := rfl
@[simp] theorem State.atTime_pending (s : State) (n : Nat) : (s.atTime n).pending = s.pending := rfl

/-! ### The places that an update changes. Each stands twice: at an index of its type, and, as simp writes it, at a number. -/

theorem vset {α : Type} {n : Nat} (v : Vector α n) (i j : Fin n) (a : α) :
    (v.set i a)[j] = if j = i then a else v[j] := by
  show (v.set i.val a)[j.val] = if j = i then a else v[j.val]
  rw [Vector.getElem_set]
  simp only [Fin.ext_iff, eq_comm]

@[simp] theorem State.updEng_get (s : State) (r k : Ring) (f : Engine → Engine) :
    (s.updEng r f).eng[k] = if k = r then f s.eng[r] else s.eng[k] := vset _ _ _ _

@[simp] theorem State.updEng_getElem (s : State) (r k : Ring) (f : Engine → Engine) :
    (s.updEng r f).eng[k.val] = if k = r then f s.eng[r.val] else s.eng[k.val] := vset _ _ _ _

@[simp] theorem State.updEng_zero (s : State) (r : Ring) (f : Engine → Engine) :
    (s.updEng r f).eng[0] = if 0 = r then f s.eng[r.val] else s.eng[0] := vset _ _ 0 _

@[simp] theorem State.updLine_get (s : State) (l k : LineIx) (f : Line → Line) :
    (s.updLine l f).lines[k] = if k = l then f s.lines[l] else s.lines[k] := vset _ _ _ _

@[simp] theorem State.updLine_getElem (s : State) (l k : LineIx) (f : Line → Line) :
    (s.updLine l f).lines[k.val] = if k = l then f s.lines[l.val] else s.lines[k.val] := vset _ _ _ _

@[simp] theorem State.updLine_zero (s : State) (l : LineIx) (f : Line → Line) :
    (s.updLine l f).lines[0] = if 0 = l then f s.lines[l.val] else s.lines[0] := vset _ _ 0 _

@[simp] theorem State.updCq_get (s : State) (q k : CqIx) (f : Cq → Cq) :
    (s.updCq q f).cq[k] = if k = q then f s.cq[q] else s.cq[k] := vset _ _ _ _

@[simp] theorem State.updCq_getElem (s : State) (q k : CqIx) (f : Cq → Cq) :
    (s.updCq q f).cq[k.val] = if k = q then f s.cq[q.val] else s.cq[k.val] := vset _ _ _ _

@[simp] theorem State.updCq_zero (s : State) (q : CqIx) (f : Cq → Cq) :
    (s.updCq q f).cq[0] = if 0 = q then f s.cq[q.val] else s.cq[0] := vset _ _ 0 _

@[simp] theorem State.updPace_get (s : State) (r k : Ring) (f : Pacing → Pacing) :
    (s.updPace r f).fu.pace[k] = if k = r then f s.fu.pace[r] else s.fu.pace[k] := vset _ _ _ _

@[simp] theorem State.updPace_getElem (s : State) (r k : Ring) (f : Pacing → Pacing) :
    (s.updPace r f).fu.pace[k.val] = if k = r then f s.fu.pace[r.val] else s.fu.pace[k.val] := vset _ _ _ _

@[simp] theorem State.updPace_zero (s : State) (r : Ring) (f : Pacing → Pacing) :
    (s.updPace r f).fu.pace[0] = if 0 = r then f s.fu.pace[r.val] else s.fu.pace[0] := vset _ _ 0 _

@[simp] theorem State.setPhase_get (s : State) (r k : Ring) (p : Phase) :
    (s.setPhase r p).eng[k] =
      if k = r then { s.eng[r] with exec := s.eng[r].exec.map (fun x => { x with phase := p }) } else s.eng[k] :=
  vset _ _ _ _

@[simp] theorem State.setPhase_getElem (s : State) (r k : Ring) (p : Phase) :
    (s.setPhase r p).eng[k.val] =
      if k = r then { s.eng[r.val] with exec := s.eng[r.val].exec.map (fun x => { x with phase := p }) }
      else s.eng[k.val] :=
  vset _ _ _ _

@[simp] theorem State.setPhase_zero (s : State) (r : Ring) (p : Phase) :
    (s.setPhase r p).eng[0] =
      if 0 = r then { s.eng[r.val] with exec := s.eng[r.val].exec.map (fun x => { x with phase := p }) }
      else s.eng[0] :=
  vset _ _ 0 _

theorem State.setClaim_get (s : State) (r k : Ring) (b : Option Burst) :
    (s.setClaim r b).sc.claims[k] = if k = r then b else s.sc.claims[k] := vset _ _ _ _

/-- The parts of SC other than the claims that wait. -/
@[simp] theorem State.setClaim_sc (s : State) (r : Ring) (b : Option Burst) :
    (s.setClaim r b).sc = { s.sc with claims := s.sc.claims.set r b } := rfl

/-- The parts of FU other than the pacing state. -/
theorem State.updPace_fu (s : State) (r : Ring) (f : Pacing → Pacing) :
    (s.updPace r f).fu = { s.fu with pace := s.fu.pace.set r (f s.fu.pace[r]) } := rfl

@[simp] theorem State.emit_out (s : State) (x : LinkItem) : (s.emit x).hp.out = s.hp.out ++ [x] := rfl

@[simp] theorem State.emit_hp (s : State) (x : LinkItem) : (s.emit x).hp = { s.hp with out := s.hp.out ++ [x] } := rfl

/-- HP takes a write under the next number; one that can be issued waits behind those taken before it (R182). -/
@[simp] theorem State.takeWrite_hp (s : State) (a : Addr) (d : List Byte) :
    (s.takeWrite a d).hp = { s.hp with
      taken := s.hp.taken + 1, writes := s.hp.writes ++ (if s.canIssue then [s.hostWrite a d] else []) } := rfl

/-- The report of a write changes what HP holds of writes, and nothing else (R182). -/
theorem writeReported_frame (w : HostWrite) (s : State) :
    writeReported w s = { s with hp := { s.hp with
      writes := (writeReported w s).hp.writes, left := (writeReported w s).hp.left
      out := (writeReported w s).hp.out } } := by
  unfold writeReported
  split <;> rfl

@[simp] theorem writeReported_eng (w : HostWrite) (s : State) : (writeReported w s).eng = s.eng := by
  rw [writeReported_frame]

@[simp] theorem writeReported_cq (w : HostWrite) (s : State) : (writeReported w s).cq = s.cq := by
  rw [writeReported_frame]

@[simp] theorem writeReported_lines (w : HostWrite) (s : State) : (writeReported w s).lines = s.lines := by
  rw [writeReported_frame]

@[simp] theorem writeReported_sc (w : HostWrite) (s : State) : (writeReported w s).sc = s.sc := by
  rw [writeReported_frame]

@[simp] theorem writeReported_fu (w : HostWrite) (s : State) : (writeReported w s).fu = s.fu := by
  rw [writeReported_frame]

@[simp] theorem writeReported_store (w : HostWrite) (s : State) : (writeReported w s).store = s.store := by
  rw [writeReported_frame]

@[simp] theorem State.atTime_now (s : State) (n : Nat) : (s.atTime n).now = max s.now n := rfl

/-! ### One place updated twice -/

@[simp] theorem vset_self {α : Type} {n : Nat} (v : Vector α n) (i : Fin n) (a : α) : (v.set i a)[i] = a := by
  rw [vset, if_pos rfl]

theorem vset_vset {α : Type} {n : Nat} (v : Vector α n) (i : Fin n) (a b : α) : (v.set i a).set i b = v.set i b := by
  simp

/-- Writing back what stands there changes nothing. -/
theorem vset_same {α : Type} {n : Nat} (v : Vector α n) (i : Fin n) : v.set i v[i] = v := by
  simp

theorem State.updEng_updEng (s : State) (r : Ring) (f g : Engine → Engine) :
    (s.updEng r f).updEng r g = s.updEng r (fun e => g (f e)) := by
  simp [-Fin.getElem_fin, State.updEng]

theorem State.updLine_updLine (s : State) (l : LineIx) (f g : Line → Line) :
    (s.updLine l f).updLine l g = s.updLine l (fun x => g (f x)) := by
  simp [-Fin.getElem_fin, State.updLine]

theorem State.updCq_updCq (s : State) (q : CqIx) (f g : Cq → Cq) :
    (s.updCq q f).updCq q g = s.updCq q (fun c => g (f c)) := by
  simp [-Fin.getElem_fin, State.updCq]

theorem State.updPace_updPace (s : State) (r : Ring) (f g : Pacing → Pacing) :
    (s.updPace r f).updPace r g = s.updPace r (fun p => g (f p)) := by
  simp [-Fin.getElem_fin, State.updPace]

end Sys2Proof.Machine
end

