-- ==== Sys2Proof/Laws/Kept.lean ====
section
/-! SUPPORT. Laws/Kept.lean: one lemma per shared operation, that it leaves alone what Kept names. Each has the form "if
`t` is kept from `s`, so is the operation on `t`", so that they chain. -/

namespace Sys2Proof.Machine

theorem Untouched.refl (s : State) : Untouched s s := rfl

theorem Untouched.trans {s t u : State} (h : Untouched s t) (k : Untouched t u) : Untouched s u := by
  unfold Untouched at *
  rw [k, h]

theorem Kept.refl (s : State) : Kept s s := ⟨rfl, fun _ => rfl⟩

theorem Kept.trans {s t u : State} (h : Kept s t) (k : Kept t u) : Kept s u :=
  ⟨h.1.trans k.1, fun l => (k.2 l).trans (h.2 l)⟩

variable {s t : State}

/-! ## Updates -/

theorem Kept.updEng (r : Ring) (f : Engine → Engine) (h : Kept s t) : Kept s (t.updEng r f) :=
  h.trans ⟨rfl, fun _ => rfl⟩

theorem Kept.setPhase (r : Ring) (p : Phase) (h : Kept s t) : Kept s (t.setPhase r p) := h.updEng r _

theorem Kept.updCq (q : CqIx) (f : Cq → Cq) (h : Kept s t) : Kept s (t.updCq q f) := h.trans ⟨rfl, fun _ => rfl⟩

theorem Kept.updPace (r : Ring) (f : Pacing → Pacing) (h : Kept s t) : Kept s (t.updPace r f) :=
  h.trans ⟨rfl, fun _ => rfl⟩

theorem Kept.setClaim (r : Ring) (b : Option Burst) (h : Kept s t) : Kept s (t.setClaim r b) :=
  h.trans ⟨rfl, fun _ => rfl⟩

theorem Kept.updLine (l : LineIx) (f : Line → Line) (hf : (f t.lines[l]).gen = t.lines[l].gen) (h : Kept s t) :
    Kept s (t.updLine l f) :=
  h.trans ⟨rfl, fun k => by simp only [State.updLine_get]; split <;> simp_all⟩

theorem Kept.emit (x : LinkItem) (h : Kept s t) : Kept s (t.emit x) := h.trans ⟨rfl, fun _ => rfl⟩

theorem Kept.takeWrite (a : Addr) (d : List Byte) (h : Kept s t) : Kept s (t.takeWrite a d) :=
  h.trans ⟨rfl, fun _ => rfl⟩

theorem Kept.writeReported (w : HostWrite) (h : Kept s t) : Kept s (writeReported w t) := by
  unfold Machine.writeReported; split <;> exact h.trans ⟨rfl, fun _ => rfl⟩

theorem Kept.sendMessage (v : Fin 5) (h : Kept s t) : Kept s (sendMessage v t) := by
  unfold Machine.sendMessage; split
  · exact Kept.emit _ (h.trans ⟨rfl, fun _ => rfl⟩)
  · exact h

theorem Kept.reportFault (c : FaultCode) (n : Nat) (h : Kept s t) : Kept s (reportFault c n t) := by
  unfold Machine.reportFault; split
  · exact Kept.sendMessage _ (h.trans ⟨rfl, fun _ => rfl⟩)
  · exact h.trans ⟨rfl, fun _ => rfl⟩

theorem Kept.issueWrite (r : Ring) (a : Addr) (d : List Byte) (h : Kept s t) : Kept s (issueWrite r a d t) :=
  (h.updEng r _).takeWrite a d

theorem Kept.issueRead (r : Ring) (a : Addr) (n : Nat) (h : Kept s t) : Kept s (issueRead r a n t) := h.updEng r _

/-! ## The store port -/

theorem Kept.grantPort (r : Ring) (h : Kept s t) : Kept s (grantPort r t) := by
  unfold Machine.grantPort; split
  · exact h
  · exact h.trans ⟨rfl, fun _ => rfl⟩

theorem Kept.arbitrate (h : Kept s t) : Kept s (arbitrate t) := by
  unfold Machine.arbitrate
  repeat' split
  all_goals first
    | exact h
    | exact h.trans ⟨rfl, fun _ => rfl⟩
    | exact Kept.grantPort _ (h.trans ⟨rfl, fun _ => rfl⟩)

theorem Kept.claimPort (r : Ring) (b : Burst) (h : Kept s t) : Kept s (claimPort r b t) := (h.setClaim r _).arbitrate

/-! ## Completion rings -/

theorem Kept.issueRecord (q : CqIx) (c : Claim) (h : Kept s t) : Kept s (issueRecord q c t) := by
  unfold Machine.issueRecord; split
  · exact h
  · exact (h.updCq q _).takeWrite _ _

theorem Kept.takeClaim (q : CqIx) (c : Claim) (h : Kept s t) : Kept s (takeClaim q c t) := by
  unfold Machine.takeClaim; split
  · exact h.issueRecord q c
  · exact h.updCq q _

theorem Kept.serveQueue (q : CqIx) (h : Kept s t) : Kept s (serveQueue q t) := by
  unfold Machine.serveQueue
  repeat' split
  all_goals first
    | exact h
    | exact (h.updCq q _).issueRecord q _

theorem Kept.withdrawClaims (q : CqIx) (p : Claim → Bool) (h : Kept s t) : Kept s (withdrawClaims q p t) := by
  unfold Machine.withdrawClaims; split
  · exact (h.updCq q _).serveQueue q
  · exact h

theorem Kept.signalCq (q : CqIx) (h : Kept s t) : Kept s (signalCq q t) := (h.updCq q _).sendMessage _

theorem Kept.moderate (q : CqIx) (h : Kept s t) : Kept s (moderate q t) := by
  unfold Machine.moderate
  repeat' split
  all_goals first
    | exact h
    | exact h.signalCq q
    | exact h.updCq q _

theorem Kept.judgeRetire (q : CqIx) (n : Nat) (h : Kept s t) : Kept s (judgeRetire q n t) := by
  unfold Machine.judgeRetire; split
  · exact (h.updCq q _).serveQueue q
  · exact h.reportFault _ _

theorem Kept.takeRetire (q : CqIx) (n : Nat) (h : Kept s t) : Kept s (takeRetire q n t) := by
  unfold Machine.takeRetire; split
  · exact (h.updCq q _).updCq q _
  · exact (h.updCq q _).judgeRetire q n

theorem Kept.takeHeld (q : CqIx) (h : Kept s t) : Kept s (takeHeld q t) := by
  unfold Machine.takeHeld; split
  · exact h
  · exact (h.updCq q _).judgeRetire q _

theorem Kept.refuseHeld (q : CqIx) (h : Kept s t) : Kept s (refuseHeld q t) := by
  unfold Machine.refuseHeld; split
  · exact h
  · exact (h.updCq q _).reportFault _ _

/-! ## Engines -/

theorem Kept.tryFetch (r : Ring) (h : Kept s t) : Kept s (tryFetch r t) := by
  unfold Machine.tryFetch
  repeat' split
  all_goals first
    | exact h
    | exact h.updEng r _

theorem Kept.halt (r : Ring) (h : Kept s t) : Kept s (halt r t) := (h.updEng r _).updPace r _

theorem Kept.haltCause (r : Ring) (h : Kept s t) : Kept s (haltCause r t) := by
  unfold Machine.haltCause
  repeat' split
  all_goals first
    | exact h
    | exact h.updEng r _
    | exact h.halt r

theorem Kept.execStaged (r : Ring) (x : Record) (h : Kept s t) : Kept s (execStaged r x t) := h.updEng r _

theorem Kept.goOn (r : Ring) (h : Kept s t) : Kept s (goOn r t) := by
  unfold Machine.goOn
  repeat' split
  all_goals first
    | exact h.halt r
    | exact (h.execStaged r _).tryFetch r
    | exact (h.updEng r _).tryFetch r
    | exact h.updEng r _

theorem Kept.endCommand (r : Ring) (res : Result) (h : Kept s t) : Kept s (endCommand r res t) := by
  unfold Machine.endCommand
  dsimp only
  repeat' split
  all_goals first
    | exact h
    | exact (h.updEng r _).goOn r
    | exact ((h.updEng r _).updEng r _).takeClaim _ _
    | exact (h.updEng r _).updEng r _

theorem Kept.guarded (r : Ring) (x : Record) {k : State → State} (hk : ∀ {u}, Kept s u → Kept s (k u)) (h : Kept s t) :
    Kept s (guarded r x k t) := by
  unfold Machine.guarded
  repeat' split
  all_goals first
    | exact hk h
    | exact h.endCommand r _

theorem Kept.runKind (r : Ring) (k : Kind) {body : Record → State → State}
    (hb : ∀ x {u}, Kept s u → Kept s (body x u)) (h : Kept s t) : Kept s (runKind r k body t) := by
  unfold Machine.runKind
  repeat' split
  all_goals first
    | exact h
    | exact h.guarded r _ (hb _)

theorem Kept.onLineRing (r : Ring) (x : Record) {body : Record → State → State}
    (hb : ∀ x {u}, Kept s u → Kept s (body x u)) (h : Kept s t) : Kept s (onLineRing r body x t) := by
  unfold Machine.onLineRing; split
  · exact h.endCommand r _
  · exact hb x h

theorem Kept.takePost (r : Ring) (n : Nat) (h : Kept s t) : Kept s (takePost r n t) := by
  unfold Machine.takePost Machine.refusePost
  dsimp only
  repeat' split
  all_goals first
    | exact h.reportFault _ _
    | exact h.updEng r _
    | exact ((h.updEng r _).updEng r _).tryFetch r
    | exact (h.updEng r _).tryFetch r

/-! ## Locks -/

theorem Kept.pushNext (r : Ring) (x : Record) (n : Nat) (h : Kept s t) : Kept s (pushNext r x n t) :=
  (h.setPhase r _).issueRead r _ _

theorem Kept.readChunk (r : Ring) (h : Kept s t) : Kept s (readChunk r t) := by
  unfold Machine.readChunk
  dsimp only
  repeat' split
  all_goals first
    | exact h
    | exact h.setPhase r _
    | exact (h.setPhase r _).claimPort r _

theorem Kept.writeChunk (r : Ring) (h : Kept s t) : Kept s (writeChunk r t) := by
  unfold Machine.writeChunk
  repeat' split
  all_goals first
    | exact h
    | exact (h.setPhase r _).issueWrite r _ _

theorem Kept.pumpReader (r : Ring) (h : Kept s t) : Kept s (pumpReader r t) := ((h.readChunk r).writeChunk r).readChunk r

theorem Kept.issueInput (r : Ring) (x : Record) (c : StepCtx) (h : Kept s t) : Kept s (issueInput r x c t) := by
  unfold Machine.issueInput
  dsimp only
  split
  · exact (h.setPhase r _).issueRead r _ _
  · exact h.setPhase r _

theorem Kept.writeStep (r : Ring) (h : Kept s t) : Kept s (writeStep r t) := by
  unfold Machine.writeStep
  repeat' split
  all_goals first
    | exact h
    | exact (h.setPhase r _).issueWrite r _ _

theorem Kept.commitStep (r : Ring) (h : Kept s t) : Kept s (commitStep r t) := by
  unfold Machine.commitStep
  repeat' split
  all_goals first
    | exact h
    | exact (h.setPhase r _).claimPort r _

theorem Kept.leaveLock (r : Ring) (l : LineIx) (h : Kept s t) : Kept s (leaveLock r l t) := h.updLine l _ rfl

theorem Kept.beginReader (r : Ring) (x : Record) (os : List Nat) (h : Kept s t) : Kept s (beginReader r x os t) := by
  unfold Machine.beginReader
  dsimp only
  split
  · exact (h.leaveLock r _).endCommand r _
  · exact (h.setPhase r _).pumpReader r

theorem Kept.beginSetTaps (r : Ring) (x : Record) (h : Kept s t) : Kept s (beginSetTaps r x t) := by
  unfold Machine.beginSetTaps
  dsimp only
  split
  · exact Kept.endCommand r _ (Kept.leaveLock r _ (h.updLine _ _ rfl))
  · exact (h.setPhase r _).issueRead r _ _

theorem Kept.beginClear (r : Ring) (x : Record) (h : Kept s t) : Kept s (beginClear r x t) := by
  unfold Machine.beginClear
  exact Kept.endCommand r _ (Kept.leaveLock r _ (h.updLine _ _ rfl))

theorem Kept.beginStep (r : Ring) (x : Record) (h : Kept s t) : Kept s (beginStep r x t) := h.issueInput r x _

theorem Kept.beginGranted (r : Ring) (h : Kept s t) : Kept s (beginGranted r t) := by
  unfold Machine.beginGranted
  dsimp only
  split
  · exact h
  · have k := h.updEng r (fun e => { e with state := .active })
    split
    · exact k.pushNext r _ _
    · exact k.beginSetTaps r _
    · exact k.beginClear r _
    · exact k.beginStep r _
    · exact k.beginReader r _ _
    · exact k.beginReader r _ _
    · exact k

theorem Kept.grantWaiter (r : Ring) (h : Kept s t) : Kept s (grantWaiter r t) := by
  unfold Machine.grantWaiter
  split
  · exact (h.setPhase r _).updEng r _
  · exact h.beginGranted r

theorem Kept.endClose (l : LineIx) (h : Kept s t) : Kept s (endClose l t) := by
  unfold Machine.endClose
  dsimp only
  have k : Kept s (t.updLine l (fun y => Line.freeRecord y.gen)) := h.updLine l _ rfl
  have k2 : ∀ fr : List Extent, Kept s { t.updLine l (fun y => Line.freeRecord y.gen) with free := fr } :=
    fun _ => k.trans ⟨rfl, fun _ => rfl⟩
  cases t.lines[l].cfg
  all_goals
    dsimp only
    repeat' split
    all_goals first
      | exact k
      | exact k2 _
      | exact k.endCommand _ _
      | exact (k2 _).endCommand _ _

theorem Kept.grantLoop (n : Nat) (l : LineIx) (h : Kept s t) : Kept s (grantLoop n l t) := by
  induction n generalizing t with
  | zero => exact h
  | succ n ih =>
    unfold Machine.grantLoop
    dsimp only
    repeat' split
    all_goals first
      | exact h
      | exact h.endClose l
      | exact ih (Kept.grantWaiter _ (h.updLine l _ rfl))

theorem Kept.grantStep (l : LineIx) (h : Kept s t) : Kept s (grantStep l t) := h.grantLoop _ l

theorem Kept.release (r : Ring) (l : LineIx) (h : Kept s t) : Kept s (release r l t) := (h.leaveLock r l).grantStep l

theorem Kept.finish (r : Ring) (x : Record) (res : Result) (h : Kept s t) : Kept s (finish r x res t) :=
  (h.release r _).endCommand r res

theorem Kept.queueClaim (r : Ring) (l : LineIx) (k : WaitKind) (h : Kept s t) : Kept s (queueClaim r l k t) := by
  unfold Machine.queueClaim
  exact Kept.updEng r _ (Kept.setPhase r _ (h.updLine l _ rfl))

theorem Kept.claimReader (r : Ring) (l : LineIx) (h : Kept s t) : Kept s (claimReader r l t) := by
  unfold Machine.claimReader
  dsimp only
  split
  · exact Kept.grantStep l (Kept.beginGranted r (h.updLine l _ rfl))
  · exact h.queueClaim r l _

theorem Kept.claimWriter (r : Ring) (l : LineIx) (h : Kept s t) : Kept s (claimWriter r l t) := by
  unfold Machine.claimWriter
  split
  · exact Kept.grantStep l (Kept.beginGranted r (h.updLine l _ rfl))
  · exact h.queueClaim r l _

theorem Kept.finishStep (r : Ring) (h : Kept s t) : Kept s (finishStep r t) := by
  unfold Machine.finishStep
  dsimp only
  repeat' split
  all_goals first
    | exact h
    | exact h.finish r _ _

theorem Kept.pumpStep (r : Ring) (h : Kept s t) : Kept s (pumpStep r t) :=
  ((h.writeStep r).commitStep r).finishStep r

/-! ## Stops -/

theorem Kept.dropCommand (r : Ring) (h : Kept s t) : Kept s (dropCommand r t) := by
  unfold Machine.dropCommand
  dsimp only
  split
  · exact h
  · split
    · exact Kept.release r _ (h.updEng r _)
    · exact h.updEng r _

theorem Kept.dropClaim (r : Ring) (h : Kept s t) : Kept s (dropClaim r t) := by
  unfold Machine.dropClaim
  dsimp only
  repeat' split
  all_goals first
    | exact h
    | exact h.updEng r _
    | exact Kept.withdrawClaims _ _ (h.updEng r _)

theorem Kept.unwind (r : Ring) (h : Kept s t) : Kept s (unwind r t) := ((h.updEng r _).dropCommand r).dropClaim r

theorem Kept.finishRestart (h : Kept s t) : Kept s (finishRestart t) :=
  ((h.updCq 0 (fun x => Cq.fresh x.cfg)).updEng 0
    (fun e => { Engine.resetValue with state := .idle, cfg := e.cfg })).trans ⟨rfl, fun _ => rfl⟩

theorem Kept.tryRestart (h : Kept s t) : Kept s (tryRestart t) := by
  unfold Machine.tryRestart
  dsimp only
  repeat' split
  all_goals first
    | exact h
    | exact (h.unwind 0).finishRestart
    | exact h.unwind 0

theorem Kept.endControl (res : Result) (h : Kept s t) : Kept s (endControl res t) := by
  unfold Machine.endControl; split
  · exact (h.updEng 0 _).tryRestart
  · exact h.endCommand 0 res

theorem Kept.targetStopped (r : Ring) (rep : StopReport) (n : Nat) (h : Kept s t) :
    Kept s (targetStopped r rep n t) := by
  unfold Machine.targetStopped
  repeat' split
  all_goals first
    | exact h
    | exact h.endControl _

theorem Kept.discardNotice (r : Ring) (h : Kept s t) : Kept s (discardNotice r t) := by
  unfold Machine.discardNotice
  dsimp only
  split
  · exact h
  · exact Kept.withdrawClaims _ _ (h.updCq _ _)

theorem Kept.discardPacing (r : Ring) (h : Kept s t) : Kept s (discardPacing r t) :=
  (h.discardNotice r).updPace r _

theorem Kept.finishReset (r : Ring) (h : Kept s t) : Kept s (finishReset r t) := by
  unfold Machine.finishReset
  exact (h.updEng r _).targetStopped r _ _

theorem Kept.tryStop (r : Ring) (h : Kept s t) : Kept s (tryStop r t) := by
  unfold Machine.tryStop
  dsimp only
  have hu := h.unwind r
  generalize Machine.unwind r t = u at hu
  split
  · exact h.tryRestart
  · split
    · exact h
    · split
      · split
        · exact hu.halt r
        · split
          · exact hu.discardPacing r
          · exact (hu.discardPacing r).finishReset r
      · exact h

theorem Kept.beginStop (r : Ring) (c : StopCause) (h : Kept s t) : Kept s (beginStop r c t) :=
  ((h.updEng r _).setClaim r none).tryStop r

theorem Kept.noticeFailed (r : Ring) (h : Kept s t) : Kept s (noticeFailed r t) := by
  unfold Machine.noticeFailed
  dsimp only
  split
  · exact h
  · exact h.beginStop r _

theorem Kept.orStop (r : Ring) {k : State → State} (hk : Kept s t → Kept s (k t)) (h : Kept s t) :
    Kept s (orStop r k t) := by
  unfold Machine.orStop; split
  · exact h.tryStop r
  · exact hk h

end Sys2Proof.Machine
end

