-- ==== Sys2Proof/Laws/Ending.lean ====
section
/-! SUPPORT. Laws/Ending.lean: what taking a claim and ending a command do, said once. -/

namespace Sys2Proof.Machine

/-- Taking a claim (R123). -/
theorem takeClaim_taken (q : CqIx) (c : Claim) (s : State) : ClaimTaken q c s (takeClaim q c s) := by
  unfold ClaimTaken takeClaim
  refine ⟨fun k hk => ?_, ?_⟩
  · split
    · unfold issueRecord
      split <;> simp [-Fin.getElem_fin, hk]
    · simp [-Fin.getElem_fin, hk]
  · by_cases hr : s.cq[q].hasRoom && s.cq[q].queue.isEmpty
    · left
      simp only [hr, if_true]
      simp only [Cq.hasRoom, Bool.and_eq_true, Option.isSome_iff_exists, Option.isNone_iff_eq_none, Cq.full,
        Cq.nextTail, Bool.not_eq_true', beq_eq_false_iff_ne, List.isEmpty_iff] at hr
      obtain ⟨⟨⟨⟨g, hg⟩, hi⟩, hf⟩, hq⟩ := hr
      refine ⟨g, hg, hi, hq, by simpa [-Fin.getElem_fin, Cq.size, hg] using hf, ?_⟩
      simp [-Fin.getElem_fin, issueRecord, hg, handed, State.hostWrite, State.canIssue]
    · right
      simp only [hr]
      refine ⟨?_, by simp [-Fin.getElem_fin], rfl⟩
      rintro ⟨g, hg, hi, hq, hf⟩
      exact hr (by simp [-Fin.getElem_fin, Cq.hasRoom, Cq.full, Cq.nextTail, Cq.size, hg, hi, hq, hf])

/-- Taking a claim changes the one completion ring and the link. -/
theorem takeClaim_frame (q : CqIx) (c : Claim) (s : State) :
    takeClaim q c s = { s with
      cq := (takeClaim q c s).cq
      hp := { s.hp with taken := (takeClaim q c s).hp.taken, writes := (takeClaim q c s).hp.writes } } := by
  unfold takeClaim issueRecord
  repeat' split
  all_goals simp [-Fin.getElem_fin, State.takeWrite, State.updCq]

/-- Going on changes the one engine and, at a halt, its owed strobes (R110). -/
theorem goOn_frame (r : Ring) (s : State) :
    goOn r s = { s with eng := (goOn r s).eng, fu := (goOn r s).fu } := by
  unfold goOn halt tryFetch execStaged
  repeat' split
  all_goals simp [-Fin.getElem_fin, State.updEng, State.updPace]

theorem goOn_others (r : Ring) (s : State) {k : Ring} (hk : k ≠ r) : (goOn r s).eng[k] = s.eng[k] := by
  unfold goOn halt tryFetch execStaged
  repeat' split
  all_goals simp [-Fin.getElem_fin, hk]

/-- Trying to fetch changes nothing of the engine but its fetch (R101). -/
theorem tryFetch_eng (r : Ring) (s : State) :
    (tryFetch r s).eng[r] = { s.eng[r] with fetch := (tryFetch r s).eng[r].fetch } := by
  unfold tryFetch
  repeat' split
  all_goals simp [-Fin.getElem_fin]

/-- The fetch after trying to fetch (R101). -/
theorem tryFetch_fetch (r : Ring) (s : State) :
    (tryFetch r s).eng[r].fetch =
      match s.eng[r].cfg with
      | none => s.eng[r].fetch
      | some g =>
        if s.eng[r].mayFetch then some (s.hostRead (Addr.plus g.base (32 * s.eng[r].head)) 32)
        else s.eng[r].fetch := by
  unfold tryFetch
  cases hc : s.eng[r].cfg with
  | none => simp [-Fin.getElem_fin]
  | some g => by_cases hm : s.eng[r].mayFetch <;> simp [-Fin.getElem_fin, hm]

theorem tryFetch_fu (r : Ring) (s : State) : (tryFetch r s).fu = s.fu := by
  unfold tryFetch
  repeat' split
  all_goals rfl

/-- In ACTIVE with nothing staged and halt-pending clear, an engine that tries to fetch does what R101 says. -/
theorem tryFetch_fetchesOn {r : Ring} {s u : State} {e : Engine} (ht : s.now = u.now) (hp : s.hp = u.hp)
    (hs : s.eng[r].state = .active) (hg : s.eng[r].staged = none) (hh : s.eng[r].haltPending = false)
    (hc : e.cfg = s.eng[r].cfg) (hf : e.fetch = s.eng[r].fetch)
    (hd : e.head = s.eng[r].head) (hn : e.tail = s.eng[r].tail) : FetchesOn u e (tryFetch r s).eng[r] := by
  have hm : s.eng[r].mayFetch = true ↔ e.fetch = none ∧ 1 ≤ e.pendingRecords := by
    have : e.pendingRecords = s.eng[r].pendingRecords := by
      simp only [Engine.pendingRecords, Engine.size, hc, hd, hn]
    simp [-Fin.getElem_fin, Engine.mayFetch, hs, hg, hh, hf, this]
  unfold FetchesOn
  rw [tryFetch_fetch, hc]
  cases s.eng[r].cfg with
  | none => exact hf.symm
  | some g =>
    simp only [hm, hd, hf, State.hostRead, State.canIssue, ht, hp]
    by_cases hx : s.eng[r].fetch = none ∧ 1 ≤ e.pendingRecords
    · simp only [if_pos hx]
    · simp only [if_neg hx]

/-- Going on, by the table of R110. -/
theorem goOn_goesOn (r : Ring) (s : State) : GoesOn r s (goOn r s) := by
  unfold goOn
  dsimp only [GoesOn]
  by_cases hh : s.eng[r].haltPending = true
  · simp only [hh, if_true]
    simp [-Fin.getElem_fin, halt, State.updPace_fu]
  · have hh' : s.eng[r].haltPending = false := by simpa using hh
    rw [if_neg hh, if_neg hh]
    cases hs : s.eng[r].staged with
    | some y =>
      have hf := tryFetch_fetchesOn (r := r) (s := execStaged r y s) (u := s) (e := s.eng[r]) rfl rfl
        (by simp [-Fin.getElem_fin, execStaged]) (by simp [-Fin.getElem_fin, execStaged])
        (by simpa [-Fin.getElem_fin, execStaged] using hh') (by simp [-Fin.getElem_fin, execStaged])
        (by simp [-Fin.getElem_fin, execStaged]) (by simp [-Fin.getElem_fin, execStaged])
        (by simp [-Fin.getElem_fin, execStaged])
      have he := tryFetch_eng r (execStaged r y s)
      refine ⟨?_, ?_, ?_, ?_, ?_, ?_, ?_, ?_, ?_, by rw [tryFetch_fu]; rfl, hf, ?_, ?_, ?_⟩
      all_goals
        rw [he]
        simp [-Fin.getElem_fin, execStaged, hh']
    | none =>
      by_cases hw : s.eng[r].fetch.isSome ∨ 1 ≤ s.eng[r].pendingRecords
      · have hw' : (s.eng[r].fetch.isSome || decide (1 ≤ s.eng[r].pendingRecords)) = true := by simpa using hw
        have hf := tryFetch_fetchesOn (r := r) (s := s.updEng r (fun e => { e with state := .active })) (u := s)
          (e := s.eng[r]) rfl rfl (by simp [-Fin.getElem_fin]) (by simpa [-Fin.getElem_fin] using hs)
          (by simpa [-Fin.getElem_fin] using hh') (by simp [-Fin.getElem_fin]) (by simp [-Fin.getElem_fin])
          (by simp [-Fin.getElem_fin]) (by simp [-Fin.getElem_fin])
        have he := tryFetch_eng r (s.updEng r (fun e => { e with state := .active }))
        simp only [hw', if_true, if_pos hw]
        refine ⟨?_, ?_, ?_, ?_, ?_, ?_, ?_, ?_, ?_, by rw [tryFetch_fu]; rfl, hf, ?_, ?_, ?_⟩
        all_goals
          rw [he]
          simp [-Fin.getElem_fin, hh', hs]
      · have hw' : (s.eng[r].fetch.isSome || decide (1 ≤ s.eng[r].pendingRecords)) = false := by simpa using hw
        have h3 : ¬ 1 ≤ s.eng[r].pendingRecords := fun h => hw (.inr h)
        simp only [hw', if_neg hw]
        simp only [Bool.false_eq_true, if_false, State.updEng_get, if_true, State.updEng_fu, hs, hh', true_and, and_true]
        unfold FetchesOn
        simp only [h3, and_false, if_false]
        split <;> trivial

/-- Ending a command (R108, R110, R111). -/
theorem endCommand_ended {r : Ring} {s : State} {e : Exec} (h : s.eng[r].exec = some e) (res : Result) :
    Ended r e.rcd res s (endCommand r res s) := by
  have hk : ∀ st : Status, st.quietable = true ↔ (st = .ok ∨ st = .skipped) := by intro st; cases st <;> simp [-Fin.getElem_fin, Status.quietable]
  unfold endCommand
  simp only [h]
  by_cases hq : e.rcd.quiet && res.status.quietable
  · simp only [hq, if_true]
    have hq' : e.rcd.quiet = true ∧ (res.status = .ok ∨ res.status = .skipped) := by
      simpa [-Fin.getElem_fin, hk] using hq
    refine ⟨fun k hk => by rw [goOn_others _ _ hk]; simp [-Fin.getElem_fin, hk], ?_, ?_⟩
    · conv_lhs => rw [goOn_frame]
      rw [show ∀ u : State, u.hp = (u.updEng r (fun e => e)).hp from fun _ => rfl]
      have := goOn_frame r (s.updEng r (fun e => { e with exec := none, lastOk := lastOkAfter res.status e.lastOk }))
      rw [this]
      rfl
    · rw [if_pos hq']
      refine ⟨?_, ?_, goOn_goesOn _ _⟩
      · rw [goOn_frame]; rfl
      · rw [goOn_frame]; rfl
  · have hq' : ¬ (e.rcd.quiet = true ∧ (res.status = .ok ∨ res.status = .skipped)) := by
      simpa [hk] using hq
    rw [if_neg hq]
    simp only [State.updEng_get, if_true]
    cases hc : s.eng[r].cfg with
    | none =>
      refine ⟨fun k hk => by simp [-Fin.getElem_fin, hk], rfl, ?_⟩
      rw [if_neg hq']
      exact ⟨rfl, by simp [-Fin.getElem_fin], fun g hg => by rw [hc] at hg; simp at hg⟩
    | some g =>
      dsimp only
      refine ⟨fun k hk => by rw [takeClaim_frame]; simp [-Fin.getElem_fin, hk], ?_, ?_⟩
      · rw [takeClaim_frame]
        rfl
      · rw [if_neg hq']
        refine ⟨by rw [takeClaim_frame]; rfl, by rw [takeClaim_frame]; simp [-Fin.getElem_fin], ?_⟩
        intro g' hg'
        obtain rfl : g = g' := by rw [hc] at hg'; exact Option.some.inj hg'
        have := takeClaim_taken g.cq
          { ring := r, notice := false, orphan := false, tag := e.rcd.tag, result := res }
          ((s.updEng r (fun e => { e with exec := none, lastOk := lastOkAfter res.status e.lastOk })).updEng r
            (fun e => { e with state := .waitCq }))
        simpa [-Fin.getElem_fin, ClaimTaken, handed, State.canIssue] using this

/-- A released part carries out its commands (R184). -/
theorem whileReleased_eq {s : State} (h : Released s) (k : State → Host.Outcome State Fault Refusal) :
    whileReleased s k = k s :=
  if_neg (by simp [show s.hp.inReset = false from h])

/-- Sending an interrupt message (R181, R182; log 25). -/
theorem sendMessage_sent (v : Fin 5) (s : State) : sendMessage v s = MessageSent v s := by
  unfold sendMessage MessageSent
  simp only [Bool.and_eq_true]
  split <;> rfl

/-- Reporting a fault (R179, R181). -/
theorem reportFault_reported (c : FaultCode) (n : Nat) (s : State) : Reported c n s (reportFault c n s) := by
  unfold Reported reportFault
  exact ⟨fun h => by rw [if_pos h, sendMessage_sent], fun h => by rw [if_neg h]⟩

/-- Examining the front claim (R124). -/
theorem serveQueue_served (q : CqIx) (s : State) : Served q s (serveQueue q s) := by
  unfold Served serveQueue
  cases hg : s.cq[q].cfg with
  | none => simp [-Fin.getElem_fin, Cq.hasRoom, hg]
  | some g =>
    cases hi : s.cq[q].inflight with
    | some w => simp [-Fin.getElem_fin, Cq.hasRoom, hg, hi]
    | none =>
      cases hq : s.cq[q].queue with
      | nil => simp [-Fin.getElem_fin]
      | cons c cs =>
        by_cases hf : (s.cq[q].tail + 1) % g.size = s.cq[q].head
        · simp [-Fin.getElem_fin, Cq.hasRoom, Cq.full, Cq.nextTail, Cq.size, hg, hi, hf]
        · simp [-Fin.getElem_fin, Cq.hasRoom, Cq.full, Cq.nextTail, Cq.size, hg, hi, hf, issueRecord,
            State.takeWrite, handed, State.hostWrite, State.canIssue, State.updCq]

/-- Withdrawing claims from a wait queue (R124, R130). -/
theorem withdrawClaims_withdrawn (q : CqIx) (p : Claim → Bool) (s : State) :
    Withdrawn q (fun c => p c = true) s (withdrawClaims q p s) := by
  unfold withdrawClaims
  refine ⟨fun ⟨c, hc, hp⟩ => ?_, fun h => ?_⟩
  · rw [if_pos (List.any_eq_true.mpr ⟨c, hc, hp⟩)]
    simpa [State.updCq] using serveQueue_served q (s.updCq q (fun x => { x with queue := x.queue.filter (fun c => !p c) }))
  · rw [if_neg (by simpa using h)]

/-- Discarding a ring's late notice (R130, R149). -/
theorem discardNotice_discarded (r : Ring) (s : State) : NoticeDiscarded r s (discardNotice r s) := by
  cases hc : s.eng[r].cfg with
  | none => simp [-Fin.getElem_fin, discardNotice, NoticeDiscarded, hc]
  | some g =>
    have h := withdrawClaims_withdrawn g.cq (Claim.isNoticeOf r) (s.updCq g.cq (fun x =>
      { x with
        inflight := x.inflight.map (fun w =>
          if w.claim.isNoticeOf r then { w with claim := { w.claim with orphan := true } } else w) }))
    simpa [-Fin.getElem_fin, discardNotice, NoticeDiscarded, hc, Claim.isNoticeOf, State.updCq] using h

/-- Discarding a ring's pacing state (R116, R151). -/
theorem discardPacing_discarded (r : Ring) (s : State) : PacingDiscarded r s (discardPacing r s) :=
  ⟨_, discardNotice_discarded r s, rfl⟩

/-- The failure of every transfer in flight (R182, R183; log 38). -/
theorem failTransfers_failed (s : State) : TransfersFailed s (failTransfers s) := by
  obtain ⟨k, hk⟩ : ∃ k, writesGone s = s.hp.writes.take k := ⟨_, rfl⟩
  refine ⟨k, ?_, fun r => ?_⟩
  · simp [failTransfers, issuedFirst, unissued, hk, HostWrite.item]
    rfl
  · simp [failTransfers, unissued]
    exact ⟨rfl, rfl⟩

end Sys2Proof.Machine
end

