-- ==== Sys2Proof/Laws/Locks.lean ====
section
/-! SUPPORT. Laws/Locks.lean: what grants and releases leave alone. -/

namespace Sys2Proof.Machine

/-! ### Engines of other rings -/

theorem endCommand_others {r k : Ring} (h : k ≠ r) (res : Result) (s : State) :
    (endCommand r res s).eng[k] = s.eng[k] := by
  cases he : s.eng[r].exec with
  | none => simp only [endCommand, he]
  | some e => exact (endCommand_ended he res).1 k h

theorem arbitrate_eng (s : State) : (arbitrate s).eng = s.eng := by
  unfold arbitrate grantPort
  repeat' split
  all_goals rfl

theorem readChunk_others {r k : Ring} (h : k ≠ r) (s : State) : (readChunk r s).eng[k] = s.eng[k] := by
  unfold readChunk claimPort
  dsimp only
  repeat' split
  all_goals simp [-Fin.getElem_fin, h, arbitrate_eng]

theorem writeChunk_others {r k : Ring} (h : k ≠ r) (s : State) : (writeChunk r s).eng[k] = s.eng[k] := by
  unfold writeChunk issueWrite
  repeat' split
  all_goals simp [-Fin.getElem_fin, h]

/-- A grant changes the engine of the ring that is granted, and no other (R44). -/
theorem beginGranted_others {r k : Ring} (h : k ≠ r) (s : State) : (beginGranted r s).eng[k] = s.eng[k] := by
  unfold beginGranted
  split
  · rfl
  · dsimp only
    split
    · simp [-Fin.getElem_fin, pushNext, issueRead, h]
    · unfold beginSetTaps
      split
      · rw [endCommand_others h]
        simp [-Fin.getElem_fin, leaveLock, h]
      · simp [-Fin.getElem_fin, issueRead, h]
    · unfold beginClear
      dsimp only
      rw [endCommand_others h]
      simp [-Fin.getElem_fin, leaveLock, h]
    · unfold beginStep issueInput
      dsimp only
      split <;> simp [-Fin.getElem_fin, issueRead, h]
    all_goals try
      unfold beginReader
      dsimp only
      split
      · rw [endCommand_others h]
        simp [-Fin.getElem_fin, leaveLock, h]
      · unfold pumpReader
        rw [readChunk_others h, writeChunk_others h, readChunk_others h]
        simp [-Fin.getElem_fin, h]
    all_goals simp [-Fin.getElem_fin, h]

theorem grantWaiter_others {r k : Ring} (h : k ≠ r) (s : State) : (grantWaiter r s).eng[k] = s.eng[k] := by
  unfold grantWaiter
  split
  · simp [-Fin.getElem_fin, h]
  · exact beginGranted_others h s

/-! ### Lines under a grant -/

theorem endCommand_lines (r : Ring) (res : Result) (s : State) : (endCommand r res s).lines = s.lines := by
  unfold endCommand
  split
  · rfl
  · dsimp only
    split
    · rw [goOn_frame]
      rfl
    · split
      · rfl
      · rw [takeClaim_frame]
        rfl

theorem arbitrate_lines (s : State) : (arbitrate s).lines = s.lines := by
  unfold arbitrate grantPort
  repeat' split
  all_goals rfl

theorem pumpReader_lines (r : Ring) (s : State) : (pumpReader r s).lines = s.lines := by
  have hr : ∀ s, (readChunk r s).lines = s.lines := fun s => by
    unfold readChunk claimPort
    dsimp only
    repeat' split
    all_goals simp [arbitrate_lines]
  have hw : ∀ s, (writeChunk r s).lines = s.lines := fun s => by
    unfold writeChunk issueWrite
    repeat' split
    all_goals simp
  unfold pumpReader
  rw [hr, hw, hr]

/-- A grant leaves every line's waiter queue as it is, or takes entries from it. -/
theorem beginGranted_queue (r : Ring) (l : LineIx) (s : State) :
    List.Sublist (beginGranted r s).lines[l].lock.queue s.lines[l].lock.queue := by
  have leave : ∀ (s u : State) (k : LineIx) (f : Line → Line), u.lines = (s.updLine k f).lines →
      (∀ x, List.Sublist (f x).lock.queue x.lock.queue) → List.Sublist u.lines[l].lock.queue s.lines[l].lock.queue := by
    intro s u k f hu hf
    rw [hu, State.updLine_get]
    split
    · rename_i h
      subst h
      exact hf _
    · exact List.Sublist.refl _
  unfold beginGranted
  split
  · exact List.Sublist.refl _
  · rename_i x p hx
    dsimp only
    have hl : ∀ s : State, (leaveLock r x.lineIx s) = s.updLine x.lineIx (fun y => { y with lock := y.lock.leave r }) :=
      fun _ => rfl
    split
    · exact List.Sublist.refl _
    · unfold beginSetTaps
      split
      · refine leave _ _ x.lineIx (fun y => { y with taps := [], lock := y.lock.leave r }) ?_
          (fun y => List.filter_sublist)
        rw [endCommand_lines, hl, State.updLine_updLine]
        rfl
      · exact List.Sublist.refl _
    · unfold beginClear
      dsimp only
      refine leave _ _ x.lineIx (fun y => { y with head := 0, fill := 0, lock := y.lock.leave r }) ?_
        (fun y => List.filter_sublist)
      rw [endCommand_lines, hl, State.updLine_updLine]
      rfl
    · unfold beginStep issueInput
      dsimp only
      split <;> exact List.Sublist.refl _
    all_goals try
      unfold beginReader
      dsimp only
      split
      · refine leave _ _ x.lineIx (fun y => { y with lock := y.lock.leave r }) ?_ (fun y => List.filter_sublist)
        rw [endCommand_lines, hl]
        rfl
      · simp only [pumpReader_lines, State.setPhase_lines, State.updEng_lines]
        exact List.Sublist.refl _
    all_goals exact List.Sublist.refl _

theorem grantWaiter_queue (r : Ring) (l : LineIx) (s : State) :
    List.Sublist (grantWaiter r s).lines[l].lock.queue s.lines[l].lock.queue := by
  unfold grantWaiter
  split
  · exact List.Sublist.refl _
  · exact beginGranted_queue r l s

/-- The record that a ring executes and has not begun. -/
theorem freshRecord_iff (r : Ring) (x : Record) (s : State) : freshRecord r s = some x ↔ Executes r x s := by
  unfold freshRecord Executes
  split
  · rename_i y h
    simp only [h, Option.some.injEq, Exec.mk.injEq, and_true]
  · rename_i h
    exact ⟨fun h => (nomatch h), fun h' => absurd h' (h x)⟩

/-- A ring reset meets a grant exactly as `MeetsReset` says (R50). -/
theorem resetMeets_iff (r : Ring) (s : State) : resetMeets r s = true ↔ MeetsReset r s := by
  have named : ∀ x : Record, (x.namesLineRing = true ∧ x.ringA = r) ↔ (r ≠ 0 ∧ x.paramA.toNat = r.val) := by
    intro x
    simp only [Record.namesLineRing, Record.ringA, Fin.ext_iff, Fin.ofNat, Bool.and_eq_true, decide_eq_true_eq, ne_eq]
    have := r.isLt
    exact ⟨fun ⟨⟨_, _⟩, _⟩ => ⟨by simp; omega, by omega⟩, fun ⟨h, _⟩ => by simp at h; omega⟩
  have begins : ∀ x, freshRecord 0 s = some x →
      ((!s.hp.inReset && s.eng[(0 : Ring)].stop.isNone && Kind.ofCode x.kind == some .resetRing && x.namesLineRing &&
        x.ringA == r && (Guard.ofCode x.guardCode).any (fun g => g.met s.eng[(0 : Ring)].lastOk s.eng[(0 : Ring)].test)) =
          true ↔
        r ≠ 0 ∧ s.eng[(0 : Ring)].stop = none ∧ BeginsControl .resetRing x s ∧ x.paramA.toNat = r.val) := by
    intro x hx
    have hx := (freshRecord_iff 0 x s).mp hx
    simp only [Bool.and_eq_true, beq_iff_eq, Bool.not_eq_true', Option.isNone_iff_eq_none, Option.any_eq_true,
      BeginsControl, Begins, GuardMet, Released, hx, true_and]
    have := named x
    tauto
  unfold resetMeets MeetsReset
  split
  · rename_i cs x hp hx
    rw [begins x hx]
    refine ⟨fun ⟨a, b, c⟩ => ⟨⟨cs, hp⟩, a, b, x, c⟩, fun ⟨_, a, b, y, c, d⟩ => ?_⟩
    obtain rfl : y = x := by
      have := (freshRecord_iff 0 y s).mpr c.2.1
      rw [hx] at this
      exact (Option.some.inj this).symm
    exact ⟨a, b, c, d⟩
  · rename_i h
    refine ⟨fun h => (nomatch h), fun ⟨⟨cs, hp⟩, _, _, x, hx, _⟩ => absurd ((freshRecord_iff 0 x s).mpr hx.2.1) (h cs x hp)⟩
/-! ### The grant step -/

/-- The end of a close changes no engine but that of a waiting CLOSE. -/
theorem endClose_others {k : Ring} (l : LineIx) (s : State) (h : ∀ w ∈ s.lines[l].lock.queue, w.ring ≠ k) :
    (endClose l s).eng[k] = s.eng[k] := by
  unfold endClose
  extract_lets x s1 s2
  have huk : s2.eng = s.eng := by
    unfold s2
    split <;> rfl
  clear_value s2
  have huk : s2.eng[k] = s.eng[k] := by simp only [huk]
  split
  · exact huk
  · rename_i w hw
    have hk : k ≠ w.ring := fun e => h w (List.mem_of_find?_eq_some hw) e.symm
    split
    · rw [endCommand_others hk, huk]
    · exact huk

/-- The grant step changes no engine but those of the waiters (R45). -/
theorem grantLoop_others {k : Ring} (n : Nat) (l : LineIx) (s : State)
    (h : ∀ w ∈ s.lines[l].lock.queue, w.ring ≠ k) : (grantLoop n l s).eng[k] = s.eng[k] := by
  induction n generalizing s with
  | zero => rfl
  | succ n ih =>
    unfold grantLoop
    dsimp only
    split
    · exact endClose_others l s h
    · split
      · rfl
      · rename_i w ws hq
        have hw : k ≠ w.ring := fun e => h w (by rw [hq]; exact List.mem_cons_self) e.symm
        have step : ∀ f : Line → Line, (f s.lines[l]).lock.queue = ws →
            (grantLoop n l (grantWaiter w.ring (s.updLine l f))).eng[k] = s.eng[k] := by
          intro f hf
          rw [ih, grantWaiter_others hw, State.updLine_eng]
          intro v hv
          have := (grantWaiter_queue w.ring l (s.updLine l f)).subset hv
          rw [State.updLine_get, if_pos rfl, hf] at this
          exact h v (by rw [hq]; exact List.mem_cons_of_mem _ this)
        split
        · exact step _ rfl
        · exact step _ rfl
        · exact step _ rfl
        · rfl

/-- A ring that leaves a lock keeps its engine through the grant step that follows (R44). -/
theorem release_self (r : Ring) (l : LineIx) (s : State) : (release r l s).eng[r] = s.eng[r] := by
  unfold release grantStep
  rw [grantLoop_others]
  · rfl
  · intro w hw
    simp only [leaveLock, State.updLine_get, if_true, Lock.leave, List.mem_filter, bne_iff_ne] at hw
    exact hw.2

/-- Rounds of the grant step beyond the length of the queue change nothing. -/
theorem grantLoop_fuel (n m : Nat) (l : LineIx) (s : State) (hn : s.lines[l].lock.queue.length < n)
    (hm : s.lines[l].lock.queue.length < m) : grantLoop n l s = grantLoop m l s := by
  induction n generalizing m s with
  | zero => omega
  | succ n ih =>
    obtain ⟨m, rfl⟩ : ∃ k, m = k + 1 := ⟨m - 1, by omega⟩
    unfold grantLoop
    dsimp only
    split
    · rfl
    · split
      · rfl
      · rename_i w ws hq
        rw [hq, List.length_cons] at hn hm
        have step : ∀ f : Line → Line, (f s.lines[l]).lock.queue = ws →
            grantLoop n l (grantWaiter w.ring (s.updLine l f)) =
              grantLoop m l (grantWaiter w.ring (s.updLine l f)) := by
          intro f hf
          have := (grantWaiter_queue w.ring l (s.updLine l f)).length_le
          rw [State.updLine_get, if_pos rfl, hf] at this
          exact ih _ _ (by omega) (by omega)
        split
        · exact step _ rfl
        · exact step _ rfl
        · exact step _ rfl
        · rfl

end Sys2Proof.Machine
end

