-- ==== Sys2Proof/Laws/Memory.lean ====
section
/-! SUPPORT. Laws/Memory.lean: the line store as a list of word and content: every write keeps the canonical form, a word
reads as it was last written, and every other word as before. -/

namespace Sys2Proof.Machine

theorem Memory.write_mem {a : Nat} {w : Word} {m : List (Nat × Word)} {p : Nat × Word}
    (h : p ∈ Memory.write a w m) : p = (a, w) ∨ p ∈ m := by
  induction m with
  | nil => simpa [Memory.write] using h
  | cons q m ih =>
    obtain ⟨b, v⟩ := q
    unfold Memory.write at h
    split at h
    · simpa using h
    · split at h
      · simp only [List.mem_cons] at h ⊢
        exact h.imp id Or.inr
      · simp only [List.mem_cons] at h ⊢
        rcases h with h | h
        · exact .inr (.inl h)
        · exact (ih h).imp id .inr

/-- A write within the store keeps the canonical form. -/
theorem Memory.write_wf {a : Nat} {w : Word} {m : List (Nat × Word)} (h : Memory.wf m) (ha : a < storeWords) :
    Memory.wf (Memory.write a w m) := by
  refine ⟨?_, fun p hp => (Memory.write_mem hp).elim (fun e => e ▸ ha) (h.2 p)⟩
  have h1 := h.1
  clear h
  induction m with
  | nil => simp [Memory.write]
  | cons q m ih =>
    obtain ⟨b, v⟩ := q
    rw [List.pairwise_cons] at h1
    unfold Memory.write
    split
    · rename_i hab
      refine List.pairwise_cons.mpr ⟨fun p hp => ?_, List.pairwise_cons.mpr h1⟩
      rcases List.mem_cons.mp hp with rfl | hp
      · exact hab
      · exact Nat.lt_trans hab (h1.1 p hp)
    · split
      · rename_i hab
        subst hab
        exact List.pairwise_cons.mpr ⟨h1.1, h1.2⟩
      · refine List.pairwise_cons.mpr ⟨fun p hp => ?_, ih h1.2⟩
        rcases Memory.write_mem hp with rfl | hp
        · show b < a; omega
        · exact h1.1 p hp

/-- A word reads as it was written. -/
theorem Memory.find_write_same (a : Nat) (w : Word) (m : List (Nat × Word)) :
    Memory.find a (Memory.write a w m) = some w := by
  induction m with
  | nil => simp [Memory.write, Memory.find]
  | cons q m ih =>
    obtain ⟨b, v⟩ := q
    unfold Memory.write
    repeat' split
    · simp [Memory.find]
    · simp [Memory.find]
    · rename_i h
      simp [Memory.find, h, ih]

/-- Every other word reads as before. -/
theorem Memory.find_write_other {a b : Nat} (w : Word) (m : List (Nat × Word)) (hab : b ≠ a) :
    Memory.find b (Memory.write a w m) = Memory.find b m := by
  induction m with
  | nil => simp [Memory.write, Memory.find, hab]
  | cons q m ih =>
    obtain ⟨c, v⟩ := q
    unfold Memory.write
    repeat' split
    · simp [Memory.find, hab]
    · rename_i h
      subst h
      simp [Memory.find, hab]
    · simp [Memory.find, ih]

/-- A burst's writes keep the canonical form when all its words lie in the store. -/
theorem Memory.writeAll_wf {ws m : List (Nat × Word)} (h : Memory.wf m) (hw : ∀ p ∈ ws, p.1 < storeWords) :
    Memory.wf (Memory.writeAll ws m) := by
  induction ws generalizing m with
  | nil => exact h
  | cons p ws ih =>
    exact ih (Memory.write_wf h (hw p (by simp))) (fun q hq => hw q (List.mem_cons_of_mem _ hq))

/-- A word outside a burst reads as before. -/
theorem Memory.find_writeAll_other {a : Nat} {ws : List (Nat × Word)} (m : List (Nat × Word))
    (ha : ∀ p ∈ ws, p.1 ≠ a) : Memory.find a (Memory.writeAll ws m) = Memory.find a m := by
  induction ws generalizing m with
  | nil => rfl
  | cons p ws ih =>
    exact (ih _ (fun q hq => ha q (List.mem_cons_of_mem _ hq))).trans
      (Memory.find_write_other _ _ (Ne.symm (ha p (by simp))))

/-- The reset store has the canonical form. -/
theorem Memory.reset_wf : Memory.wf State.reset.store := ⟨List.Pairwise.nil, fun _ h => absurd h (by simp [State.reset])⟩

end Sys2Proof.Machine
end

