-- ==== Sys2Proof/Tests/Slice0.lean ====
section
/-! SUPPORT. Tests/Slice0.lean: the author's own tests: the checks of WellFormed, one step of each command with values
from the spec's tables and worked sequences, and, for each statement with hypotheses, states that meet them. -/

namespace Sys2Proof.Tests
open Sys2Proof.Machine

/-! ## Small states -/

/-- The state a command leaves. -/
def after (c : Instr) (s : State) : State :=
  match exec c s with
  | .next t => t
  | _ => s

/-- The result in the completion record whose write is in flight to completion ring `q`. -/
def posting (q : CqIx) (s : State) : Option Result := s.cq[q].inflight.map (·.claim.result)

def cqGiven : CqCfg := { base := 0x20000, size := 16, threshold := 2, holdoff := 1 }

def engIdle (cls : Option RingClass) (q : CqIx) : Engine :=
  { Engine.resetValue with state := .idle, cfg := some { base := 0x10000, size := 16, cls := cls, cq := q } }

/-- A RUNNING part: ring 0 names CQ0, bulk ring 1 and paced ring 2 name CQ1; the other rings are DISABLED. -/
def up : State :=
  { State.reset with
    hp := { HostPort.resetValue with dev := .running, linkUp := true, busMaster := true, msi := true }
    sc := { StoreCtl.resetValue with state := .ready, port := .idle, timer := some 7750 }
    eng := ((State.reset.eng.set 0 (engIdle none 0)).set 1 (engIdle (some .bulk) 1)).set 2 (engIdle (some .paced) 1)
    cq := ((State.reset.cq.set 0 (.fresh (some cqGiven))).set 1 (.fresh (some cqGiven))) }

def lineGiven : LineCfg := { owner := 1, len := 100, fmt := .s16, ext := ⟨0, 2⟩ }

/-- Line of ring 1: L 100, S16, three samples committed. -/
def lineLive : Line :=
  { Line.freeRecord 1 with state := .live, cfg := some lineGiven, head := 3, fill := 3, seq := 3, taps := [0, 50] }

/-- Line `lineLive` with the given lock. -/
def lineLocked (mode : LockMode) (holders : List Ring) (queue : List Waiter) : Line :=
  { lineLive with lock := { mode := mode, holders := holders, queue := queue } }

def withLine (l : Line) (s : State) : State := { s.updLine 0 (fun _ => l) with free := [⟨2, 131070⟩] }

/-- A record of a kind, tag 7, about line 0 of generation 1. -/
def rcd (kind : Nat) : Record :=
  { kind := BitVec.ofNat 8 kind, guardCode := 0, quiet := false, tag := 7, line := 0, gen := 1, paramB := 0,
    count := 0, paramA := 0, addr := 0x1000, paramC := 0x2000 }

def executing (r : Ring) (x : Record) (p : Phase) (s : State) : State :=
  s.updEng r (fun e => { e with state := .active, exec := some ⟨x, p⟩ })

/-- Ring `r` executes a record about line 0, which is `l`. -/
def onLine (r : Ring) (x : Record) (p : Phase) (l : Line) : State := executing r x p (withLine l up)

/-- Ring 0 executes a record. -/
def on0 (x : Record) : State := executing 0 x .fresh up

def aRead (len : Nat) : HostRead := { addr := 0x1000, len := len, issued := true, deadline := 10000000 }
def aWrite : HostWrite := { addr := 0x3000, data := [1, 2], num := 0 }
def withRd (r : Ring) (len : Nat) (s : State) : State := s.updEng r (fun e => { e with rd := some (aRead len) })
/-- HP has taken `aWrite`, which waits to leave. -/
def holding (s : State) : State := { s with hp := { s.hp with taken := 1, writes := [aWrite] } }
/-- Ring `r` has a host write in flight: one that HP could not issue, and one that it holds. -/
def lostWr (r : Ring) (s : State) : State := s.updEng r (fun e => { e with wr := some aWrite })
def withWr (r : Ring) (s : State) : State := holding (lostWr r s)
def withFetch (r : Ring) (s : State) : State := s.updEng r (fun e => { e with fetch := some (aRead 32), tail := 3 })
def withPort (p : Port) (s : State) : State := { s with sc := { s.sc with port := p } }
def withStop (r : Ring) (c : StopCause) (s : State) : State := s.updEng r (fun e => { e with stop := some c })
def engState (r : Ring) (st : EngState) (s : State) : State := s.updEng r (fun e => { e with state := st })

/-- A reader that reads its first chunk; a STEP in a stage. -/
def reader : ReaderCtx :=
  { snap := ⟨3, 3, 3⟩, offs := [0, 50], chunk := 0, reading := true, buf := none, done := 0, failed := false }
def stepping (stage : StepStage) (committed written : Nat) (inputs : List Word) : StepCtx :=
  { committed := committed, written := written, inputs := inputs, chunks := 1, stage := stage, buf := [],
    unfCur := 0, unfWr := 0, unfDone := 0, rdFailed := false, wrFailed := false }

/-! ## WellFormed refuses -/

theorem test_wf_reset_is_no_other_code : (Instr.controlOtherCode 2#32).wf = false := by decide
theorem test_wf_register_write_of_no_bytes : (Instr.registerWrite 0x08 0 0).wf = false := by decide
theorem test_wf_register_write_of_five_bytes : (Instr.registerWrite 0x04 5 0).wf = false := by decide
theorem test_wf_register_write_past_the_window : (Instr.registerWrite 4094 3 0).wf = false := by decide
theorem test_wf_register_write_to_a_register : (Instr.registerWrite 0x10 4 0).wf = false := by decide
theorem test_wf_timeout_of_ring_0_command : (Instr.hostReadTimeout (.command 0)).wf = false := by decide
theorem test_wf_line_kinds_on_ring_0 :
    [Instr.openLine 0, .closeLine 0, .setTaps 0, .push 0, .clear 0, .test 0, .gather 0, .readSpan 0, .step 0,
      .mark 0].all (fun c => !c.wf) := by decide
theorem test_wf_transfers_on_ring_0 :
    [Instr.tapListReadDone 0 [0, 0, 0, 0], .tapListReadFailed 0, .pushSamplesReadDone 0 [0, 0],
      .pushSamplesReadFailed 0, .stepInputReadDone 0 [0, 0], .stepInputReadFailed 0, .resultWriteCompleted 0,
      .resultWriteFailed 0, .stepResultWriteFailed 0].all (fun c => !c.wf) := by decide
theorem test_wf_tap_list_not_of_words : (Instr.tapListReadDone 1 [0, 0, 0, 0, 0]).wf = false := by decide
theorem test_wf_tap_list_empty : (Instr.tapListReadDone 1 []).wf = false := by decide
theorem test_wf_tap_list_too_long : (Instr.tapListReadDone 1 (List.replicate 68 0)).wf = false := by decide
theorem test_wf_samples_too_short : (Instr.pushSamplesReadDone 1 [0]).wf = false := by decide
theorem test_wf_samples_too_long : (Instr.pushSamplesReadDone 1 (List.replicate 65 0)).wf = false := by decide
theorem test_wf_step_samples_too_short : (Instr.stepInputReadDone 1 [0]).wf = false := by decide
theorem test_wf_step_samples_too_long : (Instr.stepInputReadDone 1 (List.replicate 65 0)).wf = false := by decide

/-! ## One step of each command -/

-- R178: the values after a power-on reset.
theorem test_powerOnReset :
    let t := after .powerOnReset { up with hp := { up.hp with anchorLo := 64 } }
    t.hp.dev = .off ∧ t.hp.anchorLo = 0 ∧ t.free = [⟨0, 131072⟩] ∧ t.sc.code = 62 := by decide
theorem test_fundamentalResetAssert : (after .start (after .fundamentalResetAssert up)).hp = { up.hp with inReset := true } := by
  decide
-- R174: the anchor block is 32 bytes at the anchor address.
theorem test_start :
    (after .start { up with hp := { up.hp with dev := .off, anchorLo := 0x40, anchorHi := 1 } }).hp.anchorRead =
      some { addr := 0x100000040, len := 32, issued := true, deadline := 10000000 } := by decide
-- R176, R178: CONTROL RESET keeps the anchor registers.
theorem test_reset :
    let t := after .reset { up with hp := { up.hp with anchorLo := 64 } }
    t.hp.dev = .off ∧ t.hp.anchorLo = 64 ∧ t.hp.linkUp = true := by decide
theorem test_restartRing0 :
    let e := (after .restartRing0 (up.updEng 0 (fun e => { e with state := .halted, head := 5, tail := 9 }))).eng[(0 : Ring)]
    e.state = .idle ∧ e.head = 0 ∧ e.tail = 0 ∧ e.cfg = up.eng[(0 : Ring)].cfg := by decide
theorem test_controlOtherCode : after (.controlOtherCode 4#32) up = up := rfl
-- R188: ring number in bits 0 to 2, new tail in bits 16 to 31.
theorem test_post : (after (.post 0x00030001#32) up).eng[(1 : Ring)].tail = 3 := by decide
theorem test_post_of_the_size :
    (after (.post 0x00100001#32) up).hp.fault = { code := .badPost, num := 1, count := 0 } := by decide
theorem test_retire :
    (after (.retire 0x00020001#32) (up.updCq 1 (fun c => { c with tail := 3 }))).cq[(1 : CqIx)].head = 2 := by decide
theorem test_retire_past_the_tail :
    (after (.retire 0x00040001#32) (up.updCq 1 (fun c => { c with tail := 3 }))).hp.fault =
      { code := .badRetire, num := 1, count := 0 } := by decide
theorem test_faultWrite :
    (after (.faultWrite 0#32) { up with hp := { up.hp with fault := ⟨.badPost, 1, 3⟩ } }).hp.fault = .empty := by decide
theorem test_anchorLoWrite : (after (.anchorLoWrite 0x1040#32) up).hp.anchorLo = 0x1040 := by decide
theorem test_anchorHiWrite : (after (.anchorHiWrite 7#32) up).hp.anchorHi = 7 := by decide
-- R171: a write of fewer than 4 bytes is ignored.
theorem test_registerWrite : after (.registerWrite 0x08 2 0x1040#32) up = up := rfl
/-- An anchor block (R188): ring 0 of 16 slots at 0x40, CQ0 of 32 slots at 0x1000, T 3, H 5. -/
def anchorBlock : BitVec 256 :=
  0x40#256 + (16#256 <<< 64) + (0x1000#256 <<< 128) + (32#256 <<< 192) + (3#256 <<< 224) + (5#256 <<< 232)
def starting : State :=
  { up with hp := { up.hp with dev := .starting, anchorAddr := some 0x40, anchorRead := some (aRead 32) } }
theorem test_configSpaceWrite : (after (.configSpaceWrite .msi false) up).hp.msi = false := by decide
theorem test_linkUp : (after .linkUp State.reset).hp.linkUp = true := by decide
theorem test_linkDown : (after .linkDown up).hp.linkUp = false := by decide
-- R182, R183: the loss of the link fails the read in flight, whose data can then not come.
theorem test_linkDown_fails_reads :
    let s := after .linkDown starting
    (after (.anchorReadDone anchorBlock) s).hp.dev = .starting ∧ (after .anchorReadFailed s).hp.dev = .failed := by decide
-- R36: code 62 is 7.75 microseconds.
theorem test_storeReady :
    let t := after .storeReady State.reset
    t.sc.state = .ready ∧ t.sc.timer = some 7750 ∧ t.sc.port = .idle := by decide

theorem test_anchorReadDone :
    let t := after (.anchorReadDone anchorBlock) starting
    t.hp.dev = .running ∧ t.cq[(0 : CqIx)].cfg = some { base := 0x1000, size := 32, threshold := 3, holdoff := 5 } := by
  decide
theorem test_anchorReadDone_size :
    (after (.anchorReadDone (anchorBlock + (0x10000#256 <<< 64))) starting).hp.fault.code = .badAnchor := by decide
theorem test_anchorReadFailed : (after .anchorReadFailed starting).hp.fault = ⟨.anchorFault, 0, 0⟩ := by decide
theorem test_hostReadTimeout : (after (.hostReadTimeout .anchor) starting).now = 10000000 := by decide

/-- A quiet MARK with tag 0x1234 (R185). -/
def markBytes : BitVec 256 := 0x0A#256 + (0x80#256 <<< 8) + (0x1234#256 <<< 16)
theorem test_fetchDone :
    let e := (after (.fetchDone 2 markBytes) (withFetch 2 (engState 2 .active up))).eng[(2 : Ring)]
    e.head = 1 ∧ e.exec.map (fun x => (x.rcd.kind, x.rcd.quiet, x.rcd.tag)) = some (0x0A, true, 0x1234) := by decide
theorem test_fetchFailed :
    let t := after (.fetchFailed 2) (withFetch 2 (engState 2 .active up))
    t.eng[(2 : Ring)].state = .halted ∧ t.eng[(2 : Ring)].head = 0 ∧ t.hp.fault = ⟨.fetchFault, 2, 0⟩ := by decide
theorem test_unknownKindRecord :
    (posting 1 (after (.unknownKindRecord 1) (executing 1 (rcd 0x20) .fresh up))).map (·.status) = some .badKind := by
  decide

-- 11.9: OPEN line 0, L 48,000.
theorem test_openLine :
    let t := after (.openLine 1) (executing 1 { rcd 1 with paramA := 48000, paramB := 2 } .fresh up)
    t.free = [⟨750, 130322⟩] ∧ t.lines[(0 : LineIx)].gen = 1 ∧ t.lines[(0 : LineIx)].cfg.map (·.fmt) = some .s24 := by
  decide
-- 11.9: OPEN line 5, L 1,760,000, with 28,036 granules free.
theorem test_openLine_no_space :
    posting 1 (after (.openLine 1)
      { executing 1 { rcd 1 with line := 5, paramA := 1760000, paramB := 2 } .fresh up with
        free := [⟨0, 750⟩, ⟨66286, 16⟩, ⟨103802, 27270⟩] }) =
      some { status := .noSpace, line := 5, gen := 0, count := 0, unfilled := 0, seq := 0, aborted := false } := by decide
-- 11.9: CLOSE line 1.
theorem test_closeLine :
    (after (.closeLine 1)
      { onLine 1 (rcd 2) .fresh { lineLive with cfg := some { lineGiven with ext := ⟨750, 65536⟩ } } with
        free := [⟨10, 740⟩, ⟨66286, 16⟩, ⟨103802, 27270⟩] }).free = [⟨10, 66292⟩, ⟨103802, 27270⟩] := by decide
theorem test_setTaps :
    (after (.setTaps 1) (onLine 1 { rcd 3 with count := 2 } .fresh lineLive)).eng[(1 : Ring)].rd = some (aRead 8) := by
  decide
def lineWriting : Line := lineLocked .write [1] []
theorem test_tapListReadDone :
    let t := after (.tapListReadDone 1 [99, 0, 0, 0, 5, 0, 0, 0])
      (withRd 1 8 (onLine 1 { rcd 3 with count := 2 } .tapRead lineWriting))
    t.lines[(0 : LineIx)].taps = [99, 5] ∧ t.lines[(0 : LineIx)].lock = .idle := by decide
theorem test_tapListReadDone_bad_tap :
    (posting 1 (after (.tapListReadDone 1 [99, 0, 0, 0, 100, 0, 0, 0])
      (withRd 1 8 (onLine 1 { rcd 3 with count := 2 } .tapRead lineWriting)))).map (fun p => (p.status, p.count)) =
      some (.badTap, 1) := by decide
theorem test_tapListReadFailed :
    (posting 1 (after (.tapListReadFailed 1)
      (withRd 1 8 (onLine 1 { rcd 3 with count := 2 } .tapRead lineWriting)))).map (·.status) = some .hostFault := by
  decide

/-- Line 8 of 11.10, as line 0: L 1,000, S32, generation 7, head 990, sequence 7,990. -/
def line8 : Line :=
  { lineLive with
    cfg := some { owner := 1, len := 1000, fmt := .s32, ext := ⟨0, 16⟩ }
    gen := 7, head := 990, fill := 1000, seq := 7990, taps := [] }
-- 11.10: the first burst of the PUSH is 10 samples, up to the wrap point.
theorem test_push :
    (after (.push 1) (onLine 1 { rcd 4 with gen := 7, count := 40 } .fresh line8)).eng[(1 : Ring)].rd =
      some (aRead 40) := by decide
-- R19: S16 bytes 34 12 are the word 0x12340000; the slots run from the head.
theorem test_pushSamplesReadDone :
    (after (.pushSamplesReadDone 1 [0x34, 0x12, 0xFF, 0xFF])
      (withRd 1 4 (onLine 1 { rcd 4 with count := 2 } (.pushing 0 2) lineWriting))).sc.port =
      .burst 1 (.write [(3, 0x12340000), (4, 0xFFFF0000)]) := by decide
theorem test_pushSamplesReadFailed :
    posting 1 (after (.pushSamplesReadFailed 1)
      (withRd 1 32 (onLine 1 { rcd 4 with count := 40 } (.pushing 16 16) lineWriting))) =
      some { status := .hostFault, line := 0, gen := 1, count := 16, unfilled := 0, seq := 3, aborted := false } := by
  decide
theorem test_clear :
    let t := after (.clear 1) (onLine 1 (rcd 5) .fresh lineLive)
    (posting 1 t).map (·.count) = some 3 ∧ t.lines[(0 : LineIx)].fill = 0 ∧ t.lines[(0 : LineIx)].seq = 3 := by decide
theorem test_test :
    (after (.test 1) (onLine 1 { rcd 6 with paramA := 3 } .fresh lineLive)).eng[(1 : Ring)].test = true := by decide

/-- Line 4 of 11.8, as line 0. -/
def line4 : Line :=
  { lineLive with
    cfg := some { owner := 1, len := 64, fmt := .s16, ext := ⟨0, 1⟩ }
    gen := 5, head := 30, fill := 30, seq := 30, taps := [0, 31] }
-- 11.8: tap 0 is at slot 29, tap 31 is unfilled.
theorem test_gather :
    (after (.gather 2) (onLine 2 { rcd 7 with gen := 5 } .fresh line4)).sc.port = .burst 2 (.read [29]) := by decide
-- 11.8, PUSH taken first: tap 0 at slot 49, tap 31 at slot 18.
theorem test_gather_after_the_push :
    (after (.gather 2) (onLine 2 { rcd 7 with gen := 5 } .fresh { line4 with head := 50, fill := 50 })).sc.port =
      .burst 2 (.read [49, 18]) := by decide
-- 11.7, frame 13: offset 143 is slot 0.
theorem test_readSpan :
    (after (.readSpan 1) (onLine 1 { rcd 8 with paramA := 96, count := 48 } .fresh
      { lineLive with
        cfg := some { owner := 1, len := 480, fmt := .s24, ext := ⟨0, 8⟩ }, head := 144, fill := 144 })).sc.port =
      .burst 1 (.read [0, 1, 2, 3, 4, 5, 6, 7, 8, 9, 10, 11, 12, 13, 14, 15]) := by decide
theorem test_step :
    (after (.step 1) (onLine 1 { rcd 9 with count := 20 } .fresh lineLive)).eng[(1 : Ring)].rd = some (aRead 32) := by
  decide
theorem test_stepInputReadDone :
    (after (.stepInputReadDone 1 [0x34, 0x12])
      (withRd 1 2 (onLine 1 { rcd 9 with count := 1 } (.stepping (stepping .ready 0 0 [])) lineWriting))).sc.port =
      .burst 1 (.write [(3, 0x12340000)]) := by decide
theorem test_stepInputReadFailed :
    (posting 1 (after (.stepInputReadFailed 1)
      (withRd 1 2 (onLine 1 { rcd 9 with count := 1 } (.stepping (stepping .ready 0 0 [])) lineWriting)))).map
      (·.status) = some .hostFault := by decide
theorem test_mark :
    let t := after (.mark 2) (executing 2 (rcd 10) .fresh up)
    t.eng[(2 : Ring)].state = .waitFrame ∧ t.fu.pace[(2 : Ring)].armed = true := by decide
theorem test_configureRing :
    (after .configureRing (on0 { rcd 0x20 with paramA := 3, count := 32, paramB := 1, paramC := 1 })).eng[(3 : Ring)].cfg =
      some { base := 0x1000, size := 32, cls := some .paced, cq := 1 } := by decide
theorem test_configureCompletionRing :
    (after .configureCompletionRing
      (on0 { rcd 0x21 with paramA := 2, count := 32, paramB := 4, paramC := 9 })).cq[(2 : CqIx)].cfg =
      some { base := 0x1000, size := 32, threshold := 4, holdoff := 9 } := by decide
-- 11.10: aborted, line 8, generation 7, count 26, sequence 82, unfilled 13 (here line 0).
theorem test_resetRing :
    let s := (onLine 1 { rcd 4 with gen := 7, count := 40, tag := 82 } (.pushing 26 14)
      { line8 with lock := ⟨.write, [1], []⟩ }).updEng 1 (fun e => { e with head := 13 })
    posting 0 (after .resetRing (executing 0 { rcd 0x22 with paramA := 1 } .fresh s)) =
      some { status := .ok, line := 0, gen := 7, count := 26, unfilled := 13, seq := 82, aborted := true } := by decide
-- R50: the grant is taken first, and the reset that meets it removes ring 1 from the holders with nothing done.
theorem test_resetRing_meets_the_grant :
    let s := { executing 0 { rcd 0x22 with paramA := 1 } .fresh (engState 1 .waitLock (executing 1 { rcd 4 with count := 9 }
      .waitLock (withRd 2 8 (onLine 2 (rcd 3) .tapRead (lineLocked .write [2] [⟨1, .writer⟩]))))) with pending := [.resetRing] }
    let t := after (.tapListReadFailed 2) s
    let u := after .resetRing t
    t.lines[(0 : LineIx)].lock = ⟨.write, [1], []⟩ ∧ t.eng[(1 : Ring)].rd = none ∧ u.lines[(0 : LineIx)].lock = .idle ∧
    (posting 0 u).map (fun v => (v.count, v.aborted)) = some (0, true) := by decide
theorem test_configureDevice :
    let t := after .configureDevice (on0 { rcd 0x23 with paramA := 8, paramB := 3, paramC := 1000 })
    t.sc.timer = some 1000 ∧ t.fu.timer = some 1000000 ∧ t.fu.period = some 1000 := by decide
-- R163: a source code above 3 names no source.
theorem test_configureDevice_no_source :
    let t := after .configureDevice (on0 { rcd 0x23 with paramA := 8, paramB := 4 })
    (posting 0 t).map (·.status) = some .badParam ∧ t.sc.code = 62 := by decide
-- 11.6: L 4,800, head 96, tap list 0, 2399.
theorem test_queryLine :
    let l := { lineLive with
      cfg := some { lineGiven with len := 4800, ext := ⟨0, 75⟩ }, head := 96, fill := 96, taps := [0, 2399] }
    let t := after .queryLine (executing 0 (rcd 0x24) .fresh (withLine l up))
    t.eng[(0 : Ring)].wr.map (fun w =>
      let v := valueLE w.data
      (w.data.length, v / 2 ^ 30 % 2 ^ 22, v / 2 ^ 69 % 2 ^ 22, v / 2 ^ 16 % 2 ^ 5, v / 2 ^ 160 % 2 ^ 22,
        v / 2 ^ 182 % 2 ^ 22)) = some (64, 4799, 96, 2, 0, 2399) := by decide
def queriedRing : State := (on0 { rcd 0x25 with paramA := 1 }).updEng 1 (fun e => { e with head := 5, tail := 9 })
-- R190: IDLE, BULK, CQ1, last_ok set; head 5, tail 9, size 16; bit 7 of byte 3 has no stated value (log 43).
theorem test_queryRing : after .queryRing queriedRing = queryRing { rcd 0x25 with paramA := 1 } queriedRing := rfl
theorem test_ringSnapshot : ∀ b : Bool,
    (ringSnapshot queriedRing.eng[(1 : Ring)] queriedRing.fu.pace[(1 : Ring)] queriedRing.fu.frame b).take 12 =
      [1, 2, 1, if b then 129 else 1, 5, 0, 9, 0, 16, 0, 0, 0] := by decide
-- 11.9: count 3 and sequence 28,036.
theorem test_queryStore :
    let t := after .queryStore { on0 (rcd 0x26) with free := [⟨0, 750⟩, ⟨66286, 16⟩, ⟨103802, 27270⟩] }
    t.eng[(0 : Ring)].wr.map (fun w => (w.data.length, w.data.take 8)) =
      some (32, [3, 0, 0, 0, 0x84, 0x6D, 0, 0]) := by decide
def queryResult : Result :=
  { status := .ok, line := 0, gen := 1, count := 3, unfilled := 0, seq := 28036, aborted := false }
def queryingLost : State := lostWr 0 (executing 0 (rcd 0x26) (.querying queryResult) up)
def querying : State := holding queryingLost
theorem test_queryWriteDone :
    (posting 0 (after .queryWriteDone querying)).map (fun p => (p.status, p.count, p.seq)) = some (.ok, 3, 28036) := by
  decide
theorem test_queryWriteFailed :
    (posting 0 (after .queryWriteFailed queryingLost)).map (fun p => (p.status, p.count, p.seq)) =
      some (.hostFault, 0, 28036) := by decide
-- 11.10: burst 2 ends and commits: head 16, sequence 8,016.
theorem test_storeBurstEnd :
    let l := (after .storeBurstEnd
      (withPort (.burst 1 (.write ((List.range 16).map (fun i => (i, 5)))))
        (onLine 1 { rcd 4 with gen := 7, count := 40 } (.pushing 10 16)
          { line8 with head := 0, seq := 8000, lock := ⟨.write, [1], []⟩ }))).lines[(0 : LineIx)]
    l.head = 16 ∧ l.fill = 1000 ∧ l.seq = 8016 := by decide
theorem test_refreshEnd :
    let t := after .refreshEnd { up with sc := { up.sc with port := .refresh, debt := 3 } }
    t.sc.debt = 2 ∧ t.sc.port = .refresh := by decide
-- R37: at debt 8 a refresh is missed.
theorem test_refreshTimerExpiry :
    let t := after .refreshTimerExpiry { up with sc := { up.sc with port := .refresh, debt := 8 } }
    t.sc.debt = 8 ∧ t.hp.fault.code = .refreshMissed ∧ t.sc.timer = some 15500 := by decide
def lineReading : Line := lineLocked .read [1] []
def reading : State := withWr 1 (onLine 1 (rcd 7) (.reader { reader with reading := false, chunk := 1 }) lineReading)
theorem test_resultWriteCompleted :
    posting 1 (after (.resultWriteCompleted 1) reading) =
      some { status := .ok, line := 0, gen := 1, count := 2, unfilled := 1, seq := 3, aborted := false } := by decide
theorem test_resultWriteFailed :
    let s := { reading with hp := up.hp }
    (posting 1 (after (.resultWriteFailed 1) s)).map (fun p => (p.status, p.count)) = some (.hostFault, 0) := by decide
theorem test_stepResultWriteFailed :
    (posting 1 (after (.stepResultWriteFailed 1)
      (lostWr 1 (onLine 1 { rcd 9 with count := 3 } (.stepping (stepping .ready 2 1 [])) lineWriting)))).map
      (fun p => (p.status, p.count)) = some (.hostFault, 1) := by decide

/-- A claim of ring `r`, whose write to CQ1 is in flight. -/
def claimOf (r : Ring) (notice orphan : Bool) : Claim :=
  { ring := r, notice := notice, orphan := orphan, tag := 7
    result := { status := .ok, line := 0, gen := 1, count := 0, unfilled := 0, seq := 0, aborted := false } }
/-- The claim's write is lost, and HP holds it. -/
def lost (r : Ring) (notice orphan : Bool) (s : State) : State :=
  s.updCq 1 (fun c => { c with inflight := some ⟨claimOf r notice orphan, aWrite⟩ })
def posted (r : Ring) (notice orphan : Bool) (s : State) : State := holding (lost r notice orphan s)
def waiting : State := posted 1 false false (engState 1 .waitCq up)
def waitingLost : State := lost 1 false false (engState 1 .waitCq up)
theorem test_completionWritePosted :
    let t := after (.completionWritePosted 1) (waiting.updCq 1 (fun c => { c with tail := 15, unsig := 1, head := 9 }))
    t.cq[(1 : CqIx)].tail = 0 ∧ t.cq[(1 : CqIx)].phase = false ∧ t.eng[(1 : Ring)].state = .idle ∧
      t.hp.out = [.write 0x3000 [1, 2], .message 1] := by decide
theorem test_completionWriteFailed :
    let t := after (.completionWriteFailed 1) waitingLost
    t.eng[(1 : Ring)].state = .halted ∧ t.hp.fault = ⟨.postFault, 1, 0⟩ ∧ t.cq[(1 : CqIx)].tail = 0 := by decide
theorem test_holdoffTimerExpiry :
    let t := after (.holdoffTimerExpiry 1) (up.updCq 1 (fun c => { c with unsig := 1, timer := some 8000 }))
    t.hp.out = [.message 1] ∧ t.cq[(1 : CqIx)].unsig = 0 ∧ t.now = 8000 := by decide
-- R182: a message reaches the host after every write issued before it.
theorem test_holdoffTimerExpiry_after_a_write :
    let t := after (.holdoffTimerExpiry 1) (holding (up.updCq 1 (fun c => { c with unsig := 1, timer := some 8000 })))
    t.hp.out = [.write 0x3000 [1, 2], .message 1] ∧ t.hp.writes = [] ∧ t.hp.left = [0] := by decide
def armed (owed : Nat) (s : State) : State := s.updPace 2 (fun p => { p with armed := true, owed := owed })
def framed (src : FrameSource) (s : State) : State :=
  { s with fu := { s.fu with source := src, frame := 10, timer := some 500, period := some 1000 } }
-- 11.7: the strobe releases the ring, and the MARK carries frame 11 and count 0.
theorem test_frameTimerExpiry :
    let t := after .frameTimerExpiry (framed .timer (armed 0 (engState 2 .waitFrame (executing 2 (rcd 10) .waitFrame up))))
    t.fu.frame = 11 ∧ (posting 1 t).map (fun p => (p.seq, p.count)) = some (11, 0) ∧ t.fu.timer = some 1000500 := by
  decide
-- R151: the reset of a ring in WAIT_FRAME is taken first, and the strobe does not reach the ring, whose fetch goes on.
theorem test_frameTimerExpiry_after_a_reset :
    let s := withFetch 2 (framed .timer (armed 0 (engState 2 .waitFrame (executing 2 (rcd 10) .waitFrame up))))
    let t := after .frameTimerExpiry (after .resetRing (executing 0 { rcd 0x22 with paramA := 2 } .fresh s))
    t.eng[(2 : Ring)].exec = none ∧ t.eng[(2 : Ring)].fetch.isSome = true ∧
    t.fu.pace[(2 : Ring)] = { armed := false, owed := 0, notice := none, late := 0 } := by decide
-- R146: a late ring owes a strobe, and its notice carries it.
theorem test_fsyncStrobe :
    let t := after (.fsyncStrobe true ⟨100, 100⟩) (framed .pinRising (armed 1 up))
    t.fu.pace[(2 : Ring)].owed = 2 ∧ (posting 1 t).map (fun p => (p.status, p.count, p.seq)) =
      some (.frameLate, 2, 11) := by decide
theorem test_fsyncStrobe_too_short :
    (after (.fsyncStrobe true ⟨100, 99⟩) (framed .pinRising (armed 1 up))).fu.frame = 10 := by decide

/-! ## Register reads and the empty queue -/

theorem test_status : readWindow up 0x04 4 = [0x16, 0, 0, 0] := by decide
theorem test_step_takes_the_front :
    step { up with pending := [.anchorLoWrite 64, .linkUp] } = .next { up with
      hp := { up.hp with anchorLo := 64 }, pending := [.linkUp] } := rfl
theorem test_no_word_spells_a_command : decodeTableWord 32 1 = none := rfl

/-! ## States that meet the hypotheses of the statements

Each theorem is named after its statement and shows its hypotheses, clause by clause, met at a boundary of their range. -/

theorem begins {r : Ring} {k : Kind} {x : Record} {s : State}
    (h : s.hp.inReset = false ∧ s.eng[r].exec = some ⟨x, .fresh⟩ ∧ Kind.ofCode x.kind = some k ∧ x.guardCode = 0) :
    Begins r k x s :=
  ⟨h.1, h.2.1, h.2.2.1, .always, by rw [h.2.2.2]; rfl, rfl⟩

theorem passes {r : Ring} {k : Kind} {x : Record} {g : LineCfg} {s : State}
    (h : s.hp.inReset = false ∧ s.eng[r].exec = some ⟨x, .fresh⟩ ∧ Kind.ofCode x.kind = some k ∧ x.guardCode = 0)
    (h' : r ≠ 0 ∧ x.line.toNat < 64 ∧ (s.lineOf x).state = .live ∧ (s.lineOf x).gen = x.gen ∧
      (s.lineOf x).cfg = some g ∧ g.owner = r) : Passes r k x g s :=
  ⟨begins h, h'.1, ⟨h'.2.1, h'.2.2.1, h'.2.2.2.1⟩, h'.2.2.2.2.1, fun _ => h'.2.2.2.2.2⟩

/-- A write that HP holds can be reported completed, one that it does not hold cannot; a read can be in time. -/
theorem completes (s : State) : CanComplete aWrite (holding s) := .inr (.head _)
theorem fails {s : State} (h : s.hp.left = [] ∧ s.hp.writes = []) : ¬ CanComplete aWrite s := by
  unfold CanComplete; rw [h.1, h.2]; simp
theorem delivers {s : State} (n : Nat) (h : s.now ≤ 10000000) : CanDeliver (aRead n) s := ⟨rfl, h⟩

theorem witness_StepTakesFront :
    { up with pending := [.start] }.pending = Instr.start :: [] ∧ up.pending = [] := by decide

def inReset : State := { up with hp := { up.hp with inReset := true } }
theorem witness_FundamentalReset :
    ¬ Released inReset ∧ Instr.start ≠ .powerOnReset ∧ ∀ level heldNs, Instr.start ≠ .fsyncStrobe level heldNs :=
  ⟨by unfold Released; decide, by decide, fun _ _ h => nomatch h⟩

theorem released_up : Released up := rfl
theorem released_reset : Released State.reset := rfl

theorem witness_ControlResetKeeps : Released up := rfl
theorem witness_RegisterAndLinkWrites :
    Released up ∧ aWrite.num ∈ ({ up with hp := { up.hp with left := [0] } } : State).hp.left ∧
    (let v : HostWrite := { aWrite with num := 2 }
     let w : HostWrite := { aWrite with num := 3 }
     let s : State := { up with hp := { up.hp with writes := [v] ++ w :: [], left := [1] } }
     w.num ∉ s.hp.left ∧ s.hp.writes = [v] ++ w :: [] ∧ (∀ v' ∈ [v], v'.num < w.num)) :=
  ⟨rfl, by decide, by decide⟩

def offAt (lo : Word) : State := { up with hp := { up.hp with dev := .off, anchorLo := lo } }
theorem witness_StartTakesAnchorAddress :
    (Released State.reset ∧ State.reset.hp.dev = .off ∧ State.reset.sc.state = .init) ∧
    (Released (offAt 64) ∧ (offAt 64).hp.dev = .off ∧ (offAt 64).sc.state = .ready ∧
      ((offAt 64).hp.anchorHi ++ (offAt 64).hp.anchorLo).toNat % 64 = 0) ∧
    (Released (offAt 63) ∧ (offAt 63).hp.dev = .off ∧ (offAt 63).sc.state = .ready ∧
      ((offAt 63).hp.anchorHi ++ (offAt 63).hp.anchorLo).toNat % 64 ≠ 0) :=
  ⟨⟨rfl, by decide⟩, ⟨rfl, by decide⟩, rfl, by decide⟩

theorem witness_IgnoredRegisterWrites :
    (Released up ∧ up.hp.dev ≠ .off) ∧ (Released State.reset ∧ State.reset.hp.dev ≠ .running) ∧
    ((0#32 : Word) ≠ 1#32 ∧ (0#32 : Word) ≠ 2#32 ∧ (0#32 : Word) ≠ 3#32) ∧
    ((3 < 4) ∧ (4 < 5) ∧ (0x04 = 0x04) ∧ (0x1C ≤ 0x1C) ∧ 0x11 % 4 ≠ 0) :=
  ⟨⟨rfl, by decide⟩, ⟨rfl, by decide⟩, by decide, by decide⟩

def startingIn (a : Addr) : State := { State.reset with hp := { HostPort.resetValue with dev := .starting, anchorAddr := some a } }
theorem witness_StoreReadyGoesOn :
    (Released State.reset ∧ State.reset.sc.state = .init ∧ State.reset.hp.dev ≠ .starting) ∧
    (Released (startingIn 64) ∧ (startingIn 64).sc.state = .init ∧ (startingIn 64).hp.dev = .starting ∧
      (startingIn 64).hp.anchorAddr = some 64 ∧ (64 : Addr).toNat % 64 = 0) ∧
    (Released (startingIn 65) ∧ (startingIn 65).sc.state = .init ∧ (startingIn 65).hp.dev = .starting ∧
      (startingIn 65).hp.anchorAddr = some 65 ∧ (65 : Addr).toNat % 64 ≠ 0) :=
  ⟨⟨rfl, by decide⟩, ⟨rfl, by decide⟩, rfl, by decide⟩

/-- The anchor block with T 1, the lowest, and both sizes 16, the lowest; and with T 0. -/
def lowestBlock (T : BitVec 256) : BitVec 256 := 0x40#256 + (16#256 <<< 64) + (16#256 <<< 192) + (T <<< 224)
theorem witness_AnchorReadEnds :
    Released starting ∧ starting.hp.anchorRead = some (aRead 32) ∧ CanDeliver (aRead 32) { starting with now := 10000000 } ∧
    ((lowestBlock 1).extractLsb' 0 64 : Addr).toNat % 64 = 0 ∧
    ((lowestBlock 1).extractLsb' 64 32).toNat ∈ [16, 32, 64, 128, 256, 512, 1024, 2048, 4096] ∧
    ((lowestBlock 1).extractLsb' 128 64 : Addr).toNat % 64 = 0 ∧
    ((lowestBlock 1).extractLsb' 192 32).toNat ∈ [16, 32, 64, 128, 256, 512, 1024, 2048, 4096] ∧
    1 ≤ ((lowestBlock 1).extractLsb' 224 8).toNat ∧ ¬ 1 ≤ ((lowestBlock 0).extractLsb' 224 8).toNat :=
  ⟨rfl, by decide, delivers 32 (by decide), by decide⟩

def pushReading : State := withRd 1 4 (onLine 1 { rcd 4 with count := 2 } (.pushing 0 2) lineWriting)
theorem witness_TimeoutIsAFailedRead :
    (Released starting ∧ starting.hp.anchorRead = some (aRead 32)) ∧
    (Released (withFetch 2 up) ∧ (withFetch 2 up).eng[(2 : Ring)].fetch = some (aRead 32)) ∧
    (Released pushReading ∧ pushReading.eng[(1 : Ring)].rd = some (aRead 4) ∧
      pushReading.eng[(1 : Ring)].exec = some ⟨{ rcd 4 with count := 2 }, .pushing 0 2⟩) :=
  ⟨⟨rfl, by decide⟩, ⟨rfl, by decide⟩, rfl, by decide⟩

def restarting : State := { up with hp := { up.hp with restart := true } }
/-- RE0 in WAIT_CQ: its claim waits, or is being written (and HP holds the write, or the write is lost). -/
def re0Claims : State := (engState 0 .waitCq up).updCq 0 (fun k => { k with queue := [claimOf 0 false false] })
def re0Lost : State := (engState 0 .waitCq up).updCq 0 (fun k => { k with inflight := some ⟨claimOf 0 false false, aWrite⟩ })
def fetches0 (s : State) : State := s.updEng 0 (fun e => { e with fetch := some (aRead 32) })
/-- RE0's CONFIGURE COMPLETION RING of CQ1 waits for the write of a discarded notice; its RESET RING waits for ring 1. -/
def cqConfig : Record := { rcd 0x21 with paramA := 1, count := 16, paramB := 1 }
def cqWaits : State := executing 0 cqConfig .cqWait (lost 4 true true up)
def cq2Waits : State := executing 0 { cqConfig with paramA := 2 } .cqWait up
def resetOf (r : BitVec 32) : Record := { rcd 0x22 with paramA := r }
def resetWaits : State :=
  executing 0 (resetOf 3) (.resetWait 3) ((withFetch 3 up).updEng 3 (fun e => { e with stop := some .ringReset }))

theorem witness_RestartRing0Restarts :
    (Released restarting ∧ restarting.hp.dev = .running ∧ restarting.hp.restart = true) ∧
    (∀ s, s = up ∨ s = fetches0 up ∨ s = re0Claims ∨ s = fetches0 re0Claims ∨ s = re0Lost ∨ s = querying ∨ s = cqWaits ∨
        s = executing 0 (resetOf 1) (.resetWait 1) up →
      Released s ∧ s.hp.dev = .running ∧ s.hp.restart = false) ∧
    (∀ s, s = up ∨ s = fetches0 up ∨ s = re0Claims ∨ s = fetches0 re0Claims →
      AtRest 0 s ∧ s.eng[(0 : Ring)].exec = none ∧ s.cq[(0 : CqIx)].inflight = none) ∧
    (up.eng[(0 : Ring)].state ≠ .waitCq ∧ up.eng[(0 : Ring)].fetch = none) ∧
    (fetches0 up).eng[(0 : Ring)].fetch.isSome = true ∧
    (re0Claims.eng[(0 : Ring)].state = .waitCq ∧ re0Claims.eng[(0 : Ring)].cfg.map (·.cq) = some 0 ∧
      (∀ c ∈ re0Claims.cq[(0 : CqIx)].queue, c.ring = 0 ∧ c.notice = false) ∧ re0Claims.eng[(0 : Ring)].fetch = none ∧
      (fetches0 re0Claims).eng[(0 : Ring)].fetch.isSome = true) ∧
    (re0Lost.eng[(0 : Ring)].state = .waitCq ∧ re0Lost.cq[(0 : CqIx)].inflight = some ⟨claimOf 0 false false, aWrite⟩) ∧
    querying.eng[(0 : Ring)].wr.isSome = true ∧ cqWaits.eng[(0 : Ring)].exec = some ⟨cqConfig, .cqWait⟩ ∧
    (∀ s, s = on0 (rcd 0x24) ∨ s = fetches0 (on0 (rcd 0x24)) →
      Released s ∧ s.hp.dev = .running ∧ s.hp.restart = false ∧ AtRest 0 s ∧ s.eng[(0 : Ring)].state = .active ∧
      s.eng[(0 : Ring)].exec = some ⟨rcd 0x24, .fresh⟩ ∧ s.cq[(0 : CqIx)].inflight = none) ∧
    (on0 (rcd 0x24)).eng[(0 : Ring)].fetch = none ∧ (fetches0 (on0 (rcd 0x24))).eng[(0 : Ring)].fetch.isSome = true := by
  refine ⟨⟨rfl, by decide⟩, ?_, ?_, by decide, by decide, by decide, by decide, by decide, rfl, ?_, rfl, rfl⟩
  · rintro s (rfl | rfl | rfl | rfl | rfl | rfl | rfl | rfl) <;> exact ⟨rfl, rfl, rfl⟩
  · rintro s (rfl | rfl | rfl | rfl) <;> exact ⟨⟨rfl, rfl, fun _ h => (nomatch h)⟩, rfl, rfl⟩
  · rintro s (rfl | rfl) <;> exact ⟨rfl, rfl, rfl, ⟨rfl, rfl, fun _ h => (nomatch h)⟩, rfl, rfl, rfl⟩

/-- The ends of a restart that waited: for a fetch, a query's write, ring 0's record, a completion ring, a ring. -/
theorem witness_RestartRing0Restarts_ends :
    let told := withStop 0 .restart
    (∀ f s, (f = id ∨ f = fetches0) → s = f (told (fetches0 up)) ∨ s = f (told querying) ∨ s = f (told queryingLost) ∨
        s = f (told (holding re0Lost)) ∨ s = f (told re0Lost) ∨ s = f (told (holding cqWaits)) ∨ s = f (told cqWaits) ∨
        s = f (told resetWaits) →
      Released s ∧ s.eng[(0 : Ring)].stop = some .restart ∧ s.eng[(0 : Ring)].rd = none ∧
      ∀ b, s.sc.port ≠ .burst 0 b) ∧
    ((told (fetches0 up)).eng[(0 : Ring)].fetch = some (aRead 32) ∧ CanDeliver (aRead 32) (told (fetches0 up)) ∧
      (told (fetches0 up)).eng[(0 : Ring)].state ≠ .waitCq ∧ (told (fetches0 up)).eng[(0 : Ring)].wr = none) ∧
    ((told querying).eng[(0 : Ring)].exec = some ⟨rcd 0x26, .querying queryResult⟩ ∧
      (told querying).eng[(0 : Ring)].state = .active ∧ (told querying).eng[(0 : Ring)].wr = some aWrite ∧
      CanComplete aWrite (told querying) ∧ ¬ CanComplete aWrite (told queryingLost)) ∧
    ((told re0Lost).eng[(0 : Ring)].state = .waitCq ∧ (told re0Lost).eng[(0 : Ring)].cfg.map (·.cq) = some 0 ∧
      (told re0Lost).cq[(0 : CqIx)].cfg = some cqGiven ∧ 1 ≤ cqGiven.size ∧
      (told re0Lost).cq[(0 : CqIx)].inflight = some ⟨claimOf 0 false false, aWrite⟩ ∧
      (told re0Lost).cq[(0 : CqIx)].queue = [] ∧ (told re0Lost).cq[(0 : CqIx)].held = none ∧
      CanComplete aWrite (told (holding re0Lost)) ∧ ¬ CanComplete aWrite (told re0Lost)) ∧
    ((told cqWaits).eng[(0 : Ring)].exec = some ⟨cqConfig, .cqWait⟩ ∧ cqConfig.cqA = 1 ∧
      (told cqWaits).cq[(1 : CqIx)].cfg = some cqGiven ∧
      (told cqWaits).cq[(1 : CqIx)].inflight = some ⟨claimOf 4 true true, aWrite⟩ ∧
      (told cqWaits).cq[(1 : CqIx)].queue = [] ∧ (told cqWaits).cq[(0 : CqIx)].inflight = none ∧
      CanComplete aWrite (told (holding cqWaits)) ∧ ¬ CanComplete aWrite (told cqWaits)) ∧
    ((told resetWaits).eng[(0 : Ring)].exec = some ⟨resetOf 3, .resetWait 3⟩ ∧
      (told resetWaits).eng[(3 : Ring)].cfg = none ∧ (told resetWaits).eng[(3 : Ring)].exec = none ∧
      (told resetWaits).eng[(3 : Ring)].stop = some .ringReset ∧
      (told resetWaits).eng[(3 : Ring)].fetch = some (aRead 32) ∧ AtRest 3 (told resetWaits)) := by
  refine ⟨?_, ⟨rfl, delivers 32 (by decide), by decide, rfl⟩,
    ⟨rfl, rfl, rfl, completes _, fails ⟨rfl, rfl⟩⟩,
    ⟨rfl, rfl, rfl, by decide, rfl, rfl, rfl, completes _, fails ⟨rfl, rfl⟩⟩,
    ⟨rfl, by decide, rfl, rfl, rfl, rfl, completes _, fails ⟨rfl, rfl⟩⟩,
    rfl, rfl, rfl, rfl, rfl, rfl, rfl, fun _ h => (nomatch h)⟩
  rintro f s (rfl | rfl) (rfl | rfl | rfl | rfl | rfl | rfl | rfl | rfl) <;>
  exact ⟨rfl, rfl, rfl, fun _ h => (nomatch h)⟩

theorem witness_RegisterReads :
    FaultLaw up ∧ (0 + 4 ≤ 0x04) ∧ (0x10 ≤ 0x10 ∧ 0x10 + 8 ≤ 0x18) ∧ 0x1C ≤ 0x1C :=
  ⟨⟨by decide, by decide, fun _ => rfl⟩, by decide⟩

/-! ### Ring engines -/

theorem witness_PostSetsTail :
    (Released up ∧ (3 : Ring).val = (0x00010003#32 : Word).toNat % 8 ∧ up.eng[(3 : Ring)].state = .disabled) ∧
    (Released up ∧ (1 : Ring).val = (0x00100001#32 : Word).toNat % 8 ∧
      ∀ g, up.eng[(1 : Ring)].cfg = some g → g.size ≤ (0x00100001#32 : Word).toNat / 65536) ∧
    (Released up ∧ (1 : Ring).val = (0x000F0001#32 : Word).toNat % 8 ∧
      up.eng[(1 : Ring)].cfg = some { base := 0x10000, size := 16, cls := some .bulk, cq := 1 } ∧
      up.eng[(1 : Ring)].state ≠ .disabled ∧ up.eng[(1 : Ring)].state ≠ .halted ∧
      (0x000F0001#32 : Word).toNat / 65536 < 16 ∧ up.eng[(1 : Ring)].head < 16) :=
  ⟨⟨rfl, by decide⟩, ⟨rfl, by decide, fun g h => by cases h; decide⟩, rfl, by decide⟩

theorem witness_RetireMovesHead :
    (Released up ∧ (2 : CqIx).val = (2#32 : Word).toNat % 4 ∧ up.cq[(2 : CqIx)].cfg = none) ∧
    (Released waiting ∧ (1 : CqIx).val = (0x00010001#32 : Word).toNat % 4 ∧ waiting.cq[(1 : CqIx)].cfg = some cqGiven ∧
      waiting.cq[(1 : CqIx)].inflight.isSome = true ∧
      (0x00010001#32 : Word).toNat / 65536 = (waiting.cq[(1 : CqIx)].tail + 1) % 16) ∧
    (Released up ∧ (1 : CqIx).val = (1#32 : Word).toNat % 4 ∧ up.cq[(1 : CqIx)].cfg = some cqGiven ∧
      up.cq[(1 : CqIx)].inflight.isSome = false ∧ (1#32 : Word).toNat / 65536 < 16 ∧
      ((1#32 : Word).toNat / 65536 + 16 - up.cq[(1 : CqIx)].head) % 16 ≤
        (up.cq[(1 : CqIx)].tail + 16 - up.cq[(1 : CqIx)].head) % 16) ∧
    (Released up ∧ (1 : CqIx).val = (0x00100001#32 : Word).toNat % 4 ∧ up.cq[(1 : CqIx)].cfg = some cqGiven ∧
      up.cq[(1 : CqIx)].inflight.isSome = false ∧ ¬ (0x00100001#32 : Word).toNat / 65536 < 16) :=
  ⟨⟨rfl, by decide⟩, ⟨rfl, by decide⟩, ⟨rfl, by decide⟩, rfl, by decide⟩

def fetching (st : EngState) : State := withFetch 2 (engState 2 st up)
def ring2 : RingCfg := { base := 0x10000, size := 16, cls := some .paced, cq := 1 }
/-- Ring 2 pushes, told to halt for a failed late notice, with a fetch in flight. -/
def haltingFetch : State := withStop 2 .noticeHalt (withFetch 2 (withRd 2 4 (executing 2 { rcd 4 with count := 2 } (.pushing 0 2) up)))
theorem witness_FetchStagesRecord (st : EngState) (_ : st ∈ [.halted, .waitCq, .active]) :
    Released (fetching st) ∧ (fetching st).eng[(2 : Ring)].fetch = some (aRead 32) ∧ CanDeliver (aRead 32) (fetching st) ∧
    (fetching st).eng[(2 : Ring)].cfg = some ring2 ∧ (fetching st).eng[(2 : Ring)].stop = none ∧
    (fetching st).eng[(2 : Ring)].exec = none ∧ (fetching st).eng[(2 : Ring)].state = st ∧
    Released haltingFetch ∧ haltingFetch.eng[(2 : Ring)].fetch = some (aRead 32) ∧ CanDeliver (aRead 32) haltingFetch ∧
    haltingFetch.eng[(2 : Ring)].cfg = some ring2 ∧ haltingFetch.eng[(2 : Ring)].stop = some .noticeHalt ∧
    haltingFetch.eng[(2 : Ring)].state = .active ∧ haltingFetch.eng[(2 : Ring)].exec.isSome = true :=
  ⟨rfl, rfl, delivers 32 (by decide : 0 ≤ 10000000), rfl, rfl, rfl, rfl, rfl, rfl, delivers 32 (by decide), rfl, rfl, rfl, rfl⟩

theorem witness_FetchFailureHalts (st : EngState) (_ : st ∈ [.halted, .waitCq, .active]) :
    Released (fetching st) ∧ (fetching st).eng[(2 : Ring)].fetch = some (aRead 32) ∧
    (fetching st).eng[(2 : Ring)].stop = none ∧ (fetching st).eng[(2 : Ring)].exec = none ∧
    (fetching st).eng[(2 : Ring)].state = st ∧ Released haltingFetch ∧
    haltingFetch.eng[(2 : Ring)].fetch = some (aRead 32) ∧ haltingFetch.eng[(2 : Ring)].stop = some .noticeHalt ∧
    haltingFetch.eng[(2 : Ring)].state = .active ∧ haltingFetch.eng[(2 : Ring)].exec.isSome = true :=
  ⟨rfl, rfl, rfl, rfl, rfl, rfl, rfl, rfl, rfl, rfl⟩

/-- Ring 1 executes a record with a guard code. -/
def guarded5 (kind : Nat) (code : BitVec 4) : Record := { rcd kind with guardCode := code }
theorem witness_GuardsRefuseOrSkip :
    (Released (executing 1 (guarded5 0x20 5) .fresh up) ∧
      Executes 1 (guarded5 0x20 5) (executing 1 (guarded5 0x20 5) .fresh up) ∧
      (guarded5 0x20 5).kindOfRing 1 = false ∧ 5 ≤ (guarded5 0x20 5).guardCode.toNat) ∧
    (Released (executing 1 (guarded5 4 3) .fresh up) ∧
      Executes 1 (guarded5 4 3) (executing 1 (guarded5 4 3) .fresh up) ∧
      Kind.ofCode (guarded5 4 3).kind = some .push ∧ (Kind.push.isControl = true → (1 : Ring) = 0) ∧
      (guarded5 4 3).guardCode.toNat = 3 ∧ (executing 1 (guarded5 4 3) .fresh up).eng[(1 : Ring)].test = false) :=
  ⟨⟨rfl, rfl, by decide⟩, rfl, rfl, by decide⟩

theorem witness_UnknownKindsRefused :
    (Released (executing 1 (rcd 0x0B) .fresh up) ∧ Executes 1 (rcd 0x0B) (executing 1 (rcd 0x0B) .fresh up) ∧
      GuardMet 1 (rcd 0x0B) (executing 1 (rcd 0x0B) .fresh up) ∧ Kind.ofCode (rcd 0x0B).kind = none) ∧
    (Kind.ofCode (rcd 0x20).kind = some .configureRing ∧ (Kind.configureRing.isControl = true ↔ (1 : Ring) ≠ 0)) ∧
    (BeginsControl .mark (rcd 10) (on0 (rcd 10)) ∧ Kind.mark.isControl = false) :=
  ⟨⟨rfl, rfl, ⟨.always, rfl, rfl⟩, by decide⟩, by decide, begins (by decide), rfl⟩

/-! ### Lines -/

theorem witness_LineChecksRefuse :
    (Begins 1 .push { rcd 4 with line := 64 } (onLine 1 { rcd 4 with line := 64 } .fresh lineLive) ∧
      Kind.push.namesLine = true ∧ 64 ≤ ({ rcd 4 with line := 64 } : Record).line.toNat) ∧
    (Begins 1 .openLine (rcd 1) (onLine 1 (rcd 1) .fresh lineLive) ∧ lineLive.state ≠ .free) ∧
    (Begins 1 .push { rcd 4 with gen := 2 } (onLine 1 { rcd 4 with gen := 2 } .fresh lineLive) ∧
      ({ rcd 4 with gen := 2 } : Record).gen ≠ lineLive.gen) ∧
    (Begins 2 .push (rcd 4) (onLine 2 (rcd 4) .fresh lineLive) ∧ lineLive.cfg = some lineGiven ∧
      lineGiven.owner ≠ 2) ∧
    (Begins 1 .push (rcd 4) (onLine 1 (rcd 4) .fresh { lineLive with state := .closing }) ∧ lineGiven.owner = 1) :=
  ⟨⟨begins (by decide), by decide⟩, ⟨begins (by decide), by decide⟩, ⟨begins (by decide), by decide⟩,
    ⟨begins (by decide), by decide⟩, begins (by decide), by decide⟩

/-- Ring 1 executes a record about `lineLive`, and the checks up to step 5 are passed, whatever the operands. -/
theorem passes_up (k : Kind) (code : Nat) (count paramA : BitVec 32) (addr : Addr) (paramC : BitVec 64)
    (hk : Kind.ofCode (BitVec.ofNat 8 code) = some k) :
    let x := { rcd code with count := count, paramA := paramA, addr := addr, paramC := paramC }
    Passes 1 k x lineGiven (onLine 1 x .fresh lineLive) :=
  passes ⟨rfl, rfl, hk, rfl⟩ ⟨by decide, (by decide : (0#8).toNat < 64), rfl, rfl, rfl, rfl⟩

theorem witness_RangeAndAlignmentChecks_open :
    let x : Nat → Nat → Record := fun a b => { rcd 1 with paramA := BitVec.ofNat 32 a, paramB := BitVec.ofNat 16 b }
    let s := fun a b => executing 1 (x a b) .fresh up
    (∀ a b, Begins 1 .openLine (x a b) (s a b) ∧ (x a b).line.toNat < 64 ∧ ((s a b).lineOf (x a b)).state = .free) ∧
    (x 15 1).paramA.toNat < 16 ∧ 4194304 < (x 4194305 1).paramA.toNat ∧
    (16 ≤ (x 16 4).paramA.toNat ∧ (x 16 4).paramA.toNat ≤ 4194304 ∧ (x 16 4).paramB.toNat ∉ [1, 2, 3]) :=
  ⟨fun a b => ⟨begins ⟨rfl, rfl, rfl, rfl⟩, (by decide : (0#8).toNat < 64), rfl⟩, by decide⟩

/-- The boundary operands of step 6 and 7, each with `passes_up`. -/
theorem witness_RangeAndAlignmentChecks :
    16 < (17#32).toNat ∧ (0#32).toNat < 1 ∧ 4096 < (4097#32).toNat ∧ lineGiven.len < (101#32).toNat ∧
    (1 ≤ (1#32).toNat ∧ (1#32).toNat ≤ 4096 ∧ lineGiven.len < (100#32).toNat + (1#32).toNat) ∧
    1024 < (1025#32).toNat ∧
    (∀ k code, Kind.ofCode (BitVec.ofNat 8 code) = some k → ∀ n a,
      let x := { rcd code with count := n, paramA := a }
      Passes 1 k x lineGiven (onLine 1 x .fresh lineLive)) ∧
    RangesOk .push { rcd 4 with count := 100 } lineGiven [] ∧ (0x1002 : Addr).toNat % 4 ≠ 0 ∧
    RangesOk .setTaps { rcd 3 with count := 1 } lineGiven [] ∧ RangesOk .gather (rcd 7) lineGiven [] ∧
    RangesOk .readSpan { rcd 8 with count := 100 } lineGiven [] ∧
    RangesOk .step { rcd 9 with count := 1024 } lineGiven (List.replicate 16 0) := by
  refine ⟨by decide, by decide, by decide, by decide, by decide, by decide,
    fun k code h n a => passes_up k code n a 0x1000 0x2000 h, ?_, by decide, ?_, ?_, ?_, ?_⟩ <;>
  unfold RangesOk <;> decide

/-- A line with 16 taps, on which 1,024 steps make 16,384 results and 1,025 are too many: the product is out of range
only with the count in range, at 17 taps. -/
theorem witness_RangeAndAlignmentChecks_product :
    let l := { lineLive with taps := List.replicate 17 0 }
    let x := { rcd 9 with count := 1024 }
    Passes 1 .step x lineGiven (onLine 1 x .fresh l) ∧ x.count.toNat ≤ 1024 ∧ 16384 < x.count.toNat * l.taps.length :=
  ⟨passes (by decide) (by decide), by decide⟩

def opening (a : Nat) : Record := { rcd 1 with paramA := BitVec.ofNat 32 a, paramB := 1 }
theorem witness_OpenMakesLineLive :
    let s := executing 1 (opening 16) .fresh up
    Begins 1 .openLine (opening 16) s ∧ (opening 16).line.toNat < 64 ∧ (s.lineOf (opening 16)).state = .free ∧
    16 ≤ (opening 16).paramA.toNat ∧ (opening 16).paramA.toNat ≤ 4194304 ∧
    (opening 16).paramB.toNat = Format.s16.code ∧
    allocate 1 s.free = some (⟨0, 1⟩, [⟨1, 131071⟩]) ∧ allocate 1 { s with free := [] }.free = none :=
  ⟨begins (by decide), by decide⟩

/-- First fit with an entry of exactly the request; 11.9: line 1 taken back between two entries it touches; line 0 taken back
where it touches none; and an extent that touches one entry only. -/
theorem witness_FreeListOperations :
    ((∀ p ∈ [(⟨0, 9⟩ : Extent)], p.count < 10) ∧ 10 ≤ (⟨20, 10⟩ : Extent).count) ∧
    (FreeListLaw ([⟨10, 740⟩] ++ [⟨66286, 16⟩, ⟨103802, 27270⟩]) ∧ 10 + 740 = 750 ∧ 750 + 65536 = 66286) ∧
    (FreeListLaw ([] ++ [⟨103802, 27270⟩]) ∧ 0 + 750 ≠ 103802) ∧
    (FreeListLaw ([⟨0, 750⟩] ++ [⟨103802, 27270⟩]) ∧ 0 + 750 = 750 ∧ 750 + 10 ≠ 103802) ∧
    (FreeListLaw ([⟨0, 750⟩] ++ [⟨103802, 27270⟩]) ∧ 0 + 750 ≠ 103800 ∧ 103800 + 2 = 103802) := by
  unfold FreeListLaw; decide

theorem witness_CloseFreesOrWaits :
    (Passes 1 .closeLine (rcd 2) lineGiven (onLine 1 (rcd 2) .fresh lineLive) ∧
      lineLive.lock = { mode := .none, holders := [], queue := [] }) ∧
    (Passes 1 .closeLine (rcd 2) lineGiven (onLine 1 (rcd 2) .fresh (lineLocked .read [2] [⟨3, .reader⟩])) ∧
      (lineLocked .read [2] [⟨3, .reader⟩]).lock.holders ≠ [] ∧
      ∀ w ∈ (lineLocked .read [2] [⟨3, .reader⟩]).lock.queue, w.kind = .reader ∧ w.ring ≠ 1) :=
  ⟨⟨passes (by decide) (by decide), by decide⟩, passes (by decide) (by decide), by decide⟩

theorem witness_TestComparesFill :
    Passes 1 .test { rcd 6 with paramA := 100 } lineGiven (onLine 1 { rcd 6 with paramA := 100 } .fresh lineLive) ∧
    ({ rcd 6 with paramA := 100 } : Record).paramA.toNat ≤ lineGiven.len :=
  ⟨passes (by decide) (by decide), by decide⟩

/-! ### The lock -/

theorem claims {k : Kind} {x : Record} (l : Line)
    (h : (onLine 1 x .fresh l).hp.inReset = false ∧ (onLine 1 x .fresh l).eng[(1 : Ring)].exec = some ⟨x, .fresh⟩ ∧
      Kind.ofCode x.kind = some k ∧ x.guardCode = 0)
    (h' : (1 : Ring) ≠ 0 ∧ x.line.toNat < 64 ∧ ((onLine 1 x .fresh l).lineOf x).state = .live ∧
      ((onLine 1 x .fresh l).lineOf x).gen = x.gen ∧ ((onLine 1 x .fresh l).lineOf x).cfg = some lineGiven ∧
      lineGiven.owner = 1)
    (hr : RangesOk k x lineGiven ((onLine 1 x .fresh l).lineOf x).taps) (ha : Aligned k x) :
    Claims 1 k x lineGiven (onLine 1 x .fresh l) :=
  ⟨passes h h', hr, ha⟩

def counted (kind : Nat) (n : BitVec 32) : Record := { rcd kind with count := n }
theorem claims_lock (mode : LockMode) (hs : List Ring) (q : List Waiter) :
    let l := lineLocked mode hs q
    Claims 1 .push (counted 4 1) lineGiven (onLine 1 (counted 4 1) .fresh l) ∧
    Claims 1 .setTaps (counted 3 1) lineGiven (onLine 1 (counted 3 1) .fresh l) ∧
    Claims 1 .setTaps (counted 3 0) lineGiven (onLine 1 (counted 3 0) .fresh l) ∧
    Claims 1 .clear (rcd 5) lineGiven (onLine 1 (rcd 5) .fresh l) ∧
    Claims 1 .gather (rcd 7) lineGiven (onLine 1 (rcd 7) .fresh l) ∧
    Claims 1 .readSpan (counted 8 1) lineGiven (onLine 1 (counted 8 1) .fresh l) ∧
    Claims 1 .step (counted 9 1) lineGiven (onLine 1 (counted 9 1) .fresh l) := by
  refine ⟨?_, ?_, ?_, ?_, ?_, ?_, ?_⟩ <;>
  refine claims _ ⟨rfl, rfl, rfl, rfl⟩ ⟨by decide, by decide, rfl, rfl, rfl, rfl⟩ ?_ (by simp only [Aligned] <;> decide)
  iterate 6 (simp only [RangesOk] <;> decide)
  exact (by decide : 1 ≤ 1 ∧ 1 ≤ 1024 ∧ 1 * 2 ≤ 16384)

theorem witness_WriterGranted :
    Claims 1 .push (counted 4 1) lineGiven (onLine 1 (counted 4 1) .fresh lineLive) ∧
    Claims 1 .setTaps (counted 3 1) lineGiven (onLine 1 (counted 3 1) .fresh lineLive) ∧
    Claims 1 .step (counted 9 1) lineGiven (onLine 1 (counted 9 1) .fresh lineLive) ∧
    lineLive.lock.mode = .none ∧ 1 ≤ (counted 3 1).count.toNat :=
  have h := claims_lock .none [] []
  ⟨h.1, h.2.1, h.2.2.2.2.2.2, by decide⟩

theorem witness_ClearAndEmptyTaps :
    Claims 1 .clear (rcd 5) lineGiven (onLine 1 (rcd 5) .fresh lineLive) ∧
    Claims 1 .setTaps (counted 3 0) lineGiven (onLine 1 (counted 3 0) .fresh lineLive) ∧
    lineLive.lock = { mode := .none, holders := [], queue := [] } ∧ (counted 3 0).count.toNat = 0 :=
  have h := claims_lock .none [] []
  ⟨h.2.2.2.1, h.2.2.1, by decide⟩

theorem witness_ClaimsQueue :
    (Claims 1 .push (counted 4 1) lineGiven (onLine 1 (counted 4 1) .fresh (lineLocked .read [2] [])) ∧
      (lineLocked .read [2] []).lock.mode ≠ .none) ∧
    (Claims 1 .gather (rcd 7) lineGiven (onLine 1 (rcd 7) .fresh (lineLocked .write [2] [])) ∧
      (lineLocked .write [2] []).lock.mode = .write) ∧
    (Claims 1 .readSpan (counted 8 1) lineGiven
        (onLine 1 (counted 8 1) .fresh (lineLocked .read [2] [⟨3, .reader⟩])) ∧
      (lineLocked .read [2] [⟨3, .reader⟩]).lock.queue ≠ []) :=
  ⟨⟨(claims_lock _ _ _).1, by decide⟩, ⟨(claims_lock _ _ _).2.2.2.2.1, by decide⟩,
    (claims_lock _ _ _).2.2.2.2.2.1, by decide⟩

/-- An empty GATHER at a lock that ring 2 reads; a GATHER with a filled tap; a READ SPAN of one unfilled result; and the case of
R82: 17 results of which the first 16 are unfilled. -/
theorem witness_ReaderGranted :
    (let l := { lineLocked .read [2] [] with taps := [] };
      Claims 1 .gather (rcd 7) lineGiven (onLine 1 (rcd 7) .fresh l) ∧ l.taps = [] ∧ l.lock.queue = [] ∧ l.lock.Lawful ∧
      l.lock.mode ≠ .write ∧ (1 : Ring) ∉ l.lock.holders) ∧
    (Claims 1 .gather (rcd 7) lineGiven (onLine 1 (rcd 7) .fresh (lineLocked .read [2] [])) ∧
      (lineLocked .read [2] []).lock.mode ≠ .write ∧ (lineLocked .read [2] []).lock.queue = [] ∧
      lineLive.taps ≠ [] ∧ (onLine 1 (rcd 7) .fresh (lineLocked .read [2] [])).eng[(1 : Ring)].wr = none ∧
      ((lineLive.taps.take 16).filter (fun d => d < lineLive.fill)).map (wordAt lineGiven lineLive.head) ≠ []) ∧
    (Claims 1 .readSpan { counted 8 1 with paramA := 99 } lineGiven
        (onLine 1 { counted 8 1 with paramA := 99 } .fresh lineLive) ∧
      [99].length = 1 ∧ [99][0]? = some (99 + 1 - 1 - 0) ∧
      (([99].take 16).filter (fun d => d < lineLive.fill)).map (wordAt lineGiven lineLive.head) = []) ∧
    (let x := { counted 8 17 with paramA := 2 }
     let offs := (List.range 17).map (fun i => 18 - i)
     Claims 1 .readSpan x lineGiven (onLine 1 x .fresh lineLive) ∧
      offs.length = 17 ∧ (∀ i < 17, offs[i]? = some (2 + 17 - 1 - i)) ∧
      ((offs.take 16).filter (fun d => d < lineLive.fill)).map (wordAt lineGiven lineLive.head) = []) :=
  ⟨⟨claims _ ⟨rfl, rfl, rfl, rfl⟩ ⟨by decide, by decide, rfl, rfl, rfl, rfl⟩ trivial rfl, rfl, rfl,
      (by decide : [(2 : Ring)] ≠ []), by decide⟩,
    ⟨(claims_lock _ _ _).2.2.2.2.1, by decide⟩,
    ⟨claims _ ⟨rfl, rfl, rfl, rfl⟩ ⟨by decide, by decide, rfl, rfl, rfl, rfl⟩
      ⟨by decide, by decide, by decide⟩ rfl, by decide⟩,
    claims _ ⟨rfl, rfl, rfl, rfl⟩ ⟨by decide, by decide, rfl, rfl, rfl, rfl⟩
      ⟨by decide, by decide, by decide⟩ rfl, by decide⟩

def closingLine (q : List Waiter) : Line := { lineLocked .none [] q with state := .closing }
theorem witness_GrantStepTable :
    ((lineLocked .read [2, 1] [⟨3, .writer⟩]).lock.holders = [2] ++ 1 :: [] ∧ (1 : Ring) ∉ [(2 : Ring)] ++ [] ∧
      (∀ w ∈ (lineLocked .read [2, 1] [⟨3, .writer⟩]).lock.queue, w.ring ≠ 1) ∧ [(2 : Ring)] ++ [] ≠ [] ∧
      (lineLocked .write [1] []).lock.holders = [] ++ 1 :: []) ∧
    ((lineLocked .write [2] [⟨3, .reader⟩, ⟨1, .reader⟩]).lock.queue = [⟨3, .reader⟩] ++ ⟨1, .reader⟩ :: [] ∧
      (∀ w ∈ [(⟨3, .reader⟩ : Waiter)] ++ [], w.ring ≠ 1) ∧
      (1 : Ring) ∉ (lineLocked .write [2] [⟨3, .reader⟩, ⟨1, .reader⟩]).lock.holders ∧
      (lineLocked .write [2] [⟨3, .reader⟩, ⟨1, .reader⟩]).lock.Lawful) ∧
    ((closingLine []).state = .closing ∧ (closingLine []).lock.holders = [] ∧ (closingLine []).cfg = some lineGiven) ∧
    ((closingLine [⟨1, .close⟩]).lock.queue = [⟨1, .close⟩] ∧
      (onLine 1 (rcd 2) (.waitClose 3) (closingLine [⟨1, .close⟩])).eng[(1 : Ring)].exec =
        some ⟨rcd 2, .waitClose 3⟩) ∧
    (∀ mode kind, ¬ ((lineLocked mode [2] [⟨1, kind⟩]).state = .closing ∧
        (lineLocked mode [2] [⟨1, kind⟩]).lock.holders = []) ∧
      (lineLocked mode [2] [⟨1, kind⟩]).lock.queue = ⟨1, kind⟩ :: []) ∧
    (let s := executing 0 (resetOf 1) .fresh (onLine 1 (rcd 4) .waitLock (lineLocked .none [] [⟨1, .writer⟩]));
      MeetsReset 1 { s with pending := [.resetRing] } ∧ ¬ MeetsReset 1 s ∧
      s.eng[(1 : Ring)].exec = some ⟨rcd 4, .waitLock⟩) :=
  ⟨by decide, ⟨rfl, by decide, by decide, ⟨2, rfl⟩⟩, by decide, ⟨rfl, rfl⟩, fun _ _ => ⟨fun h => (nomatch h.1), rfl⟩,
    ⟨⟨[], rfl⟩, by decide, rfl, resetOf 1, begins (by decide), rfl⟩, fun ⟨⟨_, h⟩, _⟩ => (nomatch h), rfl⟩

/-! ### Transfers of the line commands -/

def tapReading : State := withRd 1 8 (onLine 1 (counted 3 2) .tapRead lineWriting)
theorem witness_TapListReadEnds :
    Released tapReading ∧ tapReading.eng[(1 : Ring)].exec = some ⟨counted 3 2, .tapRead⟩ ∧
    tapReading.eng[(1 : Ring)].stop = none ∧ tapReading.eng[(1 : Ring)].rd = some (aRead 8) ∧
    (tapReading.lineOf (counted 3 2)).cfg = some lineGiven ∧ CanDeliver (aRead 8) tapReading ∧
    (aRead 8).len = 4 * [(99#32), 0].length ∧ (∀ d ∈ [(99#32), 0].map (·.toNat), d < lineGiven.len) ∧
    ([(99#32), 100].map (·.toNat))[1]? = some 100 ∧ lineGiven.len ≤ 100 ∧
    ∀ j < 1, ∀ d', ([(99#32), 100].map (·.toNat))[j]? = some d' → d' < lineGiven.len :=
  ⟨rfl, rfl, rfl, rfl, rfl, delivers 8 (by decide), rfl, by decide, rfl, by decide, fun j hj d' h => by
    obtain rfl : j = 0 := by omega
    cases h; decide⟩

theorem witness_PushReadEnds :
    Released pushReading ∧ pushReading.eng[(1 : Ring)].exec = some ⟨counted 4 2, .pushing 0 2⟩ ∧
    pushReading.eng[(1 : Ring)].stop = none ∧ pushReading.eng[(1 : Ring)].rd = some (aRead 4) ∧
    (pushReading.lineOf (counted 4 2)).cfg = some lineGiven ∧ CanDeliver (aRead 4) pushReading ∧
    (aRead 4).len = [(0 : Byte), 0, 0, 0].length :=
  ⟨rfl, rfl, rfl, rfl, rfl, delivers 4 (by decide), rfl⟩

def lastWord : Nat := 8388607
def pushing (n : BitVec 32) : State :=
  withPort (.burst 1 (.write [(lastWord, 5)])) (onLine 1 (counted 4 n) (.pushing 0 1) lineWriting)
theorem witness_PushBurstCommits (n : BitVec 32) (_ : n = 2 ∨ n = 1) :
    Released (pushing n) ∧ (pushing n).sc.port = .burst 1 (.write [(lastWord, 5)]) ∧
    (∀ p ∈ [(lastWord, (5 : Word))], p.1 < 8388608) ∧
    (pushing n).eng[(1 : Ring)].exec = some ⟨counted 4 n, .pushing 0 1⟩ ∧
    (pushing n).eng[(1 : Ring)].stop = none ∧ ((pushing n).lineOf (counted 4 n)).cfg = some lineGiven ∧
    (counted 4 n).count = n :=
  ⟨rfl, rfl, by decide, rfl, rfl, rfl, rfl⟩

theorem witness_StoreFrame :
    (Instr.storeBurstEnd.wf = true ∧ Instr.storeBurstEnd ≠ .powerOnReset ∧ Instr.storeBurstEnd ≠ .reset ∧
      (∃ t, exec .storeBurstEnd (pushing 1) = .next t) ∧ ∀ p ∈ [(lastWord, (5 : Word))], p.1 ≠ 0) ∧
    (Released (pushing 1) ∧ (pushing 1).sc.port = .burst 1 (.write [(lastWord, 5)]) ∧
      [(lastWord, (5 : Word))].Pairwise (fun p q => p.1 ≠ q.1) ∧ (lastWord, (5 : Word)) ∈ [(lastWord, (5 : Word))]) ∧
    (Released (withPort (.burst 1 (.read [lastWord, 8388608])) up) ∧
      (Burst.read [lastWord, 8388608]).words = [lastWord] ++ 8388608 :: [] ∧ ∀ p ∈ [lastWord], p < 8388608) :=
  ⟨⟨rfl, by decide, by decide, ⟨_, rfl⟩, by decide⟩, ⟨rfl, rfl, by decide, by decide⟩, rfl, rfl, by decide⟩

def reads (c : ReaderCtx) : State :=
  withPort (.burst 1 (.read [2])) (onLine 1 (rcd 7) (.reader c) lineReading)
theorem witness_ReaderBurstRead :
    Released (reads reader) ∧ (reads reader).sc.port = .burst 1 (.read [2]) ∧ (∀ a ∈ [2], a < 8388608) ∧
    (reads reader).eng[(1 : Ring)].exec = some ⟨rcd 7, .reader reader⟩ ∧ reader.failed = false ∧
    (reads reader).eng[(1 : Ring)].stop = none ∧ ((reads reader).lineOf (rcd 7)).cfg = some lineGiven ∧
    (reads reader).eng[(1 : Ring)].wr = none ∧ (withWr 1 (reads reader)).eng[(1 : Ring)].wr.isSome = true :=
  ⟨rfl, rfl, by decide, rfl, rfl, rfl, rfl, rfl, rfl⟩

/-- A reader of 17 offsets, in two chunks. -/
def reader17 (buf : Option (List Word)) (reading : Bool) : ReaderCtx :=
  { reader with offs := List.range 17, chunk := 1, buf := buf, reading := reading }
def writing (c : ReaderCtx) : State := withWr 1 (onLine 1 (rcd 7) (.reader c) lineReading)
/-- The write completes, or is lost (without HP's hold of it), with the port quiet, or with the reader's burst on it. -/
theorem witness_ReaderWriteEnds :
    (∀ c, Released (writing c) ∧ (writing c).eng[(1 : Ring)].exec = some ⟨rcd 7, .reader c⟩ ∧
      (writing c).eng[(1 : Ring)].stop = none ∧ ((writing c).lineOf (rcd 7)).cfg = some lineGiven ∧
      (writing c).eng[(1 : Ring)].wr = some aWrite ∧ CanComplete aWrite (writing c) ∧
      ¬ CanComplete aWrite { writing c with hp := up.hp } ∧ ∀ b, (writing c).sc.port ≠ .burst 1 b) ∧
    reader.done + 1 = (reader.offs.length + 15) / 16 ∧
    (∀ buf reading, (reader17 buf reading).done + 1 ≠ ((reader17 buf reading).offs.length + 15) / 16) ∧
    (withPort (.burst 1 (.read [2])) (writing reader)).sc.port = .burst 1 (.read [2]) ∧
    (reads { reader with failed := true }).sc.port = .burst 1 (.read [2]) ∧ { reader with failed := true }.failed = true :=
  ⟨fun _ => ⟨rfl, rfl, rfl, rfl, rfl, completes _, fails ⟨rfl, rfl⟩, fun _ h => (nomatch h)⟩, by decide,
    fun _ _ => by simp [reader17, reader], rfl, rfl, rfl⟩

/-- A STEP of one sample that has its input read in flight. -/
def stepsReading (c : StepCtx) : State := withRd 1 2 (onLine 1 (counted 9 1) (.stepping c) lineWriting)
theorem witness_StepInputReadEnds :
    (∀ c, Released (stepsReading c) ∧ (stepsReading c).eng[(1 : Ring)].exec = some ⟨counted 9 1, .stepping c⟩ ∧
      (stepsReading c).eng[(1 : Ring)].stop = none ∧ (stepsReading c).eng[(1 : Ring)].rd = some (aRead 2) ∧
      ((stepsReading c).lineOf (counted 9 1)).cfg = some lineGiven ∧ CanDeliver (aRead 2) (stepsReading c) ∧
      (stepsReading c).eng[(1 : Ring)].wr = none ∧ (withWr 1 (stepsReading c)).eng[(1 : Ring)].wr.isSome = true ∧
      (∀ b, (stepsReading c).sc.port ≠ .burst 1 b) ∧
      (withPort (.burst 1 (.read [2])) (stepsReading c)).sc.port = .burst 1 (.read [2])) ∧
    ((aRead 2).len = [(0 : Byte), 0].length ∧ lineGiven.fmt.wordsOf [(0 : Byte), 0] ≠ []) ∧
    ((stepping .ready 0 0 []).wrFailed = false ∧ (stepping .ready 0 0 []).stage = .ready ∧
      (stepping .ready 0 0 []).inputs = [] ∧ (stepping .ready 0 0 []).committed < (counted 9 1).count.toNat) ∧
    (stepping .committing 0 0 [5]).stage = .committing ∧ { stepping .ready 0 0 [] with wrFailed := true }.wrFailed = true :=
  ⟨fun _ => ⟨rfl, rfl, rfl, rfl, rfl, delivers 2 (by decide : 0 ≤ 10000000), rfl, rfl, fun _ h => (nomatch h), rfl⟩,
    by decide, by decide, rfl, rfl⟩

def commits (n : BitVec 32) (taps : List Nat) (c : StepCtx) : State :=
  withPort (.burst 1 (.write [(lastWord, 5)])) (onLine 1 (counted 9 n) (.stepping c) { lineWriting with taps := taps })
theorem witness_StepCommits :
    (∀ n taps c, Released (commits n taps c) ∧ (commits n taps c).sc.port = .burst 1 (.write [(lastWord, 5)]) ∧
      (commits n taps c).eng[(1 : Ring)].exec = some ⟨counted 9 n, .stepping c⟩ ∧
      (commits n taps c).eng[(1 : Ring)].stop = none ∧ (commits n taps c).eng[(1 : Ring)].wr = none ∧
      (withWr 1 (commits n taps c)).eng[(1 : Ring)].wr.isSome = true ∧
      ((commits n taps c).lineOf (counted 9 n)).cfg = some lineGiven ∧
      ((commits n taps c).lineOf (counted 9 n)).taps = taps) ∧ lastWord < 8388608 ∧
    ((stepping .committing 0 0 [5]).stage = .committing ∧ (stepping .committing 0 0 [5]).wrFailed = false ∧
      filled lineGiven 4 4 [0, 50] ≠ [] ∧ filled lineGiven 4 4 [50] = []) ∧
    ((stepping .committing 0 0 [5, 6]).inputs.drop 1 ≠ [] ∧ (stepping .committing 0 0 [5]).inputs.drop 1 = [] ∧
      0 + 1 < (counted 9 2).count.toNat) ∧
    ((stepping .committing 0 0 [5]).rdFailed = false ∧ { stepping .committing 0 0 [5] with rdFailed := true }.rdFailed = true) ∧
    (0 + 1 = (counted 9 1).count.toNat) :=
  ⟨fun _ _ _ => ⟨rfl, rfl, rfl, rfl, rfl, rfl, rfl, rfl⟩, by decide, by decide, by decide, by decide, by decide⟩

def stepsTaps : State :=
  withPort (.burst 1 (.read [2])) (onLine 1 (counted 9 1) (.stepping (stepping .reading 1 0 [])) lineWriting)
theorem witness_StepTapsRead :
    Released stepsTaps ∧ stepsTaps.sc.port = .burst 1 (.read [2]) ∧ (∀ a ∈ [2], a < 8388608) ∧
    stepsTaps.eng[(1 : Ring)].exec = some ⟨counted 9 1, .stepping (stepping .reading 1 0 [])⟩ ∧
    (stepping .reading 1 0 []).stage = .reading ∧ (stepping .reading 1 0 []).wrFailed = false ∧
    stepsTaps.eng[(1 : Ring)].stop = none ∧ (stepsTaps.lineOf (counted 9 1)).cfg = some lineGiven ∧
    stepsTaps.eng[(1 : Ring)].wr = none ∧ (withWr 1 stepsTaps).eng[(1 : Ring)].wr.isSome = true :=
  ⟨rfl, rfl, by decide, rfl, rfl, rfl, rfl, rfl, rfl, rfl⟩

def stepsWriting (n : BitVec 32) (c : StepCtx) : State := withWr 1 (onLine 1 (counted 9 n) (.stepping c) lineWriting)
theorem witness_StepWriteEnds :
    (∀ n c, Released (stepsWriting n c) ∧ (stepsWriting n c).eng[(1 : Ring)].exec = some ⟨counted 9 n, .stepping c⟩ ∧
      (stepsWriting n c).eng[(1 : Ring)].stop = none ∧ (stepsWriting n c).eng[(1 : Ring)].wr = some aWrite ∧
      ((stepsWriting n c).lineOf (counted 9 n)).cfg = some lineGiven ∧ CanComplete aWrite (stepsWriting n c) ∧
      ¬ CanComplete aWrite { stepsWriting n c with hp := up.hp } ∧
      (stepsWriting n c).eng[(1 : Ring)].rd = none ∧ (withRd 1 2 (stepsWriting n c)).eng[(1 : Ring)].rd.isSome = true ∧
      (stepsWriting n c).sc.claims[(1 : Ring)] = none ∧ ∀ b, (stepsWriting n c).sc.port ≠ .burst 1 b) ∧
    ((stepping .ready 1 0 []).stage = .ready ∧ (stepping .ready 1 0 []).wrFailed = false ∧
      (stepping .ready 1 0 []).committed = (counted 9 1).count.toNat) ∧
    ((stepping .ready 1 0 []).committed < (counted 9 2).count.toNat ∧ (stepping .ready 1 0 []).inputs = [] ∧
      { stepping .ready 1 0 [] with rdFailed := true }.rdFailed = true ∧ (stepping .ready 1 0 []).rdFailed = false) ∧
    ((stepping .writing 2 0 []).stage = .writing ∧ (stepping .committing 1 0 [5]).stage = .committing) ∧
    { stepping .reading 1 0 [] with wrFailed := true }.wrFailed = true ∧
    (∀ b c, (withPort (.burst 1 b) (stepsWriting 1 c)).sc.port = .burst 1 b ∧
      (withPort (.burst 1 b) (stepsWriting 1 c)).sc.claims[(1 : Ring)] = none) :=
  ⟨fun _ _ => ⟨rfl, rfl, rfl, rfl, rfl, completes _, fails ⟨rfl, rfl⟩, rfl, rfl, rfl, fun _ h => (nomatch h)⟩,
    by decide, by decide, ⟨rfl, rfl⟩, rfl, fun _ _ => ⟨rfl, rfl⟩⟩

/-! ### Frame pacing -/

def marking (r : Ring) (owed : Nat) : State := executing r (rcd 10) .fresh (armed owed up)
theorem witness_MarkConsumesOrWaits :
    (Begins 1 .mark (rcd 10) (marking 1 0) ∧
      (marking 1 0).eng[(1 : Ring)].cfg = some { ring2 with cls := some .bulk } ∧ some RingClass.bulk ≠ some .paced) ∧
    (Begins 2 .mark (rcd 10) (marking 2 1) ∧ (marking 2 1).eng[(2 : Ring)].cfg = some ring2 ∧
      1 ≤ (marking 2 1).fu.pace[(2 : Ring)].owed) ∧
    (Begins 2 .mark (rcd 10) (marking 2 0) ∧ (marking 2 0).fu.pace[(2 : Ring)].owed = 0) :=
  ⟨⟨begins (by decide), by decide⟩, ⟨begins (by decide), by decide⟩, begins (by decide), by decide⟩

theorem witness_StrobesTaken :
    Released (framed .pinRising up) ∧ (true ≠ (framed .pinRising up).fu.fsync ∧ 100 ≤ 100 ∧ 100 ≤ 100 ∧
      (framed .pinRising up).fu.source = .pinRising) ∧
    ¬ (100 ≤ 99) ∧
    (Released (framed .timer up) ∧ (framed .timer up).fu.source = .timer ∧ (framed .timer up).fu.timer = some 500 ∧
      (framed .timer up).fu.period = some 1000) ∧
    (framed .pinRising up).fu.source ≠ .timer :=
  ⟨rfl, by decide, by decide, ⟨rfl, by decide⟩, by decide⟩

theorem witness_StrobeOnOneRing :
    (armed 0 (engState 2 .halted up)).eng[(2 : Ring)].state = .halted ∧
    (∀ owed, (armed owed up).eng[(2 : Ring)].cfg = some ring2 ∧ ring2.cls = some .paced ∧
      (armed owed up).fu.pace[(2 : Ring)].armed = true ∧ (armed owed up).eng[(2 : Ring)].state = .idle ∧
      (armed owed up).fu.pace[(2 : Ring)].owed = owed ∧ (armed owed up).fu.pace[(2 : Ring)].notice = none ∧
      (armed owed up).eng[(2 : Ring)].exec = none ∧ (armed owed up).eng[(2 : Ring)].stop = none) ∧
    (engState 2 .waitFrame (executing 2 (rcd 10) .waitFrame (armed 0 up))).eng[(2 : Ring)].exec =
      some ⟨rcd 10, .waitFrame⟩ ∧
    ((armed 2 up).updPace 2 (fun p => { p with notice := some ⟨1, 9⟩ })).fu.pace[(2 : Ring)].notice.isSome = true ∧
    (2 < 3) ∧ (executing 2 (rcd 4) .fresh (armed 3 up)).eng[(2 : Ring)].exec.isSome = true :=
  ⟨rfl, fun _ => ⟨rfl, rfl, rfl, rfl, rfl, rfl, rfl, rfl⟩, rfl, rfl, by decide, rfl⟩

/-! ### Ring 0 -/

/-- Ring 0 begins a control record, whatever the operands. -/
theorem control (k : Kind) (code : Nat) (paramA count : BitVec 32) (paramB : BitVec 16) (paramC : BitVec 64)
    (addr : Addr) (line : BitVec 8) (hk : Kind.ofCode (BitVec.ofNat 8 code) = some k) :
    let x := { rcd code with
      paramA := paramA, count := count, paramB := paramB, paramC := paramC, addr := addr, line := line }
    BeginsControl k x (on0 x) :=
  begins ⟨rfl, rfl, hk, rfl⟩

/-- The boundary operands of the checks, each with `control`. -/
theorem witness_ControlChecksRefuse :
    ((0#32).toNat < 1 ∧ 7 < (8#32).toNat ∧ 3 < (4#32).toNat) ∧
    (up.eng[(1 : Ring)].state ≠ .disabled ∧ (1 : Ring) ≠ 0) ∧
    (up.eng[(3 : Ring)].state = .disabled ∧ (3 : Ring) ≠ 0 ∧ (0x1020 : Addr).toNat % 64 ≠ 0 ∧
      (0x1040 : Addr).toNat % 64 = 0 ∧ (17#32).toNat ∉ [16, 32, 64, 128, 256, 512, 1024, 2048, 4096] ∧
      (4096#32).toNat ∈ [16, 32, 64, 128, 256, 512, 1024, 2048, 4096] ∧ (3#16).toNat ≠ 1 ∧ (3#16).toNat ≠ 2 ∧
      ∀ q : CqIx, (2#64).toNat = q.val → q ≠ 0 → up.cq[q].cfg = none) ∧
    (up.eng[(1 : Ring)].cfg.map (·.cq) = some 1 ∧
      ∀ r : Ring, r ≠ 0 → up.eng[r].state ≠ .disabled → up.eng[r].cfg.map (·.cq) ≠ some 2) ∧
    ((0#16).toNat < 1 ∧ 255 < (256#16).toNat ∧ 255 < (256#64).toNat) ∧
    ((7#32).toNat < 8 ∧ 255 < (256#32).toNat ∧ 3 < (4#16).toNat ∧ (19#64).toNat < 20 ∧ 1000000 < (1000001#64).toNat) ∧
    (64 ≤ (64#8).toNat ∧ (63#8).toNat < 64 ∧ 8 ≤ (8#32).toNat ∧ (0x1002 : Addr).toNat % 4 ≠ 0) := by
  refine ⟨by decide, by decide, ⟨by decide, by decide, by decide, by decide, by decide, by decide, by decide, by decide,
    ?_⟩, ?_, by decide, by decide, by decide⟩
  · intro q h _
    obtain rfl : q = 2 := by apply Fin.ext; exact h.symm
    rfl
  · decide

theorem witness_RingsConfigured :
    (∀ x : Record, x = { rcd 0x20 with paramA := 3, count := 16, paramB := 1, paramC := 1 } →
      BeginsControl .configureRing x (on0 x) ∧ x.paramA.toNat = (3 : Ring).val ∧
      (on0 x).eng[(3 : Ring)].state = .disabled ∧ x.addr.toNat % 64 = 0 ∧
      x.count.toNat ∈ [16, 32, 64, 128, 256, 512, 1024, 2048, 4096] ∧ x.paramB.toNat = RingClass.paced.code ∧
      x.paramC.toNat = (1 : CqIx).val ∧ (on0 x).cq[(1 : CqIx)].cfg.isSome = true) ∧
    (∀ x : Record, x = { rcd 0x21 with paramA := 2, count := 4096, paramB := 255, paramC := 255 } →
      BeginsControl .configureCompletionRing x (on0 x) ∧ x.paramA.toNat = (2 : CqIx).val ∧
      (∀ r : Ring, r ≠ 0 → (on0 x).eng[r].state ≠ .disabled → (on0 x).eng[r].cfg.map (·.cq) ≠ some 2) ∧
      x.addr.toNat % 64 = 0 ∧ x.count.toNat ∈ [16, 32, 64, 128, 256, 512, 1024, 2048, 4096] ∧
      1 ≤ x.paramB.toNat ∧ x.paramB.toNat ≤ 255 ∧ x.paramC.toNat ≤ 255 ∧ (on0 x).cq[(2 : CqIx)].inflight = none ∧
      (on0 x).eng[(0 : Ring)].stop = none ∧
      ((on0 x).updCq 2 (fun c => { c with inflight := some ⟨claimOf 4 true true, aWrite⟩ })).cq[(2 :
        CqIx)].inflight.isSome = true) := by
  refine ⟨?_, ?_⟩ <;> rintro x rfl
  · exact ⟨begins (by decide), by decide⟩
  · exact ⟨begins (by decide), by decide⟩

def resetting (s : State) : State := executing 0 (resetOf 1) .fresh s
/-- Ring 1 in WAIT_CQ: its claim waits in CU, or is being written. -/
def claimWaits : State := (engState 1 .waitCq up).updCq 1 (fun k => { k with queue := [claimOf 1 false false] })
def atLock (st : EngState) (kind : Nat) (p : Phase) (queue : List Waiter) : State :=
  engState 1 st (onLine 1 (counted kind 2) p (lineLocked .write [2] queue))

theorem witness_ResetRingStops :
    (∀ st kind p queue s, s = up ∨ s = withFetch 1 up ∨ s = waitingLost ∨ s = claimWaits ∨ s = pushReading ∨
        s = atLock st kind p queue ∨ s = withFetch 1 (atLock st kind p queue) →
      BeginsControl .resetRing (resetOf 1) (resetting s) ∧ (resetting s).eng[(0 : Ring)].stop = none ∧
      (resetting s).eng[(1 : Ring)].report = none) ∧
    (∀ s, s = up ∨ s = withFetch 1 up ∨ s = waitingLost ∨ s = claimWaits → AtRest 1 (resetting s)) ∧
    (up.eng[(1 : Ring)].exec = none ∧ up.eng[(1 : Ring)].state ≠ .waitCq ∧ up.eng[(1 : Ring)].fetch = none ∧
      (withFetch 1 up).eng[(1 : Ring)].fetch.isSome = true) ∧
    (waitingLost.eng[(1 : Ring)].state = .waitCq ∧ waitingLost.eng[(1 : Ring)].cfg.map (·.cq) = some 1 ∧
      waitingLost.cq[(1 : CqIx)].inflight = some ⟨claimOf 1 false false, aWrite⟩) ∧
    (claimWaits.cq[(1 : CqIx)].inflight = none ∧ ∃ c ∈ claimWaits.cq[(1 : CqIx)].queue, c.ring = 1 ∧ c.notice = false) ∧
    (∀ st kind p queue s, s = atLock st kind p queue ∨ s = withFetch 1 (atLock st kind p queue) →
      AtRest 1 (resetting s) ∧ (resetting s).eng[(1 : Ring)].exec = some ⟨counted kind 2, p⟩ ∧
      (resetting s).eng[(1 : Ring)].state = st) ∧
    (∀ st kind p queue, (resetting (atLock st kind p queue)).eng[(1 : Ring)].fetch = none ∧
      (resetting (withFetch 1 (atLock st kind p queue))).eng[(1 : Ring)].fetch.isSome = true) ∧
    ¬ AtRest 1 (resetting pushReading) := by
  refine ⟨?_, ?_, by decide, by decide, by decide, ?_, fun _ _ _ _ => ⟨rfl, rfl⟩, ?_⟩
  · rintro st kind p queue s (rfl | rfl | rfl | rfl | rfl | rfl | rfl) <;>
    exact ⟨begins ⟨rfl, rfl, rfl, rfl⟩, rfl, rfl⟩
  · rintro s (rfl | rfl | rfl | rfl) <;> exact ⟨rfl, rfl, fun _ h => (nomatch h)⟩
  · rintro st kind p queue s (rfl | rfl) <;> exact ⟨⟨rfl, rfl, fun _ h => (nomatch h)⟩, rfl, rfl⟩
  · exact fun h => (by decide : (resetting pushReading).eng[(1 : Ring)].rd ≠ none) h.1

/-- A sufficient form of the engine's law that evaluates: 16 slots, head 0, no staged record. -/
def plainEngine (e : Engine) : Bool :=
  e.staged.isNone && (e.exec.isNone || e.state == .active || e.state == .waitLock) && e.state != .waitFrame &&
    (e.fetch.isNone || e.state == .active || e.state == .halted) && !e.haltPending && (e.cfg.map (·.size)).getD 16 == 16 && e.head == 0 &&
    e.tail < 16 && (e.state != .idle || e.tail == 0)

theorem lawful_of_plain {e : Engine} (h : plainEngine e = true) : e.Lawful := by
  simp only [plainEngine, Bool.and_eq_true, Bool.or_eq_true, beq_iff_eq, bne_iff_ne, Bool.not_eq_true',
    decide_eq_true_eq, Option.isNone_iff_eq_none] at h
  obtain ⟨⟨⟨⟨⟨⟨⟨⟨a, b⟩, c⟩, d⟩, f⟩, g⟩, hd⟩, tl⟩, i⟩ := h
  refine ⟨fun hx => ?_, fun hw => absurd hw c, fun hs => ?_, fun hi => ?_, fun _ => f, fun w hw => ?_⟩
  · rcases b with (b | b) | b
    · simp [b] at hx
    · exact .inl b
    · exact .inr (.inl b)
  · simp [a] at hs
  · rcases d with (d | d) | d
    · exact d
    · simp [d] at hi
    · simp [d] at hi
  · simp only [hw, Option.map_some, Option.getD_some] at g
    rw [g, hd]
    exact ⟨by decide, by decide, tl, fun h => (i.resolve_left (fun n => n h)).symm⟩

theorem up_free : ∀ l : LineIx, up.lines[l] = Line.freeRecord 0 := by decide
theorem up_engines : ∀ r : Ring, plainEngine up.eng[r] = true ∧ up.eng[r].exec = none ∧ up.eng[r].rd = none := by decide

/-- The laws of RingLaw for a state in which only line 0 is in use, nothing waits for its lock, and no command waits. -/
theorem ringLaw_of {s : State} (hl : s.lines = up.lines.set 0 s.lines[(0 : LineIx)])
    (hq : s.lines[(0 : LineIx)].lock.queue = []) (hn : s.lines[(0 : LineIx)].lock.holders.Nodup)
    (ht : s.lines[(0 : LineIx)].taps.length ≤ 16)
    (hh : ∀ r ∈ s.lines[(0 : LineIx)].lock.holders, OnLine r 0 (fun _ p => p.holdsLock) s)
    (he : ∀ r : Ring, plainEngine s.eng[r] = true) (hw : ∀ (r : Ring) x, s.eng[r].exec ≠ some ⟨x, .waitLock⟩)
    (hr : ∀ (r : Ring) t, s.eng[r].rd = some t → t.len ≤ 64) : RingLaw s := by
  have other : ∀ l : LineIx, l ≠ 0 → s.lines[l] = Line.freeRecord 0 := by
    intro l h
    have h' : s.lines[l] = (up.lines.set 0 s.lines[(0 : LineIx)])[l] := congrArg (fun v : Vector Line 64 => v[l]) hl
    rw [h', show (up.lines.set 0 s.lines[(0 : LineIx)])[l] = _ from vset up.lines 0 l _, if_neg h]
    exact up_free l
  refine ⟨fun r => lawful_of_plain (he r), fun l => ?_, fun l => ?_, fun r x => ⟨fun h => absurd h (hw r x), fun _ => hr r⟩⟩
  · by_cases h : l = 0
    · subst h
      refine ⟨?_, hh, fun w h => ?_⟩
      · rw [hq]; simpa using hn
      · rw [hq] at h; cases h
    · unfold RingsAtLock
      rw [other l h]
      exact ⟨by decide, fun _ h => (nomatch h), fun _ h => (nomatch h)⟩
  · by_cases h : l = 0
    · exact h ▸ ht
    · rw [other l h]; decide

/-- RingLaw for a state in which ring 1 alone executes, and holds the lock of line 0. -/
theorem ringLaw_ring1 {s : State} {x : Record} {p : Phase} {m : LockMode} (hl : s.lines = up.lines.set 0 s.lines[(0 : LineIx)])
    (he : s.eng = up.eng.set 1 s.eng[(1 : Ring)]) (hk : s.lines[(0 : LineIx)].lock = ⟨m, [1], []⟩)
    (ht : s.lines[(0 : LineIx)].taps.length ≤ 16) (hx : s.eng[(1 : Ring)].exec = some ⟨x, p⟩) (h0 : x.lineIx = 0)
    (hp : p.holdsLock) (hc : plainEngine s.eng[(1 : Ring)] = true)
    (hr : ∀ t, s.eng[(1 : Ring)].rd = some t → t.len ≤ 64) : RingLaw s := by
  have other : ∀ r : Ring, r ≠ 1 → s.eng[r] = up.eng[r] := by
    intro r h
    have h' : s.eng[r] = (up.eng.set 1 s.eng[(1 : Ring)])[r] := congrArg (fun v : Vector Engine 8 => v[r]) he
    rw [h', show (up.eng.set 1 s.eng[(1 : Ring)])[r] = _ from vset up.eng 1 r _, if_neg h]
  refine ringLaw_of hl (by rw [hk]) (by rw [hk]; exact List.nodup_singleton 1) ht (fun r h => ?_) (fun r => ?_)
    (fun r y h => ?_) (fun r t h => ?_)
  · rw [hk] at h
    obtain rfl : r = 1 := List.mem_singleton.mp h
    exact ⟨by decide, x, p, hx, h0, hp⟩
  all_goals by_cases h1 : r = 1
  · exact h1 ▸ hc
  · rw [other r h1]; exact (up_engines r).1
  · subst h1; rw [hx] at h; cases h; exact hp
  · rw [other r h1, (up_engines r).2.1] at h; cases h
  · exact hr t (h1 ▸ h)
  · rw [other r h1, (up_engines r).2.2] at h; cases h

/-- RingLaw for a state in which no line is in use and no engine is at a lock. -/
theorem ringLaw_free {s : State} (hl : s.lines = up.lines)
    (he : ∀ r : Ring, plainEngine s.eng[r] = true ∧ s.eng[r].rd = none ∧ s.eng[r].exec.map (·.phase) ≠ some .waitLock) :
    RingLaw s := by
  have hf : s.lines[(0 : LineIx)] = Line.freeRecord 0 := by rw [hl]; rfl
  refine ringLaw_of (by rw [hf, hl]; rfl) (by rw [hf]; rfl) (by rw [hf]; exact List.nodup_nil) (by rw [hf]; exact Nat.zero_le _)
    (fun _ h => ?_) (fun r => (he r).1) (fun r x h => (he r).2.2 (by rw [h]; rfl)) (fun r t h => ?_)
  · rw [hf] at h; cases h
  · rw [(he r).2.1] at h; cases h

/-- Ring 1 told to stop, with its burst on the port, its read or write in flight, or its fetch. -/
theorem witness_StopsAtBoundary (cause : StopCause) (_ : cause = .ringReset ∨ cause = .noticeHalt) :
    let told := withStop 1 cause
    (∀ p c s, s = told (withPort p (onLine 1 (counted 4 2) (.pushing 0 1) lineWriting)) ∨ s = told (commits 2 [0] c) ∨
        s = told (reads reader) ∨ s = told stepsTaps ∨ s = told tapReading ∨ s = told pushReading ∨
        s = told (stepsReading c) ∨ s = told (writing reader) ∨ s = told (stepsWriting 1 c) →
      Released s ∧ RingLaw s ∧ s.eng[(0 : Ring)].stop = none ∧ s.sc.claims[(1 : Ring)] = none ∧
      s.eng[(1 : Ring)].stop = some cause ∧ s.eng[(1 : Ring)].state = .active) ∧
    (∀ p, let s := told (withPort p (onLine 1 (counted 4 2) (.pushing 0 1) lineWriting))
      s.sc.port = p ∧
      s.eng[(1 : Ring)].exec = some ⟨counted 4 2, .pushing 0 1⟩ ∧ (s.lineOf (counted 4 2)).cfg = some lineGiven ∧
      s.eng[(1 : Ring)].rd = none ∧ s.eng[(1 : Ring)].wr = none) ∧
    (∀ c, let s := told (commits 2 [0] c)
      s.sc.port = .burst 1 (.write [(lastWord, 5)]) ∧ s.eng[(1 : Ring)].exec = some ⟨counted 9 2, .stepping c⟩ ∧
      (s.lineOf (counted 9 2)).cfg = some lineGiven ∧ s.eng[(1 : Ring)].rd = none ∧ s.eng[(1 : Ring)].wr = none ∧
      (withWr 1 s).eng[(1 : Ring)].wr.isSome = true) ∧
    ((told (reads reader)).sc.port = .burst 1 (.read [2]) ∧
      (told (reads reader)).eng[(1 : Ring)].exec = some ⟨rcd 7, .reader reader⟩ ∧
      (told stepsTaps).sc.port = .burst 1 (.read [2]) ∧ ∀ a ∈ [2], a < 8388608) ∧
    (∀ s, s = told tapReading ∨ s = told pushReading ∨ s = told (stepsReading (stepping .ready 0 0 [])) →
      s.eng[(1 : Ring)].wr = none ∧ (∀ b, s.sc.port ≠ .burst 1 b) ∧
      ∃ n, s.eng[(1 : Ring)].rd = some (aRead n) ∧ CanDeliver (aRead n) s) ∧
    (∀ s, s = told (writing reader) ∨ s = told (stepsWriting 1 (stepping .ready 1 0 [])) →
      s.eng[(1 : Ring)].rd = none ∧ (∀ b, s.sc.port ≠ .burst 1 b) ∧
      s.eng[(1 : Ring)].wr = some aWrite ∧ CanComplete aWrite s ∧ ¬ CanComplete aWrite { s with hp := up.hp }) ∧
    (let s := engState 3 .active resetWaits;
      Released s ∧ RingLaw s ∧ AtRest 3 s ∧ s.eng[(0 : Ring)].stop = none ∧ s.sc.claims[(3 : Ring)] = none ∧
      s.eng[(3 : Ring)].state = .active ∧ s.eng[(3 : Ring)].exec = none ∧ s.eng[(3 : Ring)].stop = some .ringReset ∧
      s.eng[(3 : Ring)].fetch = some (aRead 32) ∧ CanDeliver (aRead 32) s ∧
      s.eng[(0 : Ring)].exec = some ⟨resetOf 3, .resetWait 3⟩) ∧
    (let s := withStop 0 .restart (engState 3 .halted resetWaits);
      Released s ∧ RingLaw s ∧ AtRest 3 s ∧ AtRest 0 s ∧ s.eng[(0 : Ring)].stop = some .restart ∧
      s.eng[(0 : Ring)].state = .active ∧ s.cq[(0 : CqIx)].inflight = none ∧ s.sc.claims[(3 : Ring)] = none ∧
      s.eng[(3 : Ring)].state = .halted ∧ s.eng[(3 : Ring)].exec = none ∧ s.eng[(3 : Ring)].stop = some .ringReset ∧
      s.eng[(3 : Ring)].fetch = some (aRead 32)) := by
  refine ⟨?_, fun _ => ⟨rfl, rfl, rfl, rfl, rfl⟩, fun _ => ⟨rfl, rfl, rfl, rfl, rfl, rfl⟩,
    ⟨rfl, rfl, rfl, by decide⟩, ?_, ?_,
    ⟨rfl, ?_, ⟨rfl, rfl, fun _ h => (nomatch h)⟩, rfl, rfl, rfl, rfl, rfl, rfl, delivers 32 (by decide), rfl⟩,
    ⟨rfl, ?_, ⟨rfl, rfl, fun _ h => (nomatch h)⟩, ⟨rfl, rfl, fun _ h => (nomatch h)⟩, rfl, rfl, rfl, rfl, rfl, rfl, rfl, rfl⟩⟩
  · rintro p c s (rfl | rfl | rfl | rfl | rfl | rfl | rfl | rfl | rfl) <;>
    exact ⟨rfl, ringLaw_ring1 rfl rfl rfl (Nat.le_of_ble_eq_true rfl) rfl rfl trivial rfl (fun t h => by cases h <;> decide),
      rfl, rfl, rfl, rfl⟩
  · rintro s (rfl | rfl | rfl) <;>
    exact ⟨rfl, fun _ h => (nomatch h), _, rfl, delivers _ (by decide : 0 ≤ 10000000)⟩
  · rintro s (rfl | rfl) <;>
    exact ⟨rfl, fun _ h => (nomatch h), rfl, completes _, fails ⟨rfl, rfl⟩⟩
  · exact ringLaw_free rfl (by decide)
  · exact ringLaw_free rfl (by decide)

/-- Ring 1 told to stop, with a read or a write of its command in flight and another transfer or a burst under way. -/
theorem witness_StopsAtBoundary_waits (cause : StopCause) (_ : cause = .ringReset ∨ cause = .noticeHalt) :
    let told := withStop 1 cause
    (∀ b c s, s = told (withWr 1 (stepsReading c)) ∨ s = told (withPort (.burst 1 b) (stepsReading c)) ∨
        s = told (withPort (.burst 1 b) (stepsWriting 1 c)) ∨ s = told (withPort (.burst 1 b) (writing reader)) →
      ∀ t, t = s ∨ t = { s with hp := up.hp } →
      Released t ∧ RingLaw t ∧ t.eng[(0 : Ring)].stop = none ∧ t.sc.claims[(1 : Ring)] = none ∧
      t.eng[(1 : Ring)].stop = some cause ∧ t.eng[(1 : Ring)].state = .active) ∧
    (∀ c s, s = told (withWr 1 (stepsReading c)) ∨ s = { told (withWr 1 (stepsReading c)) with hp := up.hp } →
      s.eng[(1 : Ring)].exec = some ⟨counted 9 1, .stepping c⟩ ∧ s.eng[(1 : Ring)].rd = some (aRead 2) ∧
      CanDeliver (aRead 2) s ∧ s.eng[(1 : Ring)].wr = some aWrite) ∧
    (∀ b c, (told (withPort (.burst 1 b) (stepsReading c))).sc.port = .burst 1 b ∧
      (told (withPort (.burst 1 b) (stepsReading c))).eng[(1 : Ring)].rd = some (aRead 2)) ∧
    ∀ b s, s = told (withPort (.burst 1 b) (stepsWriting 1 (stepping .ready 1 0 []))) ∨
        s = told (withPort (.burst 1 b) (writing reader)) →
      s.sc.port = .burst 1 b ∧ s.eng[(1 : Ring)].wr = some aWrite ∧ CanComplete aWrite s ∧
      ¬ CanComplete aWrite { s with hp := up.hp } := by
  refine ⟨?_, ?_, fun _ _ => ⟨rfl, rfl⟩, ?_⟩
  · rintro b c s (rfl | rfl | rfl | rfl) t (rfl | rfl) <;>
    exact ⟨rfl, ringLaw_ring1 rfl rfl rfl (Nat.le_of_ble_eq_true rfl) rfl rfl trivial rfl (fun t h => by cases h <;> decide),
      rfl, rfl, rfl, rfl⟩
  · rintro c s (rfl | rfl) <;> exact ⟨rfl, rfl, delivers 2 (by decide : 0 ≤ 10000000), rfl⟩
  · rintro b s (rfl | rfl) <;> exact ⟨rfl, rfl, completes _, fails ⟨rfl, rfl⟩⟩

theorem witness_DeviceConfigured :
    (∀ a b c, let x := { rcd 0x23 with paramA := a, paramB := b, paramC := c }
      BeginsControl .configureDevice x (on0 x)) ∧
    8 ≤ (8#32).toNat ∧ (255#32).toNat ≤ 255 ∧ 20 ≤ (20#64).toNat ∧ (1000000#64).toNat ≤ 1000000 :=
  ⟨fun _ _ _ => begins ⟨rfl, rfl, rfl, rfl⟩, by decide⟩

theorem witness_QueriesWriteSnapshots :
    (BeginsControl .queryLine { rcd 0x24 with line := 63 } (on0 { rcd 0x24 with line := 63 }) ∧ (63#8).toNat < 64) ∧
    (BeginsControl .queryRing { rcd 0x25 with paramA := 7 } (on0 { rcd 0x25 with paramA := 7 }) ∧
      (7#32).toNat = (7 : Ring).val) ∧
    (BeginsControl .queryStore (rcd 0x26) (on0 (rcd 0x26)) ∧ (rcd 0x26).addr.toNat % 4 = 0) ∧
    (Released querying ∧ querying.eng[(0 : Ring)].exec = some ⟨rcd 0x26, .querying queryResult⟩ ∧
      querying.eng[(0 : Ring)].wr = some aWrite ∧ querying.eng[(0 : Ring)].stop = none ∧ CanComplete aWrite querying ∧
      ¬ CanComplete aWrite queryingLost) :=
  ⟨⟨begins (by decide), by decide⟩, ⟨begins (by decide), by decide⟩, ⟨begins (by decide), by decide⟩,
    rfl, rfl, rfl, rfl, completes _, fails ⟨rfl, rfl⟩⟩

/-! ### Completion rings, refresh, the arbiter, layouts, laws -/

/-- RE0 waits in a RESET RING of ring 1, whose claim is being written. -/
def resetAtClaim : State := executing 0 (resetOf 1) (.resetWait 1) (withStop 1 .ringReset waitingLost)
theorem witness_RecordPosted :
    (∀ r n o, Released (posted r n o up) ∧ (posted r n o up).cq[(1 : CqIx)].inflight = some ⟨claimOf r n o, aWrite⟩ ∧
      CanComplete aWrite (posted r n o up) ∧ (posted r n o up).cq[(1 : CqIx)].cfg = some cqGiven ∧ 1 ≤ cqGiven.size ∧
      (posted r n o up).cq[(1 : CqIx)].held = none ∧
      ∀ x, (posted r n o up).eng[(0 : Ring)].exec ≠ some ⟨x, .cqWait⟩) ∧
    (waiting.eng[(1 : Ring)].stop = none ∧ waiting.eng[(1 : Ring)].state = .waitCq ∧
      (waiting.updCq 1 (fun c => { c with held := some 1 })).cq[(1 : CqIx)].held =
        some ((waiting.cq[(1 : CqIx)].tail + 1) % cqGiven.size)) ∧
    (∀ s, s = holding resetAtClaim ∨ s = withFetch 1 (holding resetAtClaim) →
      Released s ∧ CanComplete aWrite s ∧ s.cq[(1 : CqIx)].inflight = some ⟨claimOf 1 false false, aWrite⟩ ∧
      s.eng[(1 : Ring)].stop = some .ringReset ∧ s.eng[(1 : Ring)].state = .waitCq ∧ s.eng[(1 : Ring)].exec = none ∧
      AtRest 1 s ∧ s.eng[(1 : Ring)].report = none ∧ s.eng[(1 : Ring)].cfg.map (·.cq) = some 1 ∧
      s.cq[(1 : CqIx)].queue = [] ∧ s.eng[(0 : Ring)].exec = some ⟨resetOf 1, .resetWait 1⟩ ∧
      s.eng[(0 : Ring)].stop = none) ∧
    (CanComplete aWrite (holding cqWaits) ∧ (holding cqWaits).cq[(1 : CqIx)].inflight = some ⟨claimOf 4 true true, aWrite⟩ ∧
      (holding cqWaits).cq[(1 : CqIx)].queue = [] ∧ (holding cqWaits).eng[(0 : Ring)].exec = some ⟨cqConfig, .cqWait⟩ ∧
      (holding cqWaits).eng[(0 : Ring)].stop = none ∧ cqConfig.cqA = 1) := by
  refine ⟨fun _ _ _ => ⟨rfl, rfl, completes _, rfl, by decide, rfl, fun _ h => (nomatch h)⟩, by decide, ?_,
    completes _, rfl, rfl, rfl, rfl, by decide⟩
  rintro s (rfl | rfl) <;>
  exact ⟨rfl, completes _, rfl, rfl, rfl, rfl, ⟨rfl, rfl, fun _ h => (nomatch h)⟩, rfl, rfl, rfl, rfl, rfl⟩

/-- The same reports while RE0 waits to configure another completion ring, and while RE0 is being restarted. -/
theorem witness_RecordReports :
    (∀ r n o, Released (posted r n o cq2Waits) ∧ CanComplete aWrite (posted r n o cq2Waits) ∧
      ¬ CanComplete aWrite (lost r n o cq2Waits) ∧
      (posted r n o cq2Waits).cq[(1 : CqIx)].inflight = some ⟨claimOf r n o, aWrite⟩ ∧
      (posted r n o cq2Waits).eng[(0 : Ring)].exec = some ⟨{ cqConfig with paramA := 2 }, .cqWait⟩ ∧
      ({ cqConfig with paramA := 2 } : Record).cqA ≠ 1) ∧
    ∀ s, s = withStop 0 .restart resetAtClaim ∨ s = withFetch 1 (withStop 0 .restart resetAtClaim) →
      Released s ∧ ¬ CanComplete aWrite s ∧ CanComplete aWrite (holding s) ∧
      s.cq[(1 : CqIx)].inflight = some ⟨claimOf 1 false false, aWrite⟩ ∧ s.cq[(1 : CqIx)].queue = [] ∧
      s.eng[(1 : Ring)].stop = some .ringReset ∧ s.eng[(1 : Ring)].state = .waitCq ∧ s.eng[(1 : Ring)].exec = none ∧
      AtRest 1 s ∧ s.eng[(1 : Ring)].report = none ∧ s.eng[(1 : Ring)].cfg.map (·.cq) = some 1 ∧
      s.eng[(0 : Ring)].exec = some ⟨resetOf 1, .resetWait 1⟩ ∧ s.eng[(0 : Ring)].stop = some .restart ∧ AtRest 0 s ∧
      s.eng[(0 : Ring)].state = .active ∧ s.cq[(0 : CqIx)].inflight = none := by
  refine ⟨fun _ _ _ => ⟨rfl, completes _, fails ⟨rfl, rfl⟩, rfl, rfl, by decide⟩, ?_⟩
  rintro s (rfl | rfl) <;>
  exact ⟨rfl, fails ⟨rfl, rfl⟩, completes _, rfl, rfl, rfl, rfl, rfl, ⟨rfl, rfl, fun _ h => (nomatch h)⟩, rfl, rfl, rfl, rfl,
    ⟨rfl, rfl, fun _ h => (nomatch h)⟩, rfl, rfl⟩

/-- A CLOSE of ring 2 waits for a reader; a reader of ring 2 has its claim waiting at the store arbiter. -/
def closeWaits : State :=
  engState 2 .waitLock (onLine 2 (rcd 2) (.waitClose 3) { lineLocked .read [1] [⟨2, .close⟩] with state := .closing })
def readerClaims : State := (onLine 2 (rcd 7) (.reader reader) (lineLocked .read [2] [])).setClaim 2 (some (.read [2]))

/-- The ring of a lost notice: HALTED; idle; in WAIT_CQ; with its guard not evaluated; waiting for a lock, for the readers of its
line, at the store arbiter, for a strobe; reading samples. -/
theorem witness_RecordLost :
    (∀ r n o s, s = up ∨ s = engState 2 .halted up ∨ s = engState 2 .waitCq up ∨
        s = engState 2 .waitLock (onLine 2 (rcd 7) .waitLock lineWriting) ∨
        s = engState 2 .waitFrame (executing 2 (rcd 10) .waitFrame up) ∨ s = executing 2 (rcd 10) .fresh up ∨
        s = closeWaits ∨ s = readerClaims ∨ s = withRd 2 4 (onLine 2 (counted 4 2) (.pushing 0 2) lineWriting) →
      Released (lost r n o s) ∧ (lost r n o s).cq[(1 : CqIx)].inflight = some ⟨claimOf r n o, aWrite⟩ ∧
      ¬ CanComplete aWrite (lost r n o s) ∧ (lost r n o s).eng[(2 : Ring)].stop = none ∧
      ∀ x, (lost r n o s).eng[(0 : Ring)].exec ≠ some ⟨x, .cqWait⟩) ∧
    (waitingLost.eng[(1 : Ring)].stop = none ∧ waitingLost.eng[(1 : Ring)].state = .waitCq) ∧
    (∀ s, s = up ∨ s = engState 2 .waitCq up ∨ s = engState 2 .waitLock (onLine 2 (rcd 7) .waitLock lineWriting) ∨
      s = engState 2 .waitFrame (executing 2 (rcd 10) .waitFrame up) ∨ s = executing 2 (rcd 10) .fresh up ∨
      s = closeWaits ∨ s = readerClaims → AtRest 2 (lost 2 true false s)) ∧
    (closeWaits.eng[(2 : Ring)].exec = some ⟨rcd 2, .waitClose 3⟩ ∧ closeWaits.eng[(2 : Ring)].state = .waitLock ∧
      readerClaims.eng[(2 : Ring)].exec = some ⟨rcd 7, .reader reader⟩ ∧ Phase.holdsLock (.reader reader) ∧
      readerClaims.eng[(2 : Ring)].state = .active ∧ readerClaims.sc.claims[(2 : Ring)] = some (.read [2])) ∧
    ((engState 2 .waitCq up).eng[(2 : Ring)].exec = none ∧ (engState 2 .waitCq up).eng[(2 : Ring)].cfg = some ring2 ∧
      ring2.cq = 1 ∧ (withRd 2 4 (onLine 2 (counted 4 2) (.pushing 0 2) lineWriting)).eng[(2 : Ring)].rd ≠ none) ∧
    (Released resetAtClaim ∧ ¬ CanComplete aWrite resetAtClaim ∧
      resetAtClaim.cq[(1 : CqIx)].inflight = some ⟨claimOf 1 false false, aWrite⟩ ∧
      resetAtClaim.eng[(1 : Ring)].fetch = none ∧ AtRest 1 resetAtClaim ∧ resetAtClaim.cq[(1 : CqIx)].queue = []) ∧
    (¬ CanComplete aWrite cqWaits ∧ cqWaits.cq[(1 : CqIx)].inflight = some ⟨claimOf 4 true true, aWrite⟩ ∧
      cqWaits.eng[(0 : Ring)].exec = some ⟨cqConfig, .cqWait⟩) := by
  refine ⟨?_, by decide, ?_, ⟨rfl, rfl, rfl, trivial, rfl, rfl⟩, by decide,
    ⟨rfl, fails ⟨rfl, rfl⟩, rfl, rfl, ⟨rfl, rfl, fun _ h => (nomatch h)⟩, rfl⟩, fails ⟨rfl, rfl⟩, rfl, rfl⟩
  · rintro r n o s (rfl | rfl | rfl | rfl | rfl | rfl | rfl | rfl | rfl) <;>
    exact ⟨rfl, rfl, fails ⟨rfl, rfl⟩, rfl, fun _ h => (nomatch h)⟩
  · rintro s (rfl | rfl | rfl | rfl | rfl | rfl | rfl) <;> exact ⟨rfl, rfl, fun _ h => (nomatch h)⟩

theorem witness_RefreshAndHoldoff :
    Released up ∧ up.sc.timer = some 7750 ∧ { up.sc with debt := 7 }.debt ≤ 7 ∧ { up.sc with debt := 8 }.debt = 8 ∧
    (withPort .refresh up).sc.port = .refresh ∧
    (up.updCq 1 (fun c => { c with timer := some 8000 })).cq[(1 : CqIx)].timer = some 8000 :=
  ⟨rfl, by decide⟩

/-- `up` with claims of bulk ring 1 and paced ring 2 waiting. -/
def claiming (paced bulk : Bool) : State :=
  { up with sc := { up.sc with
    claims := ((up.sc.claims.set 1 (if bulk then some (.read [1]) else none)).set 2
      (if paced then some (.read [2]) else none)) } }
theorem witness_ArbiterChooses :
    (withPort .refresh up).sc.port ≠ .idle ∧ { up.sc with debt := 6 }.debt = 6 ∧
    (∀ p b, (claiming p b).sc.port = .idle ∧ (claiming p b).sc.debt < 6 ∧ (claiming p b).sc.pacedMark = 7 ∧
      (claiming p b).sc.bulkMark = 7) ∧
    ((claiming true true).sc.claims[(2 : Ring)] = some (.read [2]) ∧
      (claiming true true).eng[(2 : Ring)].cfg = some ring2 ∧
      ∀ k : Ring, k ≠ 0 → (claiming true true).sc.claims[k].isSome →
        (claiming true true).eng[k].cfg.bind (·.cls) = some .paced → (2 + 6 - 7) % 7 ≤ (k.val + 6 - 7) % 7) ∧
    ((claiming false true).sc.claims[(1 : Ring)] = some (.read [1]) ∧
      ∀ k : Ring, k ≠ 0 → (claiming false true).sc.claims[k].isSome →
        (claiming false true).eng[k].cfg.bind (·.cls) ≠ some .paced) ∧
    ∀ k : Ring, (claiming false false).sc.claims[k] = none :=
  ⟨by decide, rfl, fun _ _ => ⟨rfl, (by decide : 0 < 6), rfl, rfl⟩, by decide, by decide, by decide⟩

theorem witness_SamplesConvert : ∀ x ∈ [[(1 : Byte), 2], [3, 4]], x.length = Format.s16.bytes := by decide

theorem witness_CompletionRecordLayout :
    let c : Claim := { claimOf 7 true true with
      result := { (claimOf 7 true true).result with count := 8388607, unfilled := 32767 } }
    c.result.count < 2 ^ 23 ∧ c.result.unfilled < 2 ^ 15 ∧ 4095 < 2 ^ 12 := by decide

theorem lineLive_lawful : lineLive.Lawful :=
  ⟨(rfl : lineLive.lock.holders = []), by decide, by decide, by decide, by decide, by decide, by decide, by decide, by decide,
    by decide, by decide⟩

theorem witness_SnapshotLayouts :
    (lineLive.Lawful ∧ lineLive.cfg = some lineGiven ∧ lineGiven.ext.base < 131072 ∧ lineLive.taps.length ≤ 16) ∧
    ((∀ g, (engIdle (some .bulk) 1).cfg = some g → g.size ≤ 4096) ∧ (engIdle (some .bulk) 1).tail < 65536 ∧
      (⟨true, 3, none, 65535⟩ : Pacing).owed < 256 ∧ (⟨true, 3, none, 65535⟩ : Pacing).late < 65536 ∧
      Engine.resetValue.cfg = none ∧
      (executing 1 (rcd 4) .waitLock up).eng[(1 : Ring)].exec = some ⟨rcd 4, .waitLock⟩) ∧
    ((State.reset.free.map (·.count)).sum < 2 ^ 32 ∧ State.reset.free[0]? = some ⟨0, 131072⟩) :=
  ⟨⟨lineLive_lawful, by decide⟩, ⟨fun _ h => by cases h; decide, by decide⟩, by decide⟩

theorem witness_UnitLawsKept :
    (StoreLaw State.reset ∧ RefreshLaw State.reset ∧ FaultLaw State.reset ∧ LinkLaw State.reset ∧ CqLaw State.reset) ∧
    (∃ t, step { State.reset with pending := [.storeReady] } = .next t) ∧ LinkLaw waiting ∧ waiting.cq[(1 : CqIx)].Lawful :=
  ⟨⟨by unfold StoreLaw; decide, ⟨by decide, by decide, by decide, (by decide : (0 : Nat) = 0), rfl, rfl⟩,
      ⟨by decide, by decide, fun _ => rfl⟩, by unfold LinkLaw; decide,
      fun q => by rw [(by decide : ∀ q : CqIx, State.reset.cq[q] = .fresh none) q]; exact ⟨rfl, rfl⟩,
      fun _ h => (nomatch h)⟩,
    ⟨_, rfl⟩, by unfold LinkLaw; decide,
    by decide, by decide, by decide, by decide, by decide, by decide, by decide, by decide, by decide⟩

theorem witness_OwedLawKept :
    OwedLaw { armed 3 up with pending := [.linkDown] } ∧
    ∃ t, step { armed 3 up with pending := [.linkDown] } = .next t :=
  ⟨by unfold OwedLaw; decide, _, rfl⟩

theorem witness_AccountingLawKept :
    AccountingLaw { withLine lineLive up with pending := [.linkDown] } ∧
    ∃ t, step { withLine lineLive up with pending := [.linkDown] } = .next t := by
  refine ⟨⟨fun l => ?_, by unfold FreeListLaw; decide, by unfold Extent.apart; decide, by decide, by decide⟩, _, rfl⟩
  by_cases h : l = 0
  · subst h; exact lineLive_lawful
  · have : ({ withLine lineLive up with pending := [.linkDown] } : State).lines[l] = Line.freeRecord 0 := by
      revert l; decide
    rw [this]
    exact ⟨(rfl : (Line.freeRecord 0).lock.holders = []), rfl⟩

/-- Ring 1 pushes to line 0, whose lock it holds, and ring 2 waits to read it. -/
def sharing : State :=
  engState 2 .waitLock (executing 2 (rcd 7) .waitLock
    (withRd 1 4 (onLine 1 (counted 4 2) (.pushing 0 2) (lineLocked .write [1] [⟨2, .reader⟩]))))
theorem witness_RingLawKept :
    RingLaw { sharing with pending := [.linkDown] } ∧ ∃ t, step { sharing with pending := [.linkDown] } = .next t := by
  have he : ∀ r : Ring, plainEngine sharing.eng[r] = true := by decide
  have hx : ∀ r : Ring, (sharing.eng[r].exec.map (·.phase) ≠ some .tapRead) ∧
      (sharing.eng[r].exec.map (fun x => decide (Kind.ofCode x.rcd.kind = some .setTaps)) ≠ some true) := by decide
  refine ⟨⟨fun r => lawful_of_plain (he r), fun l => ?_, by decide, fun r x => ⟨fun h hk => ?_, fun h => ?_⟩⟩, _, rfl⟩
  · by_cases hl : l = 0
    · subst hl
      refine ⟨by decide, fun r hr => ?_, fun w hw => ?_⟩
      · obtain rfl : r = 1 := List.mem_singleton.mp hr
        exact ⟨by decide, _, _, rfl, rfl, trivial⟩
      · obtain rfl : w = ⟨2, .reader⟩ := List.mem_singleton.mp hw
        exact ⟨by decide, _, _, rfl, rfl, rfl, .inl rfl⟩
    · have : ({ sharing with pending := [.linkDown] } : State).lines[l] = Line.freeRecord 0 := by revert l; decide
      unfold RingsAtLock; rw [this]
      exact ⟨by decide, fun _ h => (nomatch h), fun _ h => (nomatch h)⟩
  · have h' := (hx r).2
    have h : sharing.eng[r].exec = some ⟨x, .waitLock⟩ := h
    rw [h] at h'; exact absurd (congrArg some (decide_eq_true hk)) h'
  · have h' := (hx r).1
    have h : sharing.eng[r].exec = some ⟨x, .tapRead⟩ := h
    rw [h] at h'; exact absurd rfl h'

theorem witness_GenerationChangesAtOpen :
    let s := executing 1 (opening 16) .fresh up
    (Instr.openLine 1).wf = true ∧ exec (.openLine 1) s = .next (after (.openLine 1) s) ∧
    (after (.openLine 1) s).lines[(0 : LineIx)].gen ≠ s.lines[(0 : LineIx)].gen :=
  ⟨rfl, rfl, by decide⟩

end Sys2Proof.Tests
end

section
/-! Which work of the part leaves the engines, the lines and the store alone: one lemma per shared operation. -/

namespace Sys2Proof.Machine

/-- From `s` to `t` the lines, the free-extent list and the store words are as before. -/
structure LinesKept (s t : State) : Prop where
  lines : t.lines = s.lines
  free : t.free = s.free
  store : t.store = s.store
  epoch : t.epoch = s.epoch

/-- From `s` to `t` the engines are as before as well: only the port, the completion rings, the Frame Unit, the Host Port and
the model's own fields may have changed. -/
structure EnginesKept (s t : State) : Prop extends LinesKept s t where
  eng : t.eng = s.eng

theorem LinesKept.refl (s : State) : LinesKept s s := ⟨rfl, rfl, rfl, rfl⟩

theorem LinesKept.trans {s t u : State} (h : LinesKept s t) (k : LinesKept t u) : LinesKept s u :=
  ⟨k.lines.trans h.lines, k.free.trans h.free, k.store.trans h.store, k.epoch.trans h.epoch⟩

theorem EnginesKept.refl (s : State) : EnginesKept s s := ⟨.refl s, rfl⟩

theorem EnginesKept.trans {s t u : State} (h : EnginesKept s t) (k : EnginesKept t u) : EnginesKept s u :=
  ⟨h.toLinesKept.trans k.toLinesKept, k.eng.trans h.eng⟩

theorem EnginesKept.get {s t : State} (h : EnginesKept s t) (r : Ring) : t.eng[r] = s.eng[r] := by
  rw [h.eng]

/-! ### Updates of one place -/

theorem updEng_kept (r : Ring) (f : Engine → Engine) (s : State) : LinesKept s (s.updEng r f) := ⟨rfl, rfl, rfl, rfl⟩

theorem setPhase_kept (r : Ring) (p : Phase) (s : State) : LinesKept s (s.setPhase r p) := updEng_kept r _ s

theorem updCq_kept (q : CqIx) (f : Cq → Cq) (s : State) : EnginesKept s (s.updCq q f) := ⟨⟨rfl, rfl, rfl, rfl⟩, rfl⟩

theorem updPace_kept (r : Ring) (f : Pacing → Pacing) (s : State) : EnginesKept s (s.updPace r f) :=
  ⟨⟨rfl, rfl, rfl, rfl⟩, rfl⟩

theorem setClaim_kept (r : Ring) (b : Option Burst) (s : State) : EnginesKept s (s.setClaim r b) :=
  ⟨⟨rfl, rfl, rfl, rfl⟩, rfl⟩

theorem takeWrite_kept (a : Addr) (d : List Byte) (s : State) : EnginesKept s (s.takeWrite a d) :=
  ⟨⟨rfl, rfl, rfl, rfl⟩, rfl⟩

theorem atTime_kept (n : Nat) (s : State) : EnginesKept s (s.atTime n) := ⟨⟨rfl, rfl, rfl, rfl⟩, rfl⟩

theorem hp_kept (s : State) (hp : HostPort) : EnginesKept s { s with hp := hp } := ⟨⟨rfl, rfl, rfl, rfl⟩, rfl⟩

theorem sc_kept (s : State) (sc : StoreCtl) : EnginesKept s { s with sc := sc } := ⟨⟨rfl, rfl, rfl, rfl⟩, rfl⟩

theorem fu_kept (s : State) (fu : FrameUnit) : EnginesKept s { s with fu := fu } := ⟨⟨rfl, rfl, rfl, rfl⟩, rfl⟩

/-! ### The link, the port and the completion rings -/

theorem writeReported_kept (w : HostWrite) (s : State) : EnginesKept s (writeReported w s) := by
  rw [writeReported_frame]
  exact hp_kept s _

theorem sendMessage_kept (v : Fin 5) (s : State) : EnginesKept s (sendMessage v s) := by
  unfold sendMessage
  split
  · exact ⟨⟨rfl, rfl, rfl, rfl⟩, rfl⟩
  · exact .refl s

theorem reportFault_kept (c : FaultCode) (n : Nat) (s : State) : EnginesKept s (reportFault c n s) := by
  unfold reportFault
  split
  · exact (hp_kept s _).trans (sendMessage_kept 4 _)
  · exact hp_kept s _

theorem grantPort_kept (r : Ring) (s : State) : EnginesKept s (grantPort r s) := by
  unfold grantPort
  split
  · exact .refl s
  · exact sc_kept s _

theorem arbitrate_kept (s : State) : EnginesKept s (arbitrate s) := by
  unfold arbitrate
  repeat' split
  all_goals first
    | exact .refl s
    | exact sc_kept s _
    | exact (sc_kept s _).trans (grantPort_kept _ _)

theorem claimPort_kept (r : Ring) (b : Burst) (s : State) : EnginesKept s (claimPort r b s) :=
  (setClaim_kept r _ s).trans (arbitrate_kept _)

theorem issueRecord_kept (q : CqIx) (c : Claim) (s : State) : EnginesKept s (issueRecord q c s) := by
  unfold issueRecord
  split
  · exact .refl s
  · exact (updCq_kept q _ s).trans (takeWrite_kept _ _ _)

theorem takeClaim_kept (q : CqIx) (c : Claim) (s : State) : EnginesKept s (takeClaim q c s) := by
  unfold takeClaim
  split
  · exact issueRecord_kept q c s
  · exact updCq_kept q _ s

theorem serveQueue_kept (q : CqIx) (s : State) : EnginesKept s (serveQueue q s) := by
  unfold serveQueue
  repeat' split
  all_goals first
    | exact .refl s
    | exact (updCq_kept q _ s).trans (issueRecord_kept q _ _)

theorem withdrawClaims_kept (q : CqIx) (p : Claim → Bool) (s : State) : EnginesKept s (withdrawClaims q p s) := by
  unfold withdrawClaims
  split
  · exact (updCq_kept q _ s).trans (serveQueue_kept q _)
  · exact .refl s

theorem signalCq_kept (q : CqIx) (s : State) : EnginesKept s (signalCq q s) :=
  (updCq_kept q _ s).trans (sendMessage_kept _ _)

theorem moderate_kept (q : CqIx) (s : State) : EnginesKept s (moderate q s) := by
  unfold moderate
  repeat' split
  · exact .refl s
  · exact signalCq_kept q s
  · exact updCq_kept q _ s

theorem judgeRetire_kept (q : CqIx) (n : Nat) (s : State) : EnginesKept s (judgeRetire q n s) := by
  unfold judgeRetire
  split
  · exact (updCq_kept q _ s).trans (serveQueue_kept q _)
  · exact reportFault_kept _ _ s

theorem takeRetire_kept (q : CqIx) (n : Nat) (s : State) : EnginesKept s (takeRetire q n s) := by
  unfold takeRetire
  split
  · exact (updCq_kept q _ s).trans (updCq_kept q _ _)
  · exact (updCq_kept q _ s).trans (judgeRetire_kept q n _)

theorem takeHeld_kept (q : CqIx) (s : State) : EnginesKept s (takeHeld q s) := by
  unfold takeHeld
  split
  · exact .refl s
  · exact (updCq_kept q _ s).trans (judgeRetire_kept q _ _)

theorem refuseHeld_kept (q : CqIx) (s : State) : EnginesKept s (refuseHeld q s) := by
  unfold refuseHeld
  split
  · exact .refl s
  · exact (updCq_kept q _ s).trans (reportFault_kept _ _ _)

theorem discardNotice_kept (r : Ring) (s : State) : EnginesKept s (discardNotice r s) := by
  unfold discardNotice
  split
  · exact .refl s
  · exact (updCq_kept _ _ s).trans (withdrawClaims_kept _ _ _)

theorem discardPacing_kept (r : Ring) (s : State) : EnginesKept s (discardPacing r s) :=
  (discardNotice_kept r s).trans (updPace_kept r _ _)

/-! ### Engines -/

theorem tryFetch_kept (r : Ring) (s : State) : LinesKept s (tryFetch r s) := by
  unfold tryFetch
  repeat' split
  all_goals first
    | exact .refl s
    | exact updEng_kept r _ s

theorem halt_kept (r : Ring) (s : State) : LinesKept s (halt r s) :=
  (updEng_kept r _ s).trans (updPace_kept r _ _).toLinesKept

theorem haltCause_kept (r : Ring) (s : State) : LinesKept s (haltCause r s) := by
  unfold haltCause
  repeat' split
  · exact updEng_kept r _ s
  · exact .refl s
  · exact halt_kept r s

theorem goOn_kept (r : Ring) (s : State) : LinesKept s (goOn r s) := by
  rw [goOn_frame]
  exact ⟨rfl, rfl, rfl, rfl⟩

/-- The end of a command changes no line (R110). -/
theorem endCommand_kept (r : Ring) (res : Result) (s : State) : LinesKept s (endCommand r res s) := by
  unfold endCommand
  dsimp only
  repeat' split
  · exact .refl s
  · exact (updEng_kept r _ s).trans (goOn_kept r _)
  · exact (updEng_kept r _ s).trans (updEng_kept r _ _)
  · exact ((updEng_kept r _ s).trans (updEng_kept r _ _)).trans (takeClaim_kept _ _ _).toLinesKept

theorem takePost_kept (r : Ring) (n : Nat) (s : State) : LinesKept s (takePost r n s) := by
  have fetch : ∀ f : Engine → Engine, LinesKept s (tryFetch r (s.updEng r f)) := fun f =>
    (updEng_kept r f s).trans (tryFetch_kept r _)
  unfold takePost refusePost
  dsimp only
  repeat' split
  · exact (reportFault_kept _ _ s).toLinesKept
  · exact (reportFault_kept _ _ s).toLinesKept
  · exact updEng_kept r _ s
  · rw [State.updEng_updEng]
    exact fetch _
  · exact fetch _

theorem issueWrite_kept (r : Ring) (a : Addr) (d : List Byte) (s : State) : LinesKept s (issueWrite r a d s) :=
  (updEng_kept r _ s).trans (takeWrite_kept a d _).toLinesKept

theorem issueRead_kept (r : Ring) (a : Addr) (n : Nat) (s : State) : LinesKept s (issueRead r a n s) := updEng_kept r _ s

/-! ### What a granted command does until its next transfer or burst -/

theorem pushNext_kept (r : Ring) (x : Record) (n : Nat) (s : State) : LinesKept s (pushNext r x n s) :=
  (setPhase_kept r _ s).trans (issueRead_kept r _ _ _)

theorem readChunk_kept (r : Ring) (s : State) : LinesKept s (readChunk r s) := by
  unfold readChunk
  dsimp only
  repeat' split
  all_goals first
    | exact .refl s
    | exact setPhase_kept r _ s
    | exact (setPhase_kept r _ s).trans (claimPort_kept r _ _).toLinesKept

theorem writeChunk_kept (r : Ring) (s : State) : LinesKept s (writeChunk r s) := by
  unfold writeChunk
  repeat' split
  all_goals first
    | exact .refl s
    | exact (setPhase_kept r _ s).trans (issueWrite_kept r _ _ _)

theorem pumpReader_kept (r : Ring) (s : State) : LinesKept s (pumpReader r s) :=
  ((readChunk_kept r s).trans (writeChunk_kept r _)).trans (readChunk_kept r _)

theorem issueInput_kept (r : Ring) (x : Record) (c : StepCtx) (s : State) : LinesKept s (issueInput r x c s) := by
  unfold issueInput
  dsimp only
  split
  · exact (setPhase_kept r _ s).trans (issueRead_kept r _ _ _)
  · exact setPhase_kept r _ s

theorem writeStep_kept (r : Ring) (s : State) : LinesKept s (writeStep r s) := by
  unfold writeStep
  repeat' split
  all_goals first
    | exact .refl s
    | exact (setPhase_kept r _ s).trans (issueWrite_kept r _ _ _)

theorem commitStep_kept (r : Ring) (s : State) : LinesKept s (commitStep r s) := by
  unfold commitStep
  repeat' split
  all_goals first
    | exact .refl s
    | exact (setPhase_kept r _ s).trans (claimPort_kept r _ _).toLinesKept

/-! ### Stops -/

theorem dropClaim_kept (r : Ring) (s : State) : LinesKept s (dropClaim r s) := by
  unfold dropClaim
  dsimp only
  repeat' split
  · exact updEng_kept r _ s
  · exact (updEng_kept r _ s).trans (withdrawClaims_kept _ _ _).toLinesKept
  · exact .refl s

theorem finishRestart_kept (s : State) : LinesKept s (finishRestart s) := ⟨rfl, rfl, rfl, rfl⟩

end Sys2Proof.Machine
end

section
/-! What a command can come to, said once: a property holds of the state it leaves if it holds of each of its outcomes. -/

namespace Sys2Proof.Machine

/-- If the command takes a next state, `P` holds of it. -/
def Yields (P : State → Prop) : Host.Outcome State Fault Refusal → Prop
  | .next t => P t
  | _ => True

theorem Yields.of_next {P : State → Prop} {o : Host.Outcome State Fault Refusal} {t : State} (h : Yields P o)
    (ho : o = .next t) : P t := by
  subst ho
  exact h

section
variable {P : State → Prop} {s : State} {r : Ring}

theorem whileReleased_ind {k : State → Host.Outcome State Fault Refusal} (h : P s)
    (hk : Released s → Yields P (k s)) : Yields P (whileReleased s k) := by
  unfold whileReleased
  split
  · exact h
  · rename_i hr
    exact hk (by simpa [Released] using hr)

theorem orStop_ind {k : State → State} (hstop : P (tryStop r s)) (hk : s.eng[r].stop = none → P (k s)) :
    P (orStop r k s) := by
  unfold orStop
  split
  · exact hstop
  · rename_i h
    exact hk (by simpa using h)

/-- A record's row: no such record, a refused or skipped one, or one that is carried out (R107). -/
theorem runKind_ind {k : Kind} {body : Record → State → State} (h : P s)
    (hend : ∀ x, Executes r x s → ∀ res, P (endCommand r res s))
    (hbody : ∀ x, Executes r x s → Kind.ofCode x.kind = some k → GuardMet r x s → P (body x s)) :
    P (runKind r k body s) := by
  unfold runKind
  split
  · exact h
  · rename_i x hx
    have hx := (freshRecord_iff r x s).mp hx
    split
    · rename_i hk
      unfold guarded
      split
      · exact hend x hx _
      · rename_i g hg
        split
        · rename_i hm
          exact hbody x hx hk ⟨g, hg, hm⟩
        · exact hend x hx _
    · exact h

theorem onLineRing_ind {body : Record → State → State} {x : Record}
    (hend : ∀ res, P (endCommand r res s)) (hbody : r ≠ 0 → P (body x s)) : P (onLineRing r body x s) := by
  unfold onLineRing
  split
  · exact hend _
  · rename_i h
    exact hbody h

/-- The record has passed steps 2 to 7 of the validation order as a command of kind `k` (R55). -/
structure Validated (k : Kind) (r : Ring) (x : Record) (s : State) : Prop where
  line : x.line.toNat < 64
  state : checkLine k x (s.lineOf x) = none
  owner : checkOwner k r (s.lineOf x) = none
  closing : checkClosing k (s.lineOf x) = none
  ranges : checkRanges k x (s.lineOf x) = none
  align : checkAlign k x = none

theorem checkCommand_none_iff (k : Kind) (x : Record) (l : Line) :
    checkCommand k r x l = none ↔
      checkOwner k r l = none ∧ checkClosing k l = none ∧ checkRanges k x l = none ∧ checkAlign k x = none := by
  simp [checkCommand]

/-- A line command: no such record, one that is refused or skipped, or one that is carried out (R55). -/
theorem lineCommand_ind {k : Kind} {body : Record → State → State} (h : P s)
    (hend : ∀ x, Executes r x s → ∀ res, P (endCommand r res s))
    (hbody : ∀ x, Executes r x s → Kind.ofCode x.kind = some k → GuardMet r x s → r ≠ 0 → Validated k r x s →
      P (body x s)) :
    P (lineCommand r k body s) := by
  refine runKind_ind h hend fun x hx hk hg => onLineRing_ind (hend x hx) fun hr => ?_
  unfold validated
  split
  · exact hend x hx _
  · dsimp only
    split
    · exact hend x hx _
    · split
      · exact hend x hx _
      · rename_i hl _ hs _ hc
        obtain ⟨ho, hcl, hra, ha⟩ := (checkCommand_none_iff k x _).mp hc
        exact hbody x hx hk hg hr ⟨by omega, hs, ho, hcl, hra, ha⟩

/-- A control command: refused, skipped, or carried out (R155). -/
theorem control_ind {k : Kind} {check : Record → State → Option Status} {effect : Record → State → State} (h : P s)
    (hend : ∀ x, Executes 0 x s → ∀ res, P (endCommand 0 res s))
    (heffect : ∀ x, Executes 0 x s → check x s = none → P (effect x s)) :
    P (runKind 0 k (checkedControl check effect) s) := by
  refine runKind_ind h hend fun x hx _ _ => ?_
  unfold checkedControl
  split
  · exact hend x hx _
  · rename_i hc
    exact heffect x hx hc

/-- The line of a validated record that is no OPEN is not FREE (R6). -/
theorem Validated.not_free {k : Kind} {x : Record} (h : Validated k r x s) (hk : k ≠ .openLine) :
    (s.lineOf x).state ≠ .free := by
  have hs := h.state
  simp only [checkLine, hk, if_false] at hs
  split at hs
  · exact absurd hs (by simp)
  · rename_i hn
    exact fun hf => hn (.inl hf)

end

/-! ### Commands -/

/-- The writes to CONTROL that are a device reset (R173, R178). -/
def ResetsDevice (c : Instr) : Prop :=
  c = .reset ∨ c = .controlOtherCode 2#32 ∨ c = .registerWrite 0x00 4 2#32

/-- Of the forms of the rows, the row RESET alone is a device reset (R171, R173). -/
theorem ResetsDevice.of_wf {c : Instr} (h : ResetsDevice c) (hw : c.wf = true) : c = .reset := by
  obtain rfl | rfl | rfl := h
  · rfl
  · exact absurd hw (by decide)
  · exact absurd hw (by decide)

end Sys2Proof.Machine
end

section
/-! A property of states that the shared operations keep is kept by every command but an OPEN, the end of a store burst and
the resets, whose own cases stand as hypotheses. -/

namespace Sys2Proof.Machine

/-- `P` is about the lines, the free-extent list and the store words, and the work at locks and lines keeps it. -/
structure Closed (P : State → Prop) : Prop where
  frame : ∀ {s t : State}, LinesKept s t → P s → P t
  release : ∀ (r : Ring) (l : LineIx) {s : State}, P s → P (release r l s)
  claimReader : ∀ (r : Ring) (l : LineIx) {s : State}, s.lines[l].state ≠ .free → P s → P (claimReader r l s)
  claimWriter : ∀ (r : Ring) (l : LineIx) {s : State}, s.lines[l].state ≠ .free → P s → P (claimWriter r l s)
  taps : ∀ (l : LineIx) (ts : List Nat) {s : State}, (∀ d ∈ ts, d < s.lines[l].len) → P s →
    P (s.updLine l (fun y => { y with taps := ts }))
  close : ∀ (r : Ring) (x : Record) {s : State}, (s.lineOf x).state ≠ .free → P s → P (carryOutClose r x s)

namespace Closed
variable {P : State → Prop} (c : Closed P) {s : State} (h : P s)
include c h

theorem updEng (r : Ring) (f : Engine → Engine) : P (s.updEng r f) := c.frame (updEng_kept r f s) h

theorem setPhase (r : Ring) (p : Phase) : P (s.setPhase r p) := c.frame (setPhase_kept r p s) h

theorem endCommand (r : Ring) (res : Result) : P (endCommand r res s) := c.frame (endCommand_kept r res s) h

theorem finish (r : Ring) (x : Record) (res : Result) : P (finish r x res s) :=
  c.endCommand (c.release r x.lineIx h) r res

/-! ### Steps -/

theorem finishStep (r : Ring) : P (finishStep r s) := by
  unfold Machine.finishStep
  dsimp only
  repeat' split
  all_goals first
    | exact h
    | exact c.finish h r _ _

theorem pumpStep (r : Ring) : P (pumpStep r s) :=
  c.finishStep (c.frame ((writeStep_kept r s).trans (commitStep_kept r _)) h) r

theorem pumpReader (r : Ring) : P (pumpReader r s) := c.frame (pumpReader_kept r s) h

/-! ### Stops -/

theorem dropCommand (r : Ring) : P (dropCommand r s) := by
  unfold Machine.dropCommand
  dsimp only
  split
  · exact h
  · split
    · exact c.release r _ (c.updEng h r _)
    · exact c.updEng h r _

theorem unwind (r : Ring) : P (unwind r s) :=
  c.frame (dropClaim_kept r _) (c.dropCommand (c.updEng h r _) r)

theorem tryRestart : P (tryRestart s) := by
  unfold Machine.tryRestart
  dsimp only
  repeat' split
  · exact c.frame (finishRestart_kept _) (c.unwind h 0)
  · exact c.unwind h 0
  · exact h

theorem endControl (res : Result) : P (endControl res s) := by
  unfold Machine.endControl
  split
  · exact c.tryRestart (c.updEng h 0 _)
  · exact c.endCommand h 0 res

theorem targetStopped (r : Ring) (rep : StopReport) (n : Nat) : P (targetStopped r rep n s) := by
  unfold Machine.targetStopped
  repeat' split
  all_goals first
    | exact h
    | exact c.endControl h _

theorem finishReset (r : Ring) : P (finishReset r s) := c.targetStopped (c.updEng h r _) r _ _

theorem tryStop (r : Ring) : P (tryStop r s) := by
  have hu := c.unwind h r
  have hd := c.frame (discardPacing_kept r _).toLinesKept hu
  unfold Machine.tryStop
  dsimp only
  repeat' split
  · exact c.tryRestart h
  · exact h
  · exact c.frame (halt_kept r _) hu
  · exact hd
  · exact c.finishReset hd r
  · exact h

theorem beginStop (r : Ring) (cause : StopCause) : P (beginStop r cause s) :=
  c.tryStop (c.frame (setClaim_kept r none _).toLinesKept (c.updEng h r _)) r

theorem noticeFailed (r : Ring) : P (noticeFailed r s) := by
  unfold Machine.noticeFailed
  dsimp only
  split
  · exact h
  · exact c.beginStop h r _

theorem orStop (r : Ring) {k : State → State} (hk : P (k s)) : P (orStop r k s) :=
  orStop_ind (c.tryStop h r) fun _ => hk

/-! ### Ring 0 -/

theorem configureCq (x : Record) : P (configureCq x s) := by
  unfold Machine.configureCq
  split
  · exact c.setPhase h 0 _
  · exact c.endControl (c.frame (updCq_kept _ _ s).toLinesKept h) _

theorem resumeCqWait (q : CqIx) : P (resumeCqWait q s) := by
  unfold Machine.resumeCqWait
  repeat' split
  all_goals first
    | exact h
    | exact c.configureCq h _

theorem configureRing (x : Record) : P (configureRing x s) :=
  c.endCommand (c.frame (updPace_kept _ _ _).toLinesKept (c.updEng h _ _)) 0 _

theorem resetRing (x : Record) : P (resetRing x s) := c.beginStop (c.setPhase h 0 _) _ _

theorem configureDevice (x : Record) : P (configureDevice x s) := by
  unfold Machine.configureDevice setFrameSource setRefreshCode
  refine c.endCommand (c.frame ?_ h) 0 _
  split <;> exact ⟨rfl, rfl, rfl, rfl⟩

theorem writeSnapshot (x : Record) (data : List Byte) (res : Result) : P (writeSnapshot x data res s) :=
  c.frame ((setPhase_kept 0 _ s).trans (issueWrite_kept 0 _ _ _)) h

theorem control (k : Kind) (check : Record → State → Option Status) {effect : Record → State → State}
    (he : ∀ x, P (effect x s)) : P (runKind 0 k (checkedControl check effect) s) :=
  control_ind h (fun _ _ res => c.endCommand h 0 res) fun x _ _ => he x

theorem endQuery (res : Result) : P (endQuery res s) := c.endControl (c.updEng h 0 _) res

/-! ### Completion records -/

theorem tellPosted (m : Claim) : P (tellPosted m s) := by
  unfold Machine.tellPosted
  repeat' split
  · exact h
  · exact c.frame (updPace_kept _ _ s).toLinesKept h
  · exact h
  · refine c.orStop h _ ?_
    split
    · exact c.frame (goOn_kept _ s) h
    · exact h

theorem tellFailed (m : Claim) : P (tellFailed m s) := by
  unfold Machine.tellFailed
  repeat' split
  · exact h
  · exact c.noticeFailed (c.frame (updPace_kept _ _ s).toLinesKept h) _
  · refine c.orStop h _ ?_
    split
    · exact c.frame (halt_kept _ s) h
    · exact h

theorem restartAfter (m : Claim) : P (restartAfter m s) := by
  unfold Machine.restartAfter
  split
  · exact c.tryRestart h
  · exact h

theorem writePosted (q : CqIx) (m : Claim) : P (writePosted q m s) := by
  have hp : P (Machine.tellPosted m (postRecord q s)) := c.tellPosted (c.frame (updCq_kept q _ s).toLinesKept h) m
  have ht := c.frame ((moderate_kept q _).trans (takeHeld_kept q _)).toLinesKept hp
  exact c.restartAfter (c.frame (serveQueue_kept q _).toLinesKept (c.resumeCqWait ht q)) m

theorem writeFailed (q : CqIx) (m : Claim) : P (writeFailed q m s) := by
  have hl := ((updCq_kept q (fun x => { x with inflight := none }) s).trans
    (reportFault_kept .postFault m.ring.val _)).trans (refuseHeld_kept q _)
  have ht := c.tellFailed (c.frame hl.toLinesKept h) m
  exact c.frame (serveQueue_kept q _).toLinesKept (c.resumeCqWait ht q)

/-! ### Frames and records -/

theorem carryOutMark (r : Ring) (x : Record) : P (carryOutMark r x s) := by
  have hp := c.frame (updPace_kept r (fun p => { p with armed := true, owed := p.owed - 1 }) s).toLinesKept h
  unfold Machine.carryOutMark
  dsimp only
  split
  · exact c.updEng (c.setPhase hp r _) r _
  · exact c.endCommand hp r _

theorem runMark (r : Ring) (x : Record) : P (runMark r x s) := by
  unfold Machine.runMark
  split
  · exact c.carryOutMark h r x
  · exact c.endCommand h r _

theorem countLate (r : Ring) : P (countLate r s) := by
  have h1 := updPace_kept r (fun p => { p with late := min (p.late + 1) 65535, owed := p.owed + 1 }) s
  have h2 := h1.trans (updPace_kept r (fun p => { p with notice := some ⟨p.owed, s.fu.frame⟩ }) _)
  unfold Machine.countLate
  dsimp only
  repeat' split
  · exact c.frame h1.toLinesKept h
  · exact c.frame h2.toLinesKept h
  · exact c.frame (h2.trans (takeClaim_kept _ _ _)).toLinesKept h

theorem overrun (r : Ring) : P (overrun r s) :=
  c.frame (((updPace_kept r _ s).trans (reportFault_kept _ _ _)).toLinesKept.trans (haltCause_kept r _)) h

theorem strobeRing (r : Ring) : P (strobeRing s r) := by
  unfold Machine.strobeRing
  repeat' split
  · exact c.endCommand h r _
  · exact c.countLate h r
  · exact c.overrun h r
  · exact h

omit h in
theorem strobeRings (rs : List Ring) {s : State} (h : P s) : P (rs.foldl Machine.strobeRing s) := by
  induction rs generalizing s with
  | nil => exact h
  | cons r rs ih => exact ih (c.strobeRing h r)

theorem strobe : P (strobe s) := c.strobeRings _ (c.frame (fu_kept s _).toLinesKept h)

theorem frameExpiry : P (frameExpiry s) := by
  unfold Machine.frameExpiry
  split
  · exact c.strobe (c.frame ((atTime_kept _ s).trans (fu_kept _ _)).toLinesKept h)
  · exact h

theorem fetchDone (r : Ring) (bytes : BitVec 256) : P (fetchDone r bytes s) := by
  have h1 := c.updEng h r (fun e => { e with fetch := none })
  have h2 := c.updEng h1 r (fun e => { e with head := (e.head + 1) % e.size })
  unfold Machine.fetchDone
  dsimp only
  repeat' split
  · exact c.tryStop h1 r
  · exact c.frame (tryFetch_kept r _) (c.updEng h2 r _)
  · exact c.updEng h2 r _

theorem fetchFailed (r : Ring) : P (fetchFailed r s) := by
  have h1 := c.updEng h r (fun e => { e with fetch := none })
  unfold Machine.fetchFailed
  dsimp only
  repeat' split
  · exact h
  · exact c.tryStop h1 r
  · exact c.frame ((reportFault_kept _ _ _).toLinesKept.trans (haltCause_kept r _)) h1

/-! ### Transfers and bursts of line commands -/

theorem installTaps (r : Ring) (x : Record) (ts : List Nat) : P (installTaps r x ts s) := by
  unfold Machine.installTaps firstBadTap
  dsimp only
  split
  · exact c.finish h r x _
  · rename_i hn
    refine c.finish (c.taps x.lineIx ts ?_ h) r x _
    intro d hd
    exact Nat.not_le.mp (of_decide_eq_false (List.findIdx?_eq_none_iff.mp hn d hd))

theorem tapListReadFailed (r : Ring) : P (tapListReadFailed r s) := by
  unfold Machine.tapListReadFailed
  repeat' split
  · exact h
  · exact h
  · exact c.orStop (c.updEng h r _) r (c.finish (c.updEng h r _) r _ _)

theorem claimPush (r : Ring) (x : Record) (bytes : List Byte) : P (claimPush r x bytes s) := by
  unfold Machine.claimPush
  split
  · exact h
  · exact c.frame (claimPort_kept r _ s).toLinesKept h

theorem pushSamplesReadFailed (r : Ring) : P (pushSamplesReadFailed r s) := by
  unfold Machine.pushSamplesReadFailed
  repeat' split
  · exact h
  · exact h
  · exact c.orStop (c.updEng h r _) r (c.finish (c.updEng h r _) r _ _)

theorem pushGoesOn (r : Ring) (x : Record) (n : Nat) : P (pushGoesOn r x n s) := by
  unfold Machine.pushGoesOn
  split
  · exact c.frame (pushNext_kept r x n s) h
  · exact c.finish h r x _

theorem takeInputs (r : Ring) (x : Record) (k : StepCtx) (bytes : List Byte) : P (takeInputs r x k bytes s) := by
  unfold Machine.takeInputs
  repeat' split
  · exact h
  · exact h
  · exact c.setPhase h r _

theorem stepInputReadFailed (r : Ring) : P (stepInputReadFailed r s) := by
  have h1 : P (readOver r s) := c.updEng h r _
  unfold Machine.stepInputReadFailed
  repeat' split
  · exact h
  · exact h
  · exact c.orStop h1 r (c.pumpStep (c.setPhase h1 r _) r)

theorem commandReadFailed (r : Ring) : P (commandReadFailed r s) := by
  unfold Machine.commandReadFailed
  split
  · exact c.tapListReadFailed h r
  · exact c.pushSamplesReadFailed h r
  · exact c.stepInputReadFailed h r
  · exact h

theorem failStart (code : FaultCode) : P (failStart code s) :=
  c.frame ((hp_kept s _).trans (reportFault_kept code 0 _)).toLinesKept h

theorem anchorReadFailed : P (anchorReadFailed s) := by
  unfold Machine.anchorReadFailed
  split
  · exact h
  · exact c.failStart h _

theorem readFailed (id : ReadId) : P (readFailed id s) := by
  unfold Machine.readFailed
  split
  · exact c.anchorReadFailed h
  · exact c.fetchFailed h _
  · exact c.commandReadFailed h _

theorem readerWritten (r : Ring) (x : Record) (k : ReaderCtx) : P (readerWritten r x k s) := by
  unfold Machine.readerWritten
  split
  · exact c.finish h r x _
  · exact c.pumpReader (c.setPhase h r _) r

theorem readerFaults (r : Ring) (x : Record) (k : ReaderCtx) : P (readerFaults r x k s) := c.finish h r x _

theorem readerWriteFailed (r : Ring) (x : Record) (k : ReaderCtx) : P (readerWriteFailed r x k s) := by
  have h1 : P ((s.setClaim r none).setPhase r (.reader { k with failed := true })) :=
    c.setPhase (c.frame (setClaim_kept r none s).toLinesKept h) r _
  unfold Machine.readerWriteFailed
  dsimp only
  split
  · exact h1
  · exact c.readerFaults h1 r x k

theorem stepWriteFailed (r : Ring) (k : StepCtx) : P (stepWriteFailed r k s) :=
  c.finishStep (c.setPhase (c.frame (setClaim_kept r none s).toLinesKept h) r _) r

theorem readerBurstOver (r : Ring) (x : Record) (k : ReaderCtx) : P (readerBurstOver r x k s) := by
  unfold Machine.readerBurstOver
  repeat' split
  · exact h
  · exact c.readerFaults h r x k
  · exact c.pumpReader (c.setPhase h r _) r

theorem stepCommitted (r : Ring) (x : Record) (k : StepCtx) : P (stepCommitted r x k s) := by
  unfold Machine.stepCommitted
  dsimp only
  have next : ∀ u : State, LinesKept s u → ∀ (b : Bool) (ws : List Nat),
      P (if b = true then Machine.pumpStep r u else claimPort r (.read ws) u) := by
    intro u hu b ws
    split
    · exact c.pumpStep (c.frame hu h) r
    · exact c.frame (hu.trans (claimPort_kept r _ u).toLinesKept) h
  split
  · exact h
  · refine next _ ?_ _ _
    split
    · exact issueInput_kept r x _ s
    · exact setPhase_kept r _ s

theorem stepBurstOver (r : Ring) (x : Record) (k : StepCtx) : P (stepBurstOver r x k s) := by
  unfold Machine.stepBurstOver
  dsimp only
  repeat' split
  · exact h
  · exact c.finishStep h r
  · exact c.stepCommitted h r x k
  · exact c.pumpStep (c.setPhase h r _) r

theorem afterBurst (r : Ring) : P (afterBurst r s) := by
  unfold Machine.afterBurst
  split
  · exact c.pushGoesOn h r _ _
  · exact c.readerBurstOver h r _ _
  · exact c.stepBurstOver h r _ _
  · exact h

omit h in
/-- The end of a burst keeps `P` if its effect on the store and the line does. -/
theorem endBurst (r : Ring) (b : Burst) (h : P (burstEffect r b s)) : P (endBurst r b s) := by
  have h1 := fun sc => c.frame ((sc_kept (burstEffect r b s) sc).trans (arbitrate_kept _)).toLinesKept h
  exact c.orStop (h1 _) r (c.afterBurst (h1 _) r)

/-! ### The Host Port and the Store Controller -/

theorem checkAnchorAddr : P (checkAnchorAddr s) := by
  unfold Machine.checkAnchorAddr
  repeat' split
  · exact h
  · exact c.frame (hp_kept s _).toLinesKept h
  · exact c.failStart h _

theorem controlStart : P (controlStart s) := by
  have h1 := fun hp => c.frame (hp_kept s hp).toLinesKept h
  unfold Machine.controlStart
  dsimp only
  repeat' split
  · exact c.checkAnchorAddr (h1 _)
  · exact h1 _
  · exact h

theorem controlRestart : P (controlRestart s) := by
  unfold Machine.controlRestart
  repeat' split
  · exact h
  · exact c.beginStop (c.frame (hp_kept s _).toLinesKept h) 0 _
  · exact h

theorem writeControl (v : Word) (hreset : v = 2#32 → P (deviceReset s)) : P (writeControl v s) := by
  unfold Machine.writeControl
  repeat' split
  · exact c.controlStart h
  · exact hreset ‹_›
  · exact c.controlRestart h
  · exact h

theorem storeReady : P (storeReady s) := by
  have h1 := fun sc => c.frame ((sc_kept s sc).trans (arbitrate_kept _)).toLinesKept h
  unfold Machine.storeReady
  dsimp only
  repeat' split
  · exact c.checkAnchorAddr (h1 _)
  · exact h1 _
  · exact h

theorem configureFromAnchor (block : BitVec 256) : P (configureFromAnchor block s) :=
  c.frame (((updEng_kept 0 _ s).trans (updCq_kept 0 _ _).toLinesKept).trans (hp_kept _ _).toLinesKept) h

theorem writePost (v : Word) : P (writePost v s) := c.frame (takePost_kept _ _ s) h

theorem writeRetire (v : Word) : P (writeRetire v s) := c.frame (takeRetire_kept _ _ s).toLinesKept h

theorem writeWindow (offset n : Nat) (v : Word) (hreset : n = 4 → offset = 0 → v = 2#32 → P (deviceReset s)) :
    P (writeWindow offset n v s) := by
  unfold Machine.writeWindow
  repeat' split
  · exact h
  · rename_i hn ho
    exact c.writeControl h v (hreset (by simpa using hn) ho)
  · exact c.frame (hp_kept s _).toLinesKept h
  · exact c.frame (hp_kept s _).toLinesKept h
  · exact c.writePost h v
  · exact c.writeRetire h v
  · exact c.frame (hp_kept s _).toLinesKept h
  · exact h

theorem failTransfers : P (failTransfers s) :=
  c.frame (s := s) ⟨rfl, rfl, rfl, rfl⟩ h

theorem refreshEnd : P (refreshEnd s) := by
  unfold Machine.refreshEnd
  split
  · exact c.frame ((sc_kept s _).trans (arbitrate_kept _)).toLinesKept h
  · exact h

theorem refreshExpiry : P (refreshExpiry s) := by
  have h1 := fun t sc => (atTime_kept t s).trans (sc_kept _ sc)
  unfold Machine.refreshExpiry
  dsimp only
  repeat' split
  · exact h
  · exact c.frame (((h1 _ _).trans (sc_kept _ _)).trans (arbitrate_kept _)).toLinesKept h
  · exact c.frame ((h1 _ _).trans (reportFault_kept _ _ _)).toLinesKept h

theorem configSpaceWrite (bit : ConfigBit) (v : Bool) : Yields P (execConfigSpaceWrite bit v s) := by
  refine whileReleased_ind h fun _ => ?_
  have hb := fun hp => c.frame (hp_kept s hp).toLinesKept h
  cases bit with
  | msi => exact hb _
  | busMaster =>
    cases v with
    | true => exact hb _
    | false => exact c.failTransfers (hb _)

theorem fsyncStrobe (level : Bool) (held : Held) : Yields P (execFsyncStrobe level held s) := by
  have h1 := fun fu => c.frame (fu_kept s fu).toLinesKept h
  unfold execFsyncStrobe
  refine whileReleased_ind (h1 _) fun _ => ?_
  split
  · exact c.strobe (h1 _)
  · exact h1 _

theorem linkUp : Yields P (execLinkUp s) := whileReleased_ind h fun _ => c.frame (hp_kept s _).toLinesKept h

theorem linkDown : Yields P (execLinkDown s) := by
  have h1 := fun hp => c.frame (hp_kept s hp).toLinesKept h
  exact whileReleased_ind h fun _ => c.failTransfers (h1 _)

/-! ### Reports of transfers -/

theorem tapListReadDone (r : Ring) (bytes : List Byte) : Yields P (execTapListReadDone r bytes s) := by
  have h1 : P (readOver r s) := c.updEng h r _
  refine whileReleased_ind h fun _ => ?_
  repeat' split
  · exact h
  · exact c.orStop h1 r (c.installTaps h1 r _ _)
  · exact h

theorem pushSamplesReadDone (r : Ring) (bytes : List Byte) : Yields P (execPushSamplesReadDone r bytes s) := by
  have h1 : P (readOver r s) := c.updEng h r _
  refine whileReleased_ind h fun _ => ?_
  repeat' split
  · exact h
  · exact c.orStop h1 r (c.claimPush h1 r _ _)
  · exact h

theorem stepInputReadDone (r : Ring) (bytes : List Byte) : Yields P (execStepInputReadDone r bytes s) := by
  have h1 : P (readOver r s) := c.updEng h r _
  refine whileReleased_ind h fun _ => ?_
  repeat' split
  · exact h
  · exact c.orStop h1 r (c.pumpStep (c.takeInputs h1 r _ _ _) r)
  · exact h

theorem resultWriteCompleted (r : Ring) : Yields P (execResultWriteCompleted r s) := by
  have h1 : ∀ w, P (writeOver r (writeReported w s)) := fun w =>
    c.updEng (c.frame (writeReported_kept w s).toLinesKept h) r _
  refine whileReleased_ind h fun _ => ?_
  repeat' split
  · exact h
  · exact c.orStop (h1 _) r (c.readerWritten (h1 _) r _ _)
  · exact c.orStop (h1 _) r (c.pumpStep (c.setPhase (h1 _) r _) r)
  · exact h
  · exact h

theorem resultWriteFailed (r : Ring) : Yields P (execResultWriteFailed r s) := by
  have h1 : P (writeOver r s) := c.updEng h r _
  refine whileReleased_ind h fun _ => ?_
  repeat' split
  · exact h
  · exact c.orStop h1 r (c.readerWriteFailed h1 r _ _)
  · exact h

theorem stepResultWriteFailed (r : Ring) : Yields P (execStepResultWriteFailed r s) := by
  have h1 : P (writeOver r s) := c.updEng h r _
  refine whileReleased_ind h fun _ => ?_
  repeat' split
  · exact h
  · exact c.orStop h1 r (c.stepWriteFailed h1 r _)
  · exact h

theorem queryWriteDone : Yields P (execQueryWriteDone s) := by
  refine whileReleased_ind h fun _ => ?_
  repeat' split
  · exact c.endQuery (c.frame (writeReported_kept _ s).toLinesKept h) _
  · exact h
  · exact h

theorem queryWriteFailed : Yields P (execQueryWriteFailed s) := by
  refine whileReleased_ind h fun _ => ?_
  repeat' split
  · exact h
  · exact c.endQuery h _
  · exact h

theorem completionWritePosted (q : CqIx) : Yields P (execCompletionWritePosted q s) := by
  refine whileReleased_ind h fun _ => ?_
  repeat' split
  · exact h
  · exact c.writePosted (c.frame (writeReported_kept _ s).toLinesKept h) q _
  · exact h

theorem completionWriteFailed (q : CqIx) : Yields P (execCompletionWriteFailed q s) := by
  refine whileReleased_ind h fun _ => ?_
  repeat' split
  · exact h
  · exact h
  · exact c.writeFailed h q _

theorem holdoffTimerExpiry (q : CqIx) : Yields P (execHoldoffTimerExpiry q s) := by
  refine whileReleased_ind h fun _ => ?_
  split
  · exact h
  · exact c.frame ((atTime_kept _ s).trans (signalCq_kept q _)).toLinesKept h

theorem execFetchDone (r : Ring) (bytes : BitVec 256) : Yields P (execFetchDone r bytes s) := by
  refine whileReleased_ind h fun _ => ?_
  repeat' split
  · exact h
  · exact c.fetchDone h r bytes
  · exact h

theorem unknownKindRecord (r : Ring) : Yields P (execUnknownKindRecord r s) := by
  refine whileReleased_ind h fun _ => ?_
  have he := c.endCommand h r
  unfold guarded
  repeat' split
  · exact h
  · exact h
  · exact he _
  · exact he _
  · exact he _

theorem anchorReadDone (block : BitVec 256) : Yields P (execAnchorReadDone block s) := by
  refine whileReleased_ind h fun _ => ?_
  repeat' split
  · exact h
  · exact h
  · exact c.configureFromAnchor h block
  · exact c.failStart h _

theorem hostReadTimeout (id : ReadId) : Yields P (execHostReadTimeout id s) := by
  refine whileReleased_ind h fun _ => ?_
  split
  · exact h
  · exact c.readFailed (c.frame (atTime_kept _ s).toLinesKept h) id

theorem storeBurstEnd (hburst : ∀ r b, s.sc.port = .burst r b → b.absentWord = none → P (burstEffect r b s)) :
    Yields P (execStoreBurstEnd s) := by
  refine whileReleased_ind h fun _ => ?_
  repeat' split
  · trivial
  · exact c.endBurst _ _ (hburst _ _ ‹_› ‹_›)
  · exact h

/-! ### The line commands -/

/-- A line command keeps `P` if what it does once it is validated does. -/
theorem lineCommand (r : Ring) (k : Kind) {body : Record → State → State}
    (hb : ∀ x, Validated k r x s → P (body x s)) : Yields P (whileReleased s fun s => .next (lineCommand r k body s)) :=
  whileReleased_ind h fun _ =>
    lineCommand_ind h (fun _ _ res => c.endCommand h r res) fun x _ _ _ _ hv => hb x hv

theorem writer (r : Ring) (k : Kind) (hk : k ≠ .openLine) :
    Yields P (whileReleased s fun s => .next (Machine.lineCommand r k (fun x => Machine.claimWriter r x.lineIx) s)) :=
  c.lineCommand h r k fun x hv => c.claimWriter r x.lineIx (hv.not_free hk) h

theorem reader (r : Ring) (k : Kind) (hk : k ≠ .openLine) :
    Yields P (whileReleased s fun s => .next (Machine.lineCommand r k (fun x => Machine.claimReader r x.lineIx) s)) :=
  c.lineCommand h r k fun x hv => c.claimReader r x.lineIx (hv.not_free hk) h

theorem closeLine (r : Ring) : Yields P (execCloseLine r s) :=
  c.lineCommand h r .closeLine fun x hv => c.close r x (hv.not_free (by simp)) h

theorem test (r : Ring) : Yields P (execTest r s) :=
  c.lineCommand h r .test fun _ _ => c.endCommand (c.updEng h r _) r _

theorem mark (r : Ring) : Yields P (execMark r s) :=
  whileReleased_ind h fun _ => runKind_ind h (fun _ _ res => c.endCommand h r res) fun x _ _ _ =>
    onLineRing_ind (c.endCommand h r) fun _ => c.runMark h r x

theorem openLine (r : Ring)
    (hopen : ∀ x, Begins r .openLine x s → Validated .openLine r x s → P (carryOutOpen r x s)) :
    Yields P (execOpenLine r s) :=
  whileReleased_ind h fun hr => lineCommand_ind h (fun _ _ res => c.endCommand h r res) fun x hx hk hg _ hv =>
    hopen x ⟨hr, hx, hk, hg⟩ hv

omit c in
theorem controlCommand {f : State → State} (hf : P (f s)) : Yields P (whileReleased s fun s => .next (f s)) :=
  whileReleased_ind h fun _ => hf

/-- Every command keeps `P` if the resets, the OPENs and the ends of store bursts do. -/
theorem exec (i : Instr) (hpower : i = .powerOnReset → P (powerOn s)) (hreset : ResetsDevice i → P (deviceReset s))
    (hopen : ∀ r x, i = .openLine r → Begins r .openLine x s → Validated .openLine r x s → P (carryOutOpen r x s))
    (hburst : ∀ r b, i = .storeBurstEnd → s.sc.port = .burst r b → b.absentWord = none → P (burstEffect r b s)) :
    Yields P (exec i s) := by
  cases i with
  | powerOnReset => exact hpower rfl
  | start => exact controlCommand h (c.writeControl h _ (fun hv => absurd hv (by decide)))
  | reset => exact controlCommand h (c.writeControl h _ (fun _ => hreset (.inl rfl)))
  | restartRing0 => exact controlCommand h (c.writeControl h _ (fun hv => absurd hv (by decide)))
  | controlOtherCode code =>
    exact controlCommand h (c.writeControl h _ (fun hv => hreset (.inr (.inl (by rw [hv])))))
  | post value => exact controlCommand h (c.writePost h value)
  | retire value => exact controlCommand h (c.writeRetire h value)
  | faultWrite value => exact controlCommand h (c.frame (hp_kept s _).toLinesKept h)
  | anchorLoWrite value => exact controlCommand h (c.frame (hp_kept s _).toLinesKept h)
  | anchorHiWrite value => exact controlCommand h (c.frame (hp_kept s _).toLinesKept h)
  | registerWrite offset nbytes value =>
    exact controlCommand h (c.writeWindow h _ _ _ (fun hn ho hv => hreset (.inr (.inr (by rw [hn, ho, hv])))))
  | configSpaceWrite bit value => exact c.configSpaceWrite h bit value
  | linkUp => exact c.linkUp h
  | linkDown => exact c.linkDown h
  | storeReady => exact controlCommand h (c.storeReady h)
  | anchorReadDone block => exact c.anchorReadDone h block
  | anchorReadFailed => exact controlCommand h (c.anchorReadFailed h)
  | hostReadTimeout read => exact c.hostReadTimeout h read
  | fetchDone r bytes => exact c.execFetchDone h r bytes
  | fetchFailed r => exact controlCommand h (c.fetchFailed h r)
  | unknownKindRecord r => exact c.unknownKindRecord h r
  | openLine r => exact c.openLine h r (fun x => hopen r x rfl)
  | closeLine r => exact c.closeLine h r
  | setTaps r => exact c.writer h r .setTaps (by simp)
  | tapListReadDone r bytes => exact c.tapListReadDone h r bytes
  | tapListReadFailed r => exact controlCommand h (c.tapListReadFailed h r)
  | push r => exact c.writer h r .push (by simp)
  | pushSamplesReadDone r bytes => exact c.pushSamplesReadDone h r bytes
  | pushSamplesReadFailed r => exact controlCommand h (c.pushSamplesReadFailed h r)
  | clear r => exact c.writer h r .clear (by simp)
  | test r => exact c.test h r
  | gather r => exact c.reader h r .gather (by simp)
  | readSpan r => exact c.reader h r .readSpan (by simp)
  | step r => exact c.writer h r .step (by simp)
  | stepInputReadDone r bytes => exact c.stepInputReadDone h r bytes
  | stepInputReadFailed r => exact controlCommand h (c.stepInputReadFailed h r)
  | mark r => exact c.mark h r
  | configureRing => exact controlCommand h (c.control h _ _ (c.configureRing h))
  | configureCompletionRing => exact controlCommand h (c.control h _ _ (c.configureCq h))
  | resetRing => exact controlCommand h (c.control h _ _ (c.resetRing h))
  | configureDevice => exact controlCommand h (c.control h _ _ (c.configureDevice h))
  | queryLine => exact controlCommand h (c.control h _ _ (fun x => c.writeSnapshot h x _ _))
  | queryRing => exact controlCommand h (c.control h _ _ (fun x => c.writeSnapshot h x _ _))
  | queryStore => exact controlCommand h (c.control h _ _ (fun x => c.writeSnapshot h x _ _))
  | queryWriteDone => exact c.queryWriteDone h
  | queryWriteFailed => exact c.queryWriteFailed h
  | storeBurstEnd => exact c.storeBurstEnd h (fun r b => hburst r b rfl)
  | refreshEnd => exact controlCommand h (c.refreshEnd h)
  | refreshTimerExpiry => exact controlCommand h (c.refreshExpiry h)
  | resultWriteCompleted r => exact c.resultWriteCompleted h r
  | resultWriteFailed r => exact c.resultWriteFailed h r
  | stepResultWriteFailed r => exact c.stepResultWriteFailed h r
  | completionWritePosted q => exact c.completionWritePosted h q
  | completionWriteFailed q => exact c.completionWriteFailed h q
  | holdoffTimerExpiry q => exact c.holdoffTimerExpiry h q
  | fsyncStrobe level held => exact c.fsyncStrobe h level held
  | frameTimerExpiry => exact controlCommand h (c.frameExpiry h)
  | fundamentalResetAssert => exact c.frame (hp_kept s _).toLinesKept h

end Closed

end Sys2Proof.Machine
end

section
/-! The store words and the generations: which commands change them. -/

namespace Sys2Proof.Machine

/-! ### What is kept of CLOSE -/

theorem Kept.refuseReader {s t : State} (l : LineIx) (r : Ring) (h : Kept s t) : Kept s (refuseReader l r t) := by
  unfold Machine.refuseReader
  split
  · exact h
  · exact (h.updEng r _).endCommand r _

theorem Kept.refuseReaders {s t : State} (l : LineIx) (rs : List Ring) (h : Kept s t) :
    Kept s (rs.foldl (fun t q => Machine.refuseReader l q t) t) := by
  induction rs generalizing t with
  | nil => exact h
  | cons r rs ih => exact ih (h.refuseReader l r)

theorem Kept.carryOutClose {s t : State} (r : Ring) (x : Record) (h : Kept s t) : Kept s (carryOutClose r x t) := by
  unfold Machine.carryOutClose
  exact Kept.grantStep _ (Kept.refuseReaders _ _ (Kept.updEng r _ (Kept.setPhase r _ (h.updLine x.lineIx _ rfl))))

/-- What all work but an OPEN's keeps is closed under the shared operations. -/
theorem Closed.of_kept {P : State → Prop} (frame : ∀ {s t : State}, LinesKept s t → P s → P t)
    (kept : ∀ {s t : State}, Kept s t → P s → P t) : Closed P where
  frame := frame
  release r l _ h := kept ((Kept.refl _).release r l) h
  claimReader r l _ _ h := kept ((Kept.refl _).claimReader r l) h
  claimWriter r l _ _ h := kept ((Kept.refl _).claimWriter r l) h
  taps l _ _ _ h := kept ((Kept.refl _).updLine l _ rfl) h
  close r x _ _ h := kept ((Kept.refl _).carryOutClose r x) h

/-! ### Generations -/

/-- "The generation of line `l` is `gen`" is closed under the shared operations (R5). -/
theorem closed_gen (l : LineIx) (gen : BitVec 8) : Closed (fun s => s.lines[l].gen = gen) :=
  .of_kept (fun h hs => by rw [h.lines]; exact hs) (fun h hs => (h.2 l).trans hs)

theorem Line.commit_gen (m : Nat) (l : Line) : (l.commit m).gen = l.gen := by
  unfold Line.commit
  split <;> rfl

theorem updLine_gen {s : State} {k : LineIx} {f : Line → Line} (hf : ∀ y, (f y).gen = y.gen) (l : LineIx) :
    (s.updLine k f).lines[l].gen = s.lines[l].gen := by
  simp only [State.updLine_get]
  split
  · rename_i h
    rw [hf, h]
  · rfl

theorem burstEffect_gen (r : Ring) (b : Burst) (s : State) (l : LineIx) :
    (burstEffect r b s).lines[l].gen = s.lines[l].gen := by
  unfold burstEffect commitBurst
  split
  · split
    · exact updLine_gen (fun y => Line.commit_gen _ y) l
    · exact updLine_gen (fun y => Line.commit_gen _ y) l
    · rfl
  · rfl

/-- A carried-out OPEN gives its line the next generation and makes it LIVE, or changes no line (R5, R59). -/
theorem carryOutOpen_lines (r : Ring) (x : Record) (s : State) :
    (carryOutOpen r x s).lines = s.lines ∨
    ∃ fmt ext, (carryOutOpen r x s).lines =
      s.lines.set x.lineIx (openedLine r x.paramA.toNat fmt ext (s.lineOf x).gen) := by
  unfold carryOutOpen
  dsimp only
  split
  · exact .inr ⟨_, _, (endCommand_lines _ _ _).trans rfl⟩
  · exact .inl (endCommand_lines _ _ _)

/-- From `s` to `t`, line `l`'s generation is as before, or an OPEN that ring `r` has begun made the line LIVE with the next
generation (R5). -/
def OpensAt (r : Ring) (l : LineIx) (s t : State) : Prop :=
  t.lines[l].gen ≠ s.lines[l].gen →
    ∃ x, Begins r .openLine x s ∧ x.line.toNat = l.val ∧ s.lines[l].state = .free ∧ t.lines[l].state = .live ∧
      t.lines[l].gen = (if s.lines[l].gen = 255 then 1 else s.lines[l].gen + 1)

theorem OpensAt.of_lines {r : Ring} {l : LineIx} {s t : State} (h : t.lines = s.lines) : OpensAt r l s t :=
  fun hne => absurd (by rw [h]) hne

theorem openLine_opensAt (r : Ring) (l : LineIx) (s : State) : Yields (OpensAt r l s) (exec (.openLine r) s) := by
  show Yields _ (execOpenLine r s)
  refine whileReleased_ind (P := OpensAt r l s) (.of_lines rfl) fun hr => ?_
  refine lineCommand_ind (P := OpensAt r l s) (.of_lines rfl)
    (fun x _ res => .of_lines (endCommand_kept r res s).lines) fun x hx hk hg _ hv => ?_
  obtain hl | ⟨fmt, ext, hl⟩ := carryOutOpen_lines r x s
  · exact .of_lines hl
  · intro hne
    rw [hl] at hne ⊢
    have hix : x.lineIx.val = x.line.toNat := Nat.mod_eq_of_lt hv.line
    by_cases hlx : l = x.lineIx
    · subst hlx
      have hs : (s.lineOf x).state = .free := by simpa [checkLine] using hv.state
      refine ⟨x, ⟨hr, hx, hk, hg⟩, hix.symm, hs, ?_, ?_⟩
      · rw [vset_self]
        rfl
      · rw [vset_self]
        rfl
    · exact absurd (by rw [vset, if_neg hlx]) hne

/-- Settles O60, by the operations that keep every generation, and the two cases of an OPEN. -/
theorem generationChangesAtOpen : Obligations.GenerationChangesAtOpen := by
  unfold Obligations.GenerationChangesAtOpen
  intro c s t l hw ht hne
  by_cases hopen : ∃ r, c = .openLine r
  · obtain ⟨r, rfl⟩ := hopen
    obtain ⟨x, hx⟩ := (openLine_opensAt r l s).of_next ht hne
    exact .inr (.inr ⟨r, x, rfl, hx⟩)
  · by_cases hp : c = .powerOnReset
    · exact .inl hp
    · by_cases hr : c = .reset
      · exact .inr (.inl hr)
      · refine absurd (((closed_gen l s.lines[l].gen).exec rfl c (fun h => absurd h hp) (fun h => absurd (h.of_wf hw) hr)
          (fun r x h => absurd ⟨r, h⟩ hopen) (fun r b _ _ _ => burstEffect_gen r b s l)).of_next ht) hne

/-! ### Store words -/

theorem readWord_congr {s t : State} (hs : t.store = s.store) (he : t.epoch = s.epoch) (a : Nat) :
    t.readWord a = s.readWord a := by
  unfold State.readWord
  rw [hs, he]

/-- "Store word `a` reads `w`" is closed under the shared operations (R31). -/
theorem closed_readWord (a : Nat) (w : Word) : Closed (fun s => s.readWord a = w) := by
  refine .of_kept (fun h hs => (readWord_congr h.store h.epoch a).trans hs) (fun {s t} h hs => ?_)
  have hu : t = _ := h.1
  exact (readWord_congr (by rw [hu]) (by rw [hu]) a).trans hs

theorem carryOutOpen_readWord (r : Ring) (x : Record) (s : State) (a : Nat) :
    (carryOutOpen r x s).readWord a = s.readWord a := by
  unfold carryOutOpen
  dsimp only
  split
  · exact readWord_congr ((endCommand_kept _ _ _).store.trans rfl) ((endCommand_kept _ _ _).epoch.trans rfl) a
  · exact readWord_congr (endCommand_kept _ _ _).store (endCommand_kept _ _ _).epoch a

theorem commitBurst_store (r : Ring) (m : Nat) (s : State) : (commitBurst r m s).store = s.store := by
  unfold commitBurst
  split <;> rfl

theorem commitBurst_epoch (r : Ring) (m : Nat) (s : State) : (commitBurst r m s).epoch = s.epoch := by
  unfold commitBurst
  split <;> rfl

/-- A write burst leaves its words in the store (R31). -/
theorem burstEffect_write_readWord (r : Ring) (ws : List (Nat × Word)) (s : State) (a : Nat) :
    (burstEffect r (.write ws) s).readWord a =
      (Memory.find a (Memory.writeAll ws s.store)).getD (Config.unknownStoreWord s.epoch a) := by
  unfold burstEffect State.readWord
  rw [commitBurst_store, commitBurst_epoch]

/-- A word that a burst writes once reads as it was written. -/
theorem Memory.find_writeAll_mem {ws : List (Nat × Word)} (m : List (Nat × Word)) {a : Nat} {w : Word}
    (hd : ws.Pairwise (fun p q => p.1 ≠ q.1)) (ha : (a, w) ∈ ws) : Memory.find a (Memory.writeAll ws m) = some w := by
  induction ws generalizing m with
  | nil => exact absurd ha (List.not_mem_nil)
  | cons p ws ih =>
    obtain ⟨hp, hws⟩ := List.pairwise_cons.mp hd
    rcases List.mem_cons.mp ha with rfl | ha
    · exact (Memory.find_writeAll_other _ (fun q hq => (hp q hq).symm)).trans (Memory.find_write_same a w m)
    · exact ih _ hws ha

/-- The first word of a burst that the store does not have. -/
theorem Burst.absentWord_eq {b : Burst} {pre post : List Nat} {a : Nat} (hb : b.words = pre ++ a :: post)
    (hpre : ∀ p ∈ pre, p < 8388608) (ha : 8388608 ≤ a) : b.absentWord = some a := by
  unfold Burst.absentWord
  have hnone : pre.find? (fun p => decide (storeWords ≤ p)) = none :=
    List.find?_eq_none.mpr fun p hp h => absurd (of_decide_eq_true h) (Nat.not_le.mpr (hpre p hp))
  rw [hb, List.find?_append, hnone, Option.none_or]
  exact List.find?_cons_of_pos (decide_eq_true ha)

/-- The end of a burst all of whose words the store has (R31). -/
theorem exec_storeBurstEnd_next {s : State} {r : Ring} {b : Burst} (h : Released s) (hp : s.sc.port = .burst r b)
    (hb : b.absentWord = none) : exec .storeBurstEnd s = .next (endBurst r b s) := by
  unfold exec execStoreBurstEnd
  rw [whileReleased_eq h]
  simp only [hp, hb]

/-- The end of a burst with a word that the store does not have (R22; log 24). -/
theorem exec_storeBurstEnd_fault {s : State} {r : Ring} {b : Burst} {a : Nat} (h : Released s)
    (hp : s.sc.port = .burst r b) (hb : b.absentWord = some a) :
    exec .storeBurstEnd s = .fault (.storeWordAbsent a) := by
  unfold exec execStoreBurstEnd
  rw [whileReleased_eq h]
  simp only [hp, hb]

/-- Settles O33, by the operations that keep every store word, and the effect of a write burst. -/
theorem storeFrame : Obligations.StoreFrame := by
  unfold Obligations.StoreFrame
  refine ⟨fun c s t a hw hp hr ht hws => ?_, fun s t r ws a w hrel hport hd ha ht => ?_,
    fun s r b pre post a hrel hport hb hpre ha => ?_⟩
  · refine ((closed_readWord a (s.readWord a)).exec rfl c (fun h => absurd h hp) (fun h => absurd (h.of_wf hw) hr)
      (fun r x _ _ _ => carryOutOpen_readWord r x s a) (fun r b hc hport _ => ?_)).of_next ht
    cases b with
    | read _ => rfl
    | write ws =>
      rw [burstEffect_write_readWord, Memory.find_writeAll_other _ (hws r ws hc hport)]
      rfl
  · cases hb : Burst.absentWord (.write ws) with
    | some b => exact absurd (exec_storeBurstEnd_fault hrel hport hb ▸ ht) (by simp)
    | none =>
      rw [exec_storeBurstEnd_next hrel hport hb] at ht
      obtain rfl := Host.Outcome.next.inj ht
      refine (closed_readWord a w).endBurst r _ ?_
      rw [burstEffect_write_readWord, Memory.find_writeAll_mem _ hd ha]
      rfl
  · exact exec_storeBurstEnd_fault hrel hport (Burst.absentWord_eq hb hpre ha)

end Sys2Proof.Machine
end

section
/-! The accounting of the store (R23 to R28): extents that tile the store, first fit, and the merge of a released extent. -/

namespace Sys2Proof.Machine

/-- The extents are not empty, share no granule, and together are the 131,072 granules of the store (R24). -/
structure Tiles (es : List Extent) : Prop where
  apart : es.Pairwise Extent.apart
  within : ∀ e ∈ es, e.base + e.count ≤ 131072
  positive : ∀ e ∈ es, 1 ≤ e.count
  sum : (es.map (·.count)).sum = 131072

theorem Extent.apart.symm {a b : Extent} (h : a.apart b) : b.apart a := Or.symm h

theorem Tiles.perm {es fs : List Extent} (h : Tiles es) (hp : es.Perm fs) : Tiles fs where
  apart := h.apart.perm hp Extent.apart.symm
  within e he := h.within e (hp.mem_iff.mpr he)
  positive e he := h.positive e (hp.mem_iff.mpr he)
  sum := ((hp.map _).sum_eq).symm.trans h.sum

theorem Tiles.apart_head {e : Extent} {es : List Extent} (h : Tiles (e :: es)) : ∀ f ∈ es, e.apart f :=
  (List.pairwise_cons.mp h.apart).1

/-- Two extents that touch are one (R28). -/
theorem Tiles.merge {a b : Extent} {es : List Extent} (h : Tiles (a :: b :: es)) (hab : a.base + a.count = b.base) :
    Tiles (⟨a.base, a.count + b.count⟩ :: es) where
  apart := by
    obtain ⟨ha, hb, hes⟩ : _ ∧ _ ∧ _ := ⟨h.apart_head, (List.pairwise_cons.mp (List.pairwise_cons.mp h.apart).2)⟩
    refine List.pairwise_cons.mpr ⟨fun f hf => ?_, hes⟩
    have haf := ha f (by simp [hf])
    have hbf := hb f hf
    have hpos := h.positive f (by simp [hf])
    simp only [Extent.apart] at *
    omega
  within := by
    have hb := h.within b (by simp)
    refine List.forall_mem_cons.mpr ⟨?_, fun e he => h.within e (by simp [he])⟩
    show a.base + (a.count + b.count) ≤ _
    omega
  positive := by
    have hb := h.positive b (by simp)
    exact List.forall_mem_cons.mpr ⟨Nat.le_trans hb (Nat.le_add_left _ _), fun e he => h.positive e (by simp [he])⟩
  sum := by
    have hs := h.sum
    simp only [List.map_cons, List.sum_cons] at hs ⊢
    omega

/-- An extent is cut in two (R25). -/
theorem Tiles.cut {b c n : Nat} {es : List Extent} (h : Tiles (⟨b, c⟩ :: es)) (hn : 1 ≤ n) (hc : n < c) :
    Tiles (⟨b, n⟩ :: ⟨b + n, c - n⟩ :: es) where
  apart := by
    refine List.pairwise_cons.mpr ⟨List.forall_mem_cons.mpr ⟨.inl (Nat.le_refl _), fun f hf => ?_⟩,
      List.pairwise_cons.mpr ⟨fun f hf => ?_, (List.pairwise_cons.mp h.apart).2⟩⟩
    all_goals
      have hf := h.apart_head f hf
      simp only [Extent.apart] at *
      omega
  within := by
    have hb : b + c ≤ 131072 := h.within ⟨b, c⟩ (by simp)
    refine List.forall_mem_cons.mpr ⟨?_, List.forall_mem_cons.mpr ⟨?_, fun e he => h.within e (by simp [he])⟩⟩
    · show b + n ≤ _
      omega
    · show b + n + (c - n) ≤ _
      omega
  positive := by
    refine List.forall_mem_cons.mpr ⟨hn, List.forall_mem_cons.mpr ⟨?_, fun e he => h.positive e (by simp [he])⟩⟩
    show 1 ≤ c - n
    omega
  sum := by
    have hs := h.sum
    simp only [List.map_cons, List.sum_cons] at hs ⊢
    omega

/-! ### First fit -/

theorem allocate_cons (need : Nat) (e : Extent) (es : List Extent) {x : Extent} {rest : List Extent}
    (h : allocate need (e :: es) = some (x, rest)) :
    (e.count = need ∧ x = e ∧ rest = es) ∨
    (need < e.count ∧ x = ⟨e.base, need⟩ ∧ rest = ⟨e.base + need, e.count - need⟩ :: es) ∨
    ∃ rest', allocate need es = some (x, rest') ∧ rest = e :: rest' := by
  unfold allocate at h
  split at h
  · obtain ⟨rfl, rfl⟩ := Prod.mk.inj (Option.some.inj h)
    by_cases hc : e.count = need
    · exact .inl ⟨hc, by rw [← hc], if_pos hc⟩
    · exact .inr (.inl ⟨by omega, rfl, if_neg hc⟩)
  · split at h
    · exact nomatch h
    · rename_i y es' ha
      obtain ⟨rfl, rfl⟩ := Prod.mk.inj (Option.some.inj h)
      exact .inr (.inr ⟨es', ha, rfl⟩)

/-- The extent given has the size asked for (R25). -/
theorem allocate_count {need : Nat} {es : List Extent} {x : Extent} {rest : List Extent}
    (h : allocate need es = some (x, rest)) : x.count = need := by
  induction es generalizing rest with
  | nil => exact nomatch h
  | cons e es ih =>
    obtain ⟨hc, rfl, -⟩ | ⟨-, rfl, -⟩ | ⟨rest', ha, -⟩ := allocate_cons need e es h
    · exact hc
    · rfl
    · exact ih ha

/-- The extent given and the entries left stand for the entries before (R24, R25). -/
theorem Tiles.allocate {need : Nat} {es hs : List Extent} {x : Extent} {rest : List Extent} (hn : 1 ≤ need)
    (h : allocate need es = some (x, rest)) (ht : Tiles (es ++ hs)) : Tiles (x :: (rest ++ hs)) := by
  induction es generalizing rest hs with
  | nil => exact nomatch h
  | cons e es ih =>
    obtain ⟨-, rfl, rfl⟩ | ⟨hc, rfl, rfl⟩ | ⟨rest', ha, rfl⟩ := allocate_cons need e es h
    · exact ht
    · exact Tiles.cut ht hn hc
    · have := ih (hs := e :: hs) ha (ht.perm List.perm_middle.symm)
      exact this.perm ((List.perm_middle).cons x)

/-- No entry left begins below those there were. -/
theorem allocate_base {need : Nat} {es : List Extent} {x : Extent} {rest : List Extent}
    (h : allocate need es = some (x, rest)) : ∀ f ∈ rest, ∃ e ∈ es, e.base ≤ f.base := by
  induction es generalizing rest with
  | nil => exact nomatch h
  | cons e es ih =>
    obtain ⟨-, -, rfl⟩ | ⟨-, -, rfl⟩ | ⟨rest', ha, rfl⟩ := allocate_cons need e es h
    · exact fun f hf => ⟨f, by simp [hf], Nat.le_refl _⟩
    · exact List.forall_mem_cons.mpr ⟨⟨e, by simp, Nat.le_add_right _ _⟩, fun f hf => ⟨f, by simp [hf], Nat.le_refl _⟩⟩
    · refine List.forall_mem_cons.mpr ⟨⟨e, by simp, Nat.le_refl _⟩, fun f hf => ?_⟩
      obtain ⟨g, hg, hgf⟩ := ih ha f hf
      exact ⟨g, by simp [hg], hgf⟩

theorem freeListLaw_cons {e : Extent} {es : List Extent} :
    FreeListLaw (e :: es) ↔ (∀ f ∈ es, e.base + e.count < f.base) ∧ 1 ≤ e.count ∧ FreeListLaw es := by
  unfold FreeListLaw
  rw [List.pairwise_cons, List.forall_mem_cons]
  tauto

/-- Two entries of the free-extent list are the same, or one ends before the other begins (R23). -/
theorem FreeListLaw.ordered {es : List Extent} (hl : FreeListLaw es) {a b : Extent} (ha : a ∈ es) (hb : b ∈ es) :
    a = b ∨ a.base + a.count < b.base ∨ b.base + b.count < a.base := by
  induction es with
  | nil => exact (List.not_mem_nil ha).elim
  | cons e es ih =>
    obtain ⟨hlt, -, hes⟩ := freeListLaw_cons.mp hl
    rcases List.mem_cons.mp ha with rfl | ha' <;> rcases List.mem_cons.mp hb with rfl | hb'
    · exact .inl rfl
    · exact .inr (.inl (hlt b hb'))
    · exact .inr (.inr (hlt a ha'))
    · exact ih hes ha' hb'

/-- First fit keeps the law of the free-extent list (R23, R25). -/
theorem FreeListLaw.allocate {need : Nat} {es : List Extent} {x : Extent} {rest : List Extent}
    (h : allocate need es = some (x, rest)) (hl : FreeListLaw es) : FreeListLaw rest := by
  induction es generalizing rest with
  | nil => exact nomatch h
  | cons e es ih =>
    obtain ⟨hlt, hpos, hes⟩ := freeListLaw_cons.mp hl
    obtain ⟨-, -, rfl⟩ | ⟨hc, -, rfl⟩ | ⟨rest', ha, rfl⟩ := allocate_cons need e es h
    · exact hes
    · refine freeListLaw_cons.mpr ⟨fun f hf => ?_, ?_, hes⟩
      · have := hlt f hf
        show e.base + need + (e.count - need) < f.base
        omega
      · show 1 ≤ e.count - need
        omega
    · refine freeListLaw_cons.mpr ⟨fun f hf => ?_, hpos, ih ha hes⟩
      obtain ⟨g, hg, hgf⟩ := allocate_base ha f hf
      exact Nat.lt_of_lt_of_le (hlt g hg) hgf

/-! ### The extent taken back -/

/-- The entries after a release stand for the entries before and the extent (R24, R28). -/
theorem Tiles.releaseExtent {x : Extent} {es hs : List Extent} (ht : Tiles (x :: (es ++ hs))) :
    Tiles (releaseExtent x es ++ hs) := by
  induction es generalizing hs with
  | nil => exact ht
  | cons e es ih =>
    have hex : Tiles (e :: x :: (es ++ hs)) := ht.perm (.swap _ _ _)
    unfold Machine.releaseExtent
    split
    · split
      · exact ht.merge ‹_›
      · exact ht
    · split
      · rename_i hb
        have hm := hex.merge hb
        split
        · exact hm
        · split
          · exact Tiles.merge hm (by rename_i hf; show e.base + (e.count + x.count) = _; omega)
          · exact hm
      · exact (ih (hs := e :: hs) (ht.perm (List.perm_middle.symm.cons x))).perm List.perm_middle

theorem releaseExtent_base {x : Extent} {es : List Extent} :
    ∀ f ∈ releaseExtent x es, f.base = x.base ∨ ∃ e ∈ es, f.base = e.base := by
  induction es with
  | nil => simp [releaseExtent]
  | cons e es ih =>
    have tail : ∀ f ∈ es, f.base = x.base ∨ ∃ g ∈ e :: es, f.base = g.base := fun f hf => .inr ⟨f, by simp [hf], rfl⟩
    have head : e.base = x.base ∨ ∃ g ∈ e :: es, e.base = g.base := .inr ⟨e, by simp, rfl⟩
    unfold releaseExtent
    repeat' split
    · exact List.forall_mem_cons.mpr ⟨.inl rfl, tail⟩
    · exact List.forall_mem_cons.mpr ⟨.inl rfl, List.forall_mem_cons.mpr ⟨head, tail⟩⟩
    · exact List.forall_mem_cons.mpr ⟨head, fun f hf => (List.not_mem_nil hf).elim⟩
    · exact List.forall_mem_cons.mpr ⟨head, fun f hf => tail f (by simp [hf])⟩
    · exact List.forall_mem_cons.mpr ⟨head, tail⟩
    · refine List.forall_mem_cons.mpr ⟨head, fun f hf => ?_⟩
      obtain hx | ⟨g, hg, he⟩ := ih f hf
      · exact .inl hx
      · exact .inr ⟨g, by simp [hg], he⟩

/-- A release keeps the law of the free-extent list (R23, R28). -/
theorem FreeListLaw.releaseExtent {x : Extent} {es : List Extent} (hx : 1 ≤ x.count) (ha : ∀ e ∈ es, x.apart e)
    (hl : FreeListLaw es) : FreeListLaw (releaseExtent x es) := by
  induction es with
  | nil => exact freeListLaw_cons.mpr ⟨fun f hf => (List.not_mem_nil hf).elim, hx, hl⟩
  | cons e es ih =>
    obtain ⟨hlt, hpos, hes⟩ := freeListLaw_cons.mp hl
    obtain ⟨hae, haes⟩ := List.forall_mem_cons.mp ha
    simp only [Extent.apart] at hae haes
    unfold Machine.releaseExtent
    split
    · split
      · refine freeListLaw_cons.mpr ⟨fun f hf => ?_, Nat.le_trans hpos (Nat.le_add_left _ _), hes⟩
        have := hlt f hf
        show x.base + (x.count + e.count) < f.base
        omega
      · refine freeListLaw_cons.mpr ⟨List.forall_mem_cons.mpr ⟨by omega, fun f hf => ?_⟩, hx, hl⟩
        have := hlt f hf
        omega
    · split
      · cases es with
        | nil => exact freeListLaw_cons.mpr ⟨fun f hf => (List.not_mem_nil hf).elim, Nat.le_trans hpos (Nat.le_add_right _ _), hes⟩
        | cons f es =>
          obtain ⟨hflt, hfpos, hfs⟩ := freeListLaw_cons.mp hes
          have hef := hlt f (by simp)
          have hxf := haes f (by simp)
          dsimp only
          split
          · refine freeListLaw_cons.mpr ⟨fun g hg => ?_, Nat.le_trans hfpos (Nat.le_add_left _ _), hfs⟩
            have := hflt g hg
            show e.base + (e.count + x.count + f.count) < g.base
            omega
          · refine freeListLaw_cons.mpr ⟨List.forall_mem_cons.mpr ⟨?_, fun g hg => ?_⟩,
              Nat.le_trans hpos (Nat.le_add_right _ _), hes⟩
            · show e.base + (e.count + x.count) < f.base
              omega
            · have := hflt g hg
              show e.base + (e.count + x.count) < g.base
              omega
      · refine freeListLaw_cons.mpr ⟨fun f hf => ?_, hpos, ih haes hes⟩
        obtain hb | ⟨g, hg, hb⟩ := releaseExtent_base f hf
        · omega
        · rw [hb]
          exact hlt g hg

/-! ### The number of entries -/

/-- The extent holds granule `p`. -/
def Extent.Holds (p : Nat) (e : Extent) : Prop := e.base ≤ p ∧ p < e.base + e.count

open Classical in
/-- Extents that share no granule hold as many as they count. -/
theorem card_held (n : Nat) {es : List Extent} (ha : es.Pairwise Extent.apart) (hw : ∀ e ∈ es, e.base + e.count ≤ n) :
    ((Finset.range n).filter (fun p => ∃ e ∈ es, e.Holds p)).card = (es.map (·.count)).sum := by
  induction es with
  | nil => simp
  | cons e es ih =>
    obtain ⟨hae, haes⟩ := List.pairwise_cons.mp ha
    obtain ⟨hwe, hwes⟩ := List.forall_mem_cons.mp hw
    have hsplit : (Finset.range n).filter (fun p => ∃ f ∈ e :: es, f.Holds p) =
        Finset.Ico e.base (e.base + e.count) ∪ (Finset.range n).filter (fun p => ∃ f ∈ es, f.Holds p) := by
      ext q
      rw [Finset.mem_union, Finset.mem_filter, Finset.mem_filter, Finset.mem_Ico, Finset.mem_range,
        List.exists_mem_cons_iff]
      constructor
      · rintro ⟨hq, he | hf⟩
        · exact .inl he
        · exact .inr ⟨hq, hf⟩
      · rintro (he | ⟨hq, hf⟩)
        · exact ⟨by omega, .inl he⟩
        · exact ⟨hq, .inr hf⟩
    have hdisj : Disjoint (Finset.Ico e.base (e.base + e.count))
        ((Finset.range n).filter (fun p => ∃ f ∈ es, f.Holds p)) := by
      refine Finset.disjoint_left.mpr fun q hq hqs => ?_
      obtain ⟨-, f, hf, hqf⟩ := Finset.mem_filter.mp hqs
      have hq := Finset.mem_Ico.mp hq
      have := hae f hf
      simp only [Extent.apart, Extent.Holds] at *
      omega
    rw [hsplit, Finset.card_union_of_disjoint hdisj, ih haes hwes, Nat.card_Ico, List.map_cons, List.sum_cons]
    omega

open Classical in
/-- Extents of `n` granules that share none hold every one of them. -/
theorem exists_holds {n p : Nat} {es : List Extent} (ha : es.Pairwise Extent.apart)
    (hw : ∀ e ∈ es, e.base + e.count ≤ n) (hs : (es.map (·.count)).sum = n) (hp : p < n) : ∃ e ∈ es, e.Holds p := by
  have hall : (Finset.range n).filter (fun p => ∃ e ∈ es, e.Holds p) = Finset.range n :=
    Finset.eq_of_subset_of_card_le (Finset.filter_subset _ _) (by rw [card_held n ha hw, hs, Finset.card_range])
  have hmem : p ∈ (Finset.range n).filter (fun p => ∃ e ∈ es, e.Holds p) := by
    rw [hall]
    exact Finset.mem_range.mpr hp
  exact (Finset.mem_filter.mp hmem).2

/-- Between two entries of an ordered list of free extents there is one of the extents that fill the gaps, so that there is at
most one entry more than there are of these. -/
theorem length_le_of_gaps {es hs : List Extent} (hl : FreeListLaw es) (ha : ∀ e ∈ es, ∀ h ∈ hs, e.apart h)
    (hgap : ∀ a ∈ es, ∀ b ∈ es, a.base + a.count < b.base →
      ∃ h ∈ hs, h.Holds (a.base + a.count)) : es.length ≤ hs.length + 1 := by
  induction es generalizing hs with
  | nil => exact Nat.zero_le _
  | cons a es ih =>
    cases es with
    | nil => simp
    | cons b es =>
      obtain ⟨hab, -, hbes⟩ := freeListLaw_cons.mp hl
      have hab := hab b (by simp)
      obtain ⟨h, hmem, hlo, hhi⟩ := hgap a (by simp) b (by simp) hab
      have hbh := ha b (by simp) h hmem
      simp only [Extent.apart] at hbh
      have := ih (hs := hs.erase h) hbes (fun e he g hg => ha e (by simp only [List.mem_cons] at he ⊢; tauto) g
        (List.mem_of_mem_erase hg)) ?_
      · have := List.length_erase_of_mem hmem
        have := List.length_pos_of_mem hmem
        simp only [List.length_cons] at *
        omega
      · intro c hc d hd hcd
        obtain ⟨g, hg, hglo, hghi⟩ := hgap c (List.mem_cons_of_mem _ hc) d (List.mem_cons_of_mem _ hd) hcd
        refine ⟨g, (List.mem_erase_of_ne ?_).mpr hg, hglo, hghi⟩
        rintro rfl
        have hbc : b.base ≤ c.base := by
          rcases List.mem_cons.mp hc with rfl | hc
          · exact Nat.le_refl _
          · have := (freeListLaw_cons.mp hbes).1 c hc
            omega
        omega

/-- The free-extent list of a store that is tiled with `hs` has at most one entry more than `hs`. -/
theorem Tiles.free_length {es hs : List Extent} (hl : FreeListLaw es) (ht : Tiles (es ++ hs)) :
    es.length ≤ hs.length + 1 := by
  have hes := List.pairwise_append.mp ht.apart
  refine length_le_of_gaps hl hes.2.2 fun a ha b hb hab => ?_
  have hbw := ht.within b (by simp [hb])
  obtain ⟨h, hmem, hp⟩ := exists_holds ht.apart ht.within ht.sum (p := a.base + a.count) (by omega)
  rcases List.mem_append.mp hmem with hfree | hheld
  · have := hl.ordered ha hfree
    obtain ⟨hlo, hhi⟩ := hp
    rcases this with rfl | hlt | hlt <;> omega
  · exact ⟨h, hheld, hp⟩

end Sys2Proof.Machine
end

section
/-! The law of the line records, the lock modes and the granules (R1, R9, R11, R23, R24, R40), kept by every operation. -/

namespace Sys2Proof.Machine

/-! ### Locks and line records -/

theorem Lock.Lawful.leave {k : Lock} (h : k.Lawful) (r : Ring) : (k.leave r).Lawful := by
  obtain ⟨m, hs, q⟩ := k
  unfold Lock.Lawful Lock.leave at *
  dsimp only at *
  by_cases he : (hs.filter (fun x => x != r)).isEmpty
  · simp only [he, if_true]
    exact List.isEmpty_iff.mp he
  · have he' : hs.filter (fun x => x != r) ≠ [] := by simpa [List.isEmpty_iff] using he
    simp only [he]
    cases m with
    | none =>
      subst h
      exact absurd rfl he'
    | read => exact he'
    | write =>
      obtain ⟨w, rfl⟩ := h
      refine ⟨w, ?_⟩
      by_cases hw : w = r
      · exact absurd (by simp [hw]) he'
      · simp [hw]

theorem Line.lawful_none {l : Line} (h : l.cfg = none) : l.Lawful ↔ l = .freeRecord l.gen := by
  unfold Line.Lawful
  rw [h]
  exact ⟨fun h => h.2, fun h => ⟨by rw [h]; rfl, h⟩⟩

/-- What a line that is not FREE is (R1, R5, R9, R11, R12, R18). -/
structure Line.LawfulAs (g : LineCfg) (l : Line) : Prop where
  lock : l.lock.Lawful
  state : l.state ≠ .free
  gen : l.gen ≠ 0
  len_ge : 16 ≤ g.len
  len_le : g.len ≤ 4194304
  ext : g.ext.count = (g.len + 63) / 64
  head : l.head < g.len
  fill : l.fill ≤ g.len
  unfilled : l.fill < g.len → l.head = l.fill
  seq : l.seq < 2 ^ 48
  taps : ∀ d ∈ l.taps, d < g.len

theorem Line.lawful_some {l : Line} {g : LineCfg} (h : l.cfg = some g) : l.Lawful ↔ l.LawfulAs g := by
  unfold Line.Lawful
  rw [h]
  exact ⟨fun ⟨a, b, c, d, e, f, g, h, i, j, k⟩ => ⟨a, b, c, d, e, f, g, h, i, j, k⟩,
    fun ⟨a, b, c, d, e, f, g, h, i, j, k⟩ => ⟨a, b, c, d, e, f, g, h, i, j, k⟩⟩

theorem Line.freeRecord_lawful (gen : BitVec 8) : (Line.freeRecord gen).Lawful := (Line.lawful_none rfl).mpr rfl

theorem Line.Lawful.cfg_of_not_free {l : Line} (h : l.Lawful) (hs : l.state ≠ .free) : ∃ g, l.cfg = some g := by
  cases hc : l.cfg with
  | some g => exact ⟨g, rfl⟩
  | none =>
    rw [(Line.lawful_none hc).mp h] at hs
    exact absurd rfl hs

theorem Line.Lawful.cfg_of_free {l : Line} (h : l.Lawful) (hs : l.state = .free) : l.cfg = none := by
  cases hc : l.cfg with
  | none => rfl
  | some g => exact absurd hs ((Line.lawful_some hc).mp h).state

/-- Only the lock of a line that is not FREE has waiters. -/
theorem Line.Lawful.not_free_of_waiter {l : Line} (h : l.Lawful) {w : Waiter} {ws : List Waiter}
    (hq : l.lock.queue = w :: ws) : l.state ≠ .free := by
  intro hs
  rw [(Line.lawful_none (h.cfg_of_free hs)).mp h] at hq
  exact nomatch hq

/-- A line that is not FREE, with another lawful lock. -/
theorem Line.Lawful.withLock {l : Line} (h : l.Lawful) (hs : l.state ≠ .free) {k : Lock} (hk : k.Lawful) :
    ({ l with lock := k } : Line).Lawful := by
  obtain ⟨g, hg⟩ := h.cfg_of_not_free hs
  have h := (Line.lawful_some hg).mp h
  exact (Line.lawful_some (l := { l with lock := k }) hg).mpr { h with lock := hk }

theorem Line.Lawful.leave {l : Line} (h : l.Lawful) (r : Ring) : ({ l with lock := l.lock.leave r } : Line).Lawful := by
  by_cases hs : l.state = .free
  · rw [(Line.lawful_none (h.cfg_of_free hs)).mp h]
    exact Line.freeRecord_lawful l.gen
  · exact h.withLock hs (h.1.leave r)

/-- A tap list whose offsets are below the length (R18). -/
theorem Line.Lawful.withTaps {l : Line} (h : l.Lawful) {ts : List Nat} (ht : ∀ d ∈ ts, d < l.len) :
    ({ l with taps := ts } : Line).Lawful := by
  obtain hc | ⟨g, hc⟩ := Option.eq_none_or_eq_some l.cfg
  · have hl := (Line.lawful_none hc).mp h
    have hts : ts = [] := List.eq_nil_iff_forall_not_mem.mpr fun d hd => by
      have := ht d hd
      simp [Line.len, hc] at this
    refine (Line.lawful_none (l := { l with taps := ts }) hc).mpr ?_
    rw [hts, hl]
    rfl
  · have h := (Line.lawful_some hc).mp h
    refine (Line.lawful_some (l := { l with taps := ts }) hc).mpr { h with taps := fun d hd => ?_ }
    simpa [Line.len, hc] using ht d hd

/-- Head and fill 0 (R69). -/
theorem Line.Lawful.cleared {l : Line} (h : l.Lawful) : ({ l with head := 0, fill := 0 } : Line).Lawful := by
  obtain hc | ⟨g, hc⟩ := Option.eq_none_or_eq_some l.cfg
  · have hl := (Line.lawful_none hc).mp h
    refine (Line.lawful_none (l := { l with head := 0, fill := 0 }) hc).mpr ?_
    rw [hl]
    rfl
  · have h := (Line.lawful_some hc).mp h
    exact (Line.lawful_some (l := { l with head := 0, fill := 0 }) hc).mpr
      { h with head := Nat.lt_of_lt_of_le (Nat.zero_lt_succ 15) h.len_ge, fill := Nat.zero_le _, unfilled := fun _ => rfl }

theorem Line.commit_cfg (m : Nat) (l : Line) : (l.commit m).cfg = l.cfg := by
  unfold Line.commit
  split
  · rfl
  · rfl

/-- A commit (R11, R12, R13). -/
theorem Line.Lawful.commit {l : Line} (h : l.Lawful) (m : Nat) : (l.commit m).Lawful := by
  cases hc : l.cfg with
  | none => simpa [Line.commit, hc] using h
  | some g =>
    have h := (Line.lawful_some hc).mp h
    rw [Line.lawful_some ((Line.commit_cfg m l).trans hc)]
    simp only [Line.commit, hc]
    have hlen : 0 < g.len := Nat.lt_of_lt_of_le (by omega) h.len_ge
    refine { h with head := Nat.mod_lt _ hlen, fill := Nat.min_le_right _ _, unfilled := fun hf => ?_, seq := ?_ }
    · dsimp only at hf ⊢
      have hlt : l.fill + m < g.len := by omega
      rw [h.unfilled (by omega), Nat.mod_eq_of_lt hlt]
      omega
    · exact Nat.lt_of_le_of_lt (Nat.min_le_right _ _) (by simp [seqMax])

/-! ### The extents held -/

/-- The list that `f` picks from a list, when one place changes from what gives `e` to what gives nothing. -/
theorem filterMap_set_none {α β : Type} (f : α → Option β) (l : List α) {i : Nat} (hi : i < l.length) {y : α} {e : β}
    (he : f l[i] = some e) (hy : f y = none) : (l.filterMap f).Perm (e :: (l.set i y).filterMap f) := by
  have hl : l = l.take i ++ l[i] :: l.drop (i + 1) := by simp
  conv_lhs => rw [hl, List.filterMap_append, List.filterMap_cons_some he]
  rw [List.set_eq_take_append_cons_drop, if_pos hi, List.filterMap_append, List.filterMap_cons_none hy]
  exact List.perm_middle

theorem filterMap_set_same {α β : Type} (f : α → Option β) (l : List α) {i : Nat} (hi : i < l.length) {y : α}
    (hy : f y = f l[i]) : (l.set i y).filterMap f = l.filterMap f := by
  have hl : l = l.take i ++ l[i] :: l.drop (i + 1) := by simp
  conv_rhs => rw [hl, List.filterMap_append, List.filterMap_cons]
  rw [List.set_eq_take_append_cons_drop, if_pos hi, List.filterMap_append, List.filterMap_cons, hy]

theorem held_length (s : State) : s.held.length ≤ 64 :=
  Nat.le_trans (List.length_filterMap_le _ _) (by simp)

/-- A line that keeps its configuration keeps its extent. -/
theorem held_set_same {s : State} {l : LineIx} {y : Line} (hy : y.cfg = s.lines[l].cfg) :
    ({ s with lines := s.lines.set l y } : State).held = s.held := by
  unfold State.held
  simp only [Vector.toList_set]
  refine filterMap_set_same _ _ (by simp) ?_
  rw [Vector.getElem_toList, hy]
  rfl

/-- A line that goes FREE gives up its extent. -/
theorem held_set_free {s : State} {l : LineIx} {y : Line} {g : LineCfg} (hg : s.lines[l].cfg = some g)
    (hy : y.cfg = none) : s.held.Perm (g.ext :: ({ s with lines := s.lines.set l y } : State).held) := by
  unfold State.held
  simp only [Vector.toList_set]
  refine filterMap_set_none _ _ (by simp) ?_ (by rw [hy]; rfl)
  rw [Vector.getElem_toList]
  exact congrArg (Option.map LineCfg.ext) hg

/-- A FREE line that is opened gets its extent. -/
theorem held_set_open {s : State} {l : LineIx} {y : Line} {g : LineCfg} (hg : s.lines[l].cfg = none)
    (hy : y.cfg = some g) : ({ s with lines := s.lines.set l y } : State).held.Perm (g.ext :: s.held) := by
  have h := held_set_free (s := { s with lines := s.lines.set l y }) (l := l) (y := s.lines[l])
    (by rw [vset_self]; exact hy) hg
  simpa using h

/-! ### The law -/

theorem mem_held {s : State} {e : Extent} : e ∈ s.held ↔ ∃ l : LineIx, ∃ g, s.lines[l].cfg = some g ∧ g.ext = e := by
  unfold State.held
  rw [List.mem_filterMap]
  constructor
  · rintro ⟨y, hy, he⟩
    obtain ⟨i, hi, rfl⟩ := List.mem_iff_getElem.mp hy
    obtain ⟨g, hg, rfl⟩ := Option.map_eq_some_iff.mp he
    exact ⟨⟨i, by simpa using hi⟩, g, by simpa using hg, rfl⟩
  · rintro ⟨l, g, hg, rfl⟩
    exact ⟨s.lines[l], by simp, by rw [hg]; rfl⟩

/-- The law of the granules is that the extents of the lines and the free extents tile the store (R24). -/
theorem accountingLaw_iff {s : State} :
    AccountingLaw s ↔ LineLaw s ∧ FreeListLaw s.free ∧ Tiles (s.free ++ s.held) := by
  unfold AccountingLaw
  refine and_congr_right fun hl => and_congr_right fun hf => ⟨fun ⟨ha, hw, hs⟩ => ?_, fun h => ?_⟩
  · refine Tiles.perm ⟨ha, hw, fun e he => ?_, hs⟩ List.perm_append_comm
    rcases List.mem_append.mp he with he | he
    · obtain ⟨l, g, hg, rfl⟩ := mem_held.mp he
      have h := (Line.lawful_some hg).mp (hl l)
      have := h.ext
      have := h.len_ge
      omega
    · exact hf.2 e he
  · have h := h.perm List.perm_append_comm
    exact ⟨h.apart, h.within, h.sum⟩

theorem LineLaw.set {s : State} (h : LineLaw s) (l : LineIx) {y : Line} (hy : y.Lawful) :
    LineLaw { s with lines := s.lines.set l y } := by
  intro k
  show ((s.lines.set l y)[k]).Lawful
  rw [vset]
  split
  · exact hy
  · exact h k

/-- A line changes to a lawful record with the same configuration. -/
theorem AccountingLaw.updLine {s : State} (h : AccountingLaw s) (l : LineIx) {f : Line → Line}
    (hf : s.lines[l].Lawful → (f s.lines[l]).Lawful) (hc : (f s.lines[l]).cfg = s.lines[l].cfg) :
    AccountingLaw (s.updLine l f) := by
  obtain ⟨hl, hfree, ht⟩ := accountingLaw_iff.mp h
  refine accountingLaw_iff.mpr ⟨hl.set l (hf (hl l)), hfree, ?_⟩
  show Tiles (s.free ++ ({ s with lines := s.lines.set l (f s.lines[l]) } : State).held)
  rwa [held_set_same hc]

theorem AccountingLaw.frame {s t : State} (h : LinesKept s t) (hs : AccountingLaw s) : AccountingLaw t := by
  unfold AccountingLaw LineLaw State.held at *
  rw [h.lines, h.free]
  exact hs

/-- A device reset leaves all granules in one free extent (R27, R178). -/
theorem accountingLaw_reset {s : State} (hl : s.lines = Vector.replicate 64 (.freeRecord 0))
    (hf : s.free = [⟨0, storeGranules⟩]) : AccountingLaw s := by
  have hline : ∀ l : LineIx, s.lines[l] = .freeRecord 0 := fun l => by simp [hl]
  have hheld : s.held = [] := List.eq_nil_iff_forall_not_mem.mpr fun e he => by
    obtain ⟨l, g, hg, -⟩ := mem_held.mp he
    rw [hline l] at hg
    exact nomatch hg
  refine ⟨fun l => by rw [hline l]; exact Line.freeRecord_lawful 0, ?_⟩
  rw [hf, hheld]
  exact ⟨⟨by simp, by simp [storeGranules]⟩, by simp, by simp [storeGranules], by simp [storeGranules]⟩

/-- The generation that an OPEN gives is not 0 (R5). -/
theorem openedLine_gen_ne_zero (r : Ring) (n : Nat) (fmt : Format) (ext : Extent) (gen : BitVec 8) :
    (openedLine r n fmt ext gen).gen ≠ 0 := by
  show (if gen = 255 then 1 else gen + 1) ≠ 0#8
  split
  · decide
  · bv_omega

/-! ### Locks -/

namespace AccountingLaw
variable {s : State} (h : AccountingLaw s)
include h

theorem leaveLock (r : Ring) (l : LineIx) : AccountingLaw (leaveLock r l s) :=
  h.updLine l (fun hl => hl.leave r) rfl

theorem setLock (l : LineIx) (f : Line → Lock) (hs : s.lines[l].state ≠ .free) (hk : (f s.lines[l]).Lawful) :
    AccountingLaw (s.updLine l (fun y => { y with lock := f y })) :=
  h.updLine l (fun hl => hl.withLock hs hk) rfl

theorem beginReader (r : Ring) (x : Record) (offs : List Nat) : AccountingLaw (beginReader r x offs s) := by
  unfold Machine.beginReader
  dsimp only
  split
  · exact (h.leaveLock r _).frame (endCommand_kept _ _ _)
  · exact h.frame ((setPhase_kept r _ s).trans (pumpReader_kept r _))

theorem beginSetTaps (r : Ring) (x : Record) : AccountingLaw (beginSetTaps r x s) := by
  unfold Machine.beginSetTaps
  dsimp only
  split
  · have ht : AccountingLaw (s.updLine x.lineIx (fun l => { l with taps := [] })) :=
      h.updLine _ (fun hl => hl.withTaps (by simp)) rfl
    exact (ht.leaveLock r _).frame (endCommand_kept _ _ _)
  · exact h.frame ((setPhase_kept r _ s).trans (issueRead_kept r _ _ _))

theorem beginClear (r : Ring) (x : Record) : AccountingLaw (beginClear r x s) := by
  have hc : AccountingLaw (s.updLine x.lineIx (fun l => { l with head := 0, fill := 0 })) :=
    h.updLine _ (fun hl => hl.cleared) rfl
  exact (hc.leaveLock r _).frame (endCommand_kept _ _ _)

theorem beginGranted (r : Ring) : AccountingLaw (beginGranted r s) := by
  unfold Machine.beginGranted
  split
  · exact h
  · have h1 := h.frame (updEng_kept r (fun e => { e with state := .active }) s)
    dsimp only
    split
    · exact h1.frame (pushNext_kept r _ _ _)
    · exact h1.beginSetTaps r _
    · exact h1.beginClear r _
    · exact h1.frame (issueInput_kept r _ _ _)
    · exact h1.beginReader r _ _
    · exact h1.beginReader r _ _
    · exact h1

theorem grantWaiter (r : Ring) : AccountingLaw (grantWaiter r s) := by
  unfold Machine.grantWaiter
  split
  · exact h.frame ((setPhase_kept r _ s).trans (updEng_kept r _ _))
  · exact h.beginGranted r

/-- A CLOSING line goes FREE, and its extent is back in the free-extent list (R4, R28). -/
theorem closed (l : LineIx) {g : LineCfg} (hg : s.lines[l].cfg = some g) :
    AccountingLaw { s.updLine l (fun y => Line.freeRecord y.gen) with free := releaseExtent g.ext s.free } := by
  obtain ⟨hl, hfree, ht⟩ := accountingLaw_iff.mp h
  have hp := held_set_free (l := l) (y := Line.freeRecord s.lines[l].gen) hg rfl
  have ht' : Tiles (g.ext :: (s.free ++ (s.updLine l (fun y => Line.freeRecord y.gen)).held)) :=
    ht.perm ((hp.append_left _).trans List.perm_middle)
  refine accountingLaw_iff.mpr ⟨hl.set l (Line.freeRecord_lawful _), ?_, ht'.releaseExtent⟩
  exact hfree.releaseExtent (ht'.positive _ (by simp)) fun e he => ht'.apart_head e (by simp [he])

theorem endClose (l : LineIx) (hs : s.lines[l].state = .closing) : AccountingLaw (endClose l s) := by
  obtain ⟨g, hg⟩ := (h.1 l).cfg_of_not_free (by rw [hs]; simp)
  have hc := h.closed l hg
  unfold Machine.endClose
  simp only [hg]
  repeat' split
  · exact hc
  · exact hc.frame (endCommand_kept _ _ _)
  · exact hc

theorem grantLoop (n : Nat) (l : LineIx) : AccountingLaw (grantLoop n l s) := by
  induction n generalizing s with
  | zero => exact h
  | succ n ih =>
    unfold Machine.grantLoop
    dsimp only
    split
    · rename_i hc
      exact h.endClose l hc.1
    · split
      · exact h
      · rename_i w ws hq
        have hs := (h.1 l).not_free_of_waiter hq
        have grant : ∀ f : Line → Lock, (f s.lines[l]).Lawful →
            AccountingLaw (Machine.grantLoop n l (Machine.grantWaiter w.ring
              (s.updLine l (fun y => { y with lock := f y })))) :=
          fun f hf => ih ((h.setLock l f hs hf).grantWaiter w.ring)
        split
        · exact grant (fun _ => ⟨.write, [w.ring], ws⟩) ⟨w.ring, rfl⟩
        · exact grant (fun _ => ⟨.read, [w.ring], ws⟩) (List.cons_ne_nil _ _)
        · exact grant (fun y => ⟨.read, y.lock.holders ++ [w.ring], ws⟩) (by simp [Lock.Lawful])
        · exact h

theorem release (r : Ring) (l : LineIx) : AccountingLaw (release r l s) := (h.leaveLock r l).grantLoop _ l

theorem queueClaim (r : Ring) (l : LineIx) (k : WaitKind) (hs : s.lines[l].state ≠ .free) :
    AccountingLaw (queueClaim r l k s) := by
  have hq := h.setLock l (fun y => { y.lock with queue := y.lock.queue ++ [⟨r, k⟩] }) hs (h.1 l).1
  exact hq.frame ((setPhase_kept r _ _).trans (updEng_kept r _ _))

theorem claimReader (r : Ring) (l : LineIx) (hs : s.lines[l].state ≠ .free) : AccountingLaw (claimReader r l s) := by
  unfold Machine.claimReader
  dsimp only
  split
  · have hg := h.setLock l (fun y => { y.lock with mode := .read, holders := y.lock.holders ++ [r] }) hs
      (by simp [Lock.Lawful])
    exact (hg.beginGranted r).grantLoop _ l
  · exact h.queueClaim r l .reader hs

theorem claimWriter (r : Ring) (l : LineIx) (hs : s.lines[l].state ≠ .free) : AccountingLaw (claimWriter r l s) := by
  unfold Machine.claimWriter
  split
  · have hg := h.setLock l (fun y => { y.lock with mode := .write, holders := [r] }) hs ⟨r, rfl⟩
    exact (hg.beginGranted r).grantLoop _ l
  · exact h.queueClaim r l .writer hs

omit h in
theorem refuseReaders (l : LineIx) (rs : List Ring) {s : State} (h : AccountingLaw s) :
    AccountingLaw (rs.foldl (fun t q => refuseReader l q t) s) := by
  induction rs generalizing s with
  | nil => exact h
  | cons r rs ih =>
    refine ih ?_
    show AccountingLaw (refuseReader l r s)
    unfold refuseReader
    split
    · exact h
    · exact h.frame ((updEng_kept r _ s).trans (endCommand_kept r _ _))

theorem carryOutClose (r : Ring) (x : Record) (hs : (s.lineOf x).state ≠ .free) :
    AccountingLaw (carryOutClose r x s) := by
  have hc : AccountingLaw (s.updLine x.lineIx (fun y =>
      { y with
        state := .closing
        lock := { y.lock with queue := y.lock.queue.filter (fun w => w.kind != .reader) ++ [⟨r, .close⟩] } })) := by
    refine h.updLine _ (fun hl => ?_) rfl
    obtain ⟨g, hg⟩ := hl.cfg_of_not_free hs
    have hl := (Line.lawful_some hg).mp hl
    refine (Line.lawful_some ?_).mpr { hl with lock := hl.lock, state := by simp }
    exact hg
  exact (refuseReaders _ _ (hc.frame ((setPhase_kept r _ _).trans (updEng_kept r _ _)))).grantLoop _ _

/-- OPEN moves the extent that SA gives from the free-extent list to the line (R5, R59). -/
theorem carryOutOpen (r : Ring) (x : Record) (hv : Validated .openLine r x s) : AccountingLaw (carryOutOpen r x s) := by
  obtain ⟨hl, hfree, ht⟩ := accountingLaw_iff.mp h
  have hs : (s.lineOf x).state = .free := by simpa [checkLine] using hv.state
  have hcfg := (hl x.lineIx).cfg_of_free hs
  have hlen : 16 ≤ x.paramA.toNat ∧ x.paramA.toNat ≤ 4194304 := by
    have hr := hv.ranges
    simp only [checkRanges] at hr
    split at hr
    · exact nomatch hr
    · omega
  unfold Machine.carryOutOpen
  dsimp only
  split
  · rename_i fmt ext rest _ ha
    refine AccountingLaw.frame (endCommand_kept _ _ _) ?_
    have hcount := allocate_count ha
    have ht' := Tiles.allocate (by unfold granulesOf; omega) ha ht
    have hp := held_set_open (y := openedLine r x.paramA.toNat fmt ext (s.lineOf x).gen) hcfg rfl
    refine accountingLaw_iff.mpr ⟨hl.set _ ((Line.lawful_some rfl).mpr ?_), hfree.allocate ha,
      ht'.perm (List.perm_middle.symm.trans (hp.symm.append_left rest))⟩
    exact {
      lock := rfl, state := by simp [openedLine], gen := openedLine_gen_ne_zero _ _ _ _ _, len_ge := hlen.1, len_le := hlen.2
      ext := hcount, head := Nat.lt_of_lt_of_le (by simp [openedLine]) hlen.1, fill := Nat.zero_le _
      unfilled := fun _ => rfl, seq := by simp [openedLine], taps := by simp [openedLine] }
  · exact h.frame (endCommand_kept _ _ _)

theorem burstEffect (r : Ring) (b : Burst) : AccountingLaw (burstEffect r b s) := by
  have commit : ∀ (u : State) (l : LineIx) (m : Nat), AccountingLaw u → AccountingLaw (u.updLine l (Line.commit m)) :=
    fun u l m hu => hu.updLine l (fun hl => hl.commit m) (Line.commit_cfg m _)
  unfold Machine.burstEffect commitBurst
  repeat' split
  · exact (commit _ _ _ h).frame (setPhase_kept r _ _)
  · exact (commit _ _ _ h).frame (setPhase_kept r _ _)
  · exact h
  · exact h

end AccountingLaw

/-- The law is closed under the shared operations. -/
theorem closed_accountingLaw : Closed AccountingLaw where
  frame := AccountingLaw.frame
  release r l _ h := h.release r l
  claimReader r l _ hs h := h.claimReader r l hs
  claimWriter r l _ hs h := h.claimWriter r l hs
  taps l _ _ ht h := h.updLine l (fun hl => hl.withTaps ht) rfl
  close r x _ hs h := h.carryOutClose r x hs

/-- Settles O58, by the operations of the locks and of SA, each of which keeps the law. -/
theorem accountingLawKept : Obligations.AccountingLawKept := by
  unfold Obligations.AccountingLawKept
  refine ⟨fun s t h ht => ?_, fun s h => ?_⟩
  · unfold step at ht
    split at ht
    · obtain rfl := Host.Outcome.next.inj ht
      exact h
    · rename_i c cs _
      have h' : AccountingLaw { s with pending := cs } := h
      exact (closed_accountingLaw.exec h' c (fun _ => accountingLaw_reset rfl rfl) (fun _ => accountingLaw_reset rfl rfl)
        (fun r x _ _ hv => h'.carryOutOpen r x hv) (fun r b _ _ _ => h'.burstEffect r b)).of_next ht
  · obtain ⟨-, hf, ht⟩ := accountingLaw_iff.mp h
    exact Nat.le_trans (ht.free_length hf) (Nat.succ_le_succ (held_length s))

end Sys2Proof.Machine
end

section
/-! The law of the engines, the rings at the locks and the tap lists (R18, R40, R41, R104): the law taken apart by places, and
the changes of one place that keep it. -/

namespace Sys2Proof.Machine

/-! ### One engine -/

/-- What the law says of one engine (R18, R104). -/
structure EngineOk (e : Engine) : Prop where
  exec : e.exec.isSome → e.state = .active ∨ e.state = .waitLock ∨ e.state = .waitFrame
  frame : e.state = .waitFrame → ∃ x, e.exec = some ⟨x, .waitFrame⟩
  staged : e.staged.isSome → e.fetch = none ∧ (e.exec.isSome ∨ e.state = .waitCq)
  fetch : e.state = .disabled ∨ e.state = .idle → e.fetch = none
  halted : e.state = .halted → e.haltPending = false
  slots : ∀ g, e.cfg = some g → 16 ≤ g.size ∧ e.head < g.size ∧ e.tail < g.size
  idle : ∀ g, e.cfg = some g → e.state = .idle → e.head = e.tail
  tapsWait : ∀ x, e.exec = some ⟨x, .waitLock⟩ → Kind.ofCode x.kind = some .setTaps → x.count.toNat ≤ 16
  tapsRead : ∀ x, e.exec = some ⟨x, .tapRead⟩ → ∀ t, e.rd = some t → t.len ≤ 64

/-- The rings that hold a lock or wait for it. -/
def Lock.rings (k : Lock) : List Ring := k.holders ++ k.queue.map (·.ring)

/-- What a waiter of kind `k` executes (R42, R43, R48). -/
def WaitsAs (k : WaitKind) (kind : Option Kind) (p : Phase) : Prop :=
  match k with
  | .reader => p = .waitLock ∧ (kind = some .gather ∨ kind = some .readSpan)
  | .writer => p = .waitLock ∧ (kind = some .push ∨ kind = some .setTaps ∨ kind = some .clear ∨ kind = some .step)
  | .close => ∃ q, p = .waitClose q

/-- What the law says of one lock (R40). -/
structure LockOk (l : LineIx) (k : Lock) (s : State) : Prop where
  nodup : k.rings.Nodup
  holds : ∀ r ∈ k.holders, OnLine r l (fun _ p => p.holdsLock) s
  waits : ∀ w ∈ k.queue, OnLine w.ring l (WaitsAs w.kind) s

theorem ringLaw_iff {s : State} :
    RingLaw s ↔ (∀ r : Ring, EngineOk s.eng[r]) ∧ (∀ l : LineIx, LockOk l s.lines[l].lock s) ∧
      ∀ l : LineIx, s.lines[l].taps.length ≤ 16 := by
  constructor
  · rintro ⟨he, hl, ht, hx⟩
    refine ⟨fun r => ?_, fun l => ?_, ht⟩
    · obtain ⟨h1, h2, h3, h4, h5, h6⟩ := he r
      exact ⟨h1, h2, h3, h4, h5, fun g hg => ⟨(h6 g hg).1, (h6 g hg).2.1, (h6 g hg).2.2.1⟩,
        fun g hg => (h6 g hg).2.2.2, fun x => (hx r x).1, fun x => (hx r x).2⟩
    · obtain ⟨h1, h2, h3⟩ := hl l
      exact ⟨h1, h2, h3⟩
  · rintro ⟨he, hl, ht⟩
    refine ⟨fun r => ?_, fun l => ⟨(hl l).nodup, (hl l).holds, (hl l).waits⟩, ht,
      fun r x => ⟨(he r).tapsWait x, (he r).tapsRead x⟩⟩
    have h := he r
    exact ⟨h.exec, h.frame, h.staged, h.fetch, h.halted, fun g hg =>
      ⟨(h.slots g hg).1, (h.slots g hg).2.1, (h.slots g hg).2.2, h.idle g hg⟩⟩

theorem RingLaw.engine {s : State} (h : RingLaw s) (r : Ring) : EngineOk s.eng[r] := (ringLaw_iff.mp h).1 r

theorem RingLaw.lock {s : State} (h : RingLaw s) (l : LineIx) : LockOk l s.lines[l].lock s := (ringLaw_iff.mp h).2.1 l

/-! ### Where a ring is -/

theorem OnLine.congr {r : Ring} {l : LineIx} {p : Option Kind → Phase → Prop} {s t : State}
    (he : t.eng[r].exec = s.eng[r].exec) (h : OnLine r l p s) : OnLine r l p t := by
  obtain ⟨hr, x, ph, hx, hl, hp⟩ := h
  exact ⟨hr, x, ph, he.trans hx, hl, hp⟩

/-- Ring `r` is at no lock. -/
def Away (r : Ring) (s : State) : Prop := ∀ l : LineIx, r ∉ s.lines[l].lock.rings

theorem Away.congr {r : Ring} {s t : State} (h : Away r s) (hl : t.lines = s.lines) : Away r t := by
  intro l
  rw [hl]
  exact h l

theorem Lock.mem_rings {r : Ring} {k : Lock} : r ∈ k.rings ↔ r ∈ k.holders ∨ ∃ w ∈ k.queue, w.ring = r := by
  simp [Lock.rings]

theorem WaitsAs.atLock {k : WaitKind} {kind : Option Kind} {p : Phase} (h : WaitsAs k kind p) : p.atLock = true := by
  cases k with
  | reader => rw [h.1]; rfl
  | writer => rw [h.1]; rfl
  | close => obtain ⟨q, rfl⟩ := h; rfl

theorem Phase.holdsLock.atLock {p : Phase} (h : p.holdsLock) : p.atLock = true := by
  cases p with
  | granted | tapRead | pushing _ _ | reader _ | stepping _ => rfl
  | _ => exact absurd h id

/-- A ring at a lock is a line ring that executes a record of that line, and its command holds the lock or waits for it. -/
theorem LockOk.at_lock {l : LineIx} {k : Lock} {s : State} (h : LockOk l k s) {r : Ring} (hr : r ∈ k.rings) :
    OnLine r l (fun _ p => p.atLock = true) s := by
  obtain hr | ⟨w, hw, rfl⟩ := Lock.mem_rings.mp hr
  · obtain ⟨h0, x, p, hx, hl, hp⟩ := h.holds r hr
    exact ⟨h0, x, p, hx, hl, hp.atLock⟩
  · obtain ⟨h0, x, p, hx, hl, hp⟩ := h.waits w hw
    exact ⟨h0, x, p, hx, hl, hp.atLock⟩

theorem RingLaw.away_of_phase {s : State} (h : RingLaw s) {r : Ring}
    (hx : ∀ x p, s.eng[r].exec = some ⟨x, p⟩ → p.atLock = false) : Away r s := by
  intro l hr
  obtain ⟨-, x, p, he, -, hp⟩ := (h.lock l).at_lock hr
  exact absurd hp (by rw [hx x p he]; simp)

theorem RingLaw.away_of_none {s : State} (h : RingLaw s) {r : Ring} (hx : s.eng[r].exec = none) : Away r s :=
  h.away_of_phase fun x p he => by rw [hx] at he; exact nomatch he

theorem RingLaw.away_of_fresh {s : State} (h : RingLaw s) {r : Ring} {x : Record} (hx : Executes r x s) : Away r s :=
  h.away_of_phase fun y p he => by
    rw [show s.eng[r].exec = some ⟨x, .fresh⟩ from hx] at he
    cases he
    rfl

theorem RingLaw.away_zero {s : State} (h : RingLaw s) : Away 0 s :=
  fun l hr => ((h.lock l).at_lock hr).1 rfl

/-- A ring that executes a record is at no lock but that of the record's line. -/
theorem RingLaw.away_elsewhere {s : State} (h : RingLaw s) {r : Ring} {x : Record} {p : Phase}
    (hx : s.eng[r].exec = some ⟨x, p⟩) {l : LineIx} (hl : l ≠ x.lineIx) : r ∉ s.lines[l].lock.rings := by
  intro hr
  obtain ⟨-, y, q, he, hy, -⟩ := (h.lock l).at_lock hr
  rw [hx] at he
  cases he
  exact hl hy.symm

/-! ### One place changed -/

/-- What changes neither engines nor lines keeps the law. -/
theorem RingLaw.units {s t : State} (k : EnginesKept s t) (h : RingLaw s) : RingLaw t := by
  obtain ⟨he, hl, ht⟩ := ringLaw_iff.mp h
  refine ringLaw_iff.mpr ⟨fun r => by rw [k.eng]; exact he r, fun l => ?_, fun l => by rw [k.lines]; exact ht l⟩
  rw [k.lines]
  have on : ∀ {r : Ring} {p}, OnLine r l p s → OnLine r l p t := fun h => h.congr (by rw [k.eng])
  exact ⟨(hl l).nodup, fun r hr => on ((hl l).holds r hr), fun w hw => on ((hl l).waits w hw)⟩

/-- The command of a ring goes on at its place: it is the same, or one that holds its lock goes on holding it. -/
def KeepsPlace (a b : Option Exec) : Prop :=
  b = a ∨ ∃ x p q, a = some ⟨x, p⟩ ∧ b = some ⟨x, q⟩ ∧ p.holdsLock ∧ q.holdsLock

theorem KeepsPlace.holds {r : Ring} {l : LineIx} {s t : State} (h : KeepsPlace s.eng[r].exec t.eng[r].exec)
    (ho : OnLine r l (fun _ p => p.holdsLock) s) : OnLine r l (fun _ p => p.holdsLock) t := by
  obtain h | ⟨x, p, q, hp, hq, -, hql⟩ := h
  · exact ho.congr h
  · obtain ⟨h0, y, ph, hy, hl, -⟩ := ho
    rw [hp] at hy
    cases hy
    exact ⟨h0, x, q, hq, hl, hql⟩

theorem KeepsPlace.waits {r : Ring} {l : LineIx} {s t : State} {k : WaitKind}
    (h : KeepsPlace s.eng[r].exec t.eng[r].exec) (ho : OnLine r l (WaitsAs k) s) : OnLine r l (WaitsAs k) t := by
  obtain h | ⟨x, p, q, hp, -, hpl, -⟩ := h
  · exact ho.congr h
  · obtain ⟨-, y, ph, hy, -, hw⟩ := ho
    rw [hp] at hy
    cases hy
    cases k with
    | reader => rw [hw.1] at hpl; exact hpl.elim
    | writer => rw [hw.1] at hpl; exact hpl.elim
    | close => obtain ⟨_, rfl⟩ := hw; exact hpl.elim

/-- One engine changes, of a ring at no lock or of one that keeps its place. -/
theorem RingLaw.change {s t : State} (h : RingLaw s) (r : Ring) (hl : t.lines = s.lines)
    (ho : ∀ k : Ring, k ≠ r → t.eng[k] = s.eng[k]) (he : EngineOk t.eng[r])
    (hp : Away r s ∨ KeepsPlace s.eng[r].exec t.eng[r].exec) : RingLaw t := by
  obtain ⟨hes, hls, hts⟩ := ringLaw_iff.mp h
  refine ringLaw_iff.mpr ⟨fun k => ?_, fun l => ?_, fun l => by rw [hl]; exact hts l⟩
  · by_cases hk : k = r
    · rw [hk]
      exact he
    · rw [ho k hk]
      exact hes k
  · rw [hl]
    have hk := hls l
    have place : ∀ k ∈ s.lines[l].lock.rings, k ≠ r ∨ KeepsPlace s.eng[k].exec t.eng[k].exec := by
      intro k hk
      by_cases hkr : k = r
      · subst hkr
        exact .inr (hp.resolve_left fun ha => ha l hk)
      · exact .inl hkr
    refine ⟨hk.nodup, fun k hkh => ?_, fun w hw => ?_⟩
    · obtain hne | hkp := place k (Lock.mem_rings.mpr (.inl hkh))
      · exact (hk.holds k hkh).congr (by rw [ho k hne])
      · exact hkp.holds (hk.holds k hkh)
    · obtain hne | hkp := place w.ring (Lock.mem_rings.mpr (.inr ⟨w, hw, rfl⟩))
      · exact (hk.waits w hw).congr (by rw [ho _ hne])
      · exact hkp.waits (hk.waits w hw)

/-- The engine of ring `r` and the lock of line `l` change together; `r` is at no other lock, and every ring left at the lock has
its place from before, or is `r` and has its new place. -/
theorem RingLaw.place {s t : State} (h : RingLaw s) (r : Ring) (l : LineIx)
    (hl : ∀ k : LineIx, k ≠ l → t.lines[k] = s.lines[k]) (ho : ∀ k : Ring, k ≠ r → t.eng[k] = s.eng[k])
    (he : EngineOk t.eng[r]) (ht : t.lines[l].taps.length ≤ 16)
    (haway : ∀ k : LineIx, k ≠ l → r ∉ s.lines[k].lock.rings) (hn : t.lines[l].lock.rings.Nodup)
    (hh : ∀ q ∈ t.lines[l].lock.holders, (q ≠ r ∧ q ∈ s.lines[l].lock.holders) ∨
      q = r ∧ OnLine r l (fun _ p => p.holdsLock) t)
    (hw : ∀ w ∈ t.lines[l].lock.queue, (w.ring ≠ r ∧ w ∈ s.lines[l].lock.queue) ∨
      w.ring = r ∧ OnLine r l (WaitsAs w.kind) t) : RingLaw t := by
  obtain ⟨hes, hls, hts⟩ := ringLaw_iff.mp h
  refine ringLaw_iff.mpr ⟨fun k => ?_, fun k => ?_, fun k => ?_⟩
  · by_cases hk : k = r
    · rw [hk]
      exact he
    · rw [ho k hk]
      exact hes k
  · by_cases hk : k = l
    · subst hk
      refine ⟨hn, fun q hq => ?_, fun w hwq => ?_⟩
      · obtain ⟨hne, hq⟩ | ⟨rfl, hq⟩ := hh q hq
        · exact ((hls k).holds q hq).congr (by rw [ho q hne])
        · exact hq
      · obtain ⟨hne, hwq⟩ | ⟨hr, hwq⟩ := hw w hwq
        · exact ((hls k).waits w hwq).congr (by rw [ho _ hne])
        · rw [hr]
          exact hwq
    · rw [hl k hk]
      refine ⟨(hls k).nodup, fun q hq => ?_, fun w hwq => ?_⟩
      · have hne : q ≠ r := fun e => haway k hk (e ▸ Lock.mem_rings.mpr (.inl hq))
        exact ((hls k).holds q hq).congr (by rw [ho q hne])
      · have hne : w.ring ≠ r := fun e => haway k hk (e ▸ Lock.mem_rings.mpr (.inr ⟨w, hwq, rfl⟩))
        exact ((hls k).waits w hwq).congr (by rw [ho _ hne])
  · by_cases hk : k = l
    · rw [hk]
      exact ht
    · rw [hl k hk]
      exact hts k

/-- Only line `l` changes, and its lock loses rings or none. -/
theorem RingLaw.updLine {s : State} (h : RingLaw s) (l : LineIx) {f : Line → Line}
    (hh : (f s.lines[l]).lock.holders.Sublist s.lines[l].lock.holders)
    (hq : (f s.lines[l]).lock.queue.Sublist s.lines[l].lock.queue) (ht : (f s.lines[l]).taps.length ≤ 16) :
    RingLaw (s.updLine l f) := by
  obtain ⟨hes, hls, hts⟩ := ringLaw_iff.mp h
  refine ringLaw_iff.mpr ⟨hes, fun k => ?_, fun k => ?_⟩
  · rw [State.updLine_get]
    split
    · rename_i hk
      subst hk
      exact ⟨(hls k).nodup.sublist (hh.append (hq.map _)), fun q hq' => (hls k).holds q (hh.subset hq'),
        fun w hw => (hls k).waits w (hq.subset hw)⟩
    · exact ⟨(hls k).nodup, (hls k).holds, (hls k).waits⟩
  · rw [State.updLine_get]
    split
    · exact ht
    · exact hts k

theorem RingLaw.free {s : State} (h : RingLaw s) (fr : List Extent) : RingLaw { s with free := fr } := h

/-- One engine changes by an update. -/
theorem RingLaw.updEng {s : State} (h : RingLaw s) (r : Ring) {f : Engine → Engine} (he : EngineOk (f s.eng[r]))
    (hp : Away r s ∨ KeepsPlace s.eng[r].exec (f s.eng[r]).exec) : RingLaw (s.updEng r f) :=
  h.change r rfl (fun k hk => by rw [State.updEng_get, if_neg hk]) (by rw [State.updEng_get, if_pos rfl]; exact he)
    (by rw [State.updEng_get, if_pos rfl]; exact hp)

/-- An update of an engine that leaves its command alone. -/
theorem RingLaw.updEng_same {s : State} (h : RingLaw s) (r : Ring) {f : Engine → Engine} (he : EngineOk (f s.eng[r]))
    (hx : (f s.eng[r]).exec = s.eng[r].exec) : RingLaw (s.updEng r f) := h.updEng r he (.inr (.inl hx))

/-! ### Engines -/

/-- A command that does not wait for a strobe goes on: another phase, which does not wait for a lock or for a tap list. -/
theorem EngineOk.withPhase {e : Engine} (h : EngineOk e) {x : Record} {p q : Phase} (hx : e.exec = some ⟨x, p⟩)
    (hp : p ≠ .waitFrame) (hw : q ≠ .waitLock) (ht : q ≠ .tapRead) :
    EngineOk { e with exec := e.exec.map (fun x => { x with phase := q }) } := by
  have hs : e.state ≠ .waitFrame := fun hs => by
    obtain ⟨y, hy⟩ := h.frame hs
    rw [hx] at hy
    cases hy
    exact hp rfl
  rw [hx]
  exact {
    exec := fun _ => h.exec (by rw [hx]; rfl)
    frame := fun hf => absurd hf hs
    staged := fun hg => ⟨(h.staged hg).1, .inl rfl⟩
    fetch := h.fetch, halted := h.halted, slots := h.slots, idle := h.idle
    tapsWait := fun y hy => by cases hy; exact absurd rfl hw
    tapsRead := fun y hy => by cases hy; exact absurd rfl ht }

/-- ACTIVE after a state in which no claim waits to be posted. -/
theorem EngineOk.active {e : Engine} (h : EngineOk e) (hs : e.staged.isSome → e.exec.isSome) :
    EngineOk { e with state := .active } where
  exec _ := .inl rfl
  frame hf := nomatch hf
  staged hg := ⟨(h.staged hg).1, .inl (hs hg)⟩
  fetch hf := hf.elim (nomatch ·) (nomatch ·)
  halted hf := nomatch hf
  slots := h.slots
  idle _ _ hf := nomatch hf
  tapsWait := h.tapsWait
  tapsRead := h.tapsRead

/-- ACTIVE, with nothing staged. -/
theorem EngineOk.active_bare {e : Engine} (h : EngineOk e) (hs : e.staged = none) : EngineOk { e with state := .active } :=
  h.active fun hg => by rw [hs] at hg; exact nomatch hg

/-- A host read of the command; a tap list has at most 16 offsets (R18). -/
theorem EngineOk.withRead {e : Engine} (h : EngineOk e) {t : Option HostRead}
    (ht : ∀ x, e.exec = some ⟨x, .tapRead⟩ → ∀ u, t = some u → u.len ≤ 64) : EngineOk { e with rd := t } :=
  { h with tapsRead := ht }

/-- An engine that goes on (R110). -/
theorem GoesOn.engineOk {r : Ring} {s t : State} (h : GoesOn r s t) (hx : s.eng[r].exec = none)
    (hs : ∀ g, s.eng[r].cfg = some g → 16 ≤ g.size ∧ s.eng[r].head < g.size ∧ s.eng[r].tail < g.size) :
    EngineOk t.eng[r] := by
  obtain ⟨hcfg, hhead, htail, -, -, -, -, hstaged, hhp, h⟩ := h
  have slots : ∀ g, t.eng[r].cfg = some g → 16 ≤ g.size ∧ t.eng[r].head < g.size ∧ t.eng[r].tail < g.size := by
    rw [hcfg, hhead, htail]
    exact hs
  have bare : ∀ st : EngState, t.eng[r].state = st → st ≠ .waitFrame → t.eng[r].exec = none →
      (st = .disabled ∨ st = .idle → t.eng[r].fetch = none) →
      (∀ g, t.eng[r].cfg = some g → st = .idle → t.eng[r].head = t.eng[r].tail) → EngineOk t.eng[r] := by
    intro st hst hne hex hfe hid
    refine ⟨?_, ?_, ?_, hst ▸ hfe, fun _ => hhp, slots, hst ▸ hid, ?_, ?_⟩ <;> simp [-Fin.getElem_fin, hex, hstaged, hst, hne]
  split at h
  · obtain ⟨hst, hex, -, -⟩ := h
    exact bare .halted hst (by simp) hex (by simp) (by simp)
  · obtain ⟨-, hfetch, -, h⟩ := h
    split at h
    · rename_i y hy
      obtain ⟨hst, hex⟩ := h
      refine ⟨?_, ?_, ?_, ?_, fun _ => hhp, slots, ?_, ?_, ?_⟩ <;> simp [-Fin.getElem_fin, hex, hstaged, hst]
    · obtain ⟨hex, hst⟩ := h
      rw [hx] at hex
      split at hst
      · exact bare .active hst (by simp) hex (by simp) (by simp)
      · rename_i hn
        obtain ⟨hf, hpend⟩ := not_or.mp hn
        have hf : s.eng[r].fetch = none := by simpa using hf
        refine bare .idle hst (by simp) hex (fun _ => ?_) fun g hg _ => ?_
        · unfold FetchesOn at hfetch
          split at hfetch
          · rw [hfetch, hf]
          · rw [if_neg (fun h => hpend h.2)] at hfetch
            rw [hfetch, hf]
        · rw [hcfg] at hg
          obtain ⟨h16, hh, ht⟩ := hs g hg
          rw [hhead, htail]
          simp only [Engine.pendingRecords, Engine.size, hg] at hpend
          by_contra hne
          have : (s.eng[r].tail + g.size - s.eng[r].head) % g.size ≠ 0 := by
            intro h0
            obtain ⟨k, hk⟩ := Nat.dvd_of_mod_eq_zero h0
            have hk1 : k < 2 := by
              by_contra hk2
              have := Nat.mul_le_mul_left g.size (Nat.not_lt.mp hk2)
              omega
            interval_cases k <;> omega
          omega

/-- The engine of an ended command (R110). -/
theorem Ended.engineOk {r : Ring} {x : Record} {res : Result} {s t : State} (h : Ended r x res s t)
    (hok : EngineOk s.eng[r]) : EngineOk t.eng[r] := by
  obtain ⟨-, -, h⟩ := h
  split at h
  · refine GoesOn.engineOk h.2.2 (by simp [-Fin.getElem_fin]) ?_
    simpa [-Fin.getElem_fin] using hok.slots
  · obtain ⟨-, he, -⟩ := h
    rw [he]
    exact {
      exec := fun hx => nomatch hx
      frame := fun hf => nomatch hf
      staged := fun hg => ⟨(hok.staged hg).1, .inr rfl⟩
      fetch := fun hf => hf.elim (nomatch ·) (nomatch ·)
      halted := fun hf => nomatch hf
      slots := hok.slots
      idle := fun _ _ hf => nomatch hf
      tapsWait := fun _ hx => nomatch hx
      tapsRead := fun _ hx => nomatch hx }

/-- The end of a command of a ring at no lock (R110). -/
theorem RingLaw.endCommand {s : State} (h : RingLaw s) {r : Ring} (ha : Away r s) (res : Result) :
    RingLaw (endCommand r res s) := by
  cases hx : s.eng[r].exec with
  | none =>
    unfold Machine.endCommand
    rw [hx]
    exact h
  | some e =>
    exact h.change r (endCommand_lines r res s) (fun k hk => endCommand_others hk res s)
      ((endCommand_ended hx res).engineOk (h.engine r)) (.inl ha)

theorem RingLaw.goOn {s : State} (h : RingLaw s) {r : Ring} (hx : s.eng[r].exec = none) : RingLaw (goOn r s) :=
  h.change r (goOn_kept r s).lines (fun _ hk => goOn_others r s hk)
    ((goOn_goesOn r s).engineOk hx (h.engine r).slots) (.inl (h.away_of_none hx))

theorem RingLaw.tryFetch {s : State} (h : RingLaw s) (r : Ring) : RingLaw (tryFetch r s) := by
  have hok := h.engine r
  unfold Machine.tryFetch
  split
  · exact h
  · rename_i g hg
    split
    · rename_i hm
      refine h.updEng_same r ?_ rfl
      simp only [Engine.mayFetch, Bool.and_eq_true, bne_iff_ne, ne_eq, Option.isNone_iff_eq_none,
        decide_eq_true_eq] at hm
      obtain ⟨⟨⟨⟨⟨hd, -⟩, -⟩, hs⟩, -⟩, hp⟩ := hm
      refine { hok with staged := fun hg => ?_, fetch := fun hf => ?_ }
      · rw [hs] at hg
        exact nomatch hg
      · obtain hf | hf := hf
        · exact absurd hf hd
        · have heq := hok.idle g hg hf
          have hsz := (hok.slots g hg).1
          simp only [Engine.pendingRecords, Engine.size, hg, heq, Nat.add_sub_cancel_left, Nat.mod_self] at hp
          omega
    · exact h

theorem RingLaw.halt {s : State} (h : RingLaw s) {r : Ring} (ha : Away r s) : RingLaw (halt r s) := by
  refine RingLaw.units (updPace_kept r _ _) (h.updEng r ?_ (.inl ha))
  exact {
    exec := fun hx => nomatch hx
    frame := fun hf => nomatch hf
    staged := fun hg => nomatch hg
    fetch := fun hf => hf.elim (nomatch ·) (nomatch ·)
    halted := fun _ => rfl
    slots := (h.engine r).slots
    idle := fun _ _ hf => nomatch hf
    tapsWait := fun _ hx => nomatch hx
    tapsRead := fun _ hx => nomatch hx }

theorem RingLaw.haltCause {s : State} (h : RingLaw s) (r : Ring) : RingLaw (haltCause r s) := by
  have hok := h.engine r
  unfold Machine.haltCause
  split
  · rename_i hx
    refine h.updEng_same r { hok with halted := fun hs => ?_ } rfl
    simp only [Bool.or_eq_true, beq_iff_eq] at hx
    have hs : s.eng[r].state = .halted := hs
    rcases hx with hx | hx
    · rcases hok.exec hx with h | h | h <;> simp [-Fin.getElem_fin, h] at hs
    · simp [-Fin.getElem_fin, hx] at hs
  · rename_i hx
    have hnone : s.eng[r].exec = none := by
      cases he : s.eng[r].exec with
      | none => rfl
      | some e => simp [-Fin.getElem_fin, he] at hx
    split
    · exact h
    · exact h.halt (h.away_of_none hnone)

end Sys2Proof.Machine
end

section
/-! The law of the rings at the locks through claims, grants, releases and stops (R41 to R50, R112 to R116, R169). -/

namespace Sys2Proof.Machine

/-! ### Who is at a lock -/

/-- From `s` to `t` no ring has come to a lock. -/
def NoneCame (s t : State) : Prop := ∀ l : LineIx, t.lines[l].lock.rings ⊆ s.lines[l].lock.rings

theorem NoneCame.of_lines {s t : State} (h : t.lines = s.lines) : NoneCame s t := fun l => by
  rw [h]
  exact List.Subset.refl _

theorem NoneCame.trans {s t u : State} (h : NoneCame s t) (k : NoneCame t u) : NoneCame s u :=
  fun l => List.Subset.trans (k l) (h l)

theorem Away.mono {r : Ring} {s t : State} (h : Away r s) (k : NoneCame s t) : Away r t :=
  fun l hr => h l (k l hr)

theorem noneCame_updLine {s : State} (l : LineIx) {f : Line → Line}
    (hf : (f s.lines[l]).lock.rings ⊆ s.lines[l].lock.rings) : NoneCame s (s.updLine l f) := by
  intro k
  rw [State.updLine_get]
  split
  · rename_i hk
    rw [hk]
    exact hf
  · exact List.Subset.refl _

theorem Lock.leave_holders (r : Ring) (k : Lock) : (k.leave r).holders = k.holders.filter (fun h => h != r) := rfl

theorem Lock.leave_queue (r : Ring) (k : Lock) : (k.leave r).queue = k.queue.filter (fun w => w.ring != r) := rfl

theorem Lock.leave_rings (r : Ring) (k : Lock) : (k.leave r).rings ⊆ k.rings := by
  intro q hq
  rw [Lock.mem_rings] at hq ⊢
  rw [Lock.leave_holders, Lock.leave_queue] at hq
  exact hq.imp (fun h => (List.mem_filter.mp h).1) (fun ⟨w, hw, hr⟩ => ⟨w, (List.mem_filter.mp hw).1, hr⟩)

theorem Lock.not_mem_leave_rings (r : Ring) (k : Lock) : r ∉ (k.leave r).rings := by
  simp [Lock.mem_rings, Lock.leave_holders, Lock.leave_queue]

theorem noneCame_leaveLock (r : Ring) (l : LineIx) (s : State) : NoneCame s (leaveLock r l s) :=
  noneCame_updLine l (Lock.leave_rings r _)

/-- Ending a command at its line's lock, after a change of the line that keeps its lock. -/
theorem noneCame_endAtLock (r k : Ring) (l : LineIx) (res : Result) (f : Line → Line)
    (hf : ∀ y, (f y).lock = y.lock) (s : State) : NoneCame s (endCommand r res (leaveLock k l (s.updLine l f))) :=
  ((noneCame_updLine l (by rw [hf]; exact List.Subset.refl _)).trans (noneCame_leaveLock k l _)).trans
    (.of_lines (endCommand_lines r res _))

/-- Ring `r`'s engine is in ACTIVE (R44). -/
def activated (r : Ring) (s : State) : State := s.updEng r (fun e => { e with state := .active })

theorem activated_self (r : Ring) (s : State) : (activated r s).eng[r] = { s.eng[r] with state := .active } := by
  unfold activated
  rw [State.updEng_get, if_pos rfl]

/-- What a granted command does begins with its engine in ACTIVE (R44). -/
theorem activated_eq (r : Ring) (s : State) : s.updEng r (fun e => { e with state := .active }) = activated r s := rfl

theorem updEng_others {r k : Ring} (h : k ≠ r) (f : Engine → Engine) (s : State) : (s.updEng r f).eng[k] = s.eng[k] := by
  rw [State.updEng_get, if_neg h]

theorem noneCame_beginGranted (r : Ring) (s : State) : NoneCame s (beginGranted r s) := by
  have reader : ∀ x offs, NoneCame s (beginReader r x offs (activated r s)) := by
    intro x offs
    unfold beginReader
    dsimp only
    split
    · exact (noneCame_leaveLock r x.lineIx _).trans (.of_lines (endCommand_lines _ _ _))
    · exact .of_lines (pumpReader_lines r _)
  unfold beginGranted
  split
  · exact .of_lines rfl
  · dsimp only
    rw [activated_eq]
    split
    · exact .of_lines (pushNext_kept r _ _ _).lines
    · unfold beginSetTaps
      split
      · exact noneCame_endAtLock r r _ _ (fun l => { l with taps := [] }) (fun _ => rfl) (activated r s)
      · exact .of_lines rfl
    · exact noneCame_endAtLock r r _ _ (fun l => { l with head := 0, fill := 0 }) (fun _ => rfl) (activated r s)
    · exact .of_lines (issueInput_kept r _ _ _).lines
    · exact reader _ _
    · exact reader _ _
    · exact .of_lines rfl

theorem noneCame_grantWaiter (r : Ring) (s : State) : NoneCame s (grantWaiter r s) := by
  unfold grantWaiter
  split
  · exact .of_lines rfl
  · exact noneCame_beginGranted r s

/-- The line is FREE with its generation, and its extent is back in the free-extent list (R4, R28). -/
def freed (l : LineIx) (s : State) : State :=
  { s.updLine l (fun y => Line.freeRecord y.gen) with
    free := (s.lines[l].cfg.map (fun g => releaseExtent g.ext s.free)).getD s.free }

theorem freed_lines (l : LineIx) (s : State) :
    (freed l s).lines = (s.updLine l (fun y => Line.freeRecord y.gen)).lines := rfl

/-- The end of a close frees the line; the first CLOSE in the queue, if it still waits, ends with OK (R49). -/
theorem endClose_cases (l : LineIx) (s : State) :
    endClose l s = freed l s ∨
    ∃ w ∈ s.lines[l].lock.queue, ∃ c q, s.eng[w.ring].exec = some ⟨c, .waitClose q⟩ ∧
      endClose l s = endCommand w.ring (lineResult .ok c s.lines[l] 0 0 q) (freed l s) := by
  unfold endClose
  extract_lets x s1 s2
  have hs2 : s2 = freed l s := by
    unfold s2 s1 x freed
    cases s.lines[l].cfg <;> rfl
  rw [hs2]
  split
  · exact .inl rfl
  · rename_i w hw
    split
    · rename_i c q hx
      exact .inr ⟨w, List.mem_of_find?_eq_some hw, c, q, hx, rfl⟩
    · exact .inl rfl

theorem noneCame_endClose (l : LineIx) (s : State) : NoneCame s (endClose l s) := by
  have hfree : NoneCame s (freed l s) :=
    (noneCame_updLine (s := s) l (f := fun y => Line.freeRecord y.gen)
      (fun q hq => by simp [Lock.rings, Line.freeRecord, Lock.idle] at hq)).trans (.of_lines (freed_lines l s))
  obtain h | ⟨w, -, c, q, -, h⟩ := endClose_cases l s
  · rw [h]
    exact hfree
  · rw [h]
    exact hfree.trans (.of_lines (endCommand_lines _ _ _))

theorem noneCame_grantLoop (n : Nat) (l : LineIx) (s : State) : NoneCame s (grantLoop n l s) := by
  induction n generalizing s with
  | zero => exact .of_lines rfl
  | succ n ih =>
    unfold grantLoop
    dsimp only
    split
    · exact noneCame_endClose l s
    · split
      · exact .of_lines rfl
      · rename_i w ws hq
        have grant : ∀ f : Line → Line, (f s.lines[l]).lock.rings ⊆ s.lines[l].lock.rings →
            NoneCame s (grantLoop n l (grantWaiter w.ring (s.updLine l f))) := fun f hf =>
          ((noneCame_updLine l hf).trans (noneCame_grantWaiter w.ring _)).trans (ih _)
        have one : ∀ m : LockMode, (Lock.mk m [w.ring] ws).rings ⊆ s.lines[l].lock.rings := by
          intro m q h
          simp only [Lock.rings, hq, List.mem_append, List.map_cons, List.mem_cons] at h ⊢
          tauto
        split
        · exact grant _ (one _)
        · exact grant _ (one _)
        · refine grant _ fun q h => ?_
          simp only [Lock.rings, hq, List.mem_append, List.map_cons, List.mem_cons] at h ⊢
          tauto
        · exact .of_lines rfl

theorem noneCame_grantStep (l : LineIx) (s : State) : NoneCame s (grantStep l s) := noneCame_grantLoop _ l s

/-! ### Leaving a lock -/

theorem RingLaw.leaveLock {s : State} (h : RingLaw s) (r : Ring) (l : LineIx) : RingLaw (leaveLock r l s) :=
  h.updLine l List.filter_sublist List.filter_sublist ((ringLaw_iff.mp h).2.2 l)

/-- A ring that leaves the lock of its record's line is at no lock. -/
theorem RingLaw.away_leaveLock {s : State} (h : RingLaw s) {r : Ring} {x : Record} {p : Phase}
    (hx : s.eng[r].exec = some ⟨x, p⟩) : Away r (Machine.leaveLock r x.lineIx s) := by
  intro l
  unfold Machine.leaveLock
  rw [State.updLine_get]
  split
  · exact Lock.not_mem_leave_rings r _
  · rename_i hl
    exact h.away_elsewhere hx hl

/-! ### What a holder does until its next transfer or burst -/

/-- The command of ring `r`, which holds its lock, goes on holding it in another phase. -/
theorem RingLaw.setPhase {s : State} (h : RingLaw s) {r : Ring} {x : Record} {p q : Phase}
    (hx : s.eng[r].exec = some ⟨x, p⟩) (hp : p.holdsLock) (hq : q.holdsLock) (ht : q ≠ .tapRead) :
    RingLaw (s.setPhase r q) := by
  refine h.updEng r ((h.engine r).withPhase hx ?_ ?_ ht) (.inr (.inr ⟨x, p, q, hx, by rw [hx]; rfl, hp, hq⟩))
  · rintro rfl
    exact hp
  · rintro rfl
    exact hq

theorem RingLaw.issueRead {s : State} (h : RingLaw s) (r : Ring) (a : Addr) (n : Nat)
    (ht : ∀ x, s.eng[r].exec = some ⟨x, .tapRead⟩ → n ≤ 64) : RingLaw (issueRead r a n s) :=
  h.updEng_same r ((h.engine r).withRead fun x hx u hu => by cases hu; exact ht x hx) rfl

theorem RingLaw.issueWrite {s : State} (h : RingLaw s) (r : Ring) (a : Addr) (d : List Byte) :
    RingLaw (issueWrite r a d s) :=
  RingLaw.units (takeWrite_kept a d _)
    (h.updEng_same r (f := fun e => { e with wr := some (s.hostWrite a d) }) { h.engine r with } rfl)

theorem setPhase_exec {s : State} {r : Ring} {x : Record} {p : Phase} (hx : s.eng[r].exec = some ⟨x, p⟩) (q : Phase) :
    (s.setPhase r q).eng[r].exec = some ⟨x, q⟩ := by
  rw [State.setPhase_get, if_pos rfl, hx]
  rfl

theorem RingLaw.readChunk {s : State} (h : RingLaw s) (r : Ring) : RingLaw (readChunk r s) := by
  unfold Machine.readChunk
  dsimp only
  split
  · rename_i x c hx
    have hp : ∀ c', RingLaw (s.setPhase r (.reader c')) := fun c' => h.setPhase hx trivial trivial (by simp)
    repeat' split
    · exact h
    · exact h
    · exact hp _
    · exact (hp _).units (claimPort_kept r _ _)
  · exact h

theorem RingLaw.writeChunk {s : State} (h : RingLaw s) (r : Ring) : RingLaw (writeChunk r s) := by
  unfold Machine.writeChunk
  split
  · rename_i x c hx
    repeat' split
    · exact h
    · exact (h.setPhase hx (q := .reader _) trivial trivial (by simp)).issueWrite r _ _
    · exact h
  · exact h

theorem RingLaw.pumpReader {s : State} (h : RingLaw s) (r : Ring) : RingLaw (pumpReader r s) :=
  ((h.readChunk r).writeChunk r).readChunk r

theorem RingLaw.writeStep {s : State} (h : RingLaw s) (r : Ring) : RingLaw (writeStep r s) := by
  unfold Machine.writeStep
  split
  · rename_i x c hx
    repeat' split
    · exact h
    · exact (h.setPhase hx (q := .stepping _) trivial trivial (by simp)).issueWrite r _ _
    · exact h
  · exact h

theorem RingLaw.commitStep {s : State} (h : RingLaw s) (r : Ring) : RingLaw (commitStep r s) := by
  unfold Machine.commitStep
  split
  · rename_i x c hx
    repeat' split
    · exact (h.setPhase hx (q := .stepping _) trivial trivial (by simp)).units (claimPort_kept r _ _)
    · exact h
    · exact h
  · exact h

/-- The next input chunk of a STEP, after a state `s'` from which the STEP enters the phase. -/
theorem RingLaw.issueInput {s : State} {r : Ring} {x : Record} {c : StepCtx} {y : Record} {p : Phase}
    (hx : s.eng[r].exec = some ⟨y, p⟩) (h : ∀ c', RingLaw (s.setPhase r (.stepping c'))) :
    RingLaw (issueInput r x c s) := by
  unfold Machine.issueInput
  dsimp only
  split
  · refine (h _).issueRead r _ _ fun z hz => ?_
    rw [setPhase_exec hx] at hz
    cases hz
  · exact h _

/-! ### Grants -/

/-- Ring `r` holds the lock with nothing done (R50; log 42). -/
def granted (r : Ring) (s : State) : State := activated r (s.setPhase r .granted)

theorem granted_lines (r : Ring) (s : State) : (granted r s).lines = s.lines := rfl

theorem granted_exec {s : State} {r : Ring} {x : Record} {p : Phase} (hx : s.eng[r].exec = some ⟨x, p⟩) :
    (granted r s).eng[r].exec = some ⟨x, .granted⟩ := by
  unfold granted
  rw [activated_self]
  exact setPhase_exec hx _

theorem granted_others {r k : Ring} (h : k ≠ r) (s : State) : (granted r s).eng[k] = s.eng[k] :=
  (updEng_others h _ _).trans (updEng_others h _ _)

theorem updEng_congr {s : State} {r : Ring} {f g : Engine → Engine} (h : f s.eng[r] = g s.eng[r]) :
    s.updEng r f = s.updEng r g := by
  unfold State.updEng
  rw [h]

/-- The phase that a granted command enters is the same whether it has been marked as granted or not. -/
theorem granted_setPhase (r : Ring) (s : State) (q : Phase) :
    (granted r s).setPhase r q = (activated r s).setPhase r q := by
  unfold granted activated State.setPhase
  rw [State.updEng_updEng, State.updEng_updEng, State.updEng_updEng]
  refine updEng_congr ?_
  cases s.eng[r].exec <;> rfl

/-- The kinds that claim a lock (R41), with the bound on a tap list that step 6 has checked (R56). -/
def LockKind (x : Record) : Prop :=
  match Kind.ofCode x.kind with
  | some .push | some .clear | some .step | some .gather | some .readSpan => True
  | some .setTaps => x.count.toNat ≤ 16
  | _ => False

theorem EngineOk.of_granted {s : State} {r : Ring} {x : Record} {p : Phase} (h : EngineOk (granted r s).eng[r])
    (hx : s.eng[r].exec = some ⟨x, p⟩) (hk : LockKind x) (hp : p ≠ .tapRead) :
    EngineOk (activated r s).eng[r] := by
  have he : (granted r s).eng[r] = { s.eng[r] with state := .active, exec := some ⟨x, .granted⟩ } := by
    unfold granted
    rw [activated_self, State.setPhase_get, if_pos rfl, hx]
    rfl
  rw [he] at h
  rw [activated_self]
  exact {
    exec := fun _ => .inl rfl
    frame := fun hf => nomatch hf
    staged := fun hg => ⟨(h.staged hg).1, .inl (by rw [hx]; rfl)⟩
    fetch := fun hf => hf.elim (nomatch ·) (nomatch ·)
    halted := fun hf => nomatch hf
    slots := h.slots
    idle := fun _ _ hf => nomatch hf
    tapsWait := fun y hy ht => by
      have hy : s.eng[r].exec = _ := hy
      rw [hx] at hy
      cases hy
      simpa only [LockKind, ht] using hk
    tapsRead := fun y hy => by
      have hy : s.eng[r].exec = _ := hy
      rw [hx] at hy
      cases hy
      exact absurd rfl hp }

/-- A granted command that leaves its lock at once and ends (R63, R69, R77). -/
theorem RingLaw.endGranted {s : State} {r : Ring} {x : Record} {p : Phase} (hg : RingLaw (granted r s))
    (hx : s.eng[r].exec = some ⟨x, p⟩) (hk : LockKind x) (hp : p ≠ .tapRead) {f : Line → Line}
    (hf : ∀ y, (f y).lock = y.lock) (ht : ∀ y, (f y).taps.length ≤ y.taps.length) (res : Result) :
    RingLaw (Machine.endCommand r res (Machine.leaveLock r x.lineIx
      ((activated r s).updLine x.lineIx f))) := by
  have h1 : RingLaw ((granted r s).updLine x.lineIx f) :=
    hg.updLine _ (by rw [hf]) (by rw [hf]) (Nat.le_trans (ht _) ((ringLaw_iff.mp hg).2.2 _))
  have ha := h1.away_leaveLock (granted_exec hx)
  have h2 : RingLaw (Machine.leaveLock r x.lineIx
      ((activated r s).updLine x.lineIx f)) :=
    (h1.leaveLock r x.lineIx).change r rfl
      (fun k hk => (show (activated r s).eng[k] = (granted r s).eng[k] from
        (updEng_others hk _ s).trans (granted_others hk s).symm)) ((hg.engine r).of_granted hx hk hp) (.inl ha)
  exact RingLaw.endCommand h2 (ha.congr rfl) res

/-- A command whose claim has been granted goes on (R44). -/
theorem RingLaw.beginGranted {s : State} {r : Ring} {x : Record} {p : Phase} (hg : RingLaw (granted r s))
    (hx : s.eng[r].exec = some ⟨x, p⟩) (hk : LockKind x) (hp : p ≠ .tapRead) : RingLaw (beginGranted r s) := by
  have hx1 : (activated r s).eng[r].exec = some ⟨x, p⟩ := by
    rw [activated_self]
    exact hx
  have phase : ∀ q : Phase, q.holdsLock → q ≠ .tapRead →
      RingLaw ((activated r s).setPhase r q) := fun q hq ht =>
    granted_setPhase r s q ▸ hg.setPhase (granted_exec hx) trivial hq ht
  have ends : ∀ (f : Line → Line) (res : Result), (∀ y, (f y).lock = y.lock) →
      (∀ y, (f y).taps.length ≤ y.taps.length) → RingLaw (Machine.endCommand r res (Machine.leaveLock r x.lineIx
        ((activated r s).updLine x.lineIx f))) := fun f res hf ht =>
    hg.endGranted hx hk hp hf ht res
  have reader : ∀ offs, RingLaw (beginReader r x offs (activated r s)) := by
    intro offs
    unfold beginReader
    dsimp only
    split
    · have he := ends id (lineResult .ok x
        ((activated r s).lineOf x) 0 0
        ((activated r s).lineOf x).seq) (fun _ => rfl) (fun _ => Nat.le_refl _)
      have hid : ∀ u : State, u.updLine x.lineIx id = u := fun u => by simp [State.updLine]
      rwa [hid] at he
    · exact (phase (.reader _) trivial (by simp)).pumpReader r
  unfold Machine.beginGranted
  simp only [hx, activated_eq]
  unfold LockKind at hk
  split
  · refine (phase (.pushing 0 _) trivial (by simp)).issueRead r _ _ fun y hy => ?_
    rw [setPhase_exec hx1] at hy
    cases hy
  · rename_i hkind
    rw [hkind] at hk
    unfold beginSetTaps
    split
    · exact ends (fun l => { l with taps := [] }) _ (fun _ => rfl) (fun _ => Nat.zero_le _)
    · have hgr := hg.engine r
      have hset : (activated r s).setPhase r .tapRead =
          (granted r s).setPhase r .tapRead := (granted_setPhase r s _).symm
      unfold Machine.issueRead
      rw [hset, State.setPhase, State.updEng_updEng]
      have hxg := granted_exec hx
      refine hg.updEng r ?_ (.inr (.inr ⟨x, .granted, .tapRead, hxg, by rw [hxg]; rfl, trivial, trivial⟩))
      exact {
        exec := fun _ => hgr.exec (by rw [hxg]; rfl)
        frame := fun hf => by
          obtain ⟨y, hy⟩ := hgr.frame hf
          rw [hxg] at hy
          cases hy
        staged := fun hs => ⟨(hgr.staged hs).1, .inl (by rw [hxg]; rfl)⟩
        fetch := hgr.fetch, halted := hgr.halted, slots := hgr.slots, idle := hgr.idle
        tapsWait := fun y hy => by rw [hxg] at hy; cases hy
        tapsRead := fun y _ t ht => by
          cases ht
          show 4 * x.count.toNat ≤ 64
          have hk : x.count.toNat ≤ 16 := hk
          omega }
  · exact ends (fun l => { l with head := 0, fill := 0 }) _ (fun _ => rfl) (fun _ => Nat.le_refl _)
  · exact RingLaw.issueInput hx1 fun c' => phase (.stepping c') trivial (by simp)
  · exact reader _
  · exact reader _
  · rename_i h1 h2 h3 h4 h5 h6
    split at hk
    · exact absurd ‹_› h1
    · exact absurd ‹_› h3
    · exact absurd ‹_› h4
    · exact absurd ‹_› h5
    · exact absurd ‹_› h6
    · exact absurd ‹_› h2
    · exact hk.elim

theorem RingLaw.grantWaiter {s : State} {r : Ring} {x : Record} {p : Phase} (hg : RingLaw (granted r s))
    (hx : s.eng[r].exec = some ⟨x, p⟩) (hk : LockKind x) (hp : p ≠ .tapRead) : RingLaw (grantWaiter r s) := by
  unfold Machine.grantWaiter
  split
  · exact hg
  · exact hg.beginGranted hx hk hp

end Sys2Proof.Machine
end

section
/-! The law of the rings at the locks through the grant step, the claims, the end of a close, and the stops. -/

namespace Sys2Proof.Machine

/-! ### The grant step -/

/-- ACTIVE, with a command granted that has done nothing. -/
theorem EngineOk.granted {s : State} {r : Ring} (h : EngineOk s.eng[r]) {x : Record} {p : Phase}
    (hx : s.eng[r].exec = some ⟨x, p⟩) : EngineOk (granted r s).eng[r] := by
  unfold Machine.granted
  rw [activated_self, State.setPhase_get, if_pos rfl, hx]
  exact {
    exec := fun _ => .inl rfl
    frame := fun hf => nomatch hf
    staged := fun hg => ⟨(h.staged hg).1, .inl rfl⟩
    fetch := fun hf => hf.elim (nomatch ·) (nomatch ·)
    halted := fun hf => nomatch hf
    slots := h.slots
    idle := fun _ _ hf => nomatch hf
    tapsWait := fun y hy => by cases hy
    tapsRead := fun y hy => by cases hy }

/-- Ring `r`, which is at no lock but that of its record's line, becomes a holder of that lock (R44). -/
theorem RingLaw.grant {s : State} (h : RingLaw s) {r : Ring} (h0 : r ≠ 0) {x : Record} {p : Phase}
    (hx : s.eng[r].exec = some ⟨x, p⟩) {f : Line → Lock} (hs : List Ring) (ws : List Waiter)
    (hh : (f s.lines[x.lineIx]).holders = hs ++ [r]) (hq : (f s.lines[x.lineIx]).queue = ws)
    (hhs : hs ⊆ s.lines[x.lineIx].lock.holders) (hws : ws ⊆ s.lines[x.lineIx].lock.queue)
    (hn : (hs ++ r :: ws.map (·.ring)).Nodup) :
    RingLaw (granted r (s.updLine x.lineIx (fun y => { y with lock := f y }))) := by
  have hl : (granted r (s.updLine x.lineIx (fun y => { y with lock := f y }))).lines[x.lineIx] =
      { s.lines[x.lineIx] with lock := f s.lines[x.lineIx] } := by
    rw [granted_lines, State.updLine_get, if_pos rfl]
  have hr : r ∉ hs ∧ r ∉ ws.map (·.ring) := by
    have := (List.nodup_append.mp hn)
    refine ⟨fun hm => this.2.2 r hm r (by simp) rfl, (List.nodup_cons.mp this.2.1).1⟩
  refine h.place r x.lineIx (fun k hk => ?_) (fun k hk => granted_others hk _)
    (EngineOk.granted (s := s.updLine x.lineIx _) (h.engine r) hx) ?_ (fun k hk => h.away_elsewhere hx hk) ?_ ?_ ?_
  · rw [granted_lines, State.updLine_get, if_neg hk]
  · rw [hl]
    exact (ringLaw_iff.mp h).2.2 _
  · rw [hl]
    show ((f s.lines[x.lineIx]).holders ++ (f s.lines[x.lineIx]).queue.map (·.ring)).Nodup
    rw [hh, hq]
    simpa using hn
  · rw [hl]
    intro q hqm
    rcases List.mem_append.mp (hh ▸ hqm) with hm | hm
    · exact .inl ⟨fun e => hr.1 (e ▸ hm), hhs hm⟩
    · exact .inr ⟨List.mem_singleton.mp hm, h0, x, .granted, granted_exec (s := s.updLine x.lineIx _) hx, rfl, trivial⟩
  · rw [hl]
    intro w hw
    have hw : w ∈ ws := hq ▸ hw
    exact .inl ⟨fun e => hr.2 (List.mem_map.mpr ⟨w, hw, e⟩), hws hw⟩

/-- The kind of a reader or writer that waits claims a lock. -/
theorem WaitsAs.lockKind {k : WaitKind} (hc : k ≠ .close) {e : Engine} (he : EngineOk e) {x : Record} {p : Phase}
    (hx : e.exec = some ⟨x, p⟩) (h : WaitsAs k (Kind.ofCode x.kind) p) : LockKind x ∧ p = .waitLock := by
  unfold LockKind
  cases k with
  | close => exact absurd rfl hc
  | reader =>
    obtain ⟨rfl, h | h⟩ := h <;> simp [h]
  | writer =>
    obtain ⟨rfl, h⟩ := h
    rcases h with h | h | h | h
    · simp [h]
    · simpa [h] using he.tapsWait x hx h
    · simp [h]
    · simp [h]

/-- The front waiter is granted (R44, R45). -/
theorem RingLaw.grantFront {s : State} (h : RingLaw s) {l : LineIx} {w : Waiter} {ws : List Waiter}
    (hq : s.lines[l].lock.queue = w :: ws) (hc : w.kind ≠ .close) {f : Line → Lock} (hs : List Ring)
    (hh : (f s.lines[l]).holders = hs ++ [w.ring]) (hfq : (f s.lines[l]).queue = ws)
    (hhs : hs.Sublist s.lines[l].lock.holders) :
    RingLaw (Machine.grantWaiter w.ring (s.updLine l (fun y => { y with lock := f y }))) := by
  have hlock := h.lock l
  obtain ⟨h0, x, p, hx, rfl, hw⟩ := hlock.waits w (by rw [hq]; exact List.mem_cons_self)
  obtain ⟨hk, rfl⟩ := hw.lockKind hc (h.engine _) hx
  have hn : (hs ++ w.ring :: ws.map (·.ring)).Nodup := by
    have := hlock.nodup
    rw [Lock.rings, hq] at this
    exact this.sublist (hhs.append (List.Sublist.refl _))
  refine RingLaw.grantWaiter (h.grant h0 hx hs ws hh hfq hhs.subset ?_ hn) hx hk (by simp)
  rw [hq]
  exact List.subset_cons_self _ _

/-- A line goes FREE: its lock is empty (R40). -/
theorem RingLaw.freed {s : State} (h : RingLaw s) (l : LineIx) : RingLaw (freed l s) :=
  h.updLine l (f := fun y => Line.freeRecord y.gen) (List.nil_sublist _) (List.nil_sublist _) (Nat.zero_le _)

/-- The end of a close (R4, R49). -/
theorem RingLaw.endClose {s : State} (h : RingLaw s) (l : LineIx) : RingLaw (Machine.endClose l s) := by
  obtain he | ⟨w, hw, c, q, hx, he⟩ := endClose_cases l s
  · rw [he]
    exact h.freed l
  · rw [he]
    refine RingLaw.endCommand (h.freed l) (fun k hk => ?_) _
    obtain ⟨-, x, p, hy, hxl, -⟩ := (h.lock l).waits w hw
    rw [freed_lines, State.updLine_get] at hk
    split at hk
    · simp [Lock.rings, Line.freeRecord, Lock.idle] at hk
    · exact h.away_elsewhere hy (by rwa [hxl]) hk

theorem RingLaw.grantLoop {s : State} (h : RingLaw s) (n : Nat) (l : LineIx) : RingLaw (Machine.grantLoop n l s) := by
  induction n generalizing s with
  | zero => exact h
  | succ n ih =>
    unfold Machine.grantLoop
    dsimp only
    split
    · exact h.endClose l
    · split
      · exact h
      · rename_i w ws hq
        split
        · rename_i hk _
          exact ih (h.grantFront (f := fun _ => ⟨.write, [w.ring], ws⟩) hq (by simp [hk]) [] rfl rfl (List.nil_sublist _))
        · rename_i hk _
          exact ih (h.grantFront (f := fun _ => ⟨.read, [w.ring], ws⟩) hq (by simp [hk]) [] rfl rfl (List.nil_sublist _))
        · rename_i hk _
          exact ih (h.grantFront (f := fun y => ⟨.read, y.lock.holders ++ [w.ring], ws⟩) hq (by simp [hk]) _ rfl rfl
            (List.Sublist.refl _))
        · exact h

theorem RingLaw.grantStep {s : State} (h : RingLaw s) (l : LineIx) : RingLaw (Machine.grantStep l s) := h.grantLoop _ l

theorem RingLaw.release {s : State} (h : RingLaw s) (r : Ring) (l : LineIx) : RingLaw (Machine.release r l s) :=
  (h.leaveLock r l).grantStep l

/-- A ring that has released the lock of its record's line is at no lock. -/
theorem RingLaw.away_release {s : State} (h : RingLaw s) {r : Ring} {x : Record} {p : Phase}
    (hx : s.eng[r].exec = some ⟨x, p⟩) : Away r (Machine.release r x.lineIx s) :=
  (h.away_leaveLock hx).mono (noneCame_grantStep _ _)

/-- A command that is over releases its lock and ends (R44). -/
theorem RingLaw.finish {s : State} (h : RingLaw s) {r : Ring} {x : Record} {p : Phase}
    (hx : s.eng[r].exec = some ⟨x, p⟩) (res : Result) : RingLaw (Machine.finish r x res s) :=
  (h.release r x.lineIx).endCommand (h.away_release hx) res

theorem RingLaw.finishStep {s : State} (h : RingLaw s) (r : Ring) : RingLaw (Machine.finishStep r s) := by
  unfold Machine.finishStep
  dsimp only
  split
  · rename_i x c hx
    repeat' split
    all_goals first
      | exact h
      | exact h.finish hx _
  · exact h

theorem RingLaw.pumpStep {s : State} (h : RingLaw s) (r : Ring) : RingLaw (Machine.pumpStep r s) :=
  ((h.writeStep r).commitStep r).finishStep r

/-! ### Claims -/

/-- A record that has not begun joins the queue of its line's lock (R42, R43). -/
theorem RingLaw.queueClaim {s : State} (h : RingLaw s) {r : Ring} (h0 : r ≠ 0) {x : Record} (hx : Executes r x s)
    {k : WaitKind} (hk : WaitsAs k (Kind.ofCode x.kind) .waitLock)
    (ht : Kind.ofCode x.kind = some .setTaps → x.count.toNat ≤ 16) : RingLaw (Machine.queueClaim r x.lineIx k s) := by
  have ha := h.away_of_fresh hx
  have hx : s.eng[r].exec = some ⟨x, .fresh⟩ := hx
  have hl : (Machine.queueClaim r x.lineIx k s).lines = (s.updLine x.lineIx (fun y =>
      { y with lock := { y.lock with queue := y.lock.queue ++ [⟨r, k⟩] } })).lines := rfl
  have hself : (Machine.queueClaim r x.lineIx k s).eng[r] =
      { s.eng[r] with state := .waitLock, exec := some ⟨x, .waitLock⟩ } := by
    unfold Machine.queueClaim
    rw [State.updEng_get, if_pos rfl, State.setPhase_get, if_pos rfl, State.updLine_eng, hx]
    rfl
  have hlock := h.lock x.lineIx
  refine h.place r x.lineIx (fun k hk => ?_) (fun k hk => ?_) ?_ ?_ (fun k _ => ha k) ?_ (fun q hq => ?_) fun w hw => ?_
  · rw [hl, State.updLine_get, if_neg hk]
  · exact (updEng_others hk _ _).trans (updEng_others hk _ _)
  · have hok := h.engine r
    rw [hself]
    exact {
      exec := fun _ => .inr (.inl rfl)
      frame := fun hf => nomatch hf
      staged := fun hg => ⟨(hok.staged hg).1, .inl rfl⟩
      fetch := fun hf => hf.elim (nomatch ·) (nomatch ·)
      halted := fun hf => nomatch hf
      slots := hok.slots
      idle := fun _ _ hf => nomatch hf
      tapsWait := fun y hy => by cases hy; exact ht
      tapsRead := fun y hy => by cases hy }
  · rw [hl, State.updLine_get, if_pos rfl]
    exact (ringLaw_iff.mp h).2.2 _
  · rw [hl, State.updLine_get, if_pos rfl]
    have hr := ha x.lineIx
    have hn := hlock.nodup
    simp only [Lock.rings, List.map_append, List.map_cons, List.map_nil, ← List.append_assoc] at hn hr ⊢
    exact List.nodup_append.mpr ⟨hn, by simp, fun a hm b hb => by
      rw [List.mem_singleton.mp hb]
      exact fun e => hr (e ▸ hm)⟩
  · rw [hl, State.updLine_get, if_pos rfl] at hq
    exact .inl ⟨fun e => ha x.lineIx (e ▸ Lock.mem_rings.mpr (.inl hq)), hq⟩
  · rw [hl, State.updLine_get, if_pos rfl] at hw
    rcases List.mem_append.mp hw with hw | hw
    · exact .inl ⟨fun e => ha x.lineIx (Lock.mem_rings.mpr (.inr ⟨w, hw, e⟩)), hw⟩
    · rw [List.mem_singleton.mp hw]
      exact .inr ⟨rfl, h0, x, .waitLock, by rw [hself], rfl, hk⟩

/-- A claim granted on arrival (R42, R43). -/
theorem RingLaw.grantArrival {s : State} (h : RingLaw s) {r : Ring} (h0 : r ≠ 0) {x : Record} (hx : Executes r x s)
    (hk : LockKind x) {f : Line → Lock} (hs : List Ring) (hh : (f s.lines[x.lineIx]).holders = hs ++ [r])
    (hq : (f s.lines[x.lineIx]).queue = s.lines[x.lineIx].lock.queue) (hhs : hs.Sublist s.lines[x.lineIx].lock.holders) :
    RingLaw (Machine.beginGranted r (s.updLine x.lineIx (fun y => { y with lock := f y }))) := by
  have ha := h.away_of_fresh hx x.lineIx
  have hx : s.eng[r].exec = some ⟨x, .fresh⟩ := hx
  have hn := (h.lock x.lineIx).nodup.sublist (hhs.append (List.Sublist.refl _))
  have hn' : (hs ++ r :: s.lines[x.lineIx].lock.queue.map (·.ring)).Nodup := by
    refine List.nodup_middle.mpr (List.nodup_cons.mpr ⟨fun hm => ha ?_, hn⟩)
    exact (hhs.append (List.Sublist.refl _)).subset hm
  exact RingLaw.beginGranted (h.grant h0 hx hs _ hh hq hhs.subset (List.Subset.refl _) hn') hx hk (by simp)

theorem RingLaw.claimReader {s : State} (h : RingLaw s) {r : Ring} (h0 : r ≠ 0) {x : Record} (hx : Executes r x s)
    (hk : Kind.ofCode x.kind = some .gather ∨ Kind.ofCode x.kind = some .readSpan) :
    RingLaw (Machine.claimReader r x.lineIx s) := by
  unfold Machine.claimReader
  dsimp only
  split
  · refine RingLaw.grantStep (h.grantArrival h0 hx ?_ (f := fun y =>
      { y.lock with mode := .read, holders := y.lock.holders ++ [r] }) _ rfl rfl (List.Sublist.refl _)) _
    unfold LockKind
    rcases hk with hk | hk <;> simp [hk]
  · refine h.queueClaim h0 hx ⟨rfl, hk⟩ fun ht => ?_
    rcases hk with hk | hk <;> simp [hk] at ht

theorem RingLaw.claimWriter {s : State} (h : RingLaw s) {r : Ring} (h0 : r ≠ 0) {x : Record} (hx : Executes r x s)
    (hk : Kind.ofCode x.kind = some .push ∨ Kind.ofCode x.kind = some .setTaps ∨ Kind.ofCode x.kind = some .clear ∨
      Kind.ofCode x.kind = some .step)
    (ht : Kind.ofCode x.kind = some .setTaps → x.count.toNat ≤ 16) :
    RingLaw (Machine.claimWriter r x.lineIx s) := by
  unfold Machine.claimWriter
  split
  · refine RingLaw.grantStep (h.grantArrival h0 hx ?_ (f := fun y =>
      { y.lock with mode := .write, holders := [r] }) [] rfl rfl (List.nil_sublist _)) _
    unfold LockKind
    rcases hk with hk | hk | hk | hk
    · simp [hk]
    · simpa [hk] using ht hk
    · simp [hk]
    · simp [hk]
  · exact h.queueClaim h0 hx ⟨rfl, hk⟩ ht

/-! ### CLOSE -/

/-- The line goes CLOSING: the readers have left its queue, and the CLOSE has joined it (R48). -/
def closing (r : Ring) (x : Record) (s : State) : State :=
  ((s.updLine x.lineIx (fun y =>
    { y with
      state := .closing
      lock := { y.lock with queue := y.lock.queue.filter (fun w => w.kind != .reader) ++ [⟨r, .close⟩] } })).setPhase
    r (.waitClose (s.lineOf x).seq)).updEng r (fun e => { e with state := .waitLock })

/-- The rings of the queued readers of a line, in the order of the queue (R48). -/
def queuedReaders (l : Line) : List Ring := (l.lock.queue.filter (fun w => w.kind == .reader)).map (·.ring)

theorem carryOutClose_eq (r : Ring) (x : Record) (s : State) :
    carryOutClose r x s =
      grantStep x.lineIx ((queuedReaders (s.lineOf x)).foldl (fun t q => refuseReader x.lineIx q t) (closing r x s)) := rfl

theorem closing_lines (r : Ring) (x : Record) (s : State) :
    (closing r x s).lines = (s.updLine x.lineIx (fun y =>
      { y with
        state := .closing
        lock := { y.lock with queue := y.lock.queue.filter (fun w => w.kind != .reader) ++ [⟨r, .close⟩] } })).lines := rfl

theorem closing_self {r : Ring} {x : Record} {s : State} (hx : Executes r x s) :
    (closing r x s).eng[r] = { s.eng[r] with state := .waitLock, exec := some ⟨x, .waitClose (s.lineOf x).seq⟩ } := by
  unfold closing
  rw [State.updEng_get, if_pos rfl, State.setPhase_get, if_pos rfl, State.updLine_eng,
    show s.eng[r].exec = some ⟨x, .fresh⟩ from hx]
  rfl

theorem closing_others {r k : Ring} (hk : k ≠ r) (x : Record) (s : State) : (closing r x s).eng[k] = s.eng[k] :=
  (updEng_others hk _ _).trans (updEng_others hk _ _)

theorem RingLaw.closing {s : State} (h : RingLaw s) {r : Ring} (h0 : r ≠ 0) {x : Record} (hx : Executes r x s) :
    RingLaw (closing r x s) := by
  have ha := h.away_of_fresh hx
  have hself := closing_self hx
  have hl := closing_lines r x s
  have hr := ha x.lineIx
  have hlock := h.lock x.lineIx
  refine h.place r x.lineIx (fun k hk => ?_) (fun k hk => closing_others hk x s) ?_ ?_ (fun k _ => ha k) ?_
    (fun q hq => ?_) fun w hw => ?_
  · rw [hl, State.updLine_get, if_neg hk]
  · have hok := h.engine r
    rw [hself]
    exact {
      exec := fun _ => .inr (.inl rfl)
      frame := fun hf => nomatch hf
      staged := fun hg => ⟨(hok.staged hg).1, .inl rfl⟩
      fetch := fun hf => hf.elim (nomatch ·) (nomatch ·)
      halted := fun hf => nomatch hf
      slots := hok.slots
      idle := fun _ _ hf => nomatch hf
      tapsWait := fun y hy => by cases hy
      tapsRead := fun y hy => by cases hy }
  · rw [hl, State.updLine_get, if_pos rfl]
    exact (ringLaw_iff.mp h).2.2 _
  · rw [hl, State.updLine_get, if_pos rfl]
    have hsub : (s.lines[x.lineIx].lock.holders ++
        (s.lines[x.lineIx].lock.queue.filter (fun w => w.kind != .reader)).map (·.ring)).Sublist
        s.lines[x.lineIx].lock.rings := (List.Sublist.refl _).append (List.filter_sublist.map _)
    simp only [Lock.rings, List.map_append, List.map_cons, List.map_nil, ← List.append_assoc]
    exact List.nodup_append.mpr ⟨hlock.nodup.sublist hsub, by simp, fun a hm b hb => by
      rw [List.mem_singleton.mp hb]
      exact fun e => hr (e ▸ hsub.subset hm)⟩
  · rw [hl, State.updLine_get, if_pos rfl] at hq
    exact .inl ⟨fun e => hr (e ▸ Lock.mem_rings.mpr (.inl hq)), hq⟩
  · rw [hl, State.updLine_get, if_pos rfl] at hw
    rcases List.mem_append.mp hw with hw | hw
    · have hw := (List.mem_filter.mp hw).1
      exact .inl ⟨fun e => hr (Lock.mem_rings.mpr (.inr ⟨w, hw, e⟩)), hw⟩
    · rw [List.mem_singleton.mp hw]
      exact .inr ⟨rfl, h0, x, _, by rw [hself], rfl, _, rfl⟩

/-- A queued reader of a line that goes CLOSING is at no lock any more. -/
theorem RingLaw.away_closing {s : State} (h : RingLaw s) {r : Ring} {x : Record} (hx : Executes r x s) {q : Ring}
    (hq : q ∈ queuedReaders (s.lineOf x)) : Away q (Machine.closing r x s) := by
  obtain ⟨w, hw, rfl⟩ := List.mem_map.mp hq
  obtain ⟨hw, hk⟩ := List.mem_filter.mp hw
  have hk : w.kind = .reader := by simpa using hk
  have hlock := h.lock x.lineIx
  have hwr : w.ring ≠ r := fun e => h.away_of_fresh hx x.lineIx (Lock.mem_rings.mpr (.inr ⟨w, hw, e⟩))
  obtain ⟨-, y, p, hy, hyl, -⟩ := hlock.waits w hw
  obtain ⟨-, hnq, hdisj⟩ := List.nodup_append.mp hlock.nodup
  intro l
  rw [closing_lines, State.updLine_get]
  split
  · intro hm
    rcases Lock.mem_rings.mp hm with hm | ⟨v, hv, hvr⟩
    · exact hdisj _ hm _ (List.mem_map.mpr ⟨w, hw, rfl⟩) rfl
    · rcases List.mem_append.mp hv with hv | hv
      · obtain ⟨hv, hvk⟩ := List.mem_filter.mp hv
        have : v = w := List.inj_on_of_nodup_map hnq hv hw hvr
        rw [this, hk] at hvk
        exact absurd hvk (by decide)
      · rw [List.mem_singleton.mp hv] at hvr
        exact hwr hvr.symm
  · rename_i hl
    exact h.away_elsewhere hy (by rwa [hyl])

theorem refuseReader_lines (l : LineIx) (r : Ring) (s : State) : (refuseReader l r s).lines = s.lines := by
  unfold refuseReader
  split
  · rfl
  · exact endCommand_lines _ _ _

theorem refuseReaders_lines (l : LineIx) (rs : List Ring) (s : State) :
    (rs.foldl (fun t q => refuseReader l q t) s).lines = s.lines := by
  induction rs generalizing s with
  | nil => rfl
  | cons r rs ih => exact (ih _).trans (refuseReader_lines l r s)

theorem RingLaw.refuseReader {s : State} (h : RingLaw s) (l : LineIx) {r : Ring} (ha : Away r s) :
    RingLaw (Machine.refuseReader l r s) := by
  unfold Machine.refuseReader
  split
  · exact h
  · rename_i x hx
    exact (h.updEng_same r ((h.engine r).active fun _ => by rw [hx]; rfl) rfl).endCommand (ha.congr rfl) _

theorem RingLaw.refuseReaders {s : State} (h : RingLaw s) (l : LineIx) {rs : List Ring} (ha : ∀ r ∈ rs, Away r s) :
    RingLaw (rs.foldl (fun t q => Machine.refuseReader l q t) s) := by
  induction rs generalizing s with
  | nil => exact h
  | cons r rs ih =>
    exact ih (h.refuseReader l (ha r (by simp))) fun q hq => (ha q (by simp [hq])).congr (refuseReader_lines l r s)

theorem RingLaw.carryOutClose {s : State} (h : RingLaw s) {r : Ring} (h0 : r ≠ 0) {x : Record} (hx : Executes r x s) :
    RingLaw (carryOutClose r x s) := by
  rw [carryOutClose_eq]
  exact RingLaw.grantStep ((h.closing h0 hx).refuseReaders _ fun q hq => h.away_closing hx hq) _

end Sys2Proof.Machine
end

section
/-! The law of the rings at the locks through the stops and every command (R18, R40, R41, R104). -/

namespace Sys2Proof.Machine

/-! ### Stops -/

/-- ACTIVE, with no command and nothing staged: what a stop leaves of an engine until it halts or is reset (log 8). -/
theorem EngineOk.dropped {e : Engine} (h : EngineOk e) (hs : e.staged = none) (rep : Option StopReport) :
    EngineOk { e with state := .active, exec := none, report := rep } where
  exec hx := nomatch hx
  frame hf := nomatch hf
  staged hg := by
    have hg : e.staged.isSome := hg
    rw [hs] at hg
    exact nomatch hg
  fetch hf := hf.elim (nomatch ·) (nomatch ·)
  halted hf := nomatch hf
  slots := h.slots
  idle _ _ hf := nomatch hf
  tapsWait _ hx := nomatch hx
  tapsRead _ hx := nomatch hx

/-- An engine in its reset value, or IDLE with a configuration of a ring of 16 records or more (R97). -/
theorem EngineOk.reset (st : EngState) (hst : st = .disabled ∨ st = .idle) (cfg : Option RingCfg)
    (hc : ∀ g, cfg = some g → 16 ≤ g.size) : EngineOk { Engine.resetValue with state := st, cfg := cfg } where
  exec hx := nomatch hx
  frame hf := by
    have hf : st = .waitFrame := hf
    subst hf
    exact hst.elim (nomatch ·) (nomatch ·)
  staged hg := nomatch hg
  fetch _ := rfl
  halted _ := rfl
  slots g hg := ⟨hc g hg, Nat.lt_of_lt_of_le (Nat.zero_lt_succ 15) (hc g hg),
    Nat.lt_of_lt_of_le (Nat.zero_lt_succ 15) (hc g hg)⟩
  idle _ _ _ := rfl
  tapsWait _ hx := nomatch hx
  tapsRead _ hx := nomatch hx

/-- The command of an engine with nothing staged is dropped, and its place at the lock with it (R50, R116). -/
theorem RingLaw.dropCommand {s : State} (h : RingLaw s) {r : Ring} (hs : s.eng[r].staged = none) :
    RingLaw (dropCommand r s) ∧ (Machine.dropCommand r s).eng[r].exec = none ∧
      (Machine.dropCommand r s).eng[r].staged = none := by
  unfold Machine.dropCommand
  split
  · rename_i hx
    exact ⟨h, hx, hs⟩
  · rename_i x hx
    obtain ⟨x, p⟩ := x
    dsimp only
    have drop : ∀ (u : State) (rep : Engine → Option StopReport), u.eng = s.eng → RingLaw u → Away r u →
        RingLaw (u.updEng r (fun e => { e with state := .active, exec := none, report := rep e })) := by
      intro u rep hu hlaw ha
      exact hlaw.updEng r ((hlaw.engine r).dropped (by rw [hu]; exact hs) _) (.inl ha)
    split
    · refine ⟨?_, ?_, ?_⟩
      · refine RingLaw.grantStep ?_ _
        exact drop (Machine.leaveLock r x.lineIx s)
          (fun e => if p = .fresh then e.report else some ⟨true, x.tag, x.line, x.gen, p.committed⟩) rfl
          (h.leaveLock r _) (h.away_leaveLock hx)
      · rw [release_self, State.updEng_get, if_pos rfl]
      · rw [release_self, State.updEng_get, if_pos rfl]
        exact hs
    · rename_i hp
      refine ⟨drop s _ rfl h (h.away_of_phase fun y q hy => ?_), ?_, ?_⟩
      · rw [hx] at hy
        cases hy
        simpa using hp
      · rw [State.updEng_get, if_pos rfl]
      · rw [State.updEng_get, if_pos rfl]
        exact hs

theorem dropClaim_exec (r : Ring) (s : State) : (dropClaim r s).eng[r].exec = s.eng[r].exec := by
  unfold dropClaim
  dsimp only
  repeat' split
  · rw [State.updEng_get, if_pos rfl]
  · rename_i g _
    have hk := (withdrawClaims_kept g.cq (Claim.isCommandOf r) (activated r s)).get r
    exact (congrArg Engine.exec hk).trans (by rw [activated_self])
  · rfl

theorem RingLaw.dropClaim {s : State} (h : RingLaw s) {r : Ring} (hs : s.eng[r].staged = none) :
    RingLaw (dropClaim r s) := by
  have ha := h.updEng_same r (f := fun e => { e with state := .active }) ((h.engine r).active_bare hs) rfl
  unfold Machine.dropClaim
  dsimp only
  repeat' split
  · exact ha
  · exact ha.units (withdrawClaims_kept _ _ _)
  · exact h

theorem EngineOk.unstaged {e : Engine} (h : EngineOk e) : EngineOk { e with staged := none } :=
  { h with staged := fun hg => nomatch hg }

/-- What an engine works at is unwound (R116). -/
theorem RingLaw.unwind {s : State} (h : RingLaw s) (r : Ring) :
    RingLaw (unwind r s) ∧ (Machine.unwind r s).eng[r].exec = none := by
  have h1 := h.updEng_same r (f := fun e => { e with staged := none }) (h.engine r).unstaged rfl
  obtain ⟨h2, hx, hs⟩ := h1.dropCommand (by rw [State.updEng_get, if_pos rfl])
  exact ⟨h2.dropClaim hs, (dropClaim_exec r _).trans hx⟩

theorem RingLaw.finishRestart {s : State} (h : RingLaw s) : RingLaw (finishRestart s) := by
  have h1 := h.units (updCq_kept 0 (fun x => Cq.fresh x.cfg) s)
  have h2 := h1.updEng 0 (f := fun e => { Engine.resetValue with state := .idle, cfg := e.cfg })
    (EngineOk.reset .idle (.inr rfl) _ fun g hg => ((h1.engine 0).slots g hg).1) (.inl h1.away_zero)
  exact h2.units (hp_kept _ _)

theorem RingLaw.tryRestart {s : State} (h : RingLaw s) : RingLaw (tryRestart s) := by
  obtain ⟨hu, -⟩ := h.unwind 0
  unfold Machine.tryRestart
  dsimp only
  repeat' split
  · exact hu.finishRestart
  · exact hu
  · exact h

/-- RE0 ends a command that does not wait for a strobe (R169). -/
theorem RingLaw.endControl {s : State} (h : RingLaw s) (hs : s.eng[(0 : Ring)].state ≠ .waitFrame) (res : Result) :
    RingLaw (endControl res s) := by
  unfold Machine.endControl
  split
  · refine RingLaw.tryRestart (h.updEng 0 ?_ (.inl h.away_zero))
    exact { h.engine 0 with
      exec := fun hx => nomatch hx
      frame := fun hf => absurd hf hs
      staged := fun hg => nomatch hg
      tapsWait := fun _ hx => nomatch hx
      tapsRead := fun _ hx => nomatch hx }
  · exact h.endCommand h.away_zero res

/-- An engine whose command does not wait for a strobe is not in WAIT_FRAME. -/
theorem EngineOk.state_ne {e : Engine} (h : EngineOk e) {x : Record} {p : Phase} (hx : e.exec = some ⟨x, p⟩)
    (hp : p ≠ .waitFrame) : e.state ≠ .waitFrame := fun hs => by
  obtain ⟨y, hy⟩ := h.frame hs
  rw [hx] at hy
  cases hy
  exact hp rfl

theorem RingLaw.targetStopped {s : State} (h : RingLaw s) (r : Ring) (rep : StopReport) (n : Nat) :
    RingLaw (targetStopped r rep n s) := by
  unfold Machine.targetStopped
  split
  · rename_i hx
    split
    · exact h.endControl ((h.engine 0).state_ne hx (by simp)) _
    · exact h
  · exact h

theorem RingLaw.finishReset {s : State} (h : RingLaw s) {r : Ring} (hx : s.eng[r].exec = none) :
    RingLaw (finishReset r s) := by
  refine RingLaw.targetStopped (h.updEng r ?_ (.inl (h.away_of_none hx))) r _ _
  exact EngineOk.reset .disabled (.inl rfl) none (fun _ hg => nomatch hg)

theorem RingLaw.tryStop {s : State} (h : RingLaw s) (r : Ring) : RingLaw (tryStop r s) := by
  obtain ⟨hu, hx⟩ := h.unwind r
  have hk := discardPacing_kept r (Machine.unwind r s)
  unfold Machine.tryStop
  dsimp only
  repeat' split
  · exact h.tryRestart
  · exact h
  · exact hu.halt (hu.away_of_none hx)
  · exact hu.units hk
  · exact (hu.units hk).finishReset (by rw [hk.eng]; exact hx)
  · exact h

theorem RingLaw.beginStop {s : State} (h : RingLaw s) (r : Ring) (cause : StopCause) :
    RingLaw (beginStop r cause s) :=
  RingLaw.tryStop ((h.updEng_same r (f := fun e => { e with stop := some cause }) { h.engine r with } rfl).units
    (setClaim_kept r none _)) r

theorem RingLaw.noticeFailed {s : State} (h : RingLaw s) (r : Ring) : RingLaw (noticeFailed r s) := by
  unfold Machine.noticeFailed
  dsimp only
  split
  · exact h
  · exact h.beginStop r _

theorem RingLaw.orStop {s : State} (h : RingLaw s) (r : Ring) {k : State → State} (hk : RingLaw (k s)) :
    RingLaw (orStop r k s) := orStop_ind (h.tryStop r) fun _ => hk

/-! ### Ring 0 -/

/-- RE0's command enters a phase of its own. -/
theorem RingLaw.setPhase_zero {s : State} (h : RingLaw s) {x : Record} {p q : Phase}
    (hx : s.eng[(0 : Ring)].exec = some ⟨x, p⟩) (hp : p ≠ .waitFrame) (hw : q ≠ .waitLock) (ht : q ≠ .tapRead) :
    RingLaw (s.setPhase 0 q) :=
  h.updEng 0 ((h.engine 0).withPhase hx hp hw ht) (.inl h.away_zero)

theorem RingLaw.configureCq {s : State} (h : RingLaw s) {x y : Record} {p : Phase}
    (hx : s.eng[(0 : Ring)].exec = some ⟨y, p⟩) (hp : p ≠ .waitFrame) : RingLaw (configureCq x s) := by
  unfold Machine.configureCq
  split
  · exact h.setPhase_zero hx hp (by simp) (by simp)
  · have hk := updCq_kept x.cqA (fun _ => Cq.fresh (some
      { base := x.addr, size := x.count.toNat, threshold := x.paramB.toNat, holdoff := x.paramC.toNat })) s
    exact (h.units hk).endControl (by rw [hk.eng]; exact (h.engine 0).state_ne hx hp) _

theorem RingLaw.resumeCqWait {s : State} (h : RingLaw s) (q : CqIx) : RingLaw (resumeCqWait q s) := by
  unfold Machine.resumeCqWait
  split
  · rename_i hx
    split
    · exact h.configureCq hx (by simp)
    · exact h
  · exact h

theorem RingLaw.control {s : State} (h : RingLaw s) {k : Kind} {check : Record → State → Option Status}
    {effect : Record → State → State} (he : ∀ x, Executes 0 x s → check x s = none → RingLaw (effect x s)) :
    RingLaw (runKind 0 k (checkedControl check effect) s) :=
  control_ind h (fun _ _ res => h.endCommand h.away_zero res) he

theorem checkConfigureRing_none {x : Record} {s : State} (h : checkConfigureRing x s = none) :
    s.eng[x.ringA].state = .disabled ∧ 16 ≤ x.count.toNat := by
  simp only [checkConfigureRing, refuseIf, Option.orElse_eq_orElse, Option.orElse_eq_or, Option.or_eq_none_iff] at h
  obtain ⟨-, hs, -, hc, -, -⟩ := h
  have hs : s.eng[x.ringA].state = .disabled := by simpa [-Fin.getElem_fin] using hs
  have hc : isRingSize x.count.toNat = true := by simpa using hc
  refine ⟨hs, ?_⟩
  simp only [isRingSize, List.contains_iff_mem, List.mem_cons, List.not_mem_nil, or_false] at hc
  omega

theorem RingLaw.configureRing {s : State} (h : RingLaw s) {x : Record} (hc : checkConfigureRing x s = none) :
    RingLaw (configureRing x s) := by
  obtain ⟨hs, hsize⟩ := checkConfigureRing_none hc
  have hx : s.eng[x.ringA].exec = none := by
    cases he : s.eng[x.ringA].exec with
    | none => rfl
    | some e => have := (h.engine x.ringA).exec (by rw [he]; rfl); rw [hs] at this; simp at this
  have h1 := h.updEng x.ringA (f := fun _ => { Engine.resetValue with
    state := .idle
    cfg := some { base := x.addr, size := x.count.toNat, cls := RingClass.ofCode x.paramB, cq := x.cqC } })
    (EngineOk.reset .idle (.inr rfl) _ fun g hg => by cases hg; exact hsize) (.inl (h.away_of_none hx))
  have h2 := h1.units (updPace_kept x.ringA (fun _ => Pacing.resetValue) _)
  exact h2.endCommand h2.away_zero _

theorem RingLaw.configureDevice {s : State} (h : RingLaw s) (x : Record) : RingLaw (configureDevice x s) := by
  unfold Machine.configureDevice setFrameSource setRefreshCode
  refine RingLaw.endCommand ?_ ?_ _
  · split <;> exact h
  · split <;> exact h.away_zero

theorem RingLaw.writeSnapshot {s : State} (h : RingLaw s) {x : Record} (hx : Executes 0 x s) (data : List Byte)
    (res : Result) : RingLaw (writeSnapshot x data res s) :=
  (h.setPhase_zero hx (by simp) (by simp) (by simp)).issueWrite 0 _ _

/-- A query's write is over. -/
theorem RingLaw.endQuery {s : State} (h : RingLaw s) {res : Result} (hq : queryResult s = some res) (res' : Result) :
    RingLaw (endQuery res' s) := by
  have hs : s.eng[(0 : Ring)].state ≠ .waitFrame := by
    unfold queryResult at hq
    split at hq
    · rename_i hx
      exact (h.engine 0).state_ne hx (by simp)
    · exact nomatch hq
  refine RingLaw.endControl (h.updEng_same 0 (f := fun e => { e with wr := none }) { h.engine 0 with } rfl) ?_ res'
  rwa [State.updEng_get, if_pos rfl]

/-! ### Completion records -/

/-- No command executes while a claim waits to be posted. -/
theorem EngineOk.exec_none {e : Engine} (h : EngineOk e) (hs : e.state = .waitCq) : e.exec = none := by
  cases hx : e.exec with
  | none => rfl
  | some x => have := h.exec (by rw [hx]; rfl); rw [hs] at this; simp at this

theorem RingLaw.tellPosted {s : State} (h : RingLaw s) (m : Claim) : RingLaw (tellPosted m s) := by
  unfold Machine.tellPosted
  repeat' split
  · exact h
  · exact h.units (updPace_kept _ _ s)
  · exact h
  · refine h.orStop _ ?_
    split
    · rename_i hs
      exact h.goOn ((h.engine _).exec_none hs)
    · exact h

theorem RingLaw.tellFailed {s : State} (h : RingLaw s) (m : Claim) : RingLaw (tellFailed m s) := by
  unfold Machine.tellFailed
  repeat' split
  · exact h
  · exact (h.units (updPace_kept _ _ s)).noticeFailed _
  · refine h.orStop _ ?_
    split
    · rename_i hs
      exact h.halt (h.away_of_none ((h.engine _).exec_none hs))
    · exact h

theorem RingLaw.restartAfter {s : State} (h : RingLaw s) (m : Claim) : RingLaw (restartAfter m s) := by
  unfold Machine.restartAfter
  split
  · exact h.tryRestart
  · exact h

theorem RingLaw.writePosted {s : State} (h : RingLaw s) (q : CqIx) (m : Claim) : RingLaw (writePosted q m s) := by
  have hp : RingLaw (Machine.tellPosted m (postRecord q s)) := RingLaw.tellPosted (h.units (updCq_kept q _ s)) m
  have ht := hp.units ((moderate_kept q _).trans (takeHeld_kept q _))
  exact RingLaw.restartAfter ((ht.resumeCqWait q).units (serveQueue_kept q _)) m

theorem RingLaw.writeFailed {s : State} (h : RingLaw s) (q : CqIx) (m : Claim) : RingLaw (writeFailed q m s) := by
  have hl := ((updCq_kept q (fun x => { x with inflight := none }) s).trans
    (reportFault_kept .postFault m.ring.val _)).trans (refuseHeld_kept q _)
  exact (((h.units hl).tellFailed m).resumeCqWait q).units (serveQueue_kept q _)

/-! ### Frames and records -/

theorem RingLaw.runMark {s : State} (h : RingLaw s) {r : Ring} {x : Record} (hx : Executes r x s) :
    RingLaw (runMark r x s) := by
  have ha := h.away_of_fresh hx
  have hk := updPace_kept r (fun p => { p with armed := true, owed := p.owed - 1 }) s
  unfold Machine.runMark
  split
  · unfold carryOutMark
    dsimp only
    split
    · unfold State.setPhase
      rw [State.updEng_updEng]
      refine (h.units hk).updEng r ?_ (.inl (ha.congr hk.lines))
      have hok := h.engine r
      rw [hk.eng, show s.eng[r].exec = some ⟨x, .fresh⟩ from hx]
      exact {
        exec := fun _ => .inr (.inr rfl)
        frame := fun _ => ⟨x, rfl⟩
        staged := fun hg => ⟨(hok.staged hg).1, .inl rfl⟩
        fetch := fun hf => hf.elim (nomatch ·) (nomatch ·)
        halted := fun hf => nomatch hf
        slots := hok.slots
        idle := fun _ _ hf => nomatch hf
        tapsWait := fun y hy => by cases hy
        tapsRead := fun y hy => by cases hy }
    · exact (h.units hk).endCommand (ha.congr hk.lines) _
  · exact h.endCommand ha _

theorem RingLaw.countLate {s : State} (h : RingLaw s) (r : Ring) : RingLaw (countLate r s) := by
  have h1 := updPace_kept r (fun p => { p with late := min (p.late + 1) 65535, owed := p.owed + 1 }) s
  have h2 := h1.trans (updPace_kept r (fun p => { p with notice := some ⟨p.owed, s.fu.frame⟩ }) _)
  unfold Machine.countLate
  dsimp only
  repeat' split
  · exact h.units h1
  · exact h.units h2
  · exact h.units (h2.trans (takeClaim_kept _ _ _))

theorem RingLaw.strobeRing {s : State} (h : RingLaw s) (r : Ring) : RingLaw (strobeRing s r) := by
  unfold Machine.strobeRing
  repeat' split
  · rename_i x hs hx
    refine h.endCommand (h.away_of_phase fun y p hy => ?_) _
    obtain ⟨z, hz⟩ := (h.engine r).frame hs
    rw [hz] at hy
    cases hy
    rfl
  · exact h.countLate r
  · exact RingLaw.haltCause (h.units ((updPace_kept r _ s).trans (reportFault_kept _ _ _))) r
  · exact h

theorem RingLaw.strobe {s : State} (h : RingLaw s) : RingLaw (strobe s) := by
  have rings : ∀ (rs : List Ring) {u : State}, RingLaw u → RingLaw (rs.foldl Machine.strobeRing u) := by
    intro rs
    induction rs with
    | nil => exact fun hu => hu
    | cons r rs ih => exact fun hu => ih (hu.strobeRing r)
  exact rings _ (h.units (fu_kept s _))

theorem RingLaw.frameExpiry {s : State} (h : RingLaw s) : RingLaw (frameExpiry s) := by
  unfold Machine.frameExpiry
  split
  · exact RingLaw.strobe (h.units ((atTime_kept _ s).trans (fu_kept _ _)))
  · exact h

/-- The fetch of an engine is over. -/
theorem EngineOk.fetched {e : Engine} (h : EngineOk e) : EngineOk { e with fetch := none } :=
  { h with staged := fun hg => ⟨rfl, (h.staged hg).2⟩, fetch := fun _ => rfl }

theorem RingLaw.fetchDone {s : State} (h : RingLaw s) {r : Ring} {t : HostRead} (hf : s.eng[r].fetch = some t)
    (bytes : BitVec 256) : RingLaw (fetchDone r bytes s) := by
  have hok := h.engine r
  have hst : s.eng[r].staged = none := by
    cases hs : s.eng[r].staged with
    | none => rfl
    | some x => have := (hok.staged (by rw [hs]; rfl)).1; rw [hf] at this; simp at this
  have hni : s.eng[r].state ≠ .idle ∧ s.eng[r].state ≠ .disabled :=
    ⟨fun hs => by rw [hok.fetch (.inr hs)] at hf; simp at hf, fun hs => by rw [hok.fetch (.inl hs)] at hf; simp at hf⟩
  have hslots : ∀ g, s.eng[r].cfg = some g →
      16 ≤ g.size ∧ (s.eng[r].head + 1) % s.eng[r].size < g.size ∧ s.eng[r].tail < g.size := fun g hg => by
    obtain ⟨h16, -, ht⟩ := hok.slots g hg
    refine ⟨h16, ?_, ht⟩
    simp only [Engine.size, hg]
    exact Nat.mod_lt _ (by omega)
  unfold Machine.fetchDone
  dsimp only
  split
  · exact RingLaw.tryStop (h.updEng_same r hok.fetched rfl) r
  · split
    · rename_i hx
      simp only [Bool.and_eq_true, Option.isNone_iff_eq_none] at hx
      refine RingLaw.tryFetch ?_ r
      unfold execStaged
      rw [State.updEng_updEng, State.updEng_updEng]
      exact h.updEng r {
        exec := fun _ => .inl rfl
        frame := fun hf => nomatch hf
        staged := fun hg => nomatch hg
        fetch := fun hf => hf.elim (nomatch ·) (nomatch ·)
        halted := fun hf => nomatch hf
        slots := hslots
        idle := fun _ _ hf => nomatch hf
        tapsWait := fun y hy => by cases hy
        tapsRead := fun y hy => by cases hy } (.inl (h.away_of_none hx.1))
    · rename_i hx
      rw [State.updEng_updEng, State.updEng_updEng]
      refine h.updEng_same r { hok with
        staged := fun _ => ⟨rfl, ?_⟩, fetch := fun _ => rfl, slots := hslots
        idle := fun _ _ hi => absurd hi hni.1 } rfl
      show s.eng[r].exec.isSome ∨ s.eng[r].state = .waitCq
      by_cases hw : s.eng[r].state = .waitCq
      · exact .inr hw
      · left
        cases he : s.eng[r].exec with
        | some _ => rfl
        | none => simp [-Fin.getElem_fin, he, hw] at hx

theorem RingLaw.fetchFailed {s : State} (h : RingLaw s) (r : Ring) : RingLaw (fetchFailed r s) := by
  have h1 := h.updEng_same r (f := fun e => { e with fetch := none }) (h.engine r).fetched rfl
  unfold Machine.fetchFailed
  dsimp only
  repeat' split
  · exact h
  · exact h1.tryStop r
  · exact RingLaw.haltCause (h1.units (reportFault_kept _ _ _)) r

theorem RingLaw.takePost {s : State} (h : RingLaw s) (r : Ring) (n : Nat) : RingLaw (takePost r n s) := by
  have hok := h.engine r
  have slots : n < s.eng[r].size → ∀ g, s.eng[r].cfg = some g → 16 ≤ g.size ∧ s.eng[r].head < g.size ∧ n < g.size := by
    intro hn g hg
    simp only [Engine.size, hg] at hn
    exact ⟨(hok.slots g hg).1, (hok.slots g hg).2.1, hn⟩
  unfold Machine.takePost refusePost
  dsimp only
  split
  · exact h.units (reportFault_kept _ _ s)
  · split
    · exact h.units (reportFault_kept _ _ s)
    · rename_i hn
      have slots := slots (Nat.not_le.mp hn)
      split
      · rename_i hi
        have hx : s.eng[r].exec = none := by
          cases hx : s.eng[r].exec with
          | none => rfl
          | some e => have := hok.exec (by rw [hx]; rfl); rw [hi] at this; simp at this
        have hs : s.eng[r].staged = none := by
          cases hs : s.eng[r].staged with
          | none => rfl
          | some x =>
            have := (hok.staged (by rw [hs]; rfl)).2
            simp [-Fin.getElem_fin, hx, hi] at this
        split
        · rename_i ht
          exact h.updEng_same r { hok with slots := slots, idle := fun _ _ _ => ht.symm } rfl
        · refine RingLaw.tryFetch ?_ r
          rw [State.updEng_updEng]
          exact h.updEng_same r {
            exec := fun _ => .inl rfl
            frame := fun hf => nomatch hf
            staged := fun hg => ⟨(hok.staged hg).1, by
              have hg : s.eng[r].staged.isSome := hg
              rw [hs] at hg
              exact nomatch hg⟩
            fetch := fun hf => hf.elim (nomatch ·) (nomatch ·)
            halted := fun hf => nomatch hf
            slots := slots
            idle := fun _ _ hf => nomatch hf
            tapsWait := hok.tapsWait, tapsRead := hok.tapsRead } rfl
      · rename_i hi
        exact RingLaw.tryFetch (h.updEng_same r { hok with
          slots := slots, idle := fun _ _ hidle => absurd hidle hi } rfl) r

end Sys2Proof.Machine
end

section
/-! Every command keeps the law of the engines, the rings at the locks and the tap lists (R18, R40, R41, R104). -/

namespace Sys2Proof.Machine

/-! ### Transfers and bursts of line commands -/

theorem RingLaw.readOver {s : State} (h : RingLaw s) (r : Ring) : RingLaw (readOver r s) :=
  h.updEng_same r (f := fun e => { e with rd := none }) ((h.engine r).withRead fun _ _ _ hu => nomatch hu) rfl

theorem RingLaw.writeOver {s : State} (h : RingLaw s) (r : Ring) : RingLaw (writeOver r s) :=
  h.updEng_same r (f := fun e => { e with wr := none }) { h.engine r with } rfl

theorem readOver_exec (r : Ring) (s : State) : (readOver r s).eng[r].exec = s.eng[r].exec := by
  unfold readOver
  rw [State.updEng_get, if_pos rfl]

theorem writeOver_exec (r : Ring) (s : State) : (writeOver r s).eng[r].exec = s.eng[r].exec := by
  unfold writeOver
  rw [State.updEng_get, if_pos rfl]

theorem tapReader_some {r : Ring} {s : State} {x : Record} (h : tapReader r s = some x) :
    s.eng[r].exec = some ⟨x, .tapRead⟩ := by
  unfold tapReader at h
  split at h
  · rename_i hx
    cases h
    exact hx
  · exact nomatch h

theorem pusher_some {r : Ring} {s : State} {x : Record} {n m : Nat} (h : pusher r s = some (x, n, m)) :
    s.eng[r].exec = some ⟨x, .pushing n m⟩ := by
  unfold pusher at h
  split at h
  · rename_i hx
    cases h
    exact hx
  · exact nomatch h

theorem stepper_some {r : Ring} {s : State} {x : Record} {c : StepCtx} (h : stepper r s = some (x, c)) :
    s.eng[r].exec = some ⟨x, .stepping c⟩ := by
  unfold stepper at h
  split at h
  · rename_i hx
    cases h
    exact hx
  · exact nomatch h

theorem readerOf_some {r : Ring} {s : State} {x : Record} {c : ReaderCtx} (h : readerOf r s = some (x, c)) :
    s.eng[r].exec = some ⟨x, .reader c⟩ := by
  unfold readerOf at h
  split at h
  · rename_i hx
    cases h
    exact hx
  · exact nomatch h

/-- Offsets of 4 bytes each (R54). -/
theorem tapsOf_length (bytes : List Byte) : (tapsOf bytes).length = bytes.length / 4 := by
  have groups : ∀ (b n : Nat) (bs : List Byte), (groupBytes b n bs).length = n := by
    intro b n
    induction n with
    | zero => exact fun _ => rfl
    | succ n ih => exact fun bs => congrArg (· + 1) (ih _)
  unfold tapsOf
  rw [List.length_map, groups]

theorem RingLaw.installTaps {s : State} (h : RingLaw s) {r : Ring} {x : Record} {p : Phase}
    (hx : s.eng[r].exec = some ⟨x, p⟩) {ts : List Nat} (ht : ts.length ≤ 16) : RingLaw (installTaps r x ts s) := by
  unfold Machine.installTaps
  dsimp only
  split
  · exact h.finish hx _
  · exact (h.updLine x.lineIx (f := fun y => { y with taps := ts }) (List.Sublist.refl _) (List.Sublist.refl _) ht).finish
      hx _

theorem RingLaw.tapListReadDone {s : State} (h : RingLaw s) (r : Ring) (bytes : List Byte) :
    Yields RingLaw (execTapListReadDone r bytes s) := by
  refine whileReleased_ind h fun _ => ?_
  split
  · exact h
  · rename_i x hx
    have hx := tapReader_some hx
    split
    · rename_i hc
      refine (h.readOver r).orStop r ((h.readOver r).installTaps ((readOver_exec r s).trans hx) ?_)
      unfold readCompletes at hc
      split at hc
      · exact nomatch hc
      · rename_i t ht
        have hlen := (h.engine r).tapsRead x hx t ht
        simp only [Bool.and_eq_true, beq_iff_eq] at hc
        rw [tapsOf_length]
        omega
    · exact h

theorem RingLaw.tapListReadFailed {s : State} (h : RingLaw s) (r : Ring) : RingLaw (tapListReadFailed r s) := by
  unfold Machine.tapListReadFailed
  split
  · exact h
  · rename_i x hx
    split
    · exact h
    · exact (h.readOver r).orStop r ((h.readOver r).finish ((readOver_exec r s).trans (tapReader_some hx)) _)

theorem RingLaw.claimPush {s : State} (h : RingLaw s) (r : Ring) (x : Record) (bytes : List Byte) :
    RingLaw (claimPush r x bytes s) := by
  unfold Machine.claimPush
  split
  · exact h
  · exact h.units (claimPort_kept r _ s)

theorem RingLaw.pushSamplesReadFailed {s : State} (h : RingLaw s) (r : Ring) : RingLaw (pushSamplesReadFailed r s) := by
  unfold Machine.pushSamplesReadFailed
  split
  · exact h
  · rename_i x n m hx
    split
    · exact h
    · exact (h.readOver r).orStop r ((h.readOver r).finish ((readOver_exec r s).trans (pusher_some hx)) _)

theorem RingLaw.pushGoesOn {s : State} (h : RingLaw s) {r : Ring} {x : Record} {n m : Nat}
    (hx : s.eng[r].exec = some ⟨x, .pushing n m⟩) (k : Nat) : RingLaw (pushGoesOn r x k s) := by
  unfold Machine.pushGoesOn
  split
  · refine (h.setPhase hx (q := .pushing k _) trivial trivial (by simp)).issueRead r _ _ fun y hy => ?_
    rw [setPhase_exec hx] at hy
    cases hy
  · exact h.finish hx _

theorem RingLaw.takeInputs {s : State} (h : RingLaw s) {r : Ring} {x : Record} {c : StepCtx}
    (hx : s.eng[r].exec = some ⟨x, .stepping c⟩) (k : StepCtx) (bytes : List Byte) :
    RingLaw (takeInputs r x k bytes s) := by
  unfold Machine.takeInputs
  repeat' split
  · exact h
  · exact h
  · exact h.setPhase hx trivial trivial (by simp)

/-- A STEP goes on in another progress. -/
theorem RingLaw.setStep {s : State} (h : RingLaw s) {r : Ring} {x : Record} {c : StepCtx}
    (hx : s.eng[r].exec = some ⟨x, .stepping c⟩) (c' : StepCtx) : RingLaw (s.setPhase r (.stepping c')) :=
  h.setPhase hx trivial trivial (by simp)

/-- A reader goes on in another progress. -/
theorem RingLaw.setReader {s : State} (h : RingLaw s) {r : Ring} {x : Record} {c : ReaderCtx}
    (hx : s.eng[r].exec = some ⟨x, .reader c⟩) (c' : ReaderCtx) : RingLaw (s.setPhase r (.reader c')) :=
  h.setPhase hx trivial trivial (by simp)

theorem RingLaw.stepInputReadDone {s : State} (h : RingLaw s) (r : Ring) (bytes : List Byte) :
    Yields RingLaw (execStepInputReadDone r bytes s) := by
  refine whileReleased_ind h fun _ => ?_
  split
  · exact h
  · rename_i x c hx
    split
    · exact (h.readOver r).orStop r
        (((h.readOver r).takeInputs ((readOver_exec r s).trans (stepper_some hx)) c bytes).pumpStep r)
    · exact h

theorem RingLaw.stepInputReadFailed {s : State} (h : RingLaw s) (r : Ring) : RingLaw (stepInputReadFailed r s) := by
  unfold Machine.stepInputReadFailed
  split
  · exact h
  · rename_i x c hx
    split
    · exact h
    · exact (h.readOver r).orStop r
        (((h.readOver r).setStep ((readOver_exec r s).trans (stepper_some hx)) _).pumpStep r)

theorem RingLaw.commandReadFailed {s : State} (h : RingLaw s) (r : Ring) : RingLaw (commandReadFailed r s) := by
  unfold Machine.commandReadFailed
  split
  · exact h.tapListReadFailed r
  · exact h.pushSamplesReadFailed r
  · exact h.stepInputReadFailed r
  · exact h

theorem RingLaw.failStart {s : State} (h : RingLaw s) (code : FaultCode) : RingLaw (failStart code s) :=
  h.units ((hp_kept s _).trans (reportFault_kept code 0 _))

theorem RingLaw.anchorReadFailed {s : State} (h : RingLaw s) : RingLaw (anchorReadFailed s) := by
  unfold Machine.anchorReadFailed
  split
  · exact h
  · exact h.failStart _

theorem RingLaw.readFailed {s : State} (h : RingLaw s) (id : ReadId) : RingLaw (readFailed id s) := by
  unfold Machine.readFailed
  split
  · exact h.anchorReadFailed
  · exact h.fetchFailed _
  · exact h.commandReadFailed _

theorem RingLaw.readerWritten {s : State} (h : RingLaw s) {r : Ring} {x : Record} {c : ReaderCtx}
    (hx : s.eng[r].exec = some ⟨x, .reader c⟩) (k : ReaderCtx) : RingLaw (readerWritten r x k s) := by
  unfold Machine.readerWritten
  split
  · exact h.finish hx _
  · exact (h.setReader hx _).pumpReader r

theorem RingLaw.readerWriteFailed {s : State} (h : RingLaw s) {r : Ring} {x : Record} {c : ReaderCtx}
    (hx : s.eng[r].exec = some ⟨x, .reader c⟩) (k : ReaderCtx) : RingLaw (readerWriteFailed r x k s) := by
  have h1 : RingLaw ((s.setClaim r none).setPhase r (.reader { k with failed := true })) :=
    RingLaw.setReader (h.units (setClaim_kept r none s)) hx _
  unfold Machine.readerWriteFailed
  dsimp only
  split
  · exact h1
  · exact h1.finish (setPhase_exec (s := s.setClaim r none) hx _) _

theorem RingLaw.stepWriteFailed {s : State} (h : RingLaw s) {r : Ring} {x : Record} {c : StepCtx}
    (hx : s.eng[r].exec = some ⟨x, .stepping c⟩) (k : StepCtx) : RingLaw (stepWriteFailed r k s) :=
  (RingLaw.setStep (h.units (setClaim_kept r none s)) hx _).finishStep r

theorem RingLaw.resultWriteCompleted {s : State} (h : RingLaw s) (r : Ring) :
    Yields RingLaw (execResultWriteCompleted r s) := by
  have h1 : ∀ w, RingLaw (Machine.writeOver r (writeReported w s)) := fun w =>
    RingLaw.writeOver (h.units (writeReported_kept w s)) r
  have he : ∀ w, (Machine.writeOver r (writeReported w s)).eng[r].exec = s.eng[r].exec := fun w =>
    (writeOver_exec r _).trans (congrArg Engine.exec ((writeReported_kept w s).get r))
  refine whileReleased_ind h fun _ => ?_
  repeat' split
  · exact h
  · rename_i x c _ hx
    exact (h1 _).orStop r ((h1 _).readerWritten ((he _).trans (readerOf_some hx)) _)
  · rename_i x c _ hx
    exact (h1 _).orStop r (((h1 _).setStep ((he _).trans (stepper_some hx)) _).pumpStep r)
  · exact h
  · exact h

theorem RingLaw.resultWriteFailed {s : State} (h : RingLaw s) (r : Ring) :
    Yields RingLaw (execResultWriteFailed r s) := by
  refine whileReleased_ind h fun _ => ?_
  split
  · exact h
  · rename_i x c hx
    split
    · exact (h.writeOver r).orStop r
        ((h.writeOver r).readerWriteFailed ((writeOver_exec r s).trans (readerOf_some hx)) _)
    · exact h

theorem RingLaw.stepResultWriteFailed {s : State} (h : RingLaw s) (r : Ring) :
    Yields RingLaw (execStepResultWriteFailed r s) := by
  refine whileReleased_ind h fun _ => ?_
  split
  · exact h
  · rename_i x c hx
    split
    · exact (h.writeOver r).orStop r
        ((h.writeOver r).stepWriteFailed ((writeOver_exec r s).trans (stepper_some hx)) _)
    · exact h

/-! ### The end of a burst -/

theorem RingLaw.readerBurstOver {s : State} (h : RingLaw s) {r : Ring} {x : Record} {c : ReaderCtx}
    (hx : s.eng[r].exec = some ⟨x, .reader c⟩) : RingLaw (readerBurstOver r x c s) := by
  unfold Machine.readerBurstOver
  repeat' split
  · exact h
  · exact h.finish hx _
  · exact (h.setReader hx _).pumpReader r

theorem RingLaw.stepCommitted {s : State} (h : RingLaw s) {r : Ring} {x : Record} {c : StepCtx}
    (hx : s.eng[r].exec = some ⟨x, .stepping c⟩) : RingLaw (stepCommitted r x c s) := by
  have next : ∀ u : State, RingLaw u → ∀ (b : Bool) (ws : List Nat),
      RingLaw (if b = true then Machine.pumpStep r u else claimPort r (.read ws) u) := by
    intro u hu b ws
    split
    · exact hu.pumpStep r
    · exact hu.units (claimPort_kept r _ u)
  unfold Machine.stepCommitted
  dsimp only
  split
  · exact h
  · refine next _ ?_ _ _
    split
    · exact RingLaw.issueInput hx (h.setStep hx)
    · exact h.setStep hx _

theorem RingLaw.stepBurstOver {s : State} (h : RingLaw s) {r : Ring} {x : Record} {c : StepCtx}
    (hx : s.eng[r].exec = some ⟨x, .stepping c⟩) : RingLaw (stepBurstOver r x c s) := by
  unfold Machine.stepBurstOver
  dsimp only
  repeat' split
  · exact h
  · exact h.finishStep r
  · exact h.stepCommitted hx
  · exact (h.setStep hx _).pumpStep r

theorem RingLaw.afterBurst {s : State} (h : RingLaw s) (r : Ring) : RingLaw (afterBurst r s) := by
  unfold Machine.afterBurst
  split
  · rename_i hx
    exact h.pushGoesOn hx _
  · rename_i hx
    exact h.readerBurstOver hx
  · rename_i hx
    exact h.stepBurstOver hx
  · exact h

theorem RingLaw.commitLine {s : State} (h : RingLaw s) (l : LineIx) (m : Nat) : RingLaw (s.updLine l (Line.commit m)) := by
  have hc : ∀ y : Line, (y.commit m).lock = y.lock ∧ (y.commit m).taps = y.taps := fun y => by
    unfold Line.commit
    split <;> exact ⟨rfl, rfl⟩
  refine h.updLine l ?_ ?_ ?_
  · rw [(hc _).1]
  · rw [(hc _).1]
  · rw [(hc _).2]
    exact (ringLaw_iff.mp h).2.2 l

theorem RingLaw.commitBurst {s : State} (h : RingLaw s) (r : Ring) (m : Nat) : RingLaw (commitBurst r m s) := by
  unfold Machine.commitBurst
  split
  · rename_i hx
    exact (h.commitLine _ m).setPhase hx trivial trivial (by simp)
  · rename_i hx
    exact (h.commitLine _ m).setStep hx _
  · exact h

theorem RingLaw.burstEffect {s : State} (h : RingLaw s) (r : Ring) (b : Burst) : RingLaw (burstEffect r b s) := by
  unfold Machine.burstEffect
  split
  · have hs : ∀ st, RingLaw { s with store := st } := fun _ => h
    exact (hs _).commitBurst r _
  · exact h

theorem RingLaw.storeBurstEnd {s : State} (h : RingLaw s) : Yields RingLaw (execStoreBurstEnd s) := by
  refine whileReleased_ind h fun _ => ?_
  repeat' split
  · trivial
  · rename_i r b _ _ _
    have h1 := fun sc => (h.burstEffect r b).units ((sc_kept _ sc).trans (arbitrate_kept _))
    exact (h1 _).orStop r ((h1 _).afterBurst r)
  · exact h

/-! ### The Host Port and the Store Controller -/

/-- A device reset leaves every engine in its reset value and every lock empty (R178). -/
theorem ringLaw_reset {s : State} (hl : s.lines = Vector.replicate 64 (.freeRecord 0))
    (he : s.eng = Vector.replicate 8 .resetValue) : RingLaw s := by
  have hline : ∀ l : LineIx, s.lines[l] = .freeRecord 0 := fun l => by simp [hl]
  have heng : ∀ r : Ring, s.eng[r] = .resetValue := fun r => by simp [he]
  refine ringLaw_iff.mpr ⟨fun r => ?_, fun l => ?_, fun l => ?_⟩
  · rw [heng r]
    exact EngineOk.reset .disabled (.inl rfl) none (fun _ hg => nomatch hg)
  · rw [hline l]
    exact ⟨List.nodup_nil, fun _ hr => (List.not_mem_nil hr).elim, fun _ hw => (List.not_mem_nil hw).elim⟩
  · rw [hline l]
    exact Nat.zero_le _

theorem RingLaw.checkAnchorAddr {s : State} (h : RingLaw s) : RingLaw (checkAnchorAddr s) := by
  unfold Machine.checkAnchorAddr
  repeat' split
  · exact h
  · exact h.units (hp_kept s _)
  · exact h.failStart _

theorem RingLaw.writeControl {s : State} (h : RingLaw s) (v : Word) : RingLaw (writeControl v s) := by
  have hh := fun hp => h.units (hp_kept s hp)
  unfold Machine.writeControl controlStart controlRestart
  dsimp only
  repeat' split
  · exact (hh _).checkAnchorAddr
  · exact hh _
  · exact h
  · exact ringLaw_reset rfl rfl
  · exact h
  · exact (hh _).beginStop 0 _
  · exact h
  · exact h

theorem RingLaw.storeReady {s : State} (h : RingLaw s) : RingLaw (storeReady s) := by
  have h1 := fun sc => h.units ((sc_kept s sc).trans (arbitrate_kept _))
  unfold Machine.storeReady
  dsimp only
  repeat' split
  · exact (h1 _).checkAnchorAddr
  · exact h1 _
  · exact h

/-- A valid anchor block gives ring 0 a size of 16 or more (R175). -/
theorem anchorValid_size {block : BitVec 256} (h : anchorValid block = true) : 16 ≤ (anchorRing block).size := by
  simp only [anchorValid, Bool.and_eq_true] at h
  obtain ⟨⟨⟨⟨⟨-, hs⟩, -⟩, -⟩, -⟩, -⟩ := h
  simp only [isRingSize, List.contains_iff_mem, List.mem_cons, List.not_mem_nil, or_false] at hs
  omega

theorem RingLaw.anchorReadDone {s : State} (h : RingLaw s) (block : BitVec 256) :
    Yields RingLaw (execAnchorReadDone block s) := by
  refine whileReleased_ind h fun _ => ?_
  repeat' split
  · exact h
  · exact h
  · rename_i hv
    have h1 := h.updEng 0 (f := fun _ => { Engine.resetValue with state := .idle, cfg := some (anchorRing block) })
      (EngineOk.reset .idle (.inr rfl) _ fun g hg => by cases hg; exact anchorValid_size hv) (.inl h.away_zero)
    exact h1.units ((updCq_kept 0 _ _).trans (hp_kept _ _))
  · exact h.failStart _

theorem RingLaw.writeWindow {s : State} (h : RingLaw s) (offset n : Nat) (v : Word) : RingLaw (writeWindow offset n v s) := by
  unfold Machine.writeWindow
  repeat' split
  · exact h
  · exact h.writeControl v
  · exact h.units (hp_kept s _)
  · exact h.units (hp_kept s _)
  · exact h.takePost _ _
  · exact h.units (takeRetire_kept _ _ s)
  · exact h.units (hp_kept s _)
  · exact h

/-- The failure of every transfer keeps each engine but for its reads, which it keeps as they are but for their issue. -/
theorem RingLaw.failTransfers {s : State} (h : RingLaw s) : RingLaw (failTransfers s) := by
  have heng : ∀ r : Ring, (Machine.failTransfers s).eng[r] =
      { s.eng[r] with fetch := s.eng[r].fetch.map HostRead.fail, rd := s.eng[r].rd.map HostRead.fail } := fun r => by
    simp [Machine.failTransfers]
  have hl : (Machine.failTransfers s).lines = s.lines := rfl
  obtain ⟨he, hk, ht⟩ := ringLaw_iff.mp h
  refine ringLaw_iff.mpr ⟨fun r => ?_, fun l => ?_, ht⟩
  · rw [heng]
    exact { he r with
      staged := fun hg => ⟨congrArg (Option.map HostRead.fail) ((he r).staged hg).1, ((he r).staged hg).2⟩
      fetch := fun hf => congrArg (Option.map HostRead.fail) ((he r).fetch hf)
      tapsRead := fun x hx t ht => by
        obtain ⟨u, hu, rfl⟩ := Option.map_eq_some_iff.mp ht
        exact (he r).tapsRead x hx u hu }
  · have on : ∀ {r : Ring} {p}, OnLine r l p s → OnLine r l p (Machine.failTransfers s) := fun {r _} ho =>
      ho.congr (by rw [heng])
    rw [hl]
    exact ⟨(hk l).nodup, fun r hr => on ((hk l).holds r hr), fun w hw => on ((hk l).waits w hw)⟩

theorem RingLaw.refreshExpiry {s : State} (h : RingLaw s) : RingLaw (refreshExpiry s) := by
  have h1 := fun t sc => (atTime_kept t s).trans (sc_kept _ sc)
  unfold Machine.refreshExpiry
  dsimp only
  repeat' split
  · exact h
  · exact h.units (((h1 _ _).trans (sc_kept _ _)).trans (arbitrate_kept _))
  · exact h.units ((h1 _ _).trans (reportFault_kept _ _ _))

/-! ### Commands -/

section
variable {s : State} (h : RingLaw s)
include h

theorem RingLaw.released {f : State → State} (hf : RingLaw (f s)) :
    Yields RingLaw (whileReleased s fun s => .next (f s)) := whileReleased_ind h fun _ => hf

theorem RingLaw.fresh_ends (r : Ring) : ∀ x, Executes r x s → ∀ res, RingLaw (Machine.endCommand r res s) :=
  fun _ hx res => h.endCommand (h.away_of_fresh hx) res

/-- A line command keeps the law if what it does once it is validated does. -/
theorem RingLaw.lineCommand (r : Ring) (k : Kind) {body : Record → State → State}
    (hb : ∀ x, Executes r x s → Kind.ofCode x.kind = some k → r ≠ 0 → Validated k r x s → RingLaw (body x s)) :
    Yields RingLaw (whileReleased s fun s => .next (Machine.lineCommand r k body s)) :=
  h.released (lineCommand_ind h (h.fresh_ends r) fun x hx hk _ h0 hv => hb x hx hk h0 hv)

theorem RingLaw.writer (r : Ring) (k : Kind) (hk : k = .push ∨ k = .setTaps ∨ k = .clear ∨ k = .step) :
    Yields RingLaw (whileReleased s fun s =>
      .next (Machine.lineCommand r k (fun x => Machine.claimWriter r x.lineIx) s)) := by
  refine h.lineCommand r k fun x hx hkx h0 hv => h.claimWriter h0 hx (by simpa [hkx] using hk) fun ht => ?_
  obtain rfl : k = .setTaps := Option.some.inj (hkx.symm.trans ht)
  have hr := hv.ranges
  simp only [checkRanges] at hr
  split at hr
  · exact nomatch hr
  · omega

theorem RingLaw.reader (r : Ring) (k : Kind) (hk : k = .gather ∨ k = .readSpan) :
    Yields RingLaw (whileReleased s fun s =>
      .next (Machine.lineCommand r k (fun x => Machine.claimReader r x.lineIx) s)) :=
  h.lineCommand r k fun x hx hkx h0 _ => h.claimReader h0 hx (by simpa [hkx] using hk)

theorem RingLaw.openLine (r : Ring) : Yields RingLaw (execOpenLine r s) := by
  refine h.lineCommand r .openLine fun x hx _ _ _ => ?_
  have ha := h.away_of_fresh hx
  unfold carryOutOpen
  dsimp only
  split
  · rename_i fmt ext rest _ _
    have h1 := h.updLine x.lineIx (f := fun _ => openedLine r x.paramA.toNat fmt ext (s.lineOf x).gen)
      (List.nil_sublist _) (List.nil_sublist _) (Nat.zero_le _)
    refine RingLaw.endCommand (h1.free rest) (fun l hl => ?_) _
    have hl : r ∈ (s.updLine x.lineIx
        (fun _ => openedLine r x.paramA.toNat fmt ext (s.lineOf x).gen)).lines[l].lock.rings := hl
    rw [State.updLine_get] at hl
    split at hl
    · simp [Lock.rings, openedLine, Lock.idle] at hl
    · exact ha l hl
  · exact h.endCommand ha _

theorem RingLaw.test (r : Ring) : Yields RingLaw (execTest r s) := by
  refine h.lineCommand r .test fun x hx _ _ _ => ?_
  exact (h.updEng_same r (f := fun e => { e with test := decide (x.paramA.toNat ≤ (s.lineOf x).fill) })
    { h.engine r with } rfl).endCommand ((h.away_of_fresh hx).congr rfl) _

theorem RingLaw.mark (r : Ring) : Yields RingLaw (execMark r s) :=
  h.released (runKind_ind h (h.fresh_ends r) fun x hx _ _ => onLineRing_ind (h.fresh_ends r x hx) fun _ => h.runMark hx)

theorem RingLaw.unknownKindRecord (r : Ring) : Yields RingLaw (execUnknownKindRecord r s) := by
  refine whileReleased_ind h fun _ => ?_
  split
  · exact h
  · rename_i x hx
    have he := h.fresh_ends r x ((freshRecord_iff r x s).mp hx)
    unfold guarded
    repeat' split
    · exact h
    · exact he _
    · exact he _
    · exact he _

theorem RingLaw.linkUp : Yields RingLaw (execLinkUp s) := whileReleased_ind h fun _ => h.units (hp_kept s _)

theorem RingLaw.linkDown : Yields RingLaw (execLinkDown s) :=
  whileReleased_ind h fun _ => (h.units (hp_kept s _)).failTransfers

theorem RingLaw.configSpaceWrite (bit : ConfigBit) (value : Bool) :
    Yields RingLaw (execConfigSpaceWrite bit value s) := by
  refine whileReleased_ind h fun _ => ?_
  cases bit with
  | msi => exact h.units (hp_kept s _)
  | busMaster =>
    cases value with
    | true => exact h.units (hp_kept s _)
    | false => exact (h.units (hp_kept s _)).failTransfers

theorem RingLaw.hostReadTimeout (read : ReadId) : Yields RingLaw (execHostReadTimeout read s) := by
  refine whileReleased_ind h fun _ => ?_
  split
  · exact h
  · exact RingLaw.readFailed (h.units (atTime_kept _ s)) read

theorem RingLaw.fetchRead (r : Ring) (bytes : BitVec 256) : Yields RingLaw (execFetchDone r bytes s) := by
  refine whileReleased_ind h fun _ => ?_
  repeat' split
  · exact h
  · exact h.fetchDone ‹_› bytes
  · exact h

theorem RingLaw.pushSamplesReadDone (r : Ring) (bytes : List Byte) :
    Yields RingLaw (execPushSamplesReadDone r bytes s) := by
  refine whileReleased_ind h fun _ => ?_
  repeat' split
  · exact h
  · exact (h.readOver r).orStop r ((h.readOver r).claimPush r _ bytes)
  · exact h

theorem RingLaw.queryWriteDone : Yields RingLaw (execQueryWriteDone s) := by
  refine whileReleased_ind h fun _ => ?_
  repeat' split
  · rename_i res w hq _ _
    have hk := writeReported_kept w s
    have hq' : queryResult (writeReported w s) = some res := by
      unfold queryResult at hq ⊢
      rwa [hk.get]
    exact RingLaw.endQuery (h.units hk) hq' _
  · exact h
  · exact h

theorem RingLaw.queryWriteFailed : Yields RingLaw (execQueryWriteFailed s) := by
  refine whileReleased_ind h fun _ => ?_
  repeat' split
  · exact h
  · rename_i hq _ _
    exact h.endQuery hq _
  · exact h

theorem RingLaw.completionWritePosted (q : CqIx) : Yields RingLaw (execCompletionWritePosted q s) := by
  refine whileReleased_ind h fun _ => ?_
  repeat' split
  · exact h
  · exact RingLaw.writePosted (h.units (writeReported_kept _ s)) q _
  · exact h

theorem RingLaw.completionWriteFailed (q : CqIx) : Yields RingLaw (execCompletionWriteFailed q s) := by
  refine whileReleased_ind h fun _ => ?_
  repeat' split
  · exact h
  · exact h
  · exact h.writeFailed q _

theorem RingLaw.holdoffTimerExpiry (q : CqIx) : Yields RingLaw (execHoldoffTimerExpiry q s) := by
  refine whileReleased_ind h fun _ => ?_
  split
  · exact h
  · exact h.units ((atTime_kept _ s).trans (signalCq_kept q _))

theorem RingLaw.fsyncStrobe (level : Bool) (held : Held) : Yields RingLaw (execFsyncStrobe level held s) := by
  have hf := fun fu => h.units (fu_kept s fu)
  unfold execFsyncStrobe
  refine whileReleased_ind (hf _) fun _ => ?_
  split
  · exact (hf _).strobe
  · exact hf _

theorem RingLaw.exec (i : Instr) : Yields RingLaw (Machine.exec i s) := by
  have hp := fun hp => h.units (hp_kept s hp)
  cases i with
  | powerOnReset => exact ringLaw_reset rfl rfl
  | start => exact h.released (h.writeControl _)
  | reset => exact h.released (h.writeControl _)
  | restartRing0 => exact h.released (h.writeControl _)
  | controlOtherCode code => exact h.released (h.writeControl _)
  | post value => exact h.released (h.takePost _ _)
  | retire value => exact h.released (h.units (takeRetire_kept _ _ s))
  | faultWrite value => exact h.released (hp _)
  | anchorLoWrite value => exact h.released (hp _)
  | anchorHiWrite value => exact h.released (hp _)
  | registerWrite offset nbytes value => exact h.released (h.writeWindow _ _ _)
  | configSpaceWrite bit value => exact h.configSpaceWrite bit value
  | linkUp => exact h.linkUp
  | linkDown => exact h.linkDown
  | storeReady => exact h.released h.storeReady
  | anchorReadDone block => exact h.anchorReadDone block
  | anchorReadFailed => exact h.released h.anchorReadFailed
  | hostReadTimeout read => exact h.hostReadTimeout read
  | fetchDone r bytes => exact h.fetchRead r bytes
  | fetchFailed r => exact h.released (h.fetchFailed r)
  | unknownKindRecord r => exact h.unknownKindRecord r
  | openLine r => exact h.openLine r
  | closeLine r => exact h.lineCommand r .closeLine fun x hx _ h0 _ => h.carryOutClose h0 hx
  | setTaps r => exact h.writer r .setTaps (by simp)
  | tapListReadDone r bytes => exact h.tapListReadDone r bytes
  | tapListReadFailed r => exact h.released (h.tapListReadFailed r)
  | push r => exact h.writer r .push (by simp)
  | pushSamplesReadDone r bytes => exact h.pushSamplesReadDone r bytes
  | pushSamplesReadFailed r => exact h.released (h.pushSamplesReadFailed r)
  | clear r => exact h.writer r .clear (by simp)
  | test r => exact h.test r
  | gather r => exact h.reader r .gather (by simp)
  | readSpan r => exact h.reader r .readSpan (by simp)
  | step r => exact h.writer r .step (by simp)
  | stepInputReadDone r bytes => exact h.stepInputReadDone r bytes
  | stepInputReadFailed r => exact h.released (h.stepInputReadFailed r)
  | mark r => exact h.mark r
  | configureRing => exact h.released (h.control fun _ _ hc => h.configureRing hc)
  | configureCompletionRing => exact h.released (h.control fun _ hx _ => h.configureCq hx (by simp))
  | resetRing =>
    exact h.released (h.control fun _ hx _ => (h.setPhase_zero hx (by simp) (by simp) (by simp)).beginStop _ _)
  | configureDevice => exact h.released (h.control fun x _ _ => h.configureDevice x)
  | queryLine => exact h.released (h.control fun _ hx _ => h.writeSnapshot hx _ _)
  | queryRing => exact h.released (h.control fun _ hx _ => h.writeSnapshot hx _ _)
  | queryStore => exact h.released (h.control fun _ hx _ => h.writeSnapshot hx _ _)
  | queryWriteDone => exact h.queryWriteDone
  | queryWriteFailed => exact h.queryWriteFailed
  | storeBurstEnd => exact h.storeBurstEnd
  | refreshEnd =>
    refine h.released ?_
    unfold refreshEnd
    split
    · exact h.units ((sc_kept s _).trans (arbitrate_kept _))
    · exact h
  | refreshTimerExpiry => exact h.released h.refreshExpiry
  | resultWriteCompleted r => exact h.resultWriteCompleted r
  | resultWriteFailed r => exact h.resultWriteFailed r
  | stepResultWriteFailed r => exact h.stepResultWriteFailed r
  | completionWritePosted q => exact h.completionWritePosted q
  | completionWriteFailed q => exact h.completionWriteFailed q
  | holdoffTimerExpiry q => exact h.holdoffTimerExpiry q
  | fsyncStrobe level held => exact h.fsyncStrobe level held
  | frameTimerExpiry => exact h.released h.frameExpiry
  | fundamentalResetAssert => exact hp _

end

/-- Settles O59, by the changes of one place that keep the law, through every command. -/
theorem ringLawKept : Obligations.RingLawKept := by
  unfold Obligations.RingLawKept
  intro s t h ht
  unfold step at ht
  split at ht
  · obtain rfl := Host.Outcome.next.inj ht
    exact h
  · rename_i c cs _
    have h' : RingLaw { s with pending := cs } := h
    exact (h'.exec c).of_next ht

end Sys2Proof.Machine
end

section
/-! Samples and store words (R19, R20). -/

namespace Sys2Proof.Machine

/-- Bytes behind one another are a number in base 256. -/
theorem toNat_append_eq {n m : Nat} (a : BitVec n) (b : BitVec m) : (a ++ b).toNat = a.toNat * 2 ^ m + b.toNat := by
  rw [BitVec.toNat_append, ← Nat.shiftLeft_add_eq_or_of_lt b.isLt, Nat.shiftLeft_eq]

/-- A field of a word is a digit of its number. -/
theorem extractLsb'_eq_ofNat {n : Nat} (w : BitVec n) (lo len : Nat) :
    w.extractLsb' lo len = BitVec.ofNat len (w.toNat / 2 ^ lo) := by
  rw [BitVec.extractLsb', Nat.shiftRight_eq_div_pow]

theorem valueLE_lt (bs : List Byte) : valueLE bs < 256 ^ bs.length := by
  induction bs with
  | nil => exact Nat.one_pos
  | cons b bs ih =>
    have hb := b.isLt
    rw [List.length_cons, Nat.pow_succ]
    show b.toNat + 256 * valueLE bs < _
    omega

theorem bytesLE_valueLE (bs : List Byte) : bytesLE bs.length (valueLE bs) = bs := by
  induction bs with
  | nil => rfl
  | cons b bs ih =>
    have hb := b.isLt
    have hdiv : (b.toNat + 256 * valueLE bs) / 256 = valueLE bs := by omega
    have hlow : BitVec.ofNat 8 (b.toNat + 256 * valueLE bs) = b := by
      apply BitVec.eq_of_toNat_eq
      rw [BitVec.toNat_ofNat]
      omega
    show BitVec.ofNat 8 (b.toNat + 256 * valueLE bs) :: bytesLE bs.length ((b.toNat + 256 * valueLE bs) / 256) = _
    rw [hlow, hdiv, ih]

theorem Format.bytes_pos (f : Format) : 0 < f.bytes := by cases f <;> decide

theorem groupBytes_flatten {b : Nat} {xs : List (List Byte)} (h : ∀ x ∈ xs, x.length = b) :
    groupBytes b xs.length xs.flatten = xs := by
  induction xs with
  | nil => rfl
  | cons x xs ih =>
    have hx : x.length = b := h x List.mem_cons_self
    have hxs := ih fun y hy => h y (List.mem_cons_of_mem x hy)
    simp only [List.length_cons, List.flatten_cons, groupBytes, List.take_left' hx, List.drop_left' hx, hxs]

/-- A buffer of whole samples splits into them. -/
theorem Format.wordsOf_flatten {f : Format} {samples : List (List Byte)} (h : ∀ x ∈ samples, x.length = f.bytes) :
    f.wordsOf samples.flatten = samples.map f.toWord := by
  have hlen : samples.flatten.length = samples.length * f.bytes := by
    rw [List.length_flatten, List.map_congr_left h, List.map_const', List.sum_replicate_nat]
  unfold Format.wordsOf
  rw [hlen, Nat.mul_div_cancel _ f.bytes_pos, groupBytes_flatten h]

/-- A sample that passes through the store unchanged reads as it was written (R20). -/
theorem Format.ofWord_toWord {f : Format} {x : List Byte} (h : x.length = f.bytes) : f.ofWord (f.toWord x) = x := by
  have hv := valueLE_lt x
  rw [h] at hv
  have hnat : (f.toWord x).toNat / 2 ^ (32 - 8 * f.bytes) = valueLE x := by
    have hsplit : 256 ^ f.bytes * 2 ^ (32 - 8 * f.bytes) = 2 ^ 32 := by cases f <;> rfl
    have hword : valueLE x * 2 ^ (32 - 8 * f.bytes) < 2 ^ 32 :=
      hsplit ▸ Nat.mul_lt_mul_of_pos_right hv (Nat.two_pow_pos _)
    rw [Format.toWord, BitVec.toNat_ofNat, Nat.mod_eq_of_lt hword, Nat.mul_div_cancel _ (Nat.two_pow_pos _)]
  unfold Format.ofWord
  rw [hnat, ← h, bytesLE_valueLE]

theorem Format.bytesOf_toWord {f : Format} {samples : List (List Byte)} (h : ∀ x ∈ samples, x.length = f.bytes) :
    f.bytesOf (samples.map f.toWord) = samples.flatten := by
  unfold Format.bytesOf
  rw [List.flatMap_map, List.flatMap_def, List.map_congr_left fun x hx => Format.ofWord_toWord (h x hx), List.map_id']

/-- Settles O53: a word's number is its sample's number times a power of two, and a byte is a digit of it. -/
theorem samplesConvert : Obligations.SamplesConvert := by
  unfold Obligations.SamplesConvert
  refine ⟨fun b0 b1 => ?_, fun b0 b1 b2 => ?_, fun b0 b1 b2 b3 => ?_, fun w => ?_, fun w => ?_, fun w => ?_,
    fun f samples h => ⟨Format.wordsOf_flatten h, ?_⟩⟩
  case refine_7 => rw [Format.wordsOf_flatten h, Format.bytesOf_toWord h]
  case refine_1 =>
    apply BitVec.eq_of_toNat_eq
    simp only [toNat_append_eq, Format.toWord, Format.bytes, valueLE, BitVec.toNat_ofNat]
    omega
  case refine_2 =>
    apply BitVec.eq_of_toNat_eq
    simp only [toNat_append_eq, Format.toWord, Format.bytes, valueLE, BitVec.toNat_ofNat]
    omega
  case refine_3 =>
    apply BitVec.eq_of_toNat_eq
    simp only [toNat_append_eq, Format.toWord, Format.bytes, valueLE, BitVec.toNat_ofNat]
    omega
  all_goals
    simp only [extractLsb'_eq_ofNat, Format.ofWord, Format.bytes, bytesLE, Nat.div_div_eq_div_mul]
    rfl

end Sys2Proof.Machine
end

section
/-! The validation order: what is refused, and the OPEN and the CLOSE that pass it (R55, R59, R61). -/

namespace Sys2Proof.Machine

/-! ### A line command that begins -/

theorem lineCommand_eq {s : State} {r : Ring} {k : Kind} {x : Record} (h : Begins r k x s) (h0 : r ≠ 0)
    (body : Record → State → State) : lineCommand r k body s = validated k r x (body x) s := by
  obtain ⟨-, hx, hk, g, hg, hm⟩ := h
  have hf : freshRecord r s = some x := (freshRecord_iff r x s).mpr hx
  simp only [lineCommand, runKind, hf, hk, if_true, guarded, hg, hm, onLineRing, if_neg h0]

/-- A kind that names a line goes through the validation order, and what it does behind it is its own (R55). -/
theorem exec_row_validated {s : State} {r : Ring} {k : Kind} {x : Record} (h : Begins r k x s) (h0 : r ≠ 0)
    (hk : k.namesLine = true) : ∃ body, exec (k.row r) s = .next (validated k r x body s) := by
  have row : ∀ body, exec (k.row r) s = whileReleased s (fun s => .next (lineCommand r k body s)) →
      ∃ body, exec (k.row r) s = .next (validated k r x body s) := fun body he =>
    ⟨body x, he.trans ((whileReleased_eq h.1 _).trans (congrArg _ (lineCommand_eq h h0 body)))⟩
  cases k
  case openLine | closeLine | setTaps | push | clear | test | gather | readSpan | step => exact row _ rfl
  all_goals exact nomatch hk

section
variable {s : State} {r : Ring} {k : Kind} {x : Record}

theorem validated_badLine (h : 64 ≤ x.line.toNat) (body : State → State) :
    validated k r x body s = endCommand r (plain .badLine x) s := if_pos h

theorem validated_line_refused (h : x.line.toNat < 64) {st : Status} (hl : checkLine k x (s.lineOf x) = some st)
    (body : State → State) :
    validated k r x body s = endCommand r (about st x (s.lineOf x) 0 0 0) s := by
  simp only [validated, if_neg (Nat.not_le.mpr h), hl]
  rfl

theorem validated_command_refused (h : x.line.toNat < 64) (hl : checkLine k x (s.lineOf x) = none) {st : Status}
    (hc : checkCommand k r x (s.lineOf x) = some st) (body : State → State) :
    validated k r x body s = endCommand r (about st x (s.lineOf x) 0 0 (s.lineOf x).seq) s := by
  simp only [validated, if_neg (Nat.not_le.mpr h), hl, hc]
  rfl

theorem Validated.eq (h : Validated k r x s) (body : State → State) : validated k r x body s = body s := by
  have hc := (checkCommand_none_iff k x (s.lineOf x)).mpr ⟨h.owner, h.closing, h.ranges, h.align⟩
  simp only [validated, if_neg (Nat.not_le.mpr h.line), h.state, hc]

/-- A command that passes the validation order is carried out. -/
theorem Validated.carriedOut (h : Validated k r x s) (hb : Begins r k x s) (h0 : r ≠ 0)
    (body : Record → State → State) :
    whileReleased s (fun s => .next (lineCommand r k body s)) = .next (body x s) := by
  rw [whileReleased_eq hb.1, lineCommand_eq hb h0, h.eq]

theorem Kind.ownerOnly_iff (k : Kind) : k.ownerOnly = true ↔ k ∈ [.closeLine, .setTaps, .push, .clear, .step] := by
  cases k <;> decide

theorem checkOwner_some {l : Line} {g : LineCfg} (hg : l.cfg = some g)
    (hk : k ∈ [.closeLine, .setTaps, .push, .clear, .step]) (hr : g.owner ≠ r) : checkOwner k r l = some .notOwner :=
  if_pos (by simp [(Kind.ownerOnly_iff k).mpr hk, hg, hr])

theorem checkOwner_none {l : Line} {g : LineCfg} (hg : l.cfg = some g)
    (hr : k ∈ [.closeLine, .setTaps, .push, .clear, .step] → g.owner = r) : checkOwner k r l = none := by
  refine if_neg fun h => ?_
  simp only [Bool.and_eq_true, bne_iff_ne, hg, Option.map_some, ne_eq, Option.some.injEq] at h
  exact h.2 (hr ((Kind.ownerOnly_iff k).mp h.1))

theorem checkClosing_some {l : Line} (hk : k ≠ .openLine) (hl : l.state = .closing) :
    checkClosing k l = some .lineClosing := if_pos ⟨hk, hl⟩

theorem checkLine_known {l : Line} (hk : k ≠ .openLine) (hs : l.state ≠ .free) (hg : x.gen = l.gen) :
    checkLine k x l = none := by
  simp [checkLine, hk, hs, hg]

/-- A command that is refused while it begins ends with the refusal. -/
theorem refused_ended (h : Begins r k x s) (h0 : r ≠ 0) (hk : k.namesLine = true) {res : Result}
    (hv : ∀ body, validated k r x body s = endCommand r res s) :
    ∃ t, exec (k.row r) s = .next t ∧ Ended r x res s t := by
  obtain ⟨body, he⟩ := exec_row_validated h h0 hk
  exact ⟨_, he.trans (congrArg _ (hv body)), endCommand_ended h.2.1 res⟩

end

/-- Settles O19, by the first check of `validated` that answers with a status. -/
theorem lineChecksRefuse : Obligations.LineChecksRefuse := by
  unfold Obligations.LineChecksRefuse
  intro s r k x hb h0 hk
  have refused := fun {res} => refused_ended hb h0 hk (res := res)
  refine ⟨fun hx => refused (validated_badLine hx), fun hx => ⟨fun ho hs => ?_, fun ho hs => ?_,
    fun g ho hs hg hc => ⟨fun hk hr => ?_, fun hr hl => ?_⟩⟩⟩
  · exact refused (validated_line_refused hx (by simp [checkLine, ho, hs]))
  · exact refused (validated_line_refused hx (by simp only [checkLine, if_neg ho, if_pos hs]))
  · refine refused (validated_command_refused hx (checkLine_known ho hs hg) ?_)
    simp [checkCommand, checkOwner_some hc hk hr]
  · refine refused (validated_command_refused hx (checkLine_known ho hs hg) ?_)
    simp [checkCommand, checkOwner_none hc hr, checkClosing_some ho hl]

/-! ### OPEN -/

theorem Format.ofCode_of_code {c : BitVec 16} {fmt : Format} (h : c.toNat = fmt.code) : Format.ofCode c = some fmt := by
  unfold Format.ofCode
  rw [h]
  cases fmt <;> rfl

/-- Settles O21: the checks of an OPEN are passed, and SA's answer decides. -/
theorem openMakesLineLive : Obligations.OpenMakesLineLive := by
  unfold Obligations.OpenMakesLineLive
  intro s r x fmt hb h0 hx hfree hlo hhi hfmt
  have hf := Format.ofCode_of_code hfmt
  have hv : Validated .openLine r x s :=
    { line := hx
      state := by simp [checkLine, hfree]
      owner := rfl
      closing := rfl
      ranges := by simp [checkRanges, hf, Nat.not_lt.mpr hlo, Nat.not_lt.mpr hhi]
      align := rfl }
  have he : exec (.openLine r) s = .next (carryOutOpen r x s) := hv.carriedOut hb h0 (carryOutOpen r)
  refine ⟨fun ext rest ha => ⟨_, he, ?_⟩, fun ha => ⟨_, he, ?_⟩⟩
  · have ha : allocate (granulesOf x.paramA.toNat) s.free = some (ext, rest) := ha
    simp only [carryOutOpen, hf, ha]
    exact endCommand_ended (s := { s.updLine x.lineIx _ with free := rest }) hb.2.1 _
  · have ha : allocate (granulesOf x.paramA.toNat) s.free = none := ha
    simp only [carryOutOpen, hf, ha]
    exact endCommand_ended hb.2.1 _

end Sys2Proof.Machine
end

section
/-! Leaving a lock, the grant step row by row, and the CLOSE (R44, R45, R48, R49, R61). -/

namespace Sys2Proof.Machine

/-! ### Leaving a lock -/

theorem Lock.filter_others {r : Ring} {hs : List Ring} (h : r ∉ hs) : hs.filter (fun k => k != r) = hs :=
  List.filter_eq_self.mpr fun k hk => by simpa using fun e : k = r => h (e ▸ hk)

theorem Lock.filter_waiters {r : Ring} {ws : List Waiter} (h : ∀ w ∈ ws, w.ring ≠ r) :
    ws.filter (fun w => w.ring != r) = ws :=
  List.filter_eq_self.mpr fun w hw => by simpa using h w hw

/-- A holder leaves (R44). -/
theorem Lock.leave_holder {r : Ring} {k : Lock} {hs hs' : List Ring} (hk : k.holders = hs ++ r :: hs')
    (hr : r ∉ hs ++ hs') (hq : ∀ w ∈ k.queue, w.ring ≠ r) :
    k.leave r = ⟨if hs ++ hs' = [] then .none else k.mode, hs ++ hs', k.queue⟩ := by
  have hf : k.holders.filter (fun h => h != r) = hs ++ hs' := by
    rw [hk, List.filter_append, List.filter_cons_of_neg (by simp), ← List.filter_append, Lock.filter_others hr]
  simp only [Lock.leave, hf, Lock.filter_waiters hq, List.isEmpty_iff]

/-- A waiter leaves (R50). -/
theorem Lock.leave_waiter {r : Ring} {k : Lock} {ws ws' : List Waiter} {kind : WaitKind}
    (hk : k.queue = ws ++ ⟨r, kind⟩ :: ws') (hq : ∀ w ∈ ws ++ ws', w.ring ≠ r) (hr : r ∉ k.holders) (hl : k.Lawful) :
    k.leave r = ⟨k.mode, k.holders, ws ++ ws'⟩ := by
  have hf : k.queue.filter (fun w => w.ring != r) = ws ++ ws' := by
    rw [hk, List.filter_append, List.filter_cons_of_neg (by simp), ← List.filter_append, Lock.filter_waiters hq]
  have hm : k.holders = [] → k.mode = .none := fun he => by
    unfold Lock.Lawful at hl
    cases hmode : k.mode with
    | none => rfl
    | write =>
      rw [hmode] at hl
      obtain ⟨q, hq⟩ := hl
      exact nomatch he.symm.trans hq
    | read =>
      rw [hmode] at hl
      exact absurd he hl
  simp only [Lock.leave, hf, Lock.filter_others hr, List.isEmpty_iff]
  split
  · rename_i he
    rw [hm he]
  · rfl

/-- What a release leaves to the grant step (R44). -/
theorem release_eq {r : Ring} {l : LineIx} {s : State} {k : Lock} (h : s.lines[l].lock.leave r = k) :
    release r l s = grantStep l { s with lines := s.lines.set l { s.lines[l] with lock := k } } := by
  rw [← h]
  rfl

/-! ### One round of the grant step -/

section
variable {s : State} {l : LineIx}

theorem grantStep_closing (hs : s.lines[l].state = .closing) (hh : s.lines[l].lock.holders = []) :
    grantStep l s = endClose l s := by
  unfold grantStep grantLoop
  rw [if_pos ⟨hs, hh⟩]

theorem grantStep_nil (hc : ¬ (s.lines[l].state = .closing ∧ s.lines[l].lock.holders = []))
    (hq : s.lines[l].lock.queue = []) : grantStep l s = s := by
  unfold grantStep grantLoop
  rw [if_neg hc]
  simp only [hq]

/-- The front waiter's claim cannot be granted with the lock in this mode (R45). -/
def Waiter.barred (w : Waiter) (m : LockMode) : Prop :=
  match w.kind, m with
  | .writer, .none | .reader, .none | .reader, .read => False
  | _, _ => True

theorem grantStep_barred (hc : ¬ (s.lines[l].state = .closing ∧ s.lines[l].lock.holders = [])) {w : Waiter}
    {ws : List Waiter} (hq : s.lines[l].lock.queue = w :: ws) (hb : w.barred s.lines[l].lock.mode) :
    grantStep l s = s := by
  unfold grantStep grantLoop
  rw [if_neg hc]
  simp only [hq]
  unfold Waiter.barred at hb
  split
  case h_4 => rfl
  all_goals
    rename_i hk hm
    simp only [hk, hm] at hb

/-- The lock with its front waiter granted (R45). -/
def Lock.granting (k : Lock) (w : Waiter) (ws : List Waiter) : Option Lock :=
  match w.kind, k.mode with
  | .writer, .none => some ⟨.write, [w.ring], ws⟩
  | .reader, .none => some ⟨.read, [w.ring], ws⟩
  | .reader, .read => some ⟨.read, k.holders ++ [w.ring], ws⟩
  | _, _ => none

/-- The state with the lock so, before the granted command goes on. -/
def withLock (l : LineIx) (k : Lock) (s : State) : State :=
  { s with lines := s.lines.set l { s.lines[l] with lock := k } }

/-- A granted claim goes on with its command, and the examination goes on with what that leaves (R44, R45). -/
theorem grantStep_grants (hc : ¬ (s.lines[l].state = .closing ∧ s.lines[l].lock.holders = [])) {w : Waiter}
    {ws : List Waiter} (hq : s.lines[l].lock.queue = w :: ws) {k : Lock}
    (hk : s.lines[l].lock.granting w ws = some k) :
    grantStep l s = grantStep l (grantWaiter w.ring (withLock l k s)) := by
  have hws : k.queue = ws := by
    unfold Lock.granting at hk
    split at hk <;> cases hk <;> rfl
  have round : grantStep l s = grantLoop s.lines[l].lock.queue.length l (grantWaiter w.ring (withLock l k s)) := by
    unfold grantStep
    rw [grantLoop, if_neg hc]
    simp only [hq]
    unfold Lock.granting at hk
    split at hk <;> cases hk <;> simp only [*] <;> rfl
  have hlen := (grantWaiter_queue w.ring l (withLock l k s)).length_le
  rw [show (withLock l k s).lines[l].lock.queue = ws by simp [-Fin.getElem_fin, withLock, hws]] at hlen
  rw [round]
  exact grantLoop_fuel _ _ l _ (by rw [hq, List.length_cons]; omega) (Nat.lt_succ_self _)

theorem grantWaiter_free {r : Ring} (h : ¬ MeetsReset r s) : grantWaiter r s = beginGranted r s :=
  if_neg fun hm => h ((resetMeets_iff r s).mp hm)

theorem grantWaiter_meets {r : Ring} (h : MeetsReset r s) {x : Record} {p : Phase} (hx : s.eng[r].exec = some ⟨x, p⟩) :
    grantWaiter r s =
      { s with eng := s.eng.set r { s.eng[r] with state := .active, exec := some ⟨x, .granted⟩ } } := by
  unfold grantWaiter
  rw [if_pos ((resetMeets_iff r s).mpr h), State.setPhase, State.updEng_updEng, State.updEng]
  simp [-Fin.getElem_fin, hx]

end

/-- The rows of R45 in which the front waiter is granted. -/
theorem grantStep_given {s : State} {l : LineIx} (hc : ¬ (s.lines[l].state = .closing ∧ s.lines[l].lock.holders = []))
    {w : Waiter} {ws : List Waiter} (hq : s.lines[l].lock.queue = w :: ws) {k : Lock}
    (hk : s.lines[l].lock.granting w ws = some k) :
    (¬ MeetsReset w.ring s → grantStep l s = grantStep l (beginGranted w.ring (withLock l k s))) ∧
    (MeetsReset w.ring s → ∀ x p, s.eng[w.ring].exec = some ⟨x, p⟩ →
      grantStep l s = grantStep l { withLock l k s with eng := s.eng.set w.ring { s.eng[w.ring] with
        state := .active, exec := some ⟨x, .granted⟩ } }) := by
  have hg := grantStep_grants hc hq hk
  refine ⟨fun hm => ?_, fun hm x p hx => ?_⟩
  · rw [hg, grantWaiter_free (s := withLock l k s) hm]
  · rw [hg, grantWaiter_meets (s := withLock l k s) hm hx]
    rfl

/-! ### The end of a close -/

/-- What the end of a close leaves of the lines and the free-extent list (R4, R49). -/
theorem freed_eq {s : State} {l : LineIx} {g : LineCfg} (hg : s.lines[l].cfg = some g) :
    freed l s = { s with
      lines := s.lines.set l {
        state := .free, gen := s.lines[l].gen, cfg := none, head := 0, fill := 0, seq := 0, taps := [],
        lock := { mode := .none, holders := [], queue := [] } }
      free := releaseExtent g.ext s.free } := by
  unfold freed
  rw [hg]
  rfl

theorem endClose_nil {s : State} {l : LineIx} (hq : s.lines[l].lock.queue = []) : endClose l s = freed l s := by
  obtain h | ⟨w, hw, -⟩ := endClose_cases l s
  · exact h
  · rw [hq] at hw
    exact nomatch hw

theorem endClose_waiting {s : State} {l : LineIx} {r : Ring} {x : Record} {q : Nat}
    (hq : s.lines[l].lock.queue = [⟨r, .close⟩]) (hx : s.eng[r].exec = some ⟨x, .waitClose q⟩) :
    endClose l s = endCommand r (about .ok x s.lines[l] 0 0 q) (freed l s) := by
  unfold endClose freed
  simp only [hq]
  cases s.lines[l].cfg <;> simp [-Fin.getElem_fin, hx] <;> rfl

/-- Settles O29, by `Lock.leave` for the ring that leaves and one round of `grantLoop` for each row of R45. -/
theorem grantStepTable : Obligations.GrantStepTable := by
  unfold Obligations.GrantStepTable
  refine ⟨fun s r l hs hs' ws ws' => ⟨fun hk hr hq => ⟨fun he => ?_, fun he => ?_⟩, fun kind hk hq hr hl => ?_⟩,
    fun s l => ⟨fun g hs hh hg => ⟨fun hq => ?_, fun r x q hq hx => ?_⟩, fun hc => ⟨grantStep_nil hc, fun w ws hq => ?_⟩⟩⟩
  · exact release_eq ((Lock.leave_holder hk hr hq).trans (by rw [if_pos he, he]))
  · exact release_eq ((Lock.leave_holder hk hr hq).trans (by rw [if_neg he]))
  · exact release_eq (Lock.leave_waiter hk hq hr hl)
  · rw [grantStep_closing hs hh, endClose_nil hq, freed_eq hg]
  · rw [grantStep_closing hs hh, endClose_waiting hq hx, ← freed_eq hg]
    exact endCommand_ended (s := freed l s) hx _
  · have given := fun {k} => grantStep_given hc hq (k := k)
    have barred := grantStep_barred hc hq
    refine ⟨fun hw hm => given (by simp only [Lock.granting, hw, hm]), fun hw hm => barred ?_,
      fun hw hm => given (by simp only [Lock.granting, hw, hm]), fun hw hm => given (by simp only [Lock.granting, hw, hm]),
      fun hw hm => barred (by simp only [Waiter.barred, hw, hm]), fun hw => barred (by simp only [Waiter.barred, hw])⟩
    cases hmode : s.lines[l].lock.mode with
    | none => exact absurd hmode hm
    | read | write => simp only [Waiter.barred, hw]

end Sys2Proof.Machine
end

section
/-! CLOSE: the queued readers are refused, the line is freed or waits for its holders (R48, R49, R61). -/

namespace Sys2Proof.Machine

/-! ### How a command ends, whatever its engine has shown -/

/-- The engine of ring `r` shown in another state, with its command in another progress. -/
def shown (r : Ring) (a : EngState) (b : Option Exec) (s : State) : State :=
  s.updEng r (fun e => { e with state := a, exec := b })

theorem shown_self (r : Ring) (a : EngState) (b : Option Exec) (s : State) :
    (shown r a b s).eng[r] = { s.eng[r] with state := a, exec := b } := by
  unfold shown
  rw [State.updEng_get, if_pos rfl]

/-- How an engine goes on does not depend on the state it was shown in. -/
theorem GoesOn.of_shown {r : Ring} {a : EngState} {b : Option Exec} {f : Engine → Engine} {s t : State}
    (hf : ∀ e : Engine, f { e with state := a, exec := b } = { f e with state := a })
    (h : GoesOn r ((shown r a b s).updEng r f) t) : GoesOn r (s.updEng r f) t := by
  have he : ((shown r a b s).updEng r f).eng[r] = { (s.updEng r f).eng[r] with state := a } := by
    rw [State.updEng_get, State.updEng_get, if_pos rfl, if_pos rfl, shown_self, hf]
  unfold GoesOn FetchesOn at h ⊢
  rw [he] at h
  exact h

/-- A claim reads of the engines no more than the head of its ring. -/
theorem ClaimTaken.of_shown {q : CqIx} {c : Claim} {a : EngState} {b : Option Exec} {s t : State}
    (h : ClaimTaken q c (shown c.ring a b s) t) : ClaimTaken q c s t := by
  unfold ClaimTaken at h ⊢
  rw [shown_self] at h
  exact h

/-- How a command ends does not depend on the state and the progress that its engine has shown. -/
theorem Ended.of_shown {r : Ring} {x : Record} {res : Result} {a : EngState} {b : Option Exec} {s t : State}
    (h : Ended r x res (shown r a b s) t) : Ended r x res s t := by
  obtain ⟨hothers, hframe, hend⟩ := h
  refine ⟨fun k hk => (hothers k hk).trans (updEng_others hk _ _), hframe, ?_⟩
  split
  · rename_i hq
    rw [if_pos hq] at hend
    obtain ⟨hcq, hhp, hgo⟩ := hend
    exact ⟨hcq, hhp, hgo.of_shown fun _ => rfl⟩
  · rename_i hq
    rw [if_neg hq, shown_self] at hend
    obtain ⟨hfu, he, hc⟩ := hend
    exact ⟨hfu, he, fun g hg => (hc g hg).of_shown⟩

/-! ### The refused readers -/

/-- A queued reader is refused in ACTIVE; that does not show at the end of its command (R48). -/
theorem refuseReader_ended {l : LineIx} {k : Ring} {s : State} {y : Exec} (hy : s.eng[k].exec = some y) :
    Ended k y.rcd (about .lineClosing y.rcd s.lines[l] 0 0 s.lines[l].seq) s (refuseReader l k s) := by
  have hself : (activated k s).eng[k].exec = some y := by
    rw [activated_self]
    exact hy
  have hs : activated k s = shown k .active s.eng[k].exec s := updEng_congr rfl
  have he := endCommand_ended hself (about .lineClosing y.rcd s.lines[l] 0 0 s.lines[l].seq)
  unfold refuseReader
  simp only [hy]
  rw [hs] at he
  exact he.of_shown

/-- The readers are refused one after the other. -/
theorem refuseReaders_refused {l : LineIx} {y : Line} (ks : List Ring) {s : State}
    (hg : s.lines[l].gen = y.gen) (hq : s.lines[l].seq = y.seq) :
    RefusedAll y ks s (ks.foldl (fun t q => refuseReader l q t) s) := by
  induction ks generalizing s with
  | nil => rfl
  | cons k ks ih =>
    unfold RefusedAll
    split
    · rename_i hx
      have hr : refuseReader l k s = s := by
        unfold refuseReader
        simp only [hx]
      rw [List.foldl_cons, hr]
      exact ih hg hq
    · rename_i x hx
      have he := refuseReader_ended (l := l) hx
      unfold about at he
      rw [hg, hq] at he
      refine ⟨refuseReader l k s, he, ih ?_ ?_⟩ <;> rwa [refuseReader_lines]

/-! ### The close -/

/-- Where only readers wait, a CLOSE refuses all of them and leaves none (R48). -/
theorem queue_of_readers {ws : List Waiter} (h : ∀ w ∈ ws, w.kind = .reader) :
    ws.filter (fun w => w.kind != .reader) = [] ∧ ws.filter (fun w => w.kind == .reader) = ws :=
  ⟨List.filter_eq_nil_iff.mpr fun w hw => by simp [h w hw], List.filter_eq_self.mpr fun w hw => by simp [h w hw]⟩

theorem closing_line (r : Ring) (x : Record) (s : State) :
    (closing r x s).lines[x.lineIx] = { s.lineOf x with
      state := .closing
      lock := { (s.lineOf x).lock with
        queue := (s.lineOf x).lock.queue.filter (fun w => w.kind != .reader) ++ [⟨r, .close⟩] } } := by
  rw [closing_lines, State.updLine_get, if_pos rfl]
  rfl

/-- What a CLOSE leaves before the readers are refused: its line CLOSING, its engine in WAIT_LOCK (R48). -/
theorem closing_eq {r : Ring} {x : Record} {s : State} (hx : Executes r x s) :
    closing r x s = { s with
      lines := s.lines.set x.lineIx (closing r x s).lines[x.lineIx]
      eng := s.eng.set r { s.eng[r] with state := .waitLock, exec := some ⟨x, .waitClose (s.lineOf x).seq⟩ } } := by
  rw [closing_line]
  unfold closing
  rw [State.setPhase, State.updEng_updEng, State.updEng, State.updLine]
  simp only [show s.eng[r].exec = some ⟨x, .fresh⟩ from hx, Option.map_some]
  rfl

/-- With the lock empty the line is FREE at once, and the CLOSE ends with OK (R61). -/
theorem carryOutClose_empty {s : State} {r : Ring} {x : Record} {g : LineCfg} (hx : Executes r x s)
    (hg : (s.lineOf x).cfg = some g) (hk : (s.lineOf x).lock = ⟨.none, [], []⟩) :
    Ended r x (about .ok x (s.lineOf x) 0 0 (s.lineOf x).seq) { s with
      lines := s.lines.set x.lineIx {
        state := .free, gen := (s.lineOf x).gen, cfg := none, head := 0, fill := 0, seq := 0, taps := [],
        lock := { mode := .none, holders := [], queue := [] } }
      free := releaseExtent g.ext s.free } (carryOutClose r x s) := by
  have hl := closing_line r x s
  rw [hk] at hl
  have hread : queuedReaders (s.lineOf x) = [] := by
    unfold queuedReaders
    rw [hk]
    rfl
  have hexec : (closing r x s).eng[r].exec = some ⟨x, .waitClose (s.lineOf x).seq⟩ := by rw [closing_self hx]
  have hc := closing_eq hx
  rw [hl] at hc
  rw [carryOutClose_eq, hread, List.foldl_nil, grantStep_closing (by rw [hl]) (by rw [hl]),
    endClose_waiting (by rw [hl]; rfl) hexec, freed_eq (g := g) (by rw [hl]; exact hg), hc]
  simp only [vset_vset, vset_self]
  refine Ended.of_shown (a := .waitLock) (b := some ⟨x, .waitClose (s.lineOf x).seq⟩) ?_
  exact endCommand_ended (e := ⟨x, .waitClose (s.lineOf x).seq⟩) (congrArg Engine.exec (shown_self r _ _ _)) _

/-- With holders the CLOSE waits for them, and the queued readers are refused (R48). -/
theorem carryOutClose_held {s : State} {r : Ring} {x : Record} (hx : Executes r x s)
    (hh : (s.lineOf x).lock.holders ≠ []) (hq : ∀ w ∈ (s.lineOf x).lock.queue, w.kind = .reader) :
    RefusedAll (s.lineOf x) ((s.lineOf x).lock.queue.map (·.ring))
      { s with
        lines := s.lines.set x.lineIx { s.lineOf x with
          state := .closing, lock := { (s.lineOf x).lock with queue := [⟨r, .close⟩] } }
        eng := s.eng.set r { s.eng[r] with state := .waitLock, exec := some ⟨x, .waitClose (s.lineOf x).seq⟩ } }
      (carryOutClose r x s) := by
  obtain ⟨hnone, hall⟩ := queue_of_readers hq
  have hl := closing_line r x s
  rw [hnone, List.nil_append] at hl
  have hread : queuedReaders (s.lineOf x) = (s.lineOf x).lock.queue.map (·.ring) := congrArg (List.map _) hall
  have hr := refuseReaders_refused (l := x.lineIx) (y := s.lineOf x) ((s.lineOf x).lock.queue.map (·.ring))
    (s := closing r x s) (by rw [hl]) (by rw [hl])
  have hkept := refuseReaders_lines x.lineIx ((s.lineOf x).lock.queue.map (·.ring)) (closing r x s)
  rw [carryOutClose_eq, hread, grantStep_barred (w := ⟨r, .close⟩) (ws := [])]
  · have hc := closing_eq hx
    rw [hl] at hc
    rwa [hc] at hr ⊢
  · rw [hkept, hl]
    exact fun h => hh h.2
  · rw [hkept, hl]
  · simp only [Waiter.barred]

theorem Passes.validated_close {s : State} {r : Ring} {x : Record} {g : LineCfg} (h : Passes r .closeLine x g s) :
    Validated .closeLine r x s := by
  obtain ⟨-, -, ⟨hline, hlive, hgen⟩, hg, howner⟩ := h
  exact {
    line := hline
    state := checkLine_known (by decide) (by simp [hlive]) hgen.symm
    owner := checkOwner_none hg howner
    closing := if_neg fun h => by simp [hlive] at h
    ranges := rfl
    align := rfl }

/-- Settles O23: a CLOSE that passes the validation order finds the lock empty, or held. -/
theorem closeFreesOrWaits : Obligations.CloseFreesOrWaits := by
  unfold Obligations.CloseFreesOrWaits
  intro s r x g hp
  have he : exec (.closeLine r) s = .next (carryOutClose r x s) :=
    hp.validated_close.carriedOut hp.1 hp.2.1 (carryOutClose r)
  obtain ⟨⟨-, hx, -⟩, -, -, hg, -⟩ := hp
  exact ⟨fun hk => ⟨_, he, carryOutClose_empty hx hg hk⟩,
    fun hh hq => ⟨_, he, carryOutClose_held hx hh fun w hw => (hq w hw).1⟩⟩

end Sys2Proof.Machine
end

section
/-! The end of a store burst: what the burst does, and how a PUSH goes on (R13, R31, R32, R65). -/

namespace Sys2Proof.Machine

/-! ### One engine replaced -/

/-- `s` with ring `r`'s engine replaced. -/
def withEng (r : Ring) (e : Engine) (s : State) : State := { s with eng := s.eng.set r e }

theorem withEng_self (r : Ring) (e : Engine) (s : State) : (withEng r e s).eng[r] = e := vset_self _ _ _

theorem withEng_withEng (r : Ring) (e f : Engine) (s : State) : withEng r f (withEng r e s) = withEng r f s :=
  congrArg (fun v => { s with eng := v }) (vset_vset _ _ _ _)

theorem setPhase_eq {s : State} {r : Ring} {x : Record} {p : Phase} (hx : s.eng[r].exec = some ⟨x, p⟩) (q : Phase) :
    s.setPhase r q = withEng r { s.eng[r] with exec := some ⟨x, q⟩ } s := by
  show withEng r { s.eng[r] with exec := s.eng[r].exec.map (fun y => { y with phase := q }) } s = _
  rw [hx]
  rfl

/-- A host read issued in a phase that a command enters. -/
theorem issueRead_setPhase {s : State} {r : Ring} {x : Record} {p : Phase} (hx : s.eng[r].exec = some ⟨x, p⟩)
    (q : Phase) (a : Addr) (n : Nat) :
    issueRead r a n (s.setPhase r q) =
      withEng r { s.eng[r] with exec := some ⟨x, q⟩, rd := some (s.hostRead a n) } s := by
  rw [setPhase_eq hx]
  show withEng r { (withEng r _ s).eng[r] with rd := some (s.hostRead a n) } (withEng r _ s) = _
  rw [withEng_self, withEng_withEng]

/-- Ring `r`'s command has entered a phase, and HP has taken its host write (R182). -/
def wrote (r : Ring) (x : Record) (q : Phase) (a : Addr) (d : List Byte) (s : State) : State :=
  { withEng r { s.eng[r] with exec := some ⟨x, q⟩, wr := some { addr := a, data := d, num := s.hp.taken } } s with
    hp := handed s a d }

theorem wrote_self (r : Ring) (x : Record) (q : Phase) (a : Addr) (d : List Byte) (s : State) :
    (wrote r x q a d s).eng[r] =
      { s.eng[r] with exec := some ⟨x, q⟩, wr := some { addr := a, data := d, num := s.hp.taken } } := withEng_self _ _ _

theorem withEng_wrote (r : Ring) (x : Record) (q : Phase) (a : Addr) (d : List Byte) (s : State) (e : Engine) :
    withEng r e (wrote r x q a d s) = { withEng r e s with hp := handed s a d } :=
  congrArg (fun v => { s with eng := v, hp := handed s a d }) (vset_vset _ _ _ _)

/-- The progress that the command had before does not show behind the write. -/
theorem wrote_withEng (r : Ring) (x : Record) (q : Phase) (a : Addr) (d : List Byte) (b : Option Exec) (s : State) :
    wrote r x q a d (withEng r { s.eng[r] with exec := b } s) = wrote r x q a d s := by
  unfold wrote
  rw [withEng_self, withEng_withEng]
  rfl

theorem issueWrite_setPhase {s : State} {r : Ring} {x : Record} {p : Phase} (hx : s.eng[r].exec = some ⟨x, p⟩)
    (q : Phase) (a : Addr) (d : List Byte) : issueWrite r a d (s.setPhase r q) = wrote r x q a d s := by
  rw [setPhase_eq hx]
  show State.takeWrite (withEng r { (withEng r _ s).eng[r] with wr := some (s.hostWrite a d) } (withEng r _ s)) a d = _
  rw [withEng_self, withEng_withEng]
  rfl

/-! ### Lines that are configured -/

theorem Line.len_eq {l : Line} {g : LineCfg} (h : l.cfg = some g) : l.len = g.len := by
  unfold Line.len
  rw [h]

theorem Line.sampleBytes_eq {l : Line} {g : LineCfg} (h : l.cfg = some g) : l.sampleBytes = g.fmt.bytes := by
  unfold Line.sampleBytes
  rw [h]

theorem Line.commit_eq {l : Line} {g : LineCfg} (h : l.cfg = some g) (m : Nat) : l.commit m = Committed m g l := by
  unfold Line.commit
  split
  · rename_i hn
    exact nomatch hn.symm.trans h
  · rename_i g' hg
    obtain rfl := Option.some.inj (hg.symm.trans h)
    rfl

/-! ### The arbiter -/

/-- The arbiter chooses among the claims, and touches nothing else (R32). -/
theorem arbitrate_frame (s : State) : arbitrate s = { s with sc := (arbitrate s).sc } := by
  unfold arbitrate grantPort
  repeat' split
  all_goals rfl

theorem arbitrate_hostRead (s : State) (a : Addr) (n : Nat) : (arbitrate s).hostRead a n = s.hostRead a n := by
  rw [arbitrate_frame]
  rfl

theorem arbitrate_readWord (s : State) (a : Nat) : (arbitrate s).readWord a = s.readWord a := by
  rw [arbitrate_frame]
  rfl

theorem arbitrate_lineOf (s : State) (x : Record) : (arbitrate s).lineOf x = s.lineOf x := by
  unfold State.lineOf
  rw [arbitrate_lines]

theorem arbitrate_engine (s : State) (r : Ring) : (arbitrate s).eng[r] = s.eng[r] :=
  (arbitrate_kept s).get r

/-! ### What a burst does -/

/-- `s` with the port free and the arbiter's next choice made (R32). -/
def portFreed (s : State) : State := arbitrate { s with sc := { s.sc with port := .idle } }

theorem portFreed_engine (s : State) (r : Ring) : (portFreed s).eng[r] = s.eng[r] := arbitrate_engine _ r

theorem portFreed_lineOf (s : State) (x : Record) : (portFreed s).lineOf x = s.lineOf x := arbitrate_lineOf _ x

theorem portFreed_hostRead (s : State) (a : Addr) (n : Nat) : (portFreed s).hostRead a n = s.hostRead a n :=
  arbitrate_hostRead _ a n

theorem portFreed_readWord (s : State) (a : Nat) : (portFreed s).readWord a = s.readWord a := arbitrate_readWord _ a

/-- Ring `r`'s write burst is in the store and committed to the line of `x`, and its command has entered a phase (R13). -/
def burstCommitted (r : Ring) (x : Record) (g : LineCfg) (q : Phase) (ws : List (Nat × Word)) (s : State) : State :=
  { s with
    store := Memory.writeAll ws s.store
    lines := s.lines.set x.lineIx (Committed ws.length g (s.lineOf x))
    eng := s.eng.set r { s.eng[r] with exec := some ⟨x, q⟩ } }

section
variable {s : State} {r : Ring} {x : Record} {g : LineCfg}

theorem burstCommitted_self (q : Phase) (ws : List (Nat × Word)) :
    (burstCommitted r x g q ws s).eng[r] = { s.eng[r] with exec := some ⟨x, q⟩ } := vset_self _ _ _

theorem burstCommitted_lineOf (q : Phase) (ws : List (Nat × Word)) :
    (burstCommitted r x g q ws s).lineOf x = Committed ws.length g (s.lineOf x) := vset_self _ _ _

theorem commit_setPhase {p : Phase} (hx : s.eng[r].exec = some ⟨x, p⟩) (hg : (s.lineOf x).cfg = some g)
    (ws : List (Nat × Word)) (q : Phase) :
    (State.updLine { s with store := Memory.writeAll ws s.store } x.lineIx (Line.commit ws.length)).setPhase r q =
      burstCommitted r x g q ws s := by
  have hx' : (State.updLine { s with store := Memory.writeAll ws s.store } x.lineIx
    (Line.commit ws.length)).eng[r].exec = some ⟨x, p⟩ := hx
  rw [setPhase_eq hx', burstCommitted, ← Line.commit_eq hg]
  rfl

/-- A PUSH's burst is committed (R13, R14). -/
theorem burstEffect_push {done m : Nat} (hx : s.eng[r].exec = some ⟨x, .pushing done m⟩)
    (hg : (s.lineOf x).cfg = some g) (ws : List (Nat × Word)) :
    burstEffect r (.write ws) s = burstCommitted r x g (.pushing (done + ws.length) m) ws s := by
  unfold burstEffect commitBurst
  simp only [hx]
  exact commit_setPhase hx hg ws _

/-- The sample of a step is committed (R15). -/
theorem burstEffect_step {c : StepCtx} (hx : s.eng[r].exec = some ⟨x, .stepping c⟩)
    (hg : (s.lineOf x).cfg = some g) (ws : List (Nat × Word)) :
    burstEffect r (.write ws) s = burstCommitted r x g (.stepping { c with
      committed := c.committed + ws.length, inputs := c.inputs.drop ws.length }) ws s := by
  unfold burstEffect commitBurst
  simp only [hx]
  exact commit_setPhase hx hg ws _

end

/-- A read burst changes nothing (R31). -/
theorem burstEffect_read (r : Ring) (ws : List Nat) (s : State) : burstEffect r (.read ws) s = s := rfl

/-- A burst that the store has ends, and its command, which no stop has reached, goes on (R31, R32; log 6). -/
theorem exec_storeBurstEnd_goesOn {s u : State} {r : Ring} {b : Burst} (h : Released s) (hp : s.sc.port = .burst r b)
    (hb : ∀ a ∈ b.words, a < 8388608) (hu : burstEffect r b s = u) (hstop : u.eng[r].stop = none) :
    exec .storeBurstEnd s = .next (afterBurst r (portFreed u)) := by
  have habsent : b.absentWord = none :=
    List.find?_eq_none.mpr fun a ha h => absurd (of_decide_eq_true h) (Nat.not_le.mpr (hb a ha))
  rw [exec_storeBurstEnd_next h hp habsent]
  have hend : endBurst r b s = orStop r (afterBurst r) (portFreed u) := by
    rw [← hu]
    rfl
  rw [hend]
  unfold orStop
  rw [portFreed_engine, hstop]
  rfl

/-! ### The end of a command that holds a lock -/

/-- A command that releases its lock ends behind the grants that follow (R44). -/
theorem finish_ended {s : State} {r : Ring} {x : Record} {p : Phase} (hx : s.eng[r].exec = some ⟨x, p⟩) (res : Result) :
    Ended r x res (release r x.lineIx s) (finish r x res s) :=
  endCommand_ended (e := ⟨x, p⟩) ((congrArg Engine.exec (release_self r x.lineIx s)).trans hx) res

/-! ### PUSH -/

/-- The host read of a PUSH's next burst (R65). -/
theorem pushNext_eq {s : State} {r : Ring} {x : Record} {p : Phase} {g : LineCfg} (hx : s.eng[r].exec = some ⟨x, p⟩)
    (hg : (s.lineOf x).cfg = some g) (done : Nat) :
    let m := min 16 (min (x.count.toNat - done) (g.len - (s.lineOf x).head))
    pushNext r x done s = withEng r { s.eng[r] with
      exec := some ⟨x, .pushing done m⟩
      rd := some (s.hostRead (x.addr + BitVec.ofNat 64 (done * g.fmt.bytes)) (m * g.fmt.bytes)) } s := by
  unfold pushNext
  dsimp only
  rw [issueRead_setPhase hx, burstSize, Line.len_eq hg, Line.sampleBytes_eq hg]
  rfl

/-- Settles O32: the burst is committed, the arbiter chooses, and `pushGoesOn` reads the next samples or ends the PUSH. -/
theorem pushBurstCommits : Obligations.PushBurstCommits := by
  unfold Obligations.PushBurstCommits
  intro s r x g done m ws hrel hport hws hx hstop hg l n done' m' u
  have hself := burstCommitted_self (s := s) (r := r) (x := x) (g := g) (.pushing done' m) ws
  obtain ⟨v, hv⟩ : ∃ v, v = burstCommitted r x g (.pushing done' m) ws s := ⟨_, rfl⟩
  rw [← hv] at hself
  have hl : (portFreed v).lineOf x = l := by rw [portFreed_lineOf, hv, burstCommitted_lineOf]
  have hexec : (portFreed v).eng[r].exec = some ⟨x, .pushing done' m⟩ := by rw [portFreed_engine, hself]
  have hafter : exec .storeBurstEnd s = .next (pushGoesOn r x done' (portFreed v)) := by
    rw [exec_storeBurstEnd_goesOn hrel hport (by simpa [Burst.words] using hws)
      ((burstEffect_push hx hg ws).trans hv.symm) (by rw [hself]; exact hstop)]
    unfold afterBurst
    simp only [hexec]
  have hu : portFreed v = u := by
    rw [hv]
    rfl
  rw [hu] at hl hexec hafter
  refine ⟨fun hlt => ?_, fun hge => ⟨_, hafter, ?_⟩⟩
  · have he : u.eng[r] = { s.eng[r] with exec := some ⟨x, .pushing done' m⟩ } := by rw [← hu, portFreed_engine, hself]
    have hr : ∀ a k, u.hostRead a k = s.hostRead a k := fun a k => by
      rw [← hu, portFreed_hostRead, hv]
      rfl
    rw [hafter, pushGoesOn, if_pos hlt, pushNext_eq hexec (g := g) (by rw [hl]; exact hg), hl, he, hr]
    rfl
  · rw [pushGoesOn, if_neg (Nat.not_lt.mpr hge), hl]
    exact finish_ended hexec _

end Sys2Proof.Machine
end

section
/-! The end of a read burst: how a GATHER or READ SPAN goes on (R17, R77, R81). -/

namespace Sys2Proof.Machine

/-! ### Results -/

theorem filledWords_eq (g : LineCfg) (head fill : Nat) (offs : List Nat) :
    filledWords g head fill offs = filled g head fill offs := rfl

/-! ### Chunks -/

section
variable {s : State} {r : Ring} {x : Record} {g : LineCfg} {c : ReaderCtx}

/-- A reader with a chunk in hand, or being read, reads none (R81). -/
theorem readChunk_of_buf {ws : List Word} (hx : s.eng[r].exec = some ⟨x, .reader c⟩) (hb : c.buf = some ws) :
    readChunk r s = s := by
  unfold readChunk
  simp only [hx, hb, Option.isSome_some, Bool.or_true, Bool.true_or, if_true]
  split <;> rfl

/-- A reader with nothing in hand reads its next chunk, or has its zeros at once (R77, R81). -/
theorem readChunk_next (hx : s.eng[r].exec = some ⟨x, .reader c⟩) (hg : (s.lineOf x).cfg = some g)
    (hr : c.reading = false) (hb : c.buf = none) :
    let words := filled g c.snap.head c.snap.fill c.chunkOffs
    let after := fun c' => withEng r { s.eng[r] with exec := some ⟨x, .reader c'⟩ } s
    readChunk r s =
      if c.chunkOffs = [] then s
      else if words = [] then after { c with buf := some (c.chunkOffs.map (fun _ => 0)) }
      else
        let u := after { c with reading := true }
        arbitrate { u with sc := { u.sc with claims := u.sc.claims.set r (some (.read words)) } } := by
  unfold readChunk
  simp only [hx, hg, hr, hb, Option.isSome_none, Bool.or_self, Bool.false_or, List.isEmpty_iff, filledWords_eq,
    setPhase_eq hx]
  rfl

/-- A chunk waits while a write of the command is in flight (R81). -/
theorem writeChunk_waits (hw : s.eng[r].wr.isSome) : writeChunk r s = s := by
  unfold writeChunk
  simp only [hw, if_true]
  repeat' split
  all_goals rfl

/-- A chunk is written at its place in the host buffer (R81). -/
theorem writeChunk_writes {ws : List Word} (hx : s.eng[r].exec = some ⟨x, .reader c⟩)
    (hg : (s.lineOf x).cfg = some g) (hb : c.buf = some ws) (hw : s.eng[r].wr = none) :
    writeChunk r s = wrote r x (.reader { c with buf := none, chunk := c.chunk + 1 })
      (x.addr + BitVec.ofNat 64 (16 * c.chunk * g.fmt.bytes)) (g.fmt.bytesOf ws) s := by
  unfold writeChunk
  simp only [hx, hg, hb, hw, Option.isSome_none, Bool.false_eq_true, if_false, issueWrite_setPhase hx]
  rfl

end

/-! ### A reader whose results have come -/

/-- The results of a reader's chunk have come (R77). -/
def resultsCame (r : Ring) (x : Record) (c : ReaderCtx) (ws : List Word) (s : State) : State :=
  withEng r { s.eng[r] with exec := some ⟨x, .reader { c with reading := false, buf := some ws }⟩ } s

theorem resultsCame_self (r : Ring) (x : Record) (c : ReaderCtx) (ws : List Word) (s : State) :
    (resultsCame r x c ws s).eng[r] =
      { s.eng[r] with exec := some ⟨x, .reader { c with reading := false, buf := some ws }⟩ } := withEng_self _ _ _

section
variable {s : State} {r : Ring} {x : Record} {g : LineCfg} {c : ReaderCtx} {ws : List Word}

/-- With a write in flight the results wait (R81). -/
theorem pumpReader_waits (hw : s.eng[r].wr.isSome) :
    pumpReader r (resultsCame r x c ws s) = resultsCame r x c ws s := by
  have hx := congrArg Engine.exec (resultsCame_self r x c ws s)
  unfold pumpReader
  rw [readChunk_of_buf hx rfl, writeChunk_waits (by rwa [resultsCame_self]), readChunk_of_buf hx rfl]

/-- With no write in flight the results are written, and the next chunk is read ahead (R81; log 23). -/
theorem pumpReader_writes (hg : (s.lineOf x).cfg = some g) (hw : s.eng[r].wr = none) :
    pumpReader r (resultsCame r x c ws s) = writesChunk r x g c ws s := by
  have hx := congrArg Engine.exec (resultsCame_self r x c ws s)
  unfold pumpReader
  rw [readChunk_of_buf hx rfl, writeChunk_writes hx hg rfl (by rwa [resultsCame_self]), resultsCame, wrote_withEng]
  refine (readChunk_next (s := wrote _ _ _ _ _ _) (congrArg Engine.exec (wrote_self ..)) hg rfl rfl).trans ?_
  simp only [wrote_self, withEng_wrote]
  rfl

end

theorem portFreed_results (g : LineCfg) (head fill : Nat) (offs : List Nat) (s : State) :
    resultWords g head fill offs (portFreed s) = results g head fill offs s :=
  List.map_congr_left fun d _ => by
    rw [portFreed_readWord]
    rfl

/-- Settles O34: the results are in hand, and are written unless a write is in flight. -/
theorem readerBurstRead : Obligations.ReaderBurstRead := by
  unfold Obligations.ReaderBurstRead
  intro s r x g c ws hrel hport hws hx hfail hstop hg
  have he := portFreed_engine s r
  have hexec : (portFreed s).eng[r].exec = some ⟨x, .reader c⟩ := by rw [he, hx]
  have hl : ((portFreed s).lineOf x).cfg = some g := by rw [portFreed_lineOf, hg]
  have hafter : exec .storeBurstEnd s = .next (pumpReader r (resultsCame r x c
      (results g c.snap.head c.snap.fill c.chunkOffs s) (portFreed s))) := by
    rw [exec_storeBurstEnd_goesOn hrel hport hws (burstEffect_read r ws s) hstop]
    unfold afterBurst readerBurstOver
    simp only [hexec, hl]
    rw [if_neg (by simp [hfail]), setPhase_eq hexec, portFreed_results]
    rfl
  refine ⟨fun hw => ?_, fun hw => ?_⟩
  · rw [hafter, pumpReader_writes hl (by rw [he, hw])]
    rfl
  · rw [hafter, pumpReader_waits (by rwa [he]), resultsCame, he]
    rfl

end Sys2Proof.Machine
end

section
/-! The ends of the bursts of a STEP (R15, R17, R87, R88, R89, R92). -/

namespace Sys2Proof.Machine

/-! ### One progress of a STEP -/

section
variable {s : State} {r : Ring} {x : Record} {g : LineCfg} {c : StepCtx}

/-- Results that are not there, or that wait for a write in flight, are not written (R89). -/
theorem writeStep_idle (hx : s.eng[r].exec = some ⟨x, .stepping c⟩) (h : ¬ (c.stage = .writing ∧ s.eng[r].wr = none)) :
    writeStep r s = s := by
  unfold writeStep
  simp only [hx]
  split
  · rfl
  · exact if_neg fun ⟨hs, hw, _⟩ => h ⟨hs, hw⟩

/-- The results of the current step are written at their place (R88). -/
theorem writeStep_writes (hx : s.eng[r].exec = some ⟨x, .stepping c⟩) (hg : (s.lineOf x).cfg = some g)
    (hs : c.stage = .writing) (hw : s.eng[r].wr = none) (hf : c.wrFailed = false) :
    writeStep r s = wrote r x (.stepping { c with stage := .ready, buf := [], unfWr := c.unfCur })
      (x.paramC + BitVec.ofNat 64 ((c.committed - 1) * (s.lineOf x).taps.length * g.fmt.bytes)) (g.fmt.bytesOf c.buf) s := by
  unfold writeStep
  simp only [hx, hg]
  rw [if_pos ⟨hs, hw, hf⟩, issueWrite_setPhase hx]
  rfl

/-- A step that is not ready commits nothing (R88). -/
theorem commitStep_idle (hx : s.eng[r].exec = some ⟨x, .stepping c⟩) (h : c.stage ≠ .ready) : commitStep r s = s := by
  unfold commitStep
  simp only [hx]
  split
  · exact if_neg fun hc => h hc.1
  · rfl

/-- A step that is ready commits its sample if its input is there (R87, R88). -/
theorem commitStep_ready (hx : s.eng[r].exec = some ⟨x, .stepping c⟩) (hg : (s.lineOf x).cfg = some g)
    (hs : c.stage = .ready) (hf : c.wrFailed = false) : commitStep r s = commitsNext r x g c s := by
  unfold commitStep commitsNext
  simp only [hx, hg]
  cases c.inputs with
  | nil => rfl
  | cons w ws =>
    by_cases hlt : c.committed < x.count.toNat
    · simp only [hs, hf, hlt, and_self, if_true, setPhase_eq hx]
      rfl
    · simp only [hlt, and_false, if_false]

/-- A STEP whose result write has not failed, and that is within a step or has a write in flight, does not end (R90). -/
theorem finishStep_idle (hx : s.eng[r].exec = some ⟨x, .stepping c⟩) (hf : c.wrFailed = false)
    (h : ¬ (c.stage = .ready ∧ s.eng[r].wr = none)) : finishStep r s = s := by
  unfold finishStep
  simp only [hx, hf, Bool.false_eq_true, if_false]
  exact if_neg h

/-- A STEP between two steps, with no write in flight: it ends behind its last step, and where its next input could not be
read (R90, R93). -/
theorem finishStep_ready (hx : s.eng[r].exec = some ⟨x, .stepping c⟩) (hf : c.wrFailed = false) (hs : c.stage = .ready)
    (hw : s.eng[r].wr = none) :
    finishStep r s =
      if c.committed = x.count.toNat then
        finish r x (about .ok x (s.lineOf x) c.committed c.unfDone (s.lineOf x).seq) s
      else if c.rdFailed ∧ c.inputs = [] then
        finish r x (about .hostFault x (s.lineOf x) c.committed c.unfDone (s.lineOf x).seq) s
      else s := by
  unfold finishStep
  simp only [hx]
  rw [if_neg (by simp [hf]), if_pos ⟨hs, hw⟩]
  rfl

/-- A step with no input, or none left to do, commits nothing (R87). -/
theorem commitsNext_idle (h : c.inputs = [] ∨ ¬ c.committed < x.count.toNat) : commitsNext r x g c s = s := by
  unfold commitsNext
  split
  · rename_i hi
    exact if_neg (h.resolve_left (by simp [hi]))
  · rfl

/-- A commit that has been claimed is waited for (R88). -/
theorem finishStep_commitsNext (hx : s.eng[r].exec = some ⟨x, .stepping c⟩) (hf : c.wrFailed = false)
    (h : s.eng[r].wr ≠ none ∨ c.inputs ≠ [] ∧ c.committed < x.count.toNat) :
    finishStep r (commitsNext r x g c s) = commitsNext r x g c s := by
  have stays : s.eng[r].wr ≠ none → finishStep r s = s := fun hw => finishStep_idle hx hf fun hc => hw hc.2
  unfold commitsNext
  cases hi : c.inputs with
  | nil =>
    rcases h with hw | ⟨hn, -⟩
    · exact stays hw
    · exact absurd hi hn
  | cons w ws =>
    dsimp only
    split
    · refine finishStep_idle (x := x) (c := { c with inputs := w :: ws, stage := .committing }) ?_ hf fun hc => nomatch hc.1
      rw [arbitrate_engine]
      exact congrArg Engine.exec (withEng_self r _ s)
    · rename_i hlt
      rcases h with hw | ⟨-, hl⟩
      · exact stays hw
      · exact absurd hl hlt

/-- With no write in flight the results are written, and the next step begins if its input is there (R88, R89; log 23). -/
theorem pumpStep_writes (hx : s.eng[r].exec = some ⟨x, .stepping c⟩) (hg : (s.lineOf x).cfg = some g)
    (hs : c.stage = .writing) (hw : s.eng[r].wr = none) (hf : c.wrFailed = false) :
    pumpStep r s = writesStep r x g c c.buf s := by
  have hself := wrote_self r x (.stepping { c with stage := .ready, buf := [], unfWr := c.unfCur })
    (x.paramC + BitVec.ofNat 64 ((c.committed - 1) * (s.lineOf x).taps.length * g.fmt.bytes)) (g.fmt.bytesOf c.buf) s
  have hexec := congrArg Engine.exec hself
  unfold pumpStep
  rw [writeStep_writes hx hg hs hw hf, commitStep_ready hexec hg rfl hf]
  exact finishStep_commitsNext hexec hf (.inl (by rw [hself]; exact Option.some_ne_none _))

/-- With a write in flight the results wait (R89). -/
theorem pumpStep_waits (hx : s.eng[r].exec = some ⟨x, .stepping c⟩) (hs : c.stage = .writing)
    (hw : s.eng[r].wr.isSome) (hf : c.wrFailed = false) : pumpStep r s = s := by
  have hready : c.stage ≠ .ready := by simp [hs]
  have hbusy : ¬ (c.stage = .writing ∧ s.eng[r].wr = none) := fun hc => by
    rw [hc.2] at hw
    exact nomatch hw
  unfold pumpStep
  rw [writeStep_idle hx hbusy, commitStep_idle hx hready,
    finishStep_idle hx hf fun hc => hready hc.1]

/-- A STEP between two steps commits the next sample if its input is there (R87, R88). -/
theorem pumpStep_ready (hx : s.eng[r].exec = some ⟨x, .stepping c⟩) (hg : (s.lineOf x).cfg = some g)
    (hs : c.stage = .ready) (hf : c.wrFailed = false) : pumpStep r s = finishStep r (commitsNext r x g c s) := by
  unfold pumpStep
  rw [writeStep_idle hx (by simp [hs]), commitStep_ready hx hg hs hf]

end

/-- The progress that a STEP had before its results were written does not show behind the write. -/
theorem writesStep_withEng (r : Ring) (x : Record) (g : LineCfg) (c : StepCtx) (ws : List Word) (b : Option Exec)
    (s : State) : writesStep r x g c ws (withEng r { s.eng[r] with exec := b } s) = writesStep r x g c ws s :=
  congrArg (commitsNext r x g _) (wrote_withEng r x _ _ _ b s)

/-! ### The read burst -/

/-- Settles O38: the step's results are there, and are written unless a write is in flight. -/
theorem stepTapsRead : Obligations.StepTapsRead := by
  unfold Obligations.StepTapsRead
  intro s r x g c ws hrel hport hws hx hstage hfail hstop hg l u res
  have he := portFreed_engine s r
  have hexec : (portFreed s).eng[r].exec = some ⟨x, .stepping c⟩ := by rw [he, hx]
  have hl : ((portFreed s).lineOf x).cfg = some g := by rw [portFreed_lineOf, hg]
  let e : Engine := { s.eng[r] with exec := some ⟨x, .stepping { c with stage := .writing, buf := res }⟩ }
  have hself : (withEng r e (portFreed s)).eng[r] = e := withEng_self _ _ _
  have hafter : exec .storeBurstEnd s = .next (pumpStep r (withEng r e (portFreed s))) := by
    rw [exec_storeBurstEnd_goesOn hrel hport hws (burstEffect_read r ws s) hstop]
    unfold afterBurst stepBurstOver
    simp only [hexec, hl]
    rw [if_neg (by simp [hfail]), if_neg (by simp [hstage]), setPhase_eq hexec, portFreed_results, portFreed_lineOf, he]
  have hexec' : (withEng r e (portFreed s)).eng[r].exec =
    some ⟨x, .stepping { c with stage := .writing, buf := res }⟩ := congrArg Engine.exec hself
  refine ⟨fun hw => ?_, fun hw => ?_⟩
  · rw [hafter, pumpStep_writes hexec' hl rfl (by rw [hself]; exact hw) hfail]
    have hb := writesStep_withEng r x g c res e.exec (portFreed s)
    rw [he] at hb
    exact congrArg _ hb
  · rw [hafter, pumpStep_waits hexec' rfl (by rw [hself]; exact hw) hfail]
    rfl

end Sys2Proof.Machine
end

section
/-! The end of the commit burst of a step (R15, R87, R88, R92). -/

namespace Sys2Proof.Machine

/-! ### After a commit -/

/-- Ring `r`'s STEP has entered progress `c`; if it asks for its next input chunk, that chunk is being read as `t`
(R87). -/
def withInput (r : Ring) (x : Record) (asks : Prop) [Decidable asks] (t : HostRead) (c : StepCtx) (s : State) : State :=
  withEng r { s.eng[r] with
    exec := some ⟨x, .stepping { c with chunks := if asks then c.chunks + 1 else c.chunks }⟩
    rd := if asks then some t else s.eng[r].rd } s

section
variable {s : State} {r : Ring} {x : Record} {g : LineCfg} {c : StepCtx} {asks : Prop} [Decidable asks]

/-- The read of the next input chunk of a STEP (R87). -/
def inputRead (x : Record) (g : LineCfg) (chunks : Nat) (s : State) : HostRead :=
  s.hostRead (x.addr + BitVec.ofNat 64 (16 * chunks * g.fmt.bytes))
    (min 16 (x.count.toNat - 16 * chunks) * g.fmt.bytes)

/-- A STEP asks for its next input chunk when it may and one is left (R87). -/
theorem asks_input {p : Phase} (hx : s.eng[r].exec = some ⟨x, p⟩) (hg : (s.lineOf x).cfg = some g) (P : Prop)
    [Decidable P] (h : asks ↔ P ∧ 16 * c.chunks < x.count.toNat) :
    (if P then issueInput r x c s else s.setPhase r (.stepping c)) =
      withInput r x asks (inputRead x g c.chunks s) c s := by
  have quiet : ¬ asks → s.setPhase r (.stepping c) = withInput r x asks (inputRead x g c.chunks s) c s := fun hn => by
    rw [setPhase_eq hx]
    simp only [withInput, if_neg hn]
  split
  · rename_i hp
    unfold issueInput
    dsimp only
    split
    · rename_i hlt
      rw [issueRead_setPhase hx, Line.sampleBytes_eq hg]
      simp only [withInput, if_pos (h.mpr ⟨hp, hlt⟩)]
      rfl
    · rename_i hlt
      exact quiet fun ha => hlt (h.mp ha).2
  · rename_i hp
    exact quiet fun ha => hp (h.mp ha).1

/-- What a STEP goes on with after a commit: its progress, with the next input chunk asked for if it may be (R87, R88, R92). -/
theorem stepCommitted_eq {p : Phase} (hx : s.eng[r].exec = some ⟨x, p⟩) (hg : (s.lineOf x).cfg = some g)
    (h : asks ↔ (c.committed % 16 = 1 ∧ c.rdFailed = false) ∧ 16 * c.chunks < x.count.toNat) :
    let l := s.lineOf x
    let words := filled g l.head l.fill l.taps
    let v := fun c1 => withInput r x asks (inputRead x g c.chunks s) c1 s
    stepCommitted r x c s =
      if l.taps = [] then pumpStep r (v { c with stage := .ready })
      else if words = [] then
        pumpStep r (v { c with stage := .writing, buf := l.taps.map (fun _ => 0), unfCur := unfilledOf l.fill l.taps })
      else claimPort r (.read words) (v { c with stage := .reading, unfCur := unfilledOf l.fill l.taps }) := by
  have asked := fun c1 (hc : asks ↔ _ ∧ 16 * StepCtx.chunks c1 < _) =>
    asks_input (c := c1) (asks := asks) hx hg (c.committed % 16 = 1 ∧ c.rdFailed = false) hc
  unfold stepCommitted
  simp only [hg, filledWords_eq]
  by_cases ht : (s.lineOf x).taps = []
  · rw [if_pos ht]
    simp only [ht, List.isEmpty_nil, Bool.true_or, if_true]
    exact congrArg (pumpStep r) (asked { c with stage := .ready } h)
  · have ht' : (s.lineOf x).taps.isEmpty = false := by simpa using ht
    rw [if_neg ht]
    by_cases hw : filled g (s.lineOf x).head (s.lineOf x).fill (s.lineOf x).taps = []
    · rw [if_pos hw]
      simp only [ht', hw, List.isEmpty_nil, Bool.or_true, if_true, Bool.false_eq_true, if_false]
      exact congrArg (pumpStep r) (asked { c with stage := .writing, buf := _, unfCur := _ } h)
    · have hw' : (filled g (s.lineOf x).head (s.lineOf x).fill (s.lineOf x).taps).isEmpty = false := by simpa using hw
      rw [if_neg hw]
      simp only [ht', hw', Bool.or_self, Bool.false_eq_true, if_false]
      exact congrArg (claimPort r _) (asked { c with stage := .reading, unfCur := _ } h)

end

/-- Settles O37: the sample is committed, and `stepCommitted` reads the taps, has zeros for them, or has none to read. -/
theorem stepCommits : Obligations.StepCommits := by
  unfold Obligations.StepCommits
  intro s r x g c a w hrel hport ha hx hstage hfail hstop hg l n asks c' words u withCtx
  have hself := burstCommitted_self (s := s) (r := r) (x := x) (g := g)
    (.stepping { c with committed := c.committed + 1, inputs := c.inputs.drop 1 }) [(a, w)]
  obtain ⟨v, hv⟩ : ∃ v, v = burstCommitted r x g
    (.stepping { c with committed := c.committed + 1, inputs := c.inputs.drop 1 }) [(a, w)] s := ⟨_, rfl⟩
  rw [← hv] at hself
  have hu : portFreed v = u := by
    rw [hv]
    rfl
  have he : u.eng[r] = v.eng[r] := by rw [← hu, portFreed_engine]
  rw [hself] at he
  have hl : u.lineOf x = l := by
    rw [← hu, portFreed_lineOf, hv, burstCommitted_lineOf]
    rfl
  have hlc : (u.lineOf x).cfg = some g := by
    rw [hl]
    exact hg
  have hexec := congrArg Engine.exec he
  have hafter : exec .storeBurstEnd s = .next (stepCommitted r x { c with
      committed := c.committed + 1, inputs := c.inputs.drop 1 } u) := by
    rw [exec_storeBurstEnd_goesOn hrel hport (by simpa [Burst.words] using ha)
      ((burstEffect_step hx hg [(a, w)]).trans hv.symm) (by rw [hself]; exact hstop), hu]
    unfold afterBurst stepBurstOver
    simp only [hexec, hlc]
    rw [if_neg (by simp [hfail]), if_pos hstage]
  have hread : inputRead x g c.chunks u = s.hostRead (x.addr + BitVec.ofNat 64 (16 * c.chunks * g.fmt.bytes))
      (min 16 (n - 16 * c.chunks) * g.fmt.bytes) := by
    rw [inputRead, ← hu, portFreed_hostRead, hv]
    rfl
  have hctx : ∀ c2 : StepCtx, withInput r x asks (inputRead x g c.chunks u) c2 u =
      withCtx { c2 with chunks := if asks then c2.chunks + 1 else c2.chunks } := fun c2 => by
    rw [hread, withInput, show u.eng[r].rd = s.eng[r].rd by rw [he]]
    rfl
  have hgoes := stepCommitted_eq (c := { c with committed := c.committed + 1, inputs := c.inputs.drop 1 })
    (asks := asks) hexec hlc and_assoc.symm
  simp only [hl, hctx] at hgoes
  have hself2 : ∀ c2, (withCtx c2).eng[r] = { u.eng[r] with
    exec := some ⟨x, .stepping c2⟩
    rd := if asks then some (s.hostRead (x.addr + BitVec.ofNat 64 (16 * c.chunks * g.fmt.bytes))
        (min 16 (n - 16 * c.chunks) * g.fmt.bytes)) else s.eng[r].rd } := fun c2 => withEng_self _ _ _
  have hexec2 : ∀ c2, (withCtx c2).eng[r].exec = some ⟨x, .stepping c2⟩ := fun c2 => by rw [hself2]
  have hwr2 : ∀ c2, (withCtx c2).eng[r].wr = s.eng[r].wr := fun c2 => by rw [hself2, he]
  rw [hgoes] at hafter
  have hnone : l.taps = [] → exec .storeBurstEnd s = .next (finishStep r
      (commitsNext r x g { c' with stage := .ready } (withCtx { c' with stage := .ready }))) := fun ht => by
    rw [hafter, if_pos ht]
    exact congrArg _ (pumpStep_ready (hexec2 { c' with stage := .ready }) hlc rfl hfail)
  have hends := fun hn => finishStep_ready (hexec2 { c' with stage := .ready }) hfail rfl ((hwr2 _).trans hn)
  refine ⟨fun hw => ?_, fun ht hw => ⟨fun hn => ?_, fun hn => ?_⟩, fun ht hi hlt hn => ⟨fun hr => ?_, fun hr => ?_⟩,
    fun ht hi hlt => ?_, fun ht heq hn => ?_⟩
  · have ht : l.taps ≠ [] := fun ht => hw (by simp only [words, filled, ht, List.filter_nil, List.map_nil])
    rw [hafter, if_neg ht, if_neg hw]
    rfl
  · rw [hafter, if_neg ht, if_pos hw]
    exact congrArg _ (pumpStep_writes (hexec2 { c' with stage := .writing, buf := _, unfCur := _ }) hlc rfl
      ((hwr2 _).trans hn) hfail)
  · rw [hafter, if_neg ht, if_pos hw]
    exact congrArg _ (pumpStep_waits (hexec2 { c' with stage := .writing, buf := _, unfCur := _ }) rfl
      (by rwa [hwr2]) hfail)
  · rw [hnone ht, commitsNext_idle (.inl hi), hends hn, if_neg (Nat.ne_of_lt hlt), if_neg (by simp [c', hr])]
  · rw [hnone ht, commitsNext_idle (.inl hi), hends hn, if_neg (Nat.ne_of_lt hlt), if_pos ⟨hr, hi⟩]
    refine ⟨_, rfl, ?_⟩
    rw [← hl]
    exact finish_ended (hexec2 _) _
  · rw [hnone ht, finishStep_commitsNext (hexec2 { c' with stage := .ready }) hfail (.inr ⟨hi, hlt⟩)]
  · rw [hnone ht, commitsNext_idle (.inr (Nat.not_lt.mpr heq.ge)), hends hn, if_pos heq]
    refine ⟨_, rfl, ?_⟩
    rw [← hl, ← heq]
    exact finish_ended (hexec2 _) _

end Sys2Proof.Machine
end

section
/-! The laws of the units (R22, R36, R37, R39, R122, R179, R182): the law of a completion ring taken apart, and the relation
"each of these laws holds of `t` if it holds of `s`", with the changes of one place that have it. -/

namespace Sys2Proof.Machine

/-! ### One completion ring -/

/-- The law of a configured completion ring, save that with `free` a RETIRE may be held while no write is in flight: so it is
between the report of a record and the taking of the held RETIRE (R128). -/
structure Cq.Sound (free : Prop) (c : Cq) (g : CqCfg) : Prop where
  size : 16 ≤ g.size
  threshold : 1 ≤ g.threshold
  tail : c.tail < g.size
  head : c.head < g.size
  room : c.inflight.isSome → (c.tail + 1) % g.size ≠ c.head
  unsig : c.unsig < g.threshold
  timer : c.timer.isSome → 1 ≤ c.unsig
  held : c.held.isSome → c.inflight.isSome ∨ free

/-- The law of a completion ring with the same exception. -/
def Cq.LawfulBut (free : Prop) (c : Cq) : Prop :=
  (c.cfg = none → c.inflight = none ∧ c.held = none) ∧ ∀ g, c.cfg = some g → c.Sound free g

theorem Cq.lawfulBut_none {free : Prop} {c : Cq} (h : c.cfg = none) :
    c.LawfulBut free ↔ c.inflight = none ∧ c.held = none := by
  simp [LawfulBut, h]

theorem Cq.lawfulBut_some {free : Prop} {c : Cq} {g : CqCfg} (h : c.cfg = some g) : c.LawfulBut free ↔ c.Sound free g := by
  simp [LawfulBut, h]

/-- With no exception it is the law. -/
theorem Cq.lawful_iff (c : Cq) : c.Lawful ↔ c.LawfulBut False := by
  unfold Lawful
  cases h : c.cfg with
  | none => exact (lawfulBut_none h).symm
  | some g =>
    rw [lawfulBut_some h]
    constructor
    · rintro ⟨h1, h2, h3, h4, -, h6, h7, h8, h9⟩
      exact ⟨h1, h2, h3, h4, h6, h7, h8, fun hh => .inl (h9 hh)⟩
    · rintro ⟨h1, h2, h3, h4, h6, h7, h8, h9⟩
      have := Nat.mod_lt (c.tail + g.size - c.head) (by omega : 0 < g.size)
      exact ⟨h1, h2, h3, h4, by omega, h6, h7, h8, fun hh => (h9 hh).resolve_right id⟩

/-- An exception may be allowed at any time. -/
theorem Cq.LawfulBut.mono {free free' : Prop} {c : Cq} (hf : free → free') (h : c.LawfulBut free) : c.LawfulBut free' :=
  ⟨h.1, fun g hg => { h.2 g hg with held := fun hh => ((h.2 g hg).held hh).imp_right hf }⟩

/-- A ring that holds no RETIRE needs no exception. -/
theorem Cq.LawfulBut.of_not_held {free free' : Prop} {c : Cq} (hh : c.held = none) (h : c.LawfulBut free) :
    c.LawfulBut free' :=
  ⟨h.1, fun g hg => { h.2 g hg with held := fun hs => by rw [hh] at hs; exact (nomatch hs) }⟩

/-- The wait queue is free, and the write in flight may belong to no ring any more (R149). -/
theorem Cq.LawfulBut.requeue {free : Prop} {c : Cq} (h : c.LawfulBut free) (ws : List Claim) (f : CqWrite → CqWrite) :
    ({ c with queue := ws, inflight := c.inflight.map f } : Cq).LawfulBut free :=
  ⟨fun hc => ⟨by simp [(h.1 hc).1], (h.1 hc).2⟩, fun g hg =>
    { h.2 g hg with
      room := fun hi => (h.2 g hg).room (by simpa using hi)
      held := fun hh => by simpa using (h.2 g hg).held hh }⟩

theorem Cq.LawfulBut.withQueue {free : Prop} {c : Cq} (h : c.LawfulBut free) (ws : List Claim) :
    ({ c with queue := ws } : Cq).LawfulBut free := by
  simpa using h.requeue ws id

/-- The message of the ring has been sent (R131, R132). -/
theorem Cq.LawfulBut.signalled {free : Prop} {c : Cq} (h : c.LawfulBut free) :
    ({ c with unsig := 0, timer := none } : Cq).LawfulBut free :=
  ⟨h.1, fun g hg => { h.2 g hg with unsig := (h.2 g hg).threshold, timer := fun ht => (nomatch ht) }⟩

/-- The held RETIRE is discarded (R128). -/
theorem Cq.LawfulBut.unheld {free : Prop} {c : Cq} (h : c.LawfulBut free) (free' : Prop) :
    ({ c with held := none } : Cq).LawfulBut free' :=
  ⟨fun hc => ⟨(h.1 hc).1, rfl⟩, fun g hg => { h.2 g hg with held := fun hh => (nomatch hh) }⟩

/-- A RETIRE is held while a write is in flight (R128). -/
theorem Cq.LawfulBut.withHeld {free : Prop} {c : Cq} (h : c.LawfulBut free) (n : Nat) (hi : c.inflight.isSome)
    (hc : c.cfg.isSome) : ({ c with held := some n } : Cq).LawfulBut free :=
  ⟨fun hn => absurd (hn : c.cfg = none) (Option.isSome_iff_ne_none.mp hc), fun g hg => { h.2 g hg with held := fun _ => .inl hi }⟩

/-- A record's write is issued where there is room (R122, R124). -/
theorem Cq.LawfulBut.issued {free : Prop} {c : Cq} (h : c.LawfulBut free) (hr : c.hasRoom = true) (w : CqWrite) :
    ({ c with inflight := some w } : Cq).LawfulBut free := by
  simp only [hasRoom, Bool.and_eq_true, full, nextTail, Bool.not_eq_true', beq_eq_false_iff_ne] at hr
  obtain ⟨⟨hc, -⟩, hf⟩ := hr
  refine ⟨fun hn => absurd (hn : c.cfg = none) (Option.isSome_iff_ne_none.mp hc), fun g hg => ?_⟩
  exact { h.2 g hg with
    room := fun _ => by simpa only [size, show c.cfg = some g from hg] using hf
    held := fun _ => .inl rfl }

/-- The write in flight has been reported: the tail has moved, or stays (R125, R126). Until the held RETIRE is dealt with there
is the exception. -/
theorem Cq.LawfulBut.reported {free : Prop} {c : Cq} (h : c.LawfulBut free) {tail : Nat} (phase : Bool)
    (ht : ∀ g, c.cfg = some g → tail < g.size) :
    ({ c with inflight := none, tail := tail, phase := phase } : Cq).LawfulBut True :=
  ⟨fun hc => ⟨rfl, (h.1 hc).2⟩, fun g hg =>
    { h.2 g hg with tail := ht g hg, room := fun hi => (nomatch hi), held := fun _ => .inr trivial }⟩

/-- A posting is counted below T (R131, R132). -/
theorem Cq.LawfulBut.counted {free : Prop} {c : Cq} {g : CqCfg} (h : c.LawfulBut free) (hg : c.cfg = some g)
    (hu : c.unsig + 1 < g.threshold) (t : Option Nat) :
    ({ c with unsig := c.unsig + 1, timer := t } : Cq).LawfulBut free :=
  (lawfulBut_some (c := { c with unsig := c.unsig + 1, timer := t }) hg).mpr
    { h.2 g hg with unsig := hu, timer := fun _ => Nat.le_add_left 1 _ }

/-- The way from the head to a slot, without wrapping or with it (R122). -/
theorem slot_distance {x head size : Nat} (hx : x < size) (hh : head < size) :
    (x + size - head) % size = if head ≤ x then x - head else x + size - head := by
  split
  · rw [show x + size - head = x - head + size by omega, Nat.add_mod_right, Nat.mod_eq_of_lt (by omega)]
  · exact Nat.mod_eq_of_lt (by omega)

/-- A valid RETIRE moves the head, at most to the tail, so that a write in flight keeps its slot (R122, R127). -/
theorem Cq.LawfulBut.retired {free : Prop} {c : Cq} (h : c.LawfulBut free) {n : Nat} (hv : c.retireValid n = true) :
    ({ c with head := n } : Cq).LawfulBut free := by
  refine ⟨h.1, fun g hg => ?_⟩
  have hs := h.2 g hg
  simp only [retireValid, unretired, size, show c.cfg = some g from hg, Bool.and_eq_true, decide_eq_true_eq] at hv
  obtain ⟨⟨-, hn⟩, hd⟩ := hv
  refine { hs with head := hn, room := fun hi => ?_ }
  have hroom := hs.room hi
  have ht := hs.tail
  have hh := hs.head
  dsimp only
  rw [slot_distance hn hh, slot_distance ht hh] at hd
  obtain hlt | heq : c.tail + 1 < g.size ∨ c.tail + 1 = g.size := by omega
  · rw [Nat.mod_eq_of_lt hlt] at hroom ⊢
    split at hd <;> split at hd <;> omega
  · rw [heq, Nat.mod_self] at hroom ⊢
    split at hd <;> split at hd <;> omega

/-- A completion ring set afresh (R119, R135, R136). -/
theorem Cq.fresh_lawfulBut (free : Prop) {cfg : Option CqCfg} (h : ∀ g, cfg = some g → 16 ≤ g.size ∧ 1 ≤ g.threshold) :
    (Cq.fresh cfg).LawfulBut free := by
  refine ⟨fun _ => ⟨rfl, rfl⟩, fun g hg => ?_⟩
  obtain ⟨hs, ht⟩ := h g hg
  have h0 : 0 < g.size := by omega
  exact ⟨hs, ht, h0, h0, fun hi => (nomatch hi), ht, fun hi => (nomatch hi), fun hi => (nomatch hi)⟩

/-! ### What HP holds of host writes -/

theorem nodup_left_append {left : List Nat} {writes : List HostWrite} (hw : writes.Pairwise (fun v w => v.num < w.num))
    (hl : left.Nodup) (hb : ∀ n ∈ left, ∀ w ∈ writes, n < w.num) : (left ++ writes.map (·.num)).Nodup := by
  refine List.nodup_append.mpr ⟨hl, ?_, fun n hn m hm => ?_⟩
  · exact List.pairwise_map.mpr (hw.imp fun h => Nat.ne_of_lt h)
  · obtain ⟨w, hw, rfl⟩ := List.mem_map.mp hm
    exact Nat.ne_of_lt (hb n hn w hw)

/-- Some of the writes that wait have left, behind those that had left before; those that still wait come after them
(R182; log 38). -/
theorem LinkLaw.leave {s t : State} (h : LinkLaw s) {gone stay : List HostWrite}
    (hg : gone.Sublist s.hp.writes) (hs : stay.Sublist s.hp.writes) (hb : ∀ v ∈ gone, ∀ w ∈ stay, v.num < w.num)
    (hi : t.canIssue = false → stay = []) (ht : t.hp.taken = s.hp.taken) (hw : t.hp.writes = stay)
    (hl : t.hp.left = s.hp.left ++ gone.map (·.num)) : LinkLaw t := by
  obtain ⟨hsorted, hnodup, hnum, hleft, -⟩ := h
  unfold LinkLaw
  rw [ht, hw, hl]
  refine ⟨hsorted.sublist hs, nodup_left_append (hsorted.sublist hg) hnodup fun n hn w hw => (hleft n hn).2 w (hg.subset hw),
    fun w hw => hnum w (hs.subset hw), fun n hn => ?_, hi⟩
  rcases List.mem_append.mp hn with hn | hn
  · exact ⟨(hleft n hn).1, fun w hw => (hleft n hn).2 w (hs.subset hw)⟩
  · obtain ⟨v, hv, rfl⟩ := List.mem_map.mp hn
    exact ⟨hnum v (hg.subset hv), hb v hv⟩

/-- HP takes a write under a number that none before it has (R182). -/
theorem LinkLaw.takeWrite {s : State} (h : LinkLaw s) (a : Addr) (d : List Byte) : LinkLaw (s.takeWrite a d) := by
  obtain ⟨hsorted, hnodup, hnum, hleft, hissue⟩ := h
  have hnew : ∀ w ∈ (if s.canIssue then [s.hostWrite a d] else []), w.num = s.hp.taken := by
    intro w hw
    split at hw
    · rw [List.mem_singleton.mp hw]
      rfl
    · exact nomatch hw
  refine ⟨List.pairwise_append.mpr ⟨hsorted, ?_, fun v hv w hw => (hnum v hv).trans_eq (hnew w hw).symm⟩, hnodup,
    fun w hw => ?_, fun n hn => ⟨Nat.lt_succ_of_lt (hleft n hn).1, fun w hw => ?_⟩, fun hi => ?_⟩
  · split <;> simp
  · rcases List.mem_append.mp hw with hw | hw
    · exact Nat.lt_succ_of_lt (hnum w hw)
    · exact Nat.lt_succ_of_le (hnew w hw).le
  · rcases List.mem_append.mp hw with hw | hw
    · exact (hleft n hn).2 w hw
    · exact (hleft n hn).1.trans_eq (hnew w hw).symm
  · have hi : s.canIssue = false := hi
    simp [hissue hi, hi]

/-- The report of a write keeps the law of the writes (R182; log 38). -/
theorem LinkLaw.writeReported {s : State} (h : LinkLaw s) (w : HostWrite) : LinkLaw (writeReported w s) := by
  unfold Machine.writeReported
  split
  · obtain ⟨hsorted, hnodup, hnum, hleft, hissue⟩ := h
    exact ⟨hsorted, hnodup.erase _, hnum, fun n hn => hleft n (List.mem_of_mem_erase hn), hissue⟩
  · have hissue := h.2.2.2.2
    refine h.leave (List.filter_sublist (p := fun v => v.num < w.num)) (List.filter_sublist (p := fun v => w.num < v.num)) ?_
      (fun hi => by rw [hissue hi]; rfl) rfl rfl rfl
    intro u hu v hv
    have hu := of_decide_eq_true (List.mem_filter.mp hu).2
    have hv := of_decide_eq_true (List.mem_filter.mp hv).2
    exact hu.trans hv

/-- A message that is sent leaves no write waiting (R182; log 25). -/
theorem LinkLaw.sendMessage {s : State} (h : LinkLaw s) (v : Fin 5) : LinkLaw (sendMessage v s) := by
  unfold Machine.sendMessage
  split
  · exact h.leave (List.Sublist.refl _) (List.nil_sublist _) (fun _ _ _ hw => nomatch hw) (fun _ => rfl) rfl rfl rfl
  · exact h

theorem LinkLaw.reportFault {s : State} (h : LinkLaw s) (c : FaultCode) (n : Nat) : LinkLaw (reportFault c n s) := by
  unfold Machine.reportFault
  split
  · exact LinkLaw.sendMessage (s := { s with hp := { s.hp with fault := { code := c, num := n, count := 0 } } }) h 4
  · exact h

/-- With the link or bus mastering lost, no write waits any more (R182; log 38). -/
theorem LinkLaw.failTransfers {s : State} (hp : HostPort) (h : LinkLaw s) (ht : hp.taken = s.hp.taken)
    (hw : hp.writes = s.hp.writes) (hl : hp.left = s.hp.left) : LinkLaw (failTransfers { s with hp := hp }) := by
  refine h.leave (gone := writesGone { s with hp := hp }) (stay := []) ?_ (List.nil_sublist _) (fun _ _ _ hw => nomatch hw)
    (fun _ => rfl) ht rfl ?_
  · unfold writesGone
    rw [← hw]
    exact List.take_sublist _ _
  · rw [← hl]
    rfl

/-- HP holds nothing of host writes. -/
theorem LinkLaw.of_empty {s : State} (hw : s.hp.writes = []) (hl : s.hp.left = []) : LinkLaw s := by
  unfold LinkLaw
  rw [hw, hl]
  exact ⟨.nil, .nil, fun _ h => (nomatch h), fun _ h => (nomatch h), fun _ => rfl⟩

/-- While transfers can be issued no fewer ways than before, the writes may wait on (R182). -/
theorem LinkLaw.conditions {s : State} (h : LinkLaw s) {hp : HostPort} (ht : hp.taken = s.hp.taken)
    (hw : hp.writes = s.hp.writes) (hl : hp.left = s.hp.left)
    (hi : State.canIssue { s with hp := hp } = false → s.canIssue = false) : LinkLaw { s with hp := hp } := by
  obtain ⟨hsorted, hnodup, hnum, hleft, hissue⟩ := h
  unfold LinkLaw
  dsimp only
  rw [ht, hw, hl]
  exact ⟨hsorted, hnodup, hnum, hleft, fun h => hissue (hi h)⟩

/-! ### The fault record -/

/-- A fault reported with a code and a ring's number keeps the law of the fault record (R179). -/
theorem FaultLaw.reportFault {s : State} (h : FaultLaw s) {c : FaultCode} {n : Nat} (hc : c ≠ .none) (hn : n < 8) :
    FaultLaw (reportFault c n s) := by
  obtain ⟨hnum, hcount, -⟩ := h
  unfold Machine.reportFault Machine.sendMessage
  split
  · split <;> exact ⟨hn, (by decide : 0 < 256), fun he => absurd he hc⟩
  · rename_i he
    exact ⟨hnum, by show min _ 255 < 256; omega, fun h => absurd h he⟩

theorem FaultLaw.congr {s t : State} (h : FaultLaw s) (ht : t.hp.fault = s.hp.fault) : FaultLaw t := by
  unfold FaultLaw at *
  rwa [ht]

/-! ### The refresh unit -/

/-- The law of the refresh unit is one of SC without its claims and marks. -/
theorem RefreshLaw.congr {s t : State} (h : RefreshLaw s)
    (ht : ∃ claims paced bulk, t.sc = { s.sc with claims := claims, pacedMark := paced, bulkMark := bulk }) : RefreshLaw t := by
  obtain ⟨claims, paced, bulk, ht⟩ := ht
  unfold RefreshLaw at *
  rw [ht]
  exact h

/-- In READY the port passes to another holder, and the timer runs on (R36, R39). -/
theorem RefreshLaw.inReady {s : State} (h : RefreshLaw s) (hp : s.sc.port ≠ .initialising) {sc : StoreCtl}
    (hstate : sc.state = s.sc.state) (hcode : sc.code = s.sc.code) (ht : s.sc.timer.isSome → sc.timer.isSome)
    (hport : sc.port ≠ .initialising) (hd : sc.debt ≤ 8) : RefreshLaw { s with sc := sc } := by
  obtain ⟨-, h8, h255, hs⟩ := h
  unfold RefreshLaw
  dsimp only
  rw [hcode, hstate]
  refine ⟨hd, h8, h255, ?_⟩
  cases hst : s.sc.state with
  | init =>
    rw [hst] at hs
    exact absurd hs.2.2 hp
  | ready =>
    rw [hst] at hs
    exact ⟨ht hs.1, hport⟩

/-- While the timer runs, the port is not held by the initialisation (R36, R39). -/
theorem RefreshLaw.port_of_timer {s : State} (h : RefreshLaw s) (ht : s.sc.timer.isSome) : s.sc.port ≠ .initialising := by
  obtain ⟨-, -, -, hs⟩ := h
  split at hs
  · rw [hs.2.1] at ht
    exact nomatch ht
  · exact hs.2

theorem RefreshLaw.grantPort {s : State} (h : RefreshLaw s) (hp : s.sc.port ≠ .initialising) (r : Ring) :
    RefreshLaw (grantPort r s) := by
  unfold Machine.grantPort
  split
  · exact h
  · exact h.inReady hp rfl rfl id (by simp) h.1

/-- The arbiter chooses a holder only for a port that is free (R32, R39). -/
theorem RefreshLaw.arbitrate {s : State} (h : RefreshLaw s) : RefreshLaw (arbitrate s) := by
  unfold Machine.arbitrate
  split
  · exact h
  · rename_i hidle
    have hp : s.sc.port ≠ .initialising := by
      rw [not_not.mp hidle]
      simp
    have hr : RefreshLaw { s with sc := { s.sc with port := .refresh } } :=
      h.inReady hp rfl rfl id (by simp) h.1
    repeat' split
    · exact hr
    · refine RefreshLaw.grantPort ?_ ?_ _
      · exact h.congr ⟨_, _, _, rfl⟩
      · exact hp
    · refine RefreshLaw.grantPort ?_ ?_ _
      · exact h.congr ⟨_, _, _, rfl⟩
      · exact hp
    · exact hr
    · exact h

end Sys2Proof.Machine
end

section
/-! Which work keeps the laws of the units: one lemma per shared operation. -/

namespace Sys2Proof.Machine

/-- From `s` to `t` each of the laws of the store words, of the refresh unit, of the fault record, of HP's writes and of the
completion rings holds still if it held, and no CONFIGURE COMPLETION RING has begun to wait. -/
structure UnitWork (s t : State) : Prop where
  store : StoreLaw s → StoreLaw t
  refresh : RefreshLaw s → RefreshLaw t
  fault : FaultLaw s → FaultLaw t
  link : LinkLaw s → LinkLaw t
  rings : ∀ free : CqIx → Prop, (∀ q : CqIx, s.cq[q].LawfulBut (free q)) → ∀ q : CqIx, t.cq[q].LawfulBut (free q)
  waits : ∀ x : Record, t.eng[(0 : Ring)].exec = some ⟨x, .cqWait⟩ → s.eng[(0 : Ring)].exec = some ⟨x, .cqWait⟩

theorem UnitWork.refl (s : State) : UnitWork s s := ⟨id, id, id, id, fun _ => id, fun _ => id⟩

theorem UnitWork.trans {s t u : State} (h : UnitWork s t) (k : UnitWork t u) : UnitWork s u :=
  ⟨k.store ∘ h.store, k.refresh ∘ h.refresh, k.fault ∘ h.fault, k.link ∘ h.link,
    fun free hs => k.rings free (h.rings free hs), fun x hx => h.waits x (k.waits x hx)⟩

/-- The same in the other order: of a chain, its last part is given first. -/
theorem UnitWork.after {s t u : State} (k : UnitWork t u) (h : UnitWork s t) : UnitWork s u := h.trans k

/-- No law is about what may have changed. -/
theorem UnitWork.frame {s t : State} (hstore : t.store = s.store) (hsc : t.sc = { s.sc with claims := t.sc.claims })
    (hhp : t.hp = { s.hp with
      dev := t.hp.dev, anchorLo := t.hp.anchorLo, anchorHi := t.hp.anchorHi, anchorAddr := t.hp.anchorAddr
      anchorRead := t.hp.anchorRead, restart := t.hp.restart, msi := t.hp.msi, inReset := t.hp.inReset, out := t.hp.out })
    (hcq : t.cq = s.cq)
    (hwaits : ∀ x : Record, t.eng[(0 : Ring)].exec = some ⟨x, .cqWait⟩ → s.eng[(0 : Ring)].exec = some ⟨x, .cqWait⟩) :
    UnitWork s t where
  store h := by unfold StoreLaw at *; rwa [hstore]
  refresh h := h.congr ⟨_, _, _, hsc⟩
  fault h := h.congr (by rw [hhp])
  link h := by
    unfold LinkLaw State.canIssue at *
    rw [hhp]
    exact h
  rings free h := by rwa [hcq]
  waits := hwaits

section
variable (s : State)

/-! ### Updates of one place -/

theorem updEng_work (r : Ring) {f : Engine → Engine}
    (hf : ∀ (e : Engine) (x : Record), (f e).exec = some ⟨x, .cqWait⟩ → e.exec = some ⟨x, .cqWait⟩) :
    UnitWork s (s.updEng r f) := by
  refine .frame rfl rfl rfl rfl fun x hx => ?_
  rw [State.updEng_get] at hx
  split at hx
  · rename_i h0
    subst h0
    exact hf _ x hx
  · exact hx

/-- The executing command of an engine is gone, or as it was. -/
theorem updEng_exec_work (r : Ring) {f : Engine → Engine} (hf : ∀ e, (f e).exec = e.exec ∨ (f e).exec = none) :
    UnitWork s (s.updEng r f) :=
  updEng_work s r fun e x hx => by
    rcases hf e with h | h
    · rwa [h] at hx
    · rw [h] at hx
      exact nomatch hx

theorem setPhase_work (r : Ring) {p : Phase} (hp : p ≠ .cqWait) : UnitWork s (s.setPhase r p) :=
  updEng_work s r fun e x hx => by
    obtain ⟨y, -, hy⟩ := Option.map_eq_some_iff.mp hx
    exact absurd (congrArg Exec.phase hy) hp

theorem updLine_work (l : LineIx) (f : Line → Line) : UnitWork s (s.updLine l f) := .frame rfl rfl rfl rfl fun _ => id

theorem updPace_work (r : Ring) (f : Pacing → Pacing) : UnitWork s (s.updPace r f) := .frame rfl rfl rfl rfl fun _ => id

theorem setClaim_work (r : Ring) (b : Option Burst) : UnitWork s (s.setClaim r b) := .frame rfl rfl rfl rfl fun _ => id

theorem atTime_work (n : Nat) : UnitWork s (s.atTime n) := .frame rfl rfl rfl rfl fun _ => id

theorem fu_work (fu : FrameUnit) : UnitWork s { s with fu := fu } := .frame rfl rfl rfl rfl fun _ => id

/-- The fields of HP that no law is about. -/
theorem hp_work {hp : HostPort} (h : hp = { s.hp with
    dev := hp.dev, anchorLo := hp.anchorLo, anchorHi := hp.anchorHi, anchorAddr := hp.anchorAddr
    anchorRead := hp.anchorRead, restart := hp.restart, msi := hp.msi, inReset := hp.inReset, out := hp.out }) :
    UnitWork s { s with hp := hp } := .frame rfl rfl h rfl fun _ => id

theorem free_work (es : List Extent) : UnitWork s { s with free := es } := .frame rfl rfl rfl rfl fun _ => id

/-- A completion ring changes as its law allows. -/
theorem updCq_work (q : CqIx) {f : Cq → Cq} (hf : ∀ free : Prop, s.cq[q].LawfulBut free → (f s.cq[q]).LawfulBut free) :
    UnitWork s (s.updCq q f) where
  store := id
  refresh := id
  fault := id
  link := id
  rings free h k := by
    rw [State.updCq_get]
    split
    · rename_i hk
      rw [hk]
      exact hf _ (h q)
    · exact h k
  waits _ := id

/-! ### The link, the port and the completion rings -/

theorem takeWrite_work (a : Addr) (d : List Byte) : UnitWork s (s.takeWrite a d) :=
  ⟨id, id, fun h => h.congr rfl, fun h => h.takeWrite a d, fun _ => id, fun _ => id⟩

theorem writeReported_work (w : HostWrite) : UnitWork s (writeReported w s) where
  store h := by unfold StoreLaw at *; rwa [writeReported_store]
  refresh h := h.congr ⟨_, _, _, by rw [writeReported_sc]⟩
  fault h := h.congr (by rw [writeReported_frame])
  link h := h.writeReported w
  rings _ h := by rwa [writeReported_cq]
  waits _ h := by rwa [writeReported_eng] at h

/-- A message changes what HP holds of writes, and nothing else (R181, R182). -/
theorem sendMessage_frame (v : Fin 5) : sendMessage v s = { s with hp := { s.hp with
    writes := (sendMessage v s).hp.writes, left := (sendMessage v s).hp.left, out := (sendMessage v s).hp.out } } := by
  unfold sendMessage
  split <;> rfl

theorem sendMessage_work (v : Fin 5) : UnitWork s (sendMessage v s) where
  store h := by unfold StoreLaw at *; rwa [(sendMessage_kept v s).store]
  refresh h := by rw [sendMessage_frame]; exact h
  fault h := h.congr (by rw [sendMessage_frame])
  link h := h.sendMessage v
  rings _ h := by rw [sendMessage_frame]; exact h
  waits _ h := by rwa [(sendMessage_kept v s).eng] at h

/-- The report of a fault changes the fault record and what HP holds of writes, and nothing else (R179, R181). -/
theorem reportFault_frame (c : FaultCode) (n : Nat) : reportFault c n s = { s with hp := { s.hp with
    fault := (reportFault c n s).hp.fault, writes := (reportFault c n s).hp.writes
    left := (reportFault c n s).hp.left, out := (reportFault c n s).hp.out } } := by
  unfold reportFault
  split
  · conv_lhs => rw [sendMessage_frame]
    conv_rhs => rw [sendMessage_frame]
  · rfl

theorem reportFault_work {c : FaultCode} {n : Nat} (hc : c ≠ .none) (hn : n < 8) : UnitWork s (reportFault c n s) where
  store h := by unfold StoreLaw at *; rwa [(reportFault_kept c n s).store]
  refresh h := by rw [reportFault_frame]; exact h
  fault h := h.reportFault hc hn
  link h := h.reportFault c n
  rings _ h := by rw [reportFault_frame]; exact h
  waits _ h := by rwa [(reportFault_kept c n s).eng] at h

theorem arbitrate_work : UnitWork s (arbitrate s) where
  store h := by unfold StoreLaw at *; rwa [(arbitrate_kept s).store]
  refresh h := h.arbitrate
  fault h := h.congr (by rw [arbitrate_frame])
  link h := by rw [arbitrate_frame]; exact h
  rings _ h := by rw [arbitrate_frame]; exact h
  waits _ h := by rwa [arbitrate_eng] at h

theorem claimPort_work (r : Ring) (b : Burst) : UnitWork s (claimPort r b s) :=
  (setClaim_work s r _).trans (arbitrate_work _)

/-- A record's write is issued where there is room (R122, R124). -/
theorem issueRecord_work (q : CqIx) (c : Claim) (hr : s.cq[q].hasRoom = true) : UnitWork s (issueRecord q c s) := by
  unfold issueRecord
  split
  · exact .refl s
  · exact (updCq_work s q fun _ h => h.issued hr _).trans (takeWrite_work _ _ _)

theorem takeClaim_work (q : CqIx) (c : Claim) : UnitWork s (takeClaim q c s) := by
  unfold takeClaim
  split
  · rename_i h
    exact issueRecord_work s q c (Bool.and_eq_true_iff.mp h).1
  · exact updCq_work s q fun _ h => h.withQueue _

theorem serveQueue_work (q : CqIx) : UnitWork s (serveQueue q s) := by
  unfold serveQueue
  split
  · rename_i hr
    split
    · exact .refl s
    · refine (updCq_work s q fun _ h => h.withQueue _).trans (issueRecord_work _ q _ ?_)
      rw [State.updCq_get, if_pos rfl]
      exact hr
  · exact .refl s

theorem withdrawClaims_work (q : CqIx) (p : Claim → Bool) : UnitWork s (withdrawClaims q p s) := by
  unfold withdrawClaims
  split
  · exact (updCq_work s q fun _ h => h.withQueue _).trans (serveQueue_work _ q)
  · exact .refl s

theorem signalCq_work (q : CqIx) : UnitWork s (signalCq q s) :=
  (updCq_work s q fun _ h => h.signalled).trans (sendMessage_work _ _)

theorem moderate_work (q : CqIx) : UnitWork s (moderate q s) := by
  unfold moderate
  split
  · exact .refl s
  · rename_i g hg
    split
    · exact signalCq_work s q
    · exact updCq_work s q fun _ h => h.counted hg (by omega) _

theorem judgeRetire_work (q : CqIx) (n : Nat) : UnitWork s (judgeRetire q n s) := by
  unfold judgeRetire
  split
  · rename_i hv
    exact (updCq_work s q fun _ h => h.retired hv).trans (serveQueue_work _ q)
  · exact reportFault_work s (by simp) (by omega)

theorem takeRetire_work (q : CqIx) (n : Nat) : UnitWork s (takeRetire q n s) := by
  have hu := updCq_work s q (f := fun x => { x with held := none }) fun free h => h.unheld free
  unfold takeRetire
  dsimp only
  split
  · rename_i hh
    simp only [Bool.and_eq_true] at hh
    refine hu.trans (updCq_work _ q fun _ h => h.withHeld n ?_ ?_)
    · rw [State.updCq_get, if_pos rfl]
      exact hh.1.1
    · rw [State.updCq_get, if_pos rfl]
      exact hh.1.2
  · exact hu.trans (judgeRetire_work _ q n)

theorem discardNotice_work (r : Ring) : UnitWork s (discardNotice r s) := by
  unfold discardNotice
  split
  · exact .refl s
  · exact (updCq_work s _ fun _ h => h.requeue _ _).trans (withdrawClaims_work _ _ _)

theorem discardPacing_work (r : Ring) : UnitWork s (discardPacing r s) :=
  (discardNotice_work s r).trans (updPace_work _ r _)

/-! ### Engines -/

theorem tryFetch_work (r : Ring) : UnitWork s (tryFetch r s) := by
  unfold tryFetch
  repeat' split
  · exact .refl s
  · exact updEng_exec_work s r fun _ => .inl rfl
  · exact .refl s

theorem halt_work (r : Ring) : UnitWork s (halt r s) :=
  (updEng_exec_work s r fun _ => .inr rfl).trans (updPace_work _ r _)

theorem haltCause_work (r : Ring) : UnitWork s (haltCause r s) := by
  unfold haltCause
  repeat' split
  · exact updEng_exec_work s r fun _ => .inl rfl
  · exact .refl s
  · exact halt_work s r

theorem execStaged_work (r : Ring) (x : Record) : UnitWork s (execStaged r x s) :=
  updEng_work s r fun _ _ hx => nomatch (congrArg (Option.map Exec.phase) hx)

theorem goOn_work (r : Ring) : UnitWork s (goOn r s) := by
  unfold goOn
  repeat' split
  · exact halt_work s r
  · exact (execStaged_work s r _).trans (tryFetch_work _ r)
  · exact (tryFetch_work _ r).after (updEng_exec_work s r fun _ => .inl rfl)
  · exact updEng_exec_work s r fun _ => .inl rfl

theorem endCommand_work (r : Ring) (res : Result) : UnitWork s (endCommand r res s) := by
  unfold endCommand
  dsimp only
  have h1 := updEng_exec_work s r (f := fun e => { e with exec := none, lastOk := lastOkAfter res.status e.lastOk })
    fun _ => .inr rfl
  have h2 := h1.trans (updEng_exec_work _ r (f := fun e => { e with state := .waitCq }) fun _ => .inl rfl)
  repeat' split
  · exact .refl s
  · exact h1.trans (goOn_work _ r)
  · exact h2
  · exact h2.trans (takeClaim_work _ _ _)

theorem takePost_work (r : Ring) (n : Nat) : UnitWork s (takePost r n s) := by
  have h1 := updEng_exec_work s r (f := fun e => { e with tail := n }) fun _ => .inl rfl
  unfold takePost refusePost
  dsimp only
  repeat' split
  · exact reportFault_work s (by simp) r.isLt
  · exact reportFault_work s (by simp) r.isLt
  · exact h1
  · exact (tryFetch_work _ r).after (h1.trans (updEng_exec_work _ r fun _ => .inl rfl))
  · exact h1.trans (tryFetch_work _ r)

theorem issueWrite_work (r : Ring) (a : Addr) (d : List Byte) : UnitWork s (issueWrite r a d s) :=
  (takeWrite_work _ a d).after (updEng_exec_work s r fun _ => .inl rfl)

theorem issueRead_work (r : Ring) (a : Addr) (n : Nat) : UnitWork s (issueRead r a n s) :=
  updEng_exec_work s r fun _ => .inl rfl

/-! ### What a granted command does until its next transfer or burst -/

theorem pushNext_work (r : Ring) (x : Record) (n : Nat) : UnitWork s (pushNext r x n s) :=
  (setPhase_work s r (by simp)).trans (issueRead_work _ r _ _)

theorem readChunk_work (r : Ring) : UnitWork s (readChunk r s) := by
  unfold readChunk
  dsimp only
  repeat' split
  · exact .refl s
  · exact .refl s
  · exact setPhase_work s r (by simp)
  · exact (setPhase_work s r (by simp)).trans (claimPort_work _ r _)
  · exact .refl s

theorem writeChunk_work (r : Ring) : UnitWork s (writeChunk r s) := by
  unfold writeChunk
  repeat' split
  · exact .refl s
  · exact (setPhase_work s r (by simp)).trans (issueWrite_work _ r _ _)
  · exact .refl s
  · exact .refl s

theorem pumpReader_work (r : Ring) : UnitWork s (pumpReader r s) :=
  ((readChunk_work s r).trans (writeChunk_work _ r)).trans (readChunk_work _ r)

theorem issueInput_work (r : Ring) (x : Record) (c : StepCtx) : UnitWork s (issueInput r x c s) := by
  unfold issueInput
  dsimp only
  split
  · exact (setPhase_work s r (by simp)).trans (issueRead_work _ r _ _)
  · exact setPhase_work s r (by simp)

theorem writeStep_work (r : Ring) : UnitWork s (writeStep r s) := by
  unfold writeStep
  repeat' split
  · exact .refl s
  · exact (setPhase_work s r (by simp)).trans (issueWrite_work _ r _ _)
  · exact .refl s
  · exact .refl s

theorem commitStep_work (r : Ring) : UnitWork s (commitStep r s) := by
  unfold commitStep
  repeat' split
  · exact (setPhase_work s r (by simp)).trans (claimPort_work _ r _)
  · exact .refl s
  · exact .refl s
  · exact .refl s

/-! ### Locks -/

theorem leaveLock_work (r : Ring) (l : LineIx) : UnitWork s (leaveLock r l s) := updLine_work s l _

/-- A command that leaves its lock and ends. -/
theorem endAtLock_work (r : Ring) (l : LineIx) (res : Result) : UnitWork s (endCommand r res (leaveLock r l s)) :=
  (leaveLock_work s r l).trans (endCommand_work _ r res)

theorem beginReader_work (r : Ring) (x : Record) (offs : List Nat) : UnitWork s (beginReader r x offs s) := by
  unfold beginReader
  dsimp only
  split
  · exact endAtLock_work s r _ _
  · exact (setPhase_work s r (by simp)).trans (pumpReader_work _ r)

theorem beginSetTaps_work (r : Ring) (x : Record) : UnitWork s (beginSetTaps r x s) := by
  unfold beginSetTaps
  dsimp only
  split
  · exact (updLine_work s _ _).trans (endAtLock_work _ r _ _)
  · exact (setPhase_work s r (by simp)).trans (issueRead_work _ r _ _)

theorem beginClear_work (r : Ring) (x : Record) : UnitWork s (beginClear r x s) :=
  (updLine_work s _ _).trans (endAtLock_work _ r _ _)

theorem beginGranted_work (r : Ring) : UnitWork s (beginGranted r s) := by
  have h1 := updEng_exec_work s r (f := fun e => { e with state := .active }) fun _ => .inl rfl
  unfold beginGranted
  dsimp only
  split
  · exact .refl s
  · split
    · exact h1.trans (pushNext_work _ r _ _)
    · exact h1.trans (beginSetTaps_work _ r _)
    · exact h1.trans (beginClear_work _ r _)
    · exact h1.trans (issueInput_work _ r _ _)
    · exact h1.trans (beginReader_work _ r _ _)
    · exact h1.trans (beginReader_work _ r _ _)
    · exact h1

theorem grantWaiter_work (r : Ring) : UnitWork s (grantWaiter r s) := by
  unfold grantWaiter
  split
  · exact (setPhase_work s r (by simp)).trans (updEng_exec_work _ r fun _ => .inl rfl)
  · exact beginGranted_work s r

theorem endClose_work (l : LineIx) : UnitWork s (endClose l s) := by
  have hfreed : UnitWork s (freed l s) := (updLine_work s l _).trans (free_work _ _)
  obtain h | ⟨w, -, c, q, -, h⟩ := endClose_cases l s
  · rwa [h]
  · rw [h]
    exact hfreed.trans (endCommand_work _ _ _)

theorem grantLoop_work (n : Nat) (l : LineIx) : UnitWork s (grantLoop n l s) := by
  induction n generalizing s with
  | zero => exact .refl s
  | succ n ih =>
    unfold grantLoop
    dsimp only
    have grant : ∀ (r : Ring) (f : Line → Line), UnitWork s (grantLoop n l (grantWaiter r (s.updLine l f))) := fun r f =>
      ((updLine_work s l f).trans (grantWaiter_work _ r)).trans (ih _)
    repeat' split
    · exact endClose_work s l
    · exact .refl s
    · exact grant _ _
    · exact grant _ _
    · exact grant _ _
    · exact .refl s

theorem grantStep_work (l : LineIx) : UnitWork s (grantStep l s) := grantLoop_work s _ l

theorem release_work (r : Ring) (l : LineIx) : UnitWork s (release r l s) :=
  (leaveLock_work s r l).trans (grantStep_work _ l)

theorem finish_work (r : Ring) (x : Record) (res : Result) : UnitWork s (finish r x res s) :=
  (release_work s r _).trans (endCommand_work _ r res)

theorem queueClaim_work (r : Ring) (l : LineIx) (k : WaitKind) : UnitWork s (queueClaim r l k s) :=
  ((updLine_work s l _).trans (setPhase_work _ r (by simp))).trans (updEng_exec_work _ r fun _ => .inl rfl)

theorem claimReader_work (r : Ring) (l : LineIx) : UnitWork s (claimReader r l s) := by
  unfold claimReader
  dsimp only
  split
  · exact ((updLine_work s l _).trans (beginGranted_work _ r)).trans (grantStep_work _ l)
  · exact queueClaim_work s r l _

theorem claimWriter_work (r : Ring) (l : LineIx) : UnitWork s (claimWriter r l s) := by
  unfold claimWriter
  split
  · exact ((updLine_work s l _).trans (beginGranted_work _ r)).trans (grantStep_work _ l)
  · exact queueClaim_work s r l _

theorem finishStep_work (r : Ring) : UnitWork s (finishStep r s) := by
  unfold finishStep
  dsimp only
  repeat' split
  all_goals first
    | exact .refl s
    | exact finish_work s r _ _

theorem pumpStep_work (r : Ring) : UnitWork s (pumpStep r s) :=
  ((writeStep_work s r).trans (commitStep_work _ r)).trans (finishStep_work _ r)

/-! ### Stops -/

theorem dropCommand_work (r : Ring) : UnitWork s (dropCommand r s) := by
  unfold dropCommand
  dsimp only
  split
  · exact .refl s
  · split
    · exact (release_work _ r _).after (updEng_exec_work s r fun _ => .inr rfl)
    · exact updEng_exec_work s r fun _ => .inr rfl

theorem dropClaim_work (r : Ring) : UnitWork s (dropClaim r s) := by
  have h1 := updEng_exec_work s r (f := fun e => { e with state := .active }) fun _ => .inl rfl
  unfold dropClaim
  dsimp only
  repeat' split
  · exact h1
  · exact h1.trans (withdrawClaims_work _ _ _)
  · exact .refl s

theorem unwind_work (r : Ring) : UnitWork s (unwind r s) :=
  ((dropClaim_work _ r).after (dropCommand_work _ r)).after (updEng_exec_work s r fun _ => .inl rfl)

theorem finishRestart_work : UnitWork s (finishRestart s) := by
  have hcq := updCq_work s 0 (f := fun x => Cq.fresh x.cfg) fun free h => Cq.fresh_lawfulBut free fun g hg =>
    ⟨(h.2 g hg).size, (h.2 g hg).threshold⟩
  exact (hp_work _ rfl).after (hcq.trans (updEng_exec_work _ 0 fun _ => .inr rfl))

theorem tryRestart_work : UnitWork s (tryRestart s) := by
  unfold tryRestart
  dsimp only
  repeat' split
  · exact (unwind_work s 0).trans (finishRestart_work _)
  · exact unwind_work s 0
  · exact .refl s

theorem endControl_work (res : Result) : UnitWork s (endControl res s) := by
  unfold endControl
  split
  · exact (updEng_exec_work s 0 fun _ => .inr rfl).trans (tryRestart_work _)
  · exact endCommand_work s 0 res

theorem targetStopped_work (r : Ring) (rep : StopReport) (n : Nat) : UnitWork s (targetStopped r rep n s) := by
  unfold targetStopped
  repeat' split
  · exact endControl_work s _
  · exact .refl s
  · exact .refl s

theorem finishReset_work (r : Ring) : UnitWork s (finishReset r s) :=
  (updEng_exec_work s r (f := fun _ => Engine.resetValue) fun _ => .inr rfl).trans (targetStopped_work _ r _ _)

theorem tryStop_work (r : Ring) : UnitWork s (tryStop r s) := by
  have hu := unwind_work s r
  have hd := hu.trans (discardPacing_work _ r)
  unfold tryStop
  dsimp only
  repeat' split
  · exact tryRestart_work s
  · exact .refl s
  · exact hu.trans (halt_work _ r)
  · exact hd
  · exact hd.trans (finishReset_work _ r)
  · exact .refl s

theorem beginStop_work (r : Ring) (cause : StopCause) : UnitWork s (beginStop r cause s) :=
  ((tryStop_work _ r).after (setClaim_work _ r none)).after (updEng_exec_work s r fun _ => .inl rfl)

theorem noticeFailed_work (r : Ring) : UnitWork s (noticeFailed r s) := by
  unfold noticeFailed
  dsimp only
  split
  · exact .refl s
  · exact beginStop_work s r _

theorem orStop_work (r : Ring) {k : State → State} (hk : UnitWork s (k s)) : UnitWork s (orStop r k s) :=
  orStop_ind (tryStop_work s r) fun _ => hk

end

end Sys2Proof.Machine
end

section
/-! The work of the commands keeps the laws of the units. -/

namespace Sys2Proof.Machine

section
variable (s : State)

/-! ### Ring 0 -/

theorem configureRing_work (x : Record) : UnitWork s (configureRing x s) :=
  (endCommand_work _ 0 _).after ((updPace_work _ _ _).after (updEng_exec_work s _ fun _ => .inr rfl))

theorem resetRing_work (x : Record) : UnitWork s (resetRing x s) :=
  (setPhase_work s 0 (by simp)).trans (beginStop_work _ _ _)

theorem setRefreshCode_work {code : Nat} (h8 : 8 ≤ code) (h255 : code ≤ 255) : UnitWork s (setRefreshCode code s) where
  store := id
  refresh h := by
    obtain ⟨hd, -, -, hs⟩ := h
    refine ⟨hd, h8, h255, ?_⟩
    show match s.sc.state with
      | .init => s.sc.debt = 0 ∧ s.sc.timer.map _ = none ∧ s.sc.port = .initialising
      | .ready => (s.sc.timer.map _).isSome ∧ s.sc.port ≠ .initialising
    split
    · rename_i hst
      rw [hst] at hs
      exact ⟨hs.1, by rw [hs.2.1]; rfl, hs.2.2⟩
    · rename_i hst
      rw [hst] at hs
      exact ⟨by rw [Option.isSome_map]; exact hs.1, hs.2⟩
  fault := id
  link := id
  rings _ := id
  waits _ := id

theorem checkConfigureDevice_none {x : Record} {s : State} (h : checkConfigureDevice x s = none) :
    8 ≤ x.paramA.toNat ∧ x.paramA.toNat ≤ 255 := by
  unfold checkConfigureDevice refuseIf at h
  simp only [Option.orElse_eq_orElse, Option.orElse_eq_or, Option.or_eq_none_iff] at h
  simpa using h.1

theorem setFrameSource_work (src : FrameSource) (p : Nat) : UnitWork s (setFrameSource src p s) := by
  unfold setFrameSource
  split
  · exact fu_work s _
  · exact fu_work s _

theorem configureDevice_work {x : Record} (h : checkConfigureDevice x s = none) : UnitWork s (configureDevice x s) := by
  obtain ⟨h8, h255⟩ := checkConfigureDevice_none h
  exact ((setRefreshCode_work s h8 h255).trans (setFrameSource_work _ _ _)).trans (endCommand_work _ 0 _)

theorem writeSnapshot_work (x : Record) (data : List Byte) (res : Result) : UnitWork s (writeSnapshot x data res s) :=
  (setPhase_work s 0 (by simp)).trans (issueWrite_work _ 0 _ _)

theorem control_work (k : Kind) {check : Record → State → Option Status} {effect : Record → State → State}
    (he : ∀ x, check x s = none → UnitWork s (effect x s)) : UnitWork s (runKind 0 k (checkedControl check effect) s) :=
  control_ind (.refl s) (fun _ _ res => endCommand_work s 0 res) fun x _ hc => he x hc

theorem endQuery_work (res : Result) : UnitWork s (endQuery res s) :=
  (endControl_work _ res).after (updEng_exec_work s 0 fun _ => .inl rfl)

/-! ### Completion records -/

theorem tellPosted_work (c : Claim) : UnitWork s (tellPosted c s) := by
  unfold tellPosted
  repeat' split
  · exact .refl s
  · exact updPace_work s _ _
  · exact .refl s
  · refine orStop_work s _ ?_
    split
    · exact goOn_work s _
    · exact .refl s

theorem tellFailed_work (c : Claim) : UnitWork s (tellFailed c s) := by
  unfold tellFailed
  repeat' split
  · exact .refl s
  · exact (updPace_work s _ _).trans (noticeFailed_work _ _)
  · refine orStop_work s _ ?_
    split
    · exact halt_work s _
    · exact .refl s

theorem restartAfter_work (c : Claim) : UnitWork s (restartAfter c s) := by
  unfold restartAfter
  split
  · exact tryRestart_work s
  · exact .refl s

/-! ### Frames and records -/

theorem runMark_work (r : Ring) (x : Record) : UnitWork s (runMark r x s) := by
  unfold runMark carryOutMark
  dsimp only
  repeat' split
  · exact ((updPace_work s r _).trans (setPhase_work _ r (by simp))).trans (updEng_exec_work _ r fun _ => .inl rfl)
  · exact (updPace_work s r _).trans (endCommand_work _ r _)
  · exact endCommand_work s r _

theorem countLate_work (r : Ring) : UnitWork s (countLate r s) := by
  unfold countLate
  dsimp only
  repeat' split
  · exact updPace_work s r _
  · exact (updPace_work s r _).trans (updPace_work _ r _)
  · exact ((updPace_work s r _).trans (updPace_work _ r _)).trans (takeClaim_work _ _ _)

theorem overrun_work (r : Ring) : UnitWork s (overrun r s) :=
  ((updPace_work s r _).trans (reportFault_work _ (by simp) r.isLt)).trans (haltCause_work _ r)

theorem strobeRing_work (r : Ring) : UnitWork s (strobeRing s r) := by
  unfold strobeRing
  repeat' split
  · exact endCommand_work s r _
  · exact countLate_work s r
  · exact overrun_work s r
  · exact .refl s

theorem strobeRings_work (rs : List Ring) : UnitWork s (rs.foldl strobeRing s) := by
  induction rs generalizing s with
  | nil => exact .refl s
  | cons r rs ih => exact (strobeRing_work s r).trans (ih _)

theorem strobe_work : UnitWork s (strobe s) := (fu_work s _).trans (strobeRings_work _ _)

theorem frameExpiry_work : UnitWork s (frameExpiry s) := by
  unfold frameExpiry
  split
  · exact ((atTime_work s _).trans (fu_work _ _)).trans (strobe_work _)
  · exact .refl s

theorem fetchDone_work (r : Ring) (bytes : BitVec 256) : UnitWork s (fetchDone r bytes s) := by
  have h1 := updEng_exec_work s r (f := fun e => { e with fetch := none }) fun _ => .inl rfl
  have h2 := h1.trans (updEng_exec_work _ r (f := fun e => { e with head := (e.head + 1) % e.size }) fun _ => .inl rfl)
  unfold fetchDone
  dsimp only
  repeat' split
  · exact h1.trans (tryStop_work _ r)
  · exact (h2.trans (execStaged_work _ r _)).trans (tryFetch_work _ r)
  · exact h2.trans (updEng_exec_work _ r fun _ => .inl rfl)

theorem fetchFailed_work (r : Ring) : UnitWork s (fetchFailed r s) := by
  have h1 := updEng_exec_work s r (f := fun e => { e with fetch := none }) fun _ => .inl rfl
  unfold fetchFailed
  dsimp only
  repeat' split
  · exact .refl s
  · exact h1.trans (tryStop_work _ r)
  · exact (h1.trans (reportFault_work _ (by simp) r.isLt)).trans (haltCause_work _ r)

/-! ### Transfers of line commands -/

theorem readOver_work (r : Ring) : UnitWork s (readOver r s) := updEng_exec_work s r fun _ => .inl rfl

theorem writeOver_work (r : Ring) : UnitWork s (writeOver r s) := updEng_exec_work s r fun _ => .inl rfl

theorem installTaps_work (r : Ring) (x : Record) (ts : List Nat) : UnitWork s (installTaps r x ts s) := by
  unfold installTaps
  dsimp only
  split
  · exact finish_work s r x _
  · exact (updLine_work s _ _).trans (finish_work _ r x _)

theorem tapListReadFailed_work (r : Ring) : UnitWork s (tapListReadFailed r s) := by
  unfold tapListReadFailed
  repeat' split
  · exact .refl s
  · exact .refl s
  · exact (readOver_work s r).trans (orStop_work _ r (finish_work _ r _ _))

theorem claimPush_work (r : Ring) (x : Record) (bytes : List Byte) : UnitWork s (claimPush r x bytes s) := by
  unfold claimPush
  split
  · exact .refl s
  · exact claimPort_work s r _

theorem pushSamplesReadFailed_work (r : Ring) : UnitWork s (pushSamplesReadFailed r s) := by
  unfold pushSamplesReadFailed
  repeat' split
  · exact .refl s
  · exact .refl s
  · exact (readOver_work s r).trans (orStop_work _ r (finish_work _ r _ _))

theorem pushGoesOn_work (r : Ring) (x : Record) (n : Nat) : UnitWork s (pushGoesOn r x n s) := by
  unfold pushGoesOn
  split
  · exact pushNext_work s r x n
  · exact finish_work s r x _

theorem takeInputs_work (r : Ring) (x : Record) (c : StepCtx) (bytes : List Byte) :
    UnitWork s (takeInputs r x c bytes s) := by
  unfold takeInputs
  repeat' split
  · exact .refl s
  · exact .refl s
  · exact setPhase_work s r (by simp)

theorem stepInputReadFailed_work (r : Ring) : UnitWork s (stepInputReadFailed r s) := by
  unfold stepInputReadFailed
  repeat' split
  · exact .refl s
  · exact .refl s
  · exact (readOver_work s r).trans (orStop_work _ r ((setPhase_work _ r (by simp)).trans (pumpStep_work _ r)))

theorem commandReadFailed_work (r : Ring) : UnitWork s (commandReadFailed r s) := by
  unfold commandReadFailed
  split
  · exact tapListReadFailed_work s r
  · exact pushSamplesReadFailed_work s r
  · exact stepInputReadFailed_work s r
  · exact .refl s

theorem readerWritten_work (r : Ring) (x : Record) (c : ReaderCtx) : UnitWork s (readerWritten r x c s) := by
  unfold readerWritten
  split
  · exact finish_work s r x _
  · exact (setPhase_work s r (by simp)).trans (pumpReader_work _ r)

theorem stepWritten_work (r : Ring) (c : StepCtx) : UnitWork s (stepWritten r c s) :=
  (setPhase_work s r (by simp)).trans (pumpStep_work _ r)

theorem readerWriteFailed_work (r : Ring) (x : Record) (c : ReaderCtx) : UnitWork s (readerWriteFailed r x c s) := by
  have h1 := (setClaim_work s r none).trans (setPhase_work _ r (p := .reader { c with failed := true }) (by simp))
  unfold readerWriteFailed
  dsimp only
  split
  · exact h1
  · exact h1.trans (finish_work _ r x _)

theorem stepWriteFailed_work (r : Ring) (c : StepCtx) : UnitWork s (stepWriteFailed r c s) :=
  ((setClaim_work s r none).trans (setPhase_work _ r (by simp))).trans (finishStep_work _ r)

/-! ### The ends of bursts -/

theorem readerBurstOver_work (r : Ring) (x : Record) (c : ReaderCtx) : UnitWork s (readerBurstOver r x c s) := by
  unfold readerBurstOver
  repeat' split
  · exact .refl s
  · exact finish_work s r x _
  · exact (setPhase_work s r (by simp)).trans (pumpReader_work _ r)

theorem stepCommitted_work (r : Ring) (x : Record) (c : StepCtx) : UnitWork s (stepCommitted r x c s) := by
  unfold stepCommitted
  dsimp only
  have next : ∀ u : State, UnitWork s u → ∀ (b : Bool) (ws : List Nat),
      UnitWork s (if b = true then pumpStep r u else claimPort r (.read ws) u) := by
    intro u hu b ws
    split
    · exact hu.trans (pumpStep_work u r)
    · exact hu.trans (claimPort_work u r _)
  split
  · exact .refl s
  · refine next _ ?_ _ _
    split
    · exact issueInput_work s r x _
    · exact setPhase_work s r (by simp)

theorem stepBurstOver_work (r : Ring) (x : Record) (c : StepCtx) : UnitWork s (stepBurstOver r x c s) := by
  unfold stepBurstOver
  dsimp only
  repeat' split
  · exact .refl s
  · exact finishStep_work s r
  · exact stepCommitted_work s r x c
  · exact (setPhase_work s r (by simp)).trans (pumpStep_work _ r)

theorem afterBurst_work (r : Ring) : UnitWork s (afterBurst r s) := by
  unfold afterBurst
  split
  · exact pushGoesOn_work s r _ _
  · exact readerBurstOver_work s r _ _
  · exact stepBurstOver_work s r _ _
  · exact .refl s

theorem commitBurst_work (r : Ring) (m : Nat) : UnitWork s (commitBurst r m s) := by
  unfold commitBurst
  split
  · exact (updLine_work s _ _).trans (setPhase_work _ r (by simp))
  · exact (updLine_work s _ _).trans (setPhase_work _ r (by simp))
  · exact .refl s

/-- A write burst all of whose words the store has keeps its canonical form (R22, R31). -/
theorem burstEffect_work (r : Ring) {b : Burst} (hb : b.absentWord = none) : UnitWork s (burstEffect r b s) := by
  unfold burstEffect
  split
  · rename_i ws
    have hws : ∀ p ∈ ws, p.1 < storeWords := fun p hp =>
      Nat.not_le.mp (of_decide_eq_false (Bool.eq_false_iff.mpr (List.find?_eq_none.mp hb p.1 (List.mem_map_of_mem hp))))
    have hstore : UnitWork s { s with store := Memory.writeAll ws s.store } :=
      ⟨fun h => Memory.writeAll_wf h hws, id, id, id, fun _ => id, fun _ => id⟩
    exact hstore.trans (commitBurst_work _ r _)
  · exact .refl s

theorem burstEffect_sc (r : Ring) (b : Burst) : (burstEffect r b s).sc = s.sc := by
  unfold burstEffect commitBurst
  repeat' split
  all_goals rfl

/-- In READY the port falls free, and SC's debt is at most what it was (R31, R38). -/
theorem portIdle_work (hp : s.sc.port ≠ .initialising) {debt : Nat} (hd : debt ≤ s.sc.debt) :
    UnitWork s { s with sc := { s.sc with port := .idle, debt := debt } } :=
  ⟨id, fun h => h.inReady hp rfl rfl id (by simp) (hd.trans h.1), id, id, fun _ => id, fun _ => id⟩

theorem endBurst_work {r : Ring} {b : Burst} (hp : s.sc.port = .burst r b) (hb : b.absentWord = none) :
    UnitWork s (endBurst r b s) := by
  have hport : (burstEffect r b s).sc.port ≠ .initialising := by
    rw [burstEffect_sc, hp]
    simp
  have h1 := ((burstEffect_work s r hb).trans (portIdle_work _ hport le_rfl)).trans (arbitrate_work _)
  exact h1.trans (orStop_work _ r (afterBurst_work _ r))

theorem refreshEnd_work : UnitWork s (refreshEnd s) := by
  unfold refreshEnd
  split
  · rename_i hp
    exact (portIdle_work s (by rw [hp]; simp) (Nat.sub_le _ _)).trans (arbitrate_work _)
  · exact .refl s

/-- At an expiry the timer begins its next interval; the debt rises to at most 8 (R36, R37). -/
theorem refreshExpiry_work : UnitWork s (refreshExpiry s) := by
  unfold refreshExpiry
  split
  · exact .refl s
  · rename_i t ht
    have hport := fun h : RefreshLaw (s.atTime t) => h.port_of_timer (show s.sc.timer.isSome by rw [ht]; rfl)
    have expiry : ∀ debt, (s.sc.debt ≤ 8 → debt ≤ 8) →
        UnitWork s { s.atTime t with sc := { s.sc with timer := some (t + s.sc.code * 125), debt := debt } } := fun debt hd =>
      (atTime_work s t).trans ⟨id, fun h => h.inReady (hport h) rfl rfl (fun _ => rfl) (hport h) (hd h.1),
        id, id, fun _ => id, fun _ => id⟩
    dsimp only
    split
    · exact (expiry (s.sc.debt + 1) (by omega)).trans (arbitrate_work _)
    · exact (expiry s.sc.debt id).trans (reportFault_work _ (by simp) (by decide))

/-! ### The Host Port and the Store Controller -/

/-- A device reset leaves every unit as its law has it (R178). -/
theorem deviceReset_work : UnitWork s (deviceReset s) where
  store h := by
    show Memory.wf (storeAfterReset s)
    unfold storeAfterReset
    split
    · refine Memory.writeAll_wf h fun p hp => ?_
      exact of_decide_eq_true (List.mem_filter.mp (List.mem_of_mem_take hp)).2
    · exact h
  refresh _ := ⟨Nat.zero_le _, (by decide : 8 ≤ 62), (by decide : 62 ≤ 255), rfl, rfl, rfl⟩
  fault _ := ⟨(by decide : 0 < 8), (by decide : 0 < 256), fun _ => rfl⟩
  link _ := .of_empty rfl rfl
  rings free _ q := by
    have hq : (deviceReset s).cq[q] = .fresh none := by simp [deviceReset]
    rw [hq]
    exact Cq.fresh_lawfulBut _ fun g hg => nomatch hg
  waits x hx := by
    have he : (deviceReset s).eng[(0 : Ring)] = .resetValue := by simp [deviceReset]
    rw [he] at hx
    exact nomatch hx

theorem powerOn_work : UnitWork s (powerOn s) :=
  (deviceReset_work s).trans ⟨fun _ => Memory.reset_wf, id, id,
    fun _ => .of_empty rfl rfl, fun _ => id, fun _ => id⟩

theorem failStart_work {c : FaultCode} (hc : c ≠ .none) : UnitWork s (failStart c s) :=
  (reportFault_work _ hc (by decide : 0 < 8)).after (hp_work s rfl)

theorem anchorReadFailed_work : UnitWork s (anchorReadFailed s) := by
  unfold anchorReadFailed
  split
  · exact .refl s
  · exact failStart_work s (by simp)

theorem readFailed_work (id : ReadId) : UnitWork s (readFailed id s) := by
  unfold readFailed
  split
  · exact anchorReadFailed_work s
  · exact fetchFailed_work s _
  · exact commandReadFailed_work s _

theorem checkAnchorAddr_work : UnitWork s (checkAnchorAddr s) := by
  unfold checkAnchorAddr
  repeat' split
  · exact .refl s
  · exact hp_work s rfl
  · exact failStart_work s (by simp)

theorem controlStart_work : UnitWork s (controlStart s) := by
  have h1 : UnitWork s { s with hp := { s.hp with
      dev := .starting, anchorAddr := some (s.hp.anchorHi ++ s.hp.anchorLo) } } := hp_work s rfl
  unfold controlStart
  dsimp only
  repeat' split
  · exact h1.trans (checkAnchorAddr_work _)
  · exact h1
  · exact .refl s

theorem controlRestart_work : UnitWork s (controlRestart s) := by
  unfold controlRestart
  repeat' split
  · exact .refl s
  · exact (beginStop_work _ 0 _).after (hp_work s rfl)
  · exact .refl s

theorem writeControl_work (v : Word) : UnitWork s (writeControl v s) := by
  unfold writeControl
  repeat' split
  · exact controlStart_work s
  · exact deviceReset_work s
  · exact controlRestart_work s
  · exact .refl s

theorem storeReady_work : UnitWork s (storeReady s) := by
  have h1 : UnitWork s { s with sc := { s.sc with
      state := .ready, port := .idle, timer := some (s.now + s.sc.code * 125) } } :=
    ⟨id, fun ⟨hd, h8, h255, _⟩ => ⟨hd, h8, h255, rfl, by simp⟩, id, id, fun _ => id, fun _ => id⟩
  have h2 := h1.trans (arbitrate_work _)
  unfold storeReady
  dsimp only
  repeat' split
  · exact h2.trans (checkAnchorAddr_work _)
  · exact h2
  · exact .refl s

/-- Ring 0 and CQ0 are configured from a block that has passed the checks (R175). -/
theorem configureFromAnchor_work {block : BitVec 256} (hv : anchorValid block = true) :
    UnitWork s (configureFromAnchor block s) := by
  simp only [anchorValid, Bool.and_eq_true, decide_eq_true_eq] at hv
  obtain ⟨⟨⟨-, hsize⟩, ht⟩, -⟩ := hv
  have hsize : 16 ≤ (anchorCq block).size := by
    simp only [isRingSize, List.contains_iff_mem, List.mem_cons, List.not_mem_nil, or_false] at hsize
    omega
  have hcq := updCq_work (s.updEng 0 (fun _ => { Engine.resetValue with state := .idle, cfg := some (anchorRing block) }))
    0 (f := fun _ => Cq.fresh (some (anchorCq block))) fun free _ => Cq.fresh_lawfulBut free fun g hg => by
      obtain rfl := Option.some.inj hg
      exact ⟨hsize, ht⟩
  exact (hp_work _ rfl).after ((updEng_exec_work s 0 fun _ => .inr rfl).trans hcq)

/-- A write to FAULT empties the record (R179). -/
theorem writeFault_work (v : Word) : UnitWork s (writeFault v s) :=
  ⟨id, id, fun _ => ⟨(by decide : 0 < 8), (by decide : 0 < 256), fun _ => rfl⟩, id, fun _ => id, fun _ => id⟩

/-- The conditions of the link change, so that transfers can be issued whenever they could (R182). -/
theorem conditions_work {hp : HostPort} (h : hp = { s.hp with linkUp := hp.linkUp, busMaster := hp.busMaster })
    (hi : State.canIssue { s with hp := hp } = false → s.canIssue = false) : UnitWork s { s with hp := hp } :=
  ⟨id, id, fun hf => hf.congr (by rw [h]), fun hl => hl.conditions (by rw [h]) (by rw [h]) (by rw [h]) hi, fun _ => id,
    fun _ => id⟩

/-- The conditions of the link change, and every transfer in flight fails (R182, R183). -/
theorem failTransfers_work {hp : HostPort} (h : hp = { s.hp with linkUp := hp.linkUp, busMaster := hp.busMaster }) :
    UnitWork s (failTransfers { s with hp := hp }) where
  store := id
  refresh := id
  fault hf := hf.congr (by
    show hp.fault = s.hp.fault
    rw [h])
  link hl := hl.failTransfers hp (by rw [h]) (by rw [h]) (by rw [h])
  rings _ := id
  waits x hx := by
    obtain ⟨k, -, he⟩ := failTransfers_failed { s with hp := hp }
    rw [he 0] at hx
    exact hx

theorem writeWindow_work (offset n : Nat) (v : Word) : UnitWork s (writeWindow offset n v s) := by
  unfold writeWindow
  repeat' split
  · exact .refl s
  · exact writeControl_work s v
  · exact hp_work s rfl
  · exact hp_work s rfl
  · exact takePost_work s _ _
  · exact takeRetire_work s _ _
  · exact writeFault_work s v
  · exact .refl s

/-! ### The line commands -/

theorem refuseReaders_work (l : LineIx) (rs : List Ring) : UnitWork s (rs.foldl (fun t q => refuseReader l q t) s) := by
  have refuse : ∀ (r : Ring) (u : State), UnitWork u (refuseReader l r u) := by
    intro r u
    unfold refuseReader
    split
    · exact .refl u
    · exact (endCommand_work _ r _).after (updEng_exec_work u r fun _ => .inl rfl)
  induction rs generalizing s with
  | nil => exact .refl s
  | cons r rs ih => exact (refuse r s).trans (ih _)

theorem carryOutClose_work (r : Ring) (x : Record) : UnitWork s (carryOutClose r x s) := by
  have hclosing : UnitWork s (closing r x s) := by
    unfold closing
    refine .trans ?_ (updEng_exec_work _ r fun _ => .inl rfl)
    exact (updLine_work s _ _).trans (setPhase_work _ r (by simp))
  exact (hclosing.trans (refuseReaders_work _ _ _)).trans (grantStep_work _ _)

theorem carryOutOpen_work (r : Ring) (x : Record) : UnitWork s (carryOutOpen r x s) := by
  unfold carryOutOpen
  dsimp only
  split
  · exact ((updLine_work s _ _).trans (free_work _ _)).trans (endCommand_work _ r _)
  · exact endCommand_work s r _

theorem carryOutTest_work (r : Ring) (x : Record) : UnitWork s (carryOutTest r x s) :=
  (endCommand_work _ r _).after (updEng_exec_work s r fun _ => .inl rfl)

theorem lineCommand_work (r : Ring) (k : Kind) {body : Record → State → State} (hb : ∀ x, UnitWork s (body x s)) :
    UnitWork s (lineCommand r k body s) :=
  lineCommand_ind (.refl s) (fun _ _ res => endCommand_work s r res) fun x _ _ _ _ _ => hb x

end

end Sys2Proof.Machine
end

section
/-! Every command keeps the laws of the units (R22, R36, R37, R39, R122, R179, R182). -/

namespace Sys2Proof.Machine

/-- The laws of the units, save that a completion ring `q` with `free q` may hold a RETIRE while no write is in flight. -/
structure UnitLaws (free : CqIx → Prop) (s : State) : Prop where
  store : StoreLaw s
  refresh : RefreshLaw s
  fault : FaultLaw s
  link : LinkLaw s
  rings : ∀ q : CqIx, s.cq[q].LawfulBut (free q)
  waits : ∀ x : Record, s.eng[(0 : Ring)].exec = some ⟨x, .cqWait⟩ → 16 ≤ x.count.toNat ∧ 1 ≤ x.paramB.toNat

/-- No completion ring is excepted. -/
def noRing : CqIx → Prop := fun _ => False

theorem unitLaws_iff (s : State) :
    UnitLaws noRing s ↔ StoreLaw s ∧ RefreshLaw s ∧ FaultLaw s ∧ LinkLaw s ∧ CqLaw s := by
  constructor
  · rintro ⟨h1, h2, h3, h4, h5, h6⟩
    exact ⟨h1, h2, h3, h4, fun q => (Cq.lawful_iff _).mpr (h5 q), h6⟩
  · rintro ⟨h1, h2, h3, h4, h5, h6⟩
    exact ⟨h1, h2, h3, h4, fun q => (Cq.lawful_iff _).mp (h5 q), h6⟩

theorem UnitWork.laws {free : CqIx → Prop} {s t : State} (h : UnitWork s t) (hs : UnitLaws free s) : UnitLaws free t :=
  ⟨h.store hs.store, h.refresh hs.refresh, h.fault hs.fault, h.link hs.link, h.rings free hs.rings,
    fun x hx => hs.waits x (h.waits x hx)⟩

/-- One completion ring changes, with the exceptions that it needs. -/
theorem UnitLaws.updCq {free free' : CqIx → Prop} {s : State} (h : UnitLaws free s) (q : CqIx) {f : Cq → Cq}
    (hq : (f s.cq[q]).LawfulBut (free' q)) (ho : ∀ k, k ≠ q → free k → free' k) : UnitLaws free' (s.updCq q f) where
  store := h.store
  refresh := h.refresh
  fault := h.fault
  link := h.link
  rings k := by
    rw [State.updCq_get]
    split
    · rename_i hk
      rw [hk]
      exact hq
    · rename_i hk
      exact (h.rings k).mono (ho k hk)
  waits := h.waits

section
variable {s : State}

/-! ### CONFIGURE COMPLETION RING -/

theorem UnitLaws.configureCq (h : UnitLaws noRing s) {x : Record} (hx : 16 ≤ x.count.toNat ∧ 1 ≤ x.paramB.toNat)
    (he : ∀ e, s.eng[(0 : Ring)].exec = some e → e.rcd = x) : UnitLaws noRing (configureCq x s) := by
  unfold Machine.configureCq
  split
  · refine ⟨h.store, h.refresh, h.fault, h.link, h.rings, fun y hy => ?_⟩
    rw [State.setPhase_get, if_pos rfl] at hy
    obtain ⟨e, hs, hey⟩ := Option.map_eq_some_iff.mp hy
    obtain rfl : e.rcd = y := congrArg Exec.rcd hey
    rwa [he e hs]
  · refine (endControl_work _ _).laws (h.updCq x.cqA (Cq.fresh_lawfulBut _ fun g hg => ?_) fun _ _ => id)
    obtain rfl := Option.some.inj hg
    exact hx

theorem UnitLaws.resumeCqWait (h : UnitLaws noRing s) (q : CqIx) : UnitLaws noRing (resumeCqWait q s) := by
  unfold Machine.resumeCqWait
  split
  · rename_i x hx
    split
    · refine h.configureCq (h.waits x hx) fun e he => ?_
      rw [hx] at he
      exact congrArg Exec.rcd (Option.some.inj he).symm
    · exact h
  · exact h

theorem checkConfigureCq_none {x : Record} (h : checkConfigureCq x s = none) :
    16 ≤ x.count.toNat ∧ 1 ≤ x.paramB.toNat := by
  simp only [checkConfigureCq, refuseIf, Option.orElse_eq_orElse, Option.orElse_eq_or, Option.or_eq_none_iff] at h
  obtain ⟨-, -, -, hc, hb, -⟩ := h
  have hc : isRingSize x.count.toNat = true := by simpa using hc
  refine ⟨?_, by simp at hb; omega⟩
  simp only [isRingSize, List.contains_iff_mem, List.mem_cons, List.not_mem_nil, or_false] at hc
  omega

/-! ### The reports of completion records -/

/-- The one completion ring whose record has been reported is excepted. -/
def onlyRing (q : CqIx) : CqIx → Prop := fun k => k = q

/-- With the held RETIRE dealt with, no ring is excepted any more (R128). -/
theorem UnitLaws.settled {q : CqIx} (h : UnitLaws (onlyRing q) s) (hh : s.cq[q].held = none) : UnitLaws noRing s :=
  { h with
    rings := fun k => by
      by_cases hk : k = q
      · rw [hk]
        exact (h.rings q).of_not_held hh
      · exact (h.rings k).mono hk }

/-- The held RETIRE is discarded. -/
theorem UnitLaws.unheld {q : CqIx} (h : UnitLaws (onlyRing q) s) :
    UnitLaws noRing (s.updCq q (fun x => { x with held := none })) :=
  h.updCq q ((h.rings q).unheld _) fun _ hk hf => hk hf

theorem UnitLaws.takeHeld {q : CqIx} (h : UnitLaws (onlyRing q) s) : UnitLaws noRing (takeHeld q s) := by
  unfold Machine.takeHeld
  split
  · exact h.settled ‹_›
  · exact (judgeRetire_work _ q _).laws h.unheld

theorem UnitLaws.refuseHeld {q : CqIx} (h : UnitLaws (onlyRing q) s) : UnitLaws noRing (refuseHeld q s) := by
  unfold Machine.refuseHeld
  split
  · exact h.settled ‹_›
  · exact (reportFault_work _ (by simp) (by omega)).laws h.unheld

theorem UnitLaws.writePosted (h : UnitLaws noRing s) (q : CqIx) (c : Claim) : UnitLaws noRing (writePosted q c s) := by
  have hpost : UnitLaws (onlyRing q) (postRecord q s) := by
    refine h.updCq q (((h.rings q).reported _ fun g hg => ?_).mono fun _ => rfl) fun _ _ => False.elim
    have := ((h.rings q).2 g hg).size
    rw [Cq.nextTail, Cq.size, hg]
    exact Nat.mod_lt _ (show 0 < g.size by omega)
  have htold := ((tellPosted_work _ c).trans (moderate_work _ q)).laws hpost
  exact ((serveQueue_work _ q).trans (restartAfter_work _ c)).laws (htold.takeHeld.resumeCqWait q)

theorem UnitLaws.writeFailed (h : UnitLaws noRing s) (q : CqIx) (c : Claim) : UnitLaws noRing (writeFailed q c s) := by
  have hlost : UnitLaws (onlyRing q) (loseRecord q s) :=
    h.updCq q (((h.rings q).reported _ fun g hg => ((h.rings q).2 g hg).tail).mono fun _ => rfl) fun _ _ => False.elim
  have hrefused := ((reportFault_work _ (c := .postFault) (by simp) c.ring.isLt).laws hlost).refuseHeld
  exact (serveQueue_work _ q).laws (((tellFailed_work _ c).laws hrefused).resumeCqWait q)

/-! ### Commands -/

theorem Yields.of_work {free : CqIx → Prop} {o : Host.Outcome State Fault Refusal} (h : Yields (UnitWork s) o)
    (hs : UnitLaws free s) : Yields (UnitLaws free) o := by
  cases o with
  | next t => exact UnitWork.laws h hs
  | fault _ | refused _ => trivial

/-- A command whose whole work keeps the laws. -/
theorem released_work {f : State → State} (hf : UnitWork s (f s)) :
    Yields (UnitWork s) (whileReleased s fun s => .next (f s)) :=
  whileReleased_ind (.refl s) fun _ => hf

theorem configSpaceWrite_work (bit : ConfigBit) (value : Bool) : Yields (UnitWork s) (execConfigSpaceWrite bit value s) := by
  refine whileReleased_ind (.refl s) fun _ => ?_
  cases bit with
  | msi => exact hp_work s rfl
  | busMaster =>
    cases value with
    | true => exact conditions_work s rfl fun hi => by simp_all [State.canIssue]
    | false => exact failTransfers_work s rfl

theorem linkUp_work : Yields (UnitWork s) (execLinkUp s) :=
  released_work (f := fun s => { s with hp := { s.hp with linkUp := true } })
    (conditions_work s rfl fun hi => by simp_all [State.canIssue])

theorem linkDown_work : Yields (UnitWork s) (execLinkDown s) :=
  released_work (f := fun s => failTransfers { s with hp := { s.hp with linkUp := false } }) (failTransfers_work s rfl)

theorem anchorReadDone_work (block : BitVec 256) : Yields (UnitWork s) (execAnchorReadDone block s) := by
  refine whileReleased_ind (.refl s) fun _ => ?_
  repeat' split
  · exact .refl s
  · exact .refl s
  · exact configureFromAnchor_work s ‹_›
  · exact failStart_work s (by simp)

theorem hostReadTimeout_work (read : ReadId) : Yields (UnitWork s) (execHostReadTimeout read s) := by
  refine whileReleased_ind (.refl s) fun _ => ?_
  split
  · exact .refl s
  · exact (atTime_work s _).trans (readFailed_work _ read)

theorem execFetchDone_work (r : Ring) (bytes : BitVec 256) : Yields (UnitWork s) (execFetchDone r bytes s) := by
  refine whileReleased_ind (.refl s) fun _ => ?_
  repeat' split
  · exact .refl s
  · exact fetchDone_work s r bytes
  · exact .refl s

theorem unknownKindRecord_work (r : Ring) : Yields (UnitWork s) (execUnknownKindRecord r s) := by
  refine whileReleased_ind (.refl s) fun _ => ?_
  unfold guarded
  repeat' split
  · exact .refl s
  · exact .refl s
  · exact endCommand_work s r _
  · exact endCommand_work s r _
  · exact endCommand_work s r _

theorem line_work (r : Ring) (k : Kind) {body : Record → State → State} (hb : ∀ x, UnitWork s (body x s)) :
    Yields (UnitWork s) (whileReleased s fun s => .next (lineCommand r k body s)) := released_work (lineCommand_work s r k hb)

theorem mark_work (r : Ring) : Yields (UnitWork s) (execMark r s) :=
  whileReleased_ind (.refl s) fun _ => runKind_ind (.refl s) (fun _ _ res => endCommand_work s r res) fun x _ _ _ =>
    onLineRing_ind (endCommand_work s r) fun _ => runMark_work s r x

/-- The report of a host read that has come. -/
theorem tapListReadDone_work (r : Ring) (bytes : List Byte) : Yields (UnitWork s) (execTapListReadDone r bytes s) := by
  refine whileReleased_ind (.refl s) fun _ => ?_
  repeat' split
  · exact .refl s
  · exact (readOver_work s r).trans (orStop_work _ r (installTaps_work _ r _ _))
  · exact .refl s

theorem pushSamplesReadDone_work (r : Ring) (bytes : List Byte) :
    Yields (UnitWork s) (execPushSamplesReadDone r bytes s) := by
  refine whileReleased_ind (.refl s) fun _ => ?_
  repeat' split
  · exact .refl s
  · exact (readOver_work s r).trans (orStop_work _ r (claimPush_work _ r _ _))
  · exact .refl s

theorem stepInputReadDone_work (r : Ring) (bytes : List Byte) : Yields (UnitWork s) (execStepInputReadDone r bytes s) := by
  refine whileReleased_ind (.refl s) fun _ => ?_
  repeat' split
  · exact .refl s
  · exact (readOver_work s r).trans (orStop_work _ r ((takeInputs_work _ r _ _ _).trans (pumpStep_work _ r)))
  · exact .refl s

theorem resultWriteCompleted_work (r : Ring) : Yields (UnitWork s) (execResultWriteCompleted r s) := by
  have h1 : ∀ w, UnitWork s (writeOver r (writeReported w s)) := fun w =>
    (writeReported_work s w).trans (writeOver_work _ r)
  refine whileReleased_ind (.refl s) fun _ => ?_
  repeat' split
  · exact .refl s
  · exact (h1 _).trans (orStop_work _ r (readerWritten_work _ r _ _))
  · exact (h1 _).trans (orStop_work _ r (stepWritten_work _ r _))
  · exact .refl s
  · exact .refl s

theorem resultWriteFailed_work (r : Ring) : Yields (UnitWork s) (execResultWriteFailed r s) := by
  refine whileReleased_ind (.refl s) fun _ => ?_
  repeat' split
  · exact .refl s
  · exact (writeOver_work s r).trans (orStop_work _ r (readerWriteFailed_work _ r _ _))
  · exact .refl s

theorem stepResultWriteFailed_work (r : Ring) : Yields (UnitWork s) (execStepResultWriteFailed r s) := by
  refine whileReleased_ind (.refl s) fun _ => ?_
  repeat' split
  · exact .refl s
  · exact (writeOver_work s r).trans (orStop_work _ r (stepWriteFailed_work _ r _))
  · exact .refl s

theorem queryWriteDone_work : Yields (UnitWork s) (execQueryWriteDone s) := by
  refine whileReleased_ind (.refl s) fun _ => ?_
  repeat' split
  · exact (writeReported_work s _).trans (endQuery_work _ _)
  · exact .refl s
  · exact .refl s

theorem queryWriteFailed_work : Yields (UnitWork s) (execQueryWriteFailed s) := by
  refine whileReleased_ind (.refl s) fun _ => ?_
  repeat' split
  · exact .refl s
  · exact endQuery_work s _
  · exact .refl s

theorem storeBurstEnd_work : Yields (UnitWork s) (execStoreBurstEnd s) := by
  refine whileReleased_ind (.refl s) fun _ => ?_
  repeat' split
  · trivial
  · exact endBurst_work s ‹_› ‹_›
  · exact .refl s

theorem holdoffTimerExpiry_work (q : CqIx) : Yields (UnitWork s) (execHoldoffTimerExpiry q s) := by
  refine whileReleased_ind (.refl s) fun _ => ?_
  split
  · exact .refl s
  · exact (atTime_work s _).trans (signalCq_work _ q)

theorem fsyncStrobe_work (level : Bool) (held : Held) : Yields (UnitWork s) (execFsyncStrobe level held s) := by
  unfold execFsyncStrobe
  refine whileReleased_ind (fu_work s _) fun _ => ?_
  split
  · exact (fu_work s _).trans (strobe_work _)
  · exact fu_work s _

theorem UnitLaws.completionWritePosted (h : UnitLaws noRing s) (q : CqIx) :
    Yields (UnitLaws noRing) (execCompletionWritePosted q s) := by
  refine whileReleased_ind h fun _ => ?_
  repeat' split
  · exact h
  · exact ((writeReported_work s _).laws h).writePosted q _
  · exact h

theorem UnitLaws.completionWriteFailed (h : UnitLaws noRing s) (q : CqIx) :
    Yields (UnitLaws noRing) (execCompletionWriteFailed q s) := by
  refine whileReleased_ind h fun _ => ?_
  repeat' split
  · exact h
  · exact h
  · exact h.writeFailed q _

theorem UnitLaws.configureCompletionRing (h : UnitLaws noRing s) :
    Yields (UnitLaws noRing) (execConfigureCompletionRing s) :=
  whileReleased_ind h fun _ => control_ind h (fun _ _ res => (endCommand_work s 0 res).laws h) fun x hx hc =>
    h.configureCq (checkConfigureCq_none hc) fun e he => by
      rw [show s.eng[(0 : Ring)].exec = some ⟨x, .fresh⟩ from hx] at he
      exact congrArg Exec.rcd (Option.some.inj he).symm

end

/-- Every command keeps the laws. Of the three whose work is not `UnitWork`, the reports of completion records pass through a
state with a RETIRE held and no write in flight, and CONFIGURE COMPLETION RING begins to wait. -/
theorem UnitLaws.exec {s : State} (h : UnitLaws noRing s) (i : Instr) : Yields (UnitLaws noRing) (exec i s) := by
  have work : ∀ {o}, Yields (UnitWork s) o → Yields (UnitLaws noRing) o := fun ho => ho.of_work h
  cases i with
  | powerOnReset => exact work (powerOn_work s)
  | start => exact work (released_work (writeControl_work s _))
  | reset => exact work (released_work (writeControl_work s _))
  | restartRing0 => exact work (released_work (writeControl_work s _))
  | controlOtherCode code => exact work (released_work (writeControl_work s code))
  | post value => exact work (released_work (takePost_work s _ _))
  | retire value => exact work (released_work (takeRetire_work s _ _))
  | faultWrite value => exact work (released_work (writeFault_work s value))
  | anchorLoWrite value => exact work (released_work (hp_work s rfl))
  | anchorHiWrite value => exact work (released_work (hp_work s rfl))
  | registerWrite offset nbytes value => exact work (released_work (writeWindow_work s offset nbytes value))
  | configSpaceWrite bit value => exact work (configSpaceWrite_work bit value)
  | linkUp => exact work linkUp_work
  | linkDown => exact work linkDown_work
  | storeReady => exact work (released_work (storeReady_work s))
  | anchorReadDone block => exact work (anchorReadDone_work block)
  | anchorReadFailed => exact work (released_work (anchorReadFailed_work s))
  | hostReadTimeout read => exact work (hostReadTimeout_work read)
  | fetchDone r bytes => exact work (execFetchDone_work r bytes)
  | fetchFailed r => exact work (released_work (fetchFailed_work s r))
  | unknownKindRecord r => exact work (unknownKindRecord_work r)
  | openLine r => exact work (line_work r .openLine fun x => carryOutOpen_work s r x)
  | closeLine r => exact work (line_work r .closeLine fun x => carryOutClose_work s r x)
  | setTaps r => exact work (line_work r .setTaps fun _ => claimWriter_work s r _)
  | tapListReadDone r bytes => exact work (tapListReadDone_work r bytes)
  | tapListReadFailed r => exact work (released_work (tapListReadFailed_work s r))
  | push r => exact work (line_work r .push fun _ => claimWriter_work s r _)
  | pushSamplesReadDone r bytes => exact work (pushSamplesReadDone_work r bytes)
  | pushSamplesReadFailed r => exact work (released_work (pushSamplesReadFailed_work s r))
  | clear r => exact work (line_work r .clear fun _ => claimWriter_work s r _)
  | test r => exact work (line_work r .test fun x => carryOutTest_work s r x)
  | gather r => exact work (line_work r .gather fun _ => claimReader_work s r _)
  | readSpan r => exact work (line_work r .readSpan fun _ => claimReader_work s r _)
  | step r => exact work (line_work r .step fun _ => claimWriter_work s r _)
  | stepInputReadDone r bytes => exact work (stepInputReadDone_work r bytes)
  | stepInputReadFailed r => exact work (released_work (stepInputReadFailed_work s r))
  | mark r => exact work (mark_work r)
  | configureRing => exact work (released_work (control_work s _ fun x _ => configureRing_work s x))
  | configureCompletionRing => exact h.configureCompletionRing
  | resetRing => exact work (released_work (control_work s _ fun x _ => resetRing_work s x))
  | configureDevice => exact work (released_work (control_work s _ fun _ hc => configureDevice_work s hc))
  | queryLine => exact work (released_work (control_work s _ fun x _ => writeSnapshot_work s x _ _))
  | queryRing => exact work (released_work (control_work s _ fun x _ => writeSnapshot_work s x _ _))
  | queryStore => exact work (released_work (control_work s _ fun x _ => writeSnapshot_work s x _ _))
  | queryWriteDone => exact work queryWriteDone_work
  | queryWriteFailed => exact work queryWriteFailed_work
  | storeBurstEnd => exact work storeBurstEnd_work
  | refreshEnd => exact work (released_work (refreshEnd_work s))
  | refreshTimerExpiry => exact work (released_work (refreshExpiry_work s))
  | resultWriteCompleted r => exact work (resultWriteCompleted_work r)
  | resultWriteFailed r => exact work (resultWriteFailed_work r)
  | stepResultWriteFailed r => exact work (stepResultWriteFailed_work r)
  | completionWritePosted q => exact h.completionWritePosted q
  | completionWriteFailed q => exact h.completionWriteFailed q
  | holdoffTimerExpiry q => exact work (holdoffTimerExpiry_work q)
  | fsyncStrobe level held => exact work (fsyncStrobe_work level held)
  | frameTimerExpiry => exact work (released_work (frameExpiry_work s))
  | fundamentalResetAssert => exact work (hp_work s rfl)

/-- Settles O56, by the work of every command, which keeps each of the laws. -/
theorem unitLawsKept : Obligations.UnitLawsKept := by
  unfold Obligations.UnitLawsKept
  intro s t h ht
  rw [← unitLaws_iff] at h ⊢
  unfold step at ht
  split at ht
  · obtain rfl := Host.Outcome.next.inj ht
    exact { h with }
  · rename_i c cs _
    have h' : UnitLaws noRing { s with pending := cs } := { h with }
    exact (h'.exec c).of_next ht

end Sys2Proof.Machine
end

section
/-! The Store Controller and the settings of the device (R25, R26, R28, R32, R33, R36 to R39, R132, R139, R163, R174). -/

namespace Sys2Proof.Machine

/-! ### STORE_READY -/

theorem alignedTo_iff (n : Nat) (a : Addr) : alignedTo n a = true ↔ a.toNat % n = 0 := by
  simp [alignedTo]

/-- A START that waits goes on, with the anchor read or with BAD_ANCHOR (R174). -/
theorem checkAnchorAddr_eq {s : State} {a : Addr} (ha : s.hp.anchorAddr = some a) :
    checkAnchorAddr s = if a.toNat % 64 = 0 then { s with hp := { s.hp with anchorRead := some (s.hostRead a 32) } }
      else failStart .badAnchor s := by
  unfold checkAnchorAddr
  simp only [ha, alignedTo_iff]

theorem failStart_fails (c : FaultCode) (s : State) : StartFails c s (failStart c s) := reportFault_reported c 0 _

/-- The port is free and the refresh timer runs, and the arbiter has chosen (R36, R39). -/
def storeReadied (s : State) : State :=
  arbitrate { s with sc := { s.sc with state := .ready, port := .idle, timer := some (s.now + s.sc.code * 125) } }

theorem storeReadied_hp (s : State) : (storeReadied s).hp = s.hp := by
  unfold storeReadied
  rw [arbitrate_frame]

theorem storeReadied_hostRead (s : State) (a : Addr) (n : Nat) : (storeReadied s).hostRead a n = s.hostRead a n :=
  arbitrate_hostRead _ a n

theorem storeReady_eq {s : State} (h : s.sc.state = .init) :
    storeReady s = if s.hp.dev = .starting then checkAnchorAddr (storeReadied s) else storeReadied s := by
  have hdev : (storeReadied s).hp.dev = s.hp.dev := by rw [storeReadied_hp]
  unfold storeReady
  rw [if_pos h, ← hdev]
  rfl

/-- Settles O7: the arbiter touches nothing of HP, so the START that waits is as it was. -/
theorem storeReadyGoesOn : Obligations.StoreReadyGoesOn := by
  unfold Obligations.StoreReadyGoesOn
  intro s hr hi
  have hexec : exec .storeReady s = .next (storeReady s) := by
    unfold exec execStoreReady
    rw [whileReleased_eq hr]
  refine ⟨storeReady s, hexec, ?_⟩
  rw [storeReady_eq hi]
  refine ⟨fun hd => if_neg hd, fun a hd ha => ?_⟩
  have hgo := checkAnchorAddr_eq (s := storeReadied s) (a := a) (by rwa [storeReadied_hp])
  rw [if_pos hd, hgo, storeReadied_hostRead, storeReadied_hp]
  refine ⟨fun h64 => if_pos h64, fun h64 => ?_⟩
  rw [if_neg h64]
  exact failStart_fails _ _

/-! ### The free-extent list -/

/-- A request is served from the first entry that holds it (R25). -/
theorem allocate_first {need : Nat} {pre post : List Extent} {e : Extent} (hpre : ∀ p ∈ pre, p.count < need)
    (he : need ≤ e.count) : allocate need (pre ++ e :: post) = some (⟨e.base, need⟩,
      pre ++ (if e.count = need then post else ⟨e.base + need, e.count - need⟩ :: post)) := by
  induction pre with
  | nil => exact if_pos he
  | cons p pre ih =>
    obtain ⟨hp, hpre⟩ := List.forall_mem_cons.mp hpre
    rw [List.cons_append, allocate, if_neg (Nat.not_le.mpr hp), ih hpre]
    rfl

/-- A request that no entry holds is refused (R26). -/
theorem allocate_none {need : Nat} {es : List Extent} (hes : ∀ e ∈ es, e.count < need) : allocate need es = none := by
  induction es with
  | nil => rfl
  | cons e es ih =>
    obtain ⟨he, hes⟩ := List.forall_mem_cons.mp hes
    rw [allocate, if_neg (Nat.not_le.mpr he), ih hes]

/-- An extent is inserted behind an entry that lies below it and does not touch it (R28). -/
theorem releaseExtent_behind {x e : Extent} (es : List Extent) (hb : e.base < x.base) (ht : e.base + e.count ≠ x.base) :
    releaseExtent x (e :: es) = e :: releaseExtent x es :=
  (if_neg (Nat.not_lt.mpr hb.le)).trans (if_neg ht)

/-- An extent passes all entries below it that do not touch it (R28). -/
theorem releaseExtent_append {x : Extent} {pre post : List Extent} (hb : ∀ e ∈ pre, e.base < x.base)
    (ht : ∀ e ∈ pre, e.base + e.count ≠ x.base) : releaseExtent x (pre ++ post) = pre ++ releaseExtent x post := by
  induction pre with
  | nil => rfl
  | cons e pre ih =>
    obtain ⟨hbe, hb⟩ := List.forall_mem_cons.mp hb
    obtain ⟨hte, ht⟩ := List.forall_mem_cons.mp ht
    rw [List.cons_append, releaseExtent_behind _ hbe hte, ih hb ht, List.cons_append]

/-- An extent with all entries above it (R28). -/
theorem releaseExtent_front {x f : Extent} (post : List Extent) (hb : x.base < f.base) :
    releaseExtent x (f :: post) =
      if x.base + x.count = f.base then ⟨x.base, x.count + f.count⟩ :: post else x :: f :: post := by
  unfold releaseExtent
  exact if_pos hb

/-- An extent merges with an entry that ends where it begins, and with the next if that begins where it ends (R28). -/
theorem releaseExtent_joins {x e f : Extent} (post : List Extent) (hb : e.base < x.base) (ht : e.base + e.count = x.base) :
    releaseExtent x (e :: f :: post) =
      if x.base + x.count = f.base then ⟨e.base, e.count + x.count + f.count⟩ :: post
      else ⟨e.base, e.count + x.count⟩ :: f :: post := by
  unfold releaseExtent
  rw [if_neg (Nat.not_lt.mpr hb.le), if_pos ht]

/-- The same with no entry behind it. -/
theorem releaseExtent_joins_last {x e : Extent} (hb : e.base < x.base) (ht : e.base + e.count = x.base) :
    releaseExtent x [e] = [⟨e.base, e.count + x.count⟩] := by
  unfold releaseExtent
  rw [if_neg (Nat.not_lt.mpr hb.le), if_pos ht]

/-- Of the entries below an extent, only the last can touch it (R23). -/
theorem FreeListLaw.not_touching {x : Extent} {pre post : List Extent} {e : Extent}
    (hl : FreeListLaw (pre ++ e :: post)) (hb : e.base < x.base) : ∀ p ∈ pre, p.base + p.count ≠ x.base := by
  intro p hp ht
  have := (List.pairwise_append.mp hl.1).2.2 p hp e (by simp)
  omega

/-- With no entry below that touches the extent, it passes all of them (R23, R28). -/
theorem releaseExtent_passes {x : Extent} {pre post : List Extent} (hl : FreeListLaw (pre ++ post))
    (hb : ∀ e ∈ pre, e.base < x.base) (ht : ∀ e, pre.getLast? = some e → e.base + e.count ≠ x.base) :
    releaseExtent x (pre ++ post) = pre ++ releaseExtent x post := by
  refine releaseExtent_append hb fun e he => ?_
  obtain rfl | ⟨pre', l, rfl⟩ := List.eq_nil_or_concat pre
  · exact nomatch he
  · rw [List.concat_eq_append] at *
    rcases List.mem_append.mp he with he | he
    · rw [List.append_assoc] at hl
      exact hl.not_touching (hb l (by simp)) e he
    · rw [List.mem_singleton.mp he]
      exact ht l (by simp)

/-- With an entry below that touches the extent, it passes those before it (R23, R28). -/
theorem releaseExtent_reaches {x e : Extent} {pre post : List Extent} (hl : FreeListLaw ((pre ++ [e]) ++ post))
    (hb : ∀ p ∈ pre ++ [e], p.base < x.base) :
    releaseExtent x ((pre ++ [e]) ++ post) = pre ++ releaseExtent x (e :: post) := by
  rw [List.append_assoc] at hl ⊢
  exact releaseExtent_append (fun p hp => hb p (by simp [hp])) (hl.not_touching (hb e (by simp)))

/-- Settles O22, by the place that an extent taken back finds in the list, and the entries that it touches there. -/
theorem freeListOperations : Obligations.FreeListOperations := by
  unfold Obligations.FreeListOperations
  refine ⟨fun need => ⟨fun pre post e => allocate_first, fun es => allocate_none⟩, fun pre post x hl hpre hpost => ?_⟩
  refine ⟨fun hb ha => ?_, ?_, ?_, ?_⟩
  · rw [releaseExtent_passes hl hpre hb]
    cases post with
    | nil => rfl
    | cons f post => rw [releaseExtent_front post (hpost f (by simp)), if_neg (ha f rfl)]
  · rintro pre' e rfl hb ha
    rw [releaseExtent_reaches hl hpre]
    cases post with
    | nil => rw [releaseExtent_joins_last (hpre e (by simp)) hb]
    | cons f post => rw [releaseExtent_joins post (hpre e (by simp)) hb, if_neg (ha f rfl)]
  · rintro f post' rfl ha hb
    rw [releaseExtent_passes hl hpre hb, releaseExtent_front post' (hpost f (by simp)), if_pos ha]
  · rintro pre' e f post' rfl rfl hb ha
    rw [releaseExtent_reaches hl hpre, releaseExtent_joins post' (hpre e (by simp)) hb, if_pos ha]

/-! ### CONFIGURE DEVICE -/

/-- The row of a control command whose checks are passed (R155). -/
theorem exec_control {s : State} {k : Kind} {x : Record} (h : BeginsControl k x s)
    {check : Record → State → Option Status} {effect : Record → State → State} (hc : check x s = none) :
    (whileReleased s fun s => .next (runKind 0 k (checkedControl check effect) s)) = .next (effect x s) := by
  obtain ⟨hr, hx, hk, g, hg, hm⟩ := h
  rw [whileReleased_eq hr, runKind, (freshRecord_iff 0 x s).mpr hx]
  simp only [hk, if_true, guarded, hg, hm, checkedControl, hc]

/-- FU with the source taken: the frame timer is restarted under TIMER, and stopped otherwise (R139). -/
def FrameUnit.withSource (fu : FrameUnit) (src : FrameSource) (p now : Nat) : FrameUnit :=
  match src with
  | .timer => { fu with source := .timer, period := some p, timer := some (now + p * 1000) }
  | _ => { fu with source := src, period := none, timer := none }

theorem setFrameSource_eq (src : FrameSource) (p : Nat) (s : State) :
    setFrameSource src p s = { s with fu := s.fu.withSource src p s.now } := by
  cases src <;> rfl

theorem FrameSource.ofCode_cases (c : BitVec 16) :
    (c.toNat = 0 → ofCode c = some .none) ∧ (c.toNat = 1 → ofCode c = some .pinRising) ∧
    (c.toNat = 2 → ofCode c = some .pinFalling) ∧ (c.toNat = 3 → ofCode c = some .timer) := by
  unfold ofCode
  refine ⟨fun h => ?_, fun h => ?_, fun h => ?_, fun h => ?_⟩ <;> simp only [h]

/-- The checks of CONFIGURE DEVICE are passed (R163). -/
theorem checkConfigureDevice_passed {x : Record} {s : State} {src : FrameSource} (h8 : 8 ≤ x.paramA.toNat)
    (h255 : x.paramA.toNat ≤ 255) (hs : FrameSource.ofCode x.paramB = some src)
    (hp : src = .timer → 20 ≤ x.paramC.toNat ∧ x.paramC.toNat ≤ 1000000) : checkConfigureDevice x s = none := by
  unfold checkConfigureDevice refuseIf
  rw [hs]
  cases src with
  | timer =>
    obtain ⟨h20, hmax⟩ := hp rfl
    simp [h8, h255, h20, hmax]
  | none | pinRising | pinFalling => simp [h8, h255]

/-- CONFIGURE DEVICE carried out (R36, R139, R163). -/
theorem configureDevice_ended {s : State} {x : Record} (h : BeginsControl .configureDevice x s) {src : FrameSource}
    (h8 : 8 ≤ x.paramA.toNat) (h255 : x.paramA.toNat ≤ 255) (hs : FrameSource.ofCode x.paramB = some src)
    (hp : src = .timer → 20 ≤ x.paramC.toNat ∧ x.paramC.toNat ≤ 1000000) :
    ∃ t, exec .configureDevice s = .next t ∧ Ended 0 x (plain .ok x) { s with
      sc := { s.sc with
        code := x.paramA.toNat, timer := s.sc.timer.map (fun _ => s.now + x.paramA.toNat * 125) }
      fu := s.fu.withSource src x.paramC.toNat s.now } t := by
  refine ⟨_, exec_control h (checkConfigureDevice_passed h8 h255 hs hp), ?_⟩
  unfold configureDevice
  rw [hs, setFrameSource_eq]
  exact endCommand_ended (s := { setRefreshCode x.paramA.toNat s with fu := _ }) (e := ⟨x, .fresh⟩) h.2.1 _

/-- Settles O47, by the four sources. -/
theorem deviceConfigured : Obligations.DeviceConfigured := by
  unfold Obligations.DeviceConfigured
  intro s x h h8 h255
  obtain ⟨hnone, hrising, hfalling, htimer⟩ := FrameSource.ofCode_cases x.paramB
  exact ⟨fun hb => configureDevice_ended h h8 h255 (hnone hb) (fun h => nomatch h),
    fun hb => configureDevice_ended h h8 h255 (hrising hb) (fun h => nomatch h),
    fun hb => configureDevice_ended h h8 h255 (hfalling hb) (fun h => nomatch h),
    fun hb h20 hmax => configureDevice_ended h h8 h255 (htimer hb) (fun _ => ⟨h20, hmax⟩)⟩

/-! ### Refresh and holdoff -/

/-- An expiry of the refresh interval timer (R36, R37). -/
theorem refreshExpiry_eq {s : State} {n : Nat} (ht : s.sc.timer = some n) :
    refreshExpiry s =
      if s.sc.debt ≤ 7 then arbitrate { s with
        now := max s.now n, sc := { s.sc with timer := some (n + s.sc.code * 125), debt := s.sc.debt + 1 } }
      else reportFault .refreshMissed 0 { s with
        now := max s.now n, sc := { s.sc with timer := some (n + s.sc.code * 125) } } := by
  unfold refreshExpiry
  simp only [ht]
  rfl

/-- Settles O51: each expiry and each end is one operation of SC or of CU. -/
theorem refreshAndHoldoff : Obligations.RefreshAndHoldoff := by
  unfold Obligations.RefreshAndHoldoff
  intro s hr
  have hexpiry : exec .refreshTimerExpiry s = .next (refreshExpiry s) := by
    unfold exec execRefreshTimerExpiry
    rw [whileReleased_eq hr]
  refine ⟨fun n ht => ⟨fun hd => ?_, fun hd => ⟨_, hexpiry, ?_⟩⟩, fun hp => ?_, fun q n ht => ?_⟩
  · rw [hexpiry, refreshExpiry_eq ht, if_pos hd]
  · rw [refreshExpiry_eq ht, if_neg (by omega)]
    exact reportFault_reported _ _ _
  · unfold exec execRefreshEnd
    rw [whileReleased_eq hr, refreshEnd, if_pos hp]
  · show execHoldoffTimerExpiry q s = _
    unfold execHoldoffTimerExpiry
    rw [whileReleased_eq hr]
    simp only [ht, signalCq, sendMessage_sent]
    rfl

/-! ### The arbiter -/

/-- The place of ring `r` in the order that begins after the mark (R33). -/
def turn (mark : Nat) (r : Ring) : Nat := (r.val + 6 - mark) % 7

/-- Ring `r` has a claim of the class waiting at the arbiter (R98, R33). -/
def Waits (cls : RingClass) (s : State) (r : Ring) : Prop :=
  r ≠ 0 ∧ s.sc.claims[r].isSome ∧ ∃ g, s.eng[r].cfg = some g ∧ g.cls = some cls

theorem roundRobin_get {mark i : Nat} (hi : i < (roundRobin mark).length) :
    ((roundRobin mark)[i]).val = (mark + i) % 7 + 1 := by
  have h7 : i < 7 := hi
  have hget : (roundRobin mark)[i] = Fin.ofNat 8 ((mark + i) % 7 + 1) := by interval_cases i <;> rfl
  exact (congrArg Fin.val hget).trans (Nat.mod_eq_of_lt (by omega))

theorem turn_lt (mark : Nat) (r : Ring) : turn mark r < (roundRobin mark).length := Nat.mod_lt _ (by decide : 0 < 7)

/-- A line ring stands at its turn (R33). -/
theorem roundRobin_turn {mark : Nat} (h1 : 1 ≤ mark) (h7 : mark ≤ 7) {r : Ring} (hr : r ≠ 0) :
    (roundRobin mark)[turn mark r]'(turn_lt mark r) = r := by
  refine Fin.ext ?_
  rw [roundRobin_get (turn_lt mark r)]
  have := r.isLt
  have : r.val ≠ 0 := fun h => hr (Fin.ext h)
  unfold turn
  omega

/-- The ring that stands at place `i` has that turn (R33). -/
theorem turn_roundRobin {mark : Nat} (h7 : mark ≤ 7) {i : Nat} (hi : i < (roundRobin mark).length) :
    turn mark (roundRobin mark)[i] = i := by
  have : i < 7 := hi
  unfold turn
  rw [roundRobin_get hi]
  omega

theorem roundRobin_ne_zero {mark : Nat} {r : Ring} (h : r ∈ roundRobin mark) : r ≠ 0 := by
  obtain ⟨i, hi, rfl⟩ := List.mem_iff_getElem.mp h
  intro h0
  have := roundRobin_get hi
  rw [h0] at this
  exact absurd this (by simp)

theorem claims_class_iff {cls : RingClass} {s : State} {r : Ring} (hr : r ≠ 0) :
    (s.sc.claims[r].isSome && s.classOf r == some cls) = true ↔ Waits cls s r := by
  unfold Waits State.classOf
  rw [Bool.and_eq_true, beq_iff_eq, Option.bind_eq_some_iff]
  exact ⟨fun ⟨h, g⟩ => ⟨hr, h, g⟩, fun ⟨_, h, g⟩ => ⟨h, g⟩⟩

/-- The claim granted is the first in the order that begins after the mark (R33). -/
theorem nextClaim_first {cls : RingClass} {mark : Nat} {s : State} {r : Ring} (h1 : 1 ≤ mark) (h7 : mark ≤ 7)
    (hr : Waits cls s r) (hmin : ∀ k, Waits cls s k → turn mark r ≤ turn mark k) : nextClaim cls mark s = some r := by
  unfold nextClaim
  rw [List.find?_eq_some_iff_getElem]
  refine ⟨(claims_class_iff hr.1).mpr hr, turn mark r, turn_lt mark r, roundRobin_turn h1 h7 hr.1, fun j hj => ?_⟩
  have hlen : j < (roundRobin mark).length := hj.trans (turn_lt mark r)
  rw [Bool.not_eq_true', ← Bool.not_eq_true, claims_class_iff (roundRobin_ne_zero (List.getElem_mem hlen))]
  intro hw
  have := hmin _ hw
  rw [turn_roundRobin h7 hlen] at this
  omega

/-- With no claim of the class waiting, none is granted (R33). -/
theorem nextClaim_none {cls : RingClass} {mark : Nat} {s : State} (h : ∀ r, ¬ Waits cls s r) :
    nextClaim cls mark s = none := by
  unfold nextClaim
  rw [List.find?_eq_none]
  intro r hr
  rw [claims_class_iff (roundRobin_ne_zero hr)]
  exact h r

/-- A waiting claim is granted the port (R31). -/
theorem grantPort_eq {s : State} {r : Ring} {b : Burst} (hb : s.sc.claims[r] = some b) :
    grantPort r s = { s with sc := { s.sc with port := .burst r b, claims := s.sc.claims.set r none } } := by
  unfold grantPort
  split
  · rename_i hn
    exact nomatch hn.symm.trans hb
  · rename_i b' hb'
    obtain rfl := Option.some.inj (hb'.symm.trans hb)
    rfl

/-- Settles O52, by the first claim of each class in the order of the rings. -/
theorem arbiterChooses : Obligations.ArbiterChooses := by
  unfold Obligations.ArbiterChooses
  intro s
  refine ⟨fun hp => if_pos hp, fun hp => ?_⟩
  have hfree : ¬ s.sc.port ≠ .idle := not_not.mpr hp
  refine ⟨fun hd => ?_, fun hd hp7 hb7 hp1 hb1 => ?_⟩
  · rw [arbitrate, if_neg hfree, if_pos hd]
  have hurgent : ¬ 6 ≤ s.sc.debt := Nat.not_le.mpr hd
  refine ⟨fun r b hf hb => ?_, fun r b hq hf hb => ?_, fun hqp hqb hd1 => ?_, fun hqp hqb hd0 => ?_⟩
  · rw [arbitrate, if_neg hfree, if_neg hurgent, nextClaim_first hp1 hp7 hf.1 hf.2]
    exact grantPort_eq hb
  · rw [arbitrate, if_neg hfree, if_neg hurgent, nextClaim_none hq]
    dsimp only
    rw [nextClaim_first hb1 hb7 hf.1 hf.2]
    exact grantPort_eq hb
  · rw [arbitrate, if_neg hfree, if_neg hurgent, nextClaim_none hqp]
    dsimp only
    rw [nextClaim_none hqb]
    exact if_pos hd1
  · rw [arbitrate, if_neg hfree, if_neg hurgent, nextClaim_none hqp]
    dsimp only
    rw [nextClaim_none hqb]
    exact if_neg (by omega)

end Sys2Proof.Machine
end

section
/-! What other rings do at a lock does not depend on the report that an engine has of its stopped command (R116). -/

namespace Sys2Proof.Machine

/-- `s` with another report at ring `r`'s engine. -/
def withReport (r : Ring) (rep : Option StopReport) (s : State) : State := s.updEng r (fun e => { e with report := rep })

section
variable {r k : Ring} (rep : Option StopReport) (s : State)

/-! ### What the report does not show in -/

@[simp] theorem withReport_hp : (withReport r rep s).hp = s.hp := rfl
@[simp] theorem withReport_lines : (withReport r rep s).lines = s.lines := rfl
@[simp] theorem withReport_free : (withReport r rep s).free = s.free := rfl
@[simp] theorem withReport_sc : (withReport r rep s).sc = s.sc := rfl
@[simp] theorem withReport_cq : (withReport r rep s).cq = s.cq := rfl
@[simp] theorem withReport_lineOf (x : Record) : (withReport r rep s).lineOf x = s.lineOf x := rfl

theorem withReport_get (r k : Ring) : (withReport r rep s).eng[k] =
    { s.eng[k] with report := (withReport r rep s).eng[k].report } := by
  unfold withReport
  rw [State.updEng_get]
  split
  · rename_i h
    subst h
    rfl
  · rfl

theorem withReport_others (h : k ≠ r) : (withReport r rep s).eng[k] = s.eng[k] := updEng_others h _ s

theorem withReport_updEng (h : k ≠ r) (f : Engine → Engine) :
    (withReport r rep s).updEng k f = withReport r rep (s.updEng k f) := by
  have hv : (withReport r rep s).eng.set k (f (withReport r rep s).eng[k]) =
      (s.updEng k f).eng.set r { (s.updEng k f).eng[r] with report := rep } := by
    rw [withReport_others rep s h, updEng_others h.symm]
    exact Vector.set_comm _ _ (fun he => h (Fin.ext he.symm))
  exact congrArg (fun v => { s with eng := v }) hv

theorem withReport_setPhase (h : k ≠ r) (p : Phase) :
    (withReport r rep s).setPhase k p = withReport r rep (s.setPhase k p) := withReport_updEng rep s h _

theorem resetMeets_withReport (r k : Ring) : resetMeets k (withReport r rep s) = resetMeets k s := by
  unfold resetMeets freshRecord
  rw [withReport_get]
  rfl

/-! ### The port and the completion rings -/

theorem nextClaim_withReport (cls : RingClass) (mark : Nat) :
    nextClaim cls mark (withReport r rep s) = nextClaim cls mark s := by
  have hcfg : ∀ k, (withReport r rep s).classOf k = s.classOf k := fun k => by
    unfold State.classOf
    rw [withReport_get]
  unfold nextClaim
  simp only [hcfg, withReport_sc]

theorem grantPort_withReport (k : Ring) : grantPort k (withReport r rep s) = withReport r rep (grantPort k s) := by
  unfold grantPort
  rw [withReport_sc]
  cases s.sc.claims[k] <;> rfl

theorem arbitrate_withReport : arbitrate (withReport r rep s) = withReport r rep (arbitrate s) := by
  have grant : ∀ (k : Ring) (sc : StoreCtl), grantPort k { withReport r rep s with sc := sc } =
      withReport r rep (grantPort k { s with sc := sc }) := fun k sc => grantPort_withReport rep { s with sc := sc } k
  unfold arbitrate
  rw [nextClaim_withReport, nextClaim_withReport, withReport_sc]
  simp only [apply_ite (withReport r rep)]
  cases nextClaim .paced s.sc.pacedMark s with
  | some k => exact congrArg _ (congrArg _ (grant k _))
  | none =>
    cases nextClaim .bulk s.sc.bulkMark s with
    | some k => exact congrArg _ (congrArg _ (grant k _))
    | none => simp only [apply_ite (withReport r rep)]; rfl

theorem claimPort_withReport (k : Ring) (b : Burst) :
    claimPort k b (withReport r rep s) = withReport r rep (claimPort k b s) := arbitrate_withReport rep (s.setClaim k _)

theorem issueRecord_withReport (q : CqIx) (c : Claim) :
    issueRecord q c (withReport r rep s) = withReport r rep (issueRecord q c s) := by
  have hhead : (withReport r rep s).eng[c.ring].head = s.eng[c.ring].head := by rw [withReport_get]
  unfold issueRecord
  rw [hhead, withReport_cq]
  cases s.cq[q].cfg <;> rfl

theorem takeClaim_withReport (q : CqIx) (c : Claim) :
    takeClaim q c (withReport r rep s) = withReport r rep (takeClaim q c s) := by
  unfold takeClaim
  rw [issueRecord_withReport, withReport_cq, apply_ite (withReport r rep)]
  rfl

/-! ### Engines -/

section
variable (h : k ≠ r)
include h

theorem tryFetch_withReport : tryFetch k (withReport r rep s) = withReport r rep (tryFetch k s) := by
  unfold tryFetch
  rw [withReport_others rep s h]
  cases s.eng[k].cfg with
  | none => rfl
  | some g =>
    dsimp only
    rw [withReport_updEng rep s h, apply_ite (withReport r rep)]
    rfl

theorem halt_withReport : halt k (withReport r rep s) = withReport r rep (halt k s) := by
  unfold halt
  rw [withReport_updEng rep s h]
  rfl

theorem goOn_withReport : goOn k (withReport r rep s) = withReport r rep (goOn k s) := by
  unfold goOn execStaged
  rw [withReport_others rep s h, halt_withReport rep s h]
  cases s.eng[k].staged <;>
    simp only [withReport_updEng rep _ h, tryFetch_withReport rep _ h, apply_ite (withReport r rep)]

theorem endCommand_withReport (res : Result) :
    endCommand k res (withReport r rep s) = withReport r rep (endCommand k res s) := by
  unfold endCommand
  rw [withReport_others rep s h]
  cases s.eng[k].exec with
  | none => rfl
  | some x =>
    dsimp only
    rw [withReport_updEng rep s h, withReport_updEng rep _ h, withReport_others rep _ h, goOn_withReport rep _ h,
      apply_ite (withReport r rep)]
    congr 1
    generalize (State.updEng (State.updEng s k _) k _) = u
    cases u.eng[k].cfg with
    | none => rfl
    | some g => exact takeClaim_withReport rep _ _ _

theorem issueRead_withReport (a : Addr) (n : Nat) :
    issueRead k a n (withReport r rep s) = withReport r rep (issueRead k a n s) := withReport_updEng rep s h _

theorem issueWrite_withReport (a : Addr) (d : List Byte) :
    issueWrite k a d (withReport r rep s) = withReport r rep (issueWrite k a d s) := by
  unfold issueWrite
  rw [withReport_updEng rep s h]
  rfl

/-! ### What a granted command does until its next transfer or burst -/

theorem pushNext_withReport (x : Record) (n : Nat) :
    pushNext k x n (withReport r rep s) = withReport r rep (pushNext k x n s) := by
  unfold pushNext
  dsimp only
  rw [withReport_setPhase rep s h, issueRead_withReport rep _ h]
  rfl

theorem readChunk_withReport : readChunk k (withReport r rep s) = withReport r rep (readChunk k s) := by
  unfold readChunk
  rw [withReport_others rep s h]
  obtain _ | ⟨x, p⟩ := s.eng[k].exec
  · rfl
  cases p with
  | reader c =>
    dsimp only
    rw [withReport_lineOf]
    cases (s.lineOf x).cfg with
    | none => rfl
    | some g =>
      simp only [withReport_setPhase rep s h, claimPort_withReport, apply_ite (withReport r rep)]
  | _ => rfl

theorem writeChunk_withReport : writeChunk k (withReport r rep s) = withReport r rep (writeChunk k s) := by
  unfold writeChunk
  rw [withReport_others rep s h]
  obtain _ | ⟨x, p⟩ := s.eng[k].exec
  · rfl
  cases p with
  | reader c =>
    dsimp only
    rw [withReport_lineOf]
    cases (s.lineOf x).cfg with
    | none => rfl
    | some g =>
      cases c.buf with
      | none => rfl
      | some ws =>
        simp only [withReport_setPhase rep s h, issueWrite_withReport rep _ h, apply_ite (withReport r rep)]
  | _ => rfl

theorem pumpReader_withReport : pumpReader k (withReport r rep s) = withReport r rep (pumpReader k s) := by
  unfold pumpReader
  rw [readChunk_withReport rep s h, writeChunk_withReport rep _ h, readChunk_withReport rep _ h]

theorem issueInput_withReport (x : Record) (c : StepCtx) :
    issueInput k x c (withReport r rep s) = withReport r rep (issueInput k x c s) := by
  unfold issueInput
  simp only [withReport_lineOf, withReport_setPhase rep s h, issueRead_withReport rep _ h, apply_ite (withReport r rep)]

theorem beginReader_withReport (x : Record) (offs : List Nat) :
    beginReader k x offs (withReport r rep s) = withReport r rep (beginReader k x offs s) := by
  have hend : ∀ res, endCommand k res (leaveLock k x.lineIx (withReport r rep s)) =
      withReport r rep (endCommand k res (leaveLock k x.lineIx s)) :=
    endCommand_withReport rep (leaveLock k x.lineIx s) h
  unfold beginReader
  simp only [withReport_lineOf, withReport_setPhase rep s h, pumpReader_withReport rep _ h, hend,
    apply_ite (withReport r rep)]

theorem beginSetTaps_withReport (x : Record) :
    beginSetTaps k x (withReport r rep s) = withReport r rep (beginSetTaps k x s) := by
  have hend : ∀ res f, endCommand k res (leaveLock k x.lineIx ((withReport r rep s).updLine x.lineIx f)) =
      withReport r rep (endCommand k res (leaveLock k x.lineIx (s.updLine x.lineIx f))) :=
    fun res f => endCommand_withReport rep (leaveLock k x.lineIx (s.updLine _ f)) h res
  unfold beginSetTaps
  simp only [withReport_lineOf, withReport_setPhase rep s h, issueRead_withReport rep _ h, hend,
    apply_ite (withReport r rep)]

theorem beginClear_withReport (x : Record) :
    beginClear k x (withReport r rep s) = withReport r rep (beginClear k x s) :=
  endCommand_withReport rep (leaveLock k x.lineIx (s.updLine x.lineIx (fun l => { l with head := 0, fill := 0 }))) h _

theorem beginGranted_withReport : beginGranted k (withReport r rep s) = withReport r rep (beginGranted k s) := by
  unfold beginGranted
  rw [withReport_others rep s h]
  obtain _ | ⟨x, p⟩ := s.eng[k].exec
  · rfl
  dsimp only
  rw [withReport_updEng rep s h]
  cases Kind.ofCode x.kind with
  | none => rfl
  | some kind =>
    cases kind with
    | push => exact pushNext_withReport rep _ h _ _
    | setTaps => exact beginSetTaps_withReport rep _ h _
    | clear => exact beginClear_withReport rep _ h _
    | step => exact issueInput_withReport rep _ h _ _
    | gather | readSpan => exact beginReader_withReport rep _ h _ _
    | _ => rfl

theorem grantWaiter_withReport : grantWaiter k (withReport r rep s) = withReport r rep (grantWaiter k s) := by
  unfold grantWaiter
  simp only [resetMeets_withReport, beginGranted_withReport rep s h, withReport_setPhase rep s h,
    withReport_updEng rep _ h, apply_ite (withReport r rep)]

end

/-! ### The grant step -/

/-- `w` is the CLOSE of line `l` that its end of a close ends: the first in the queue, still waiting (R49). -/
def State.Closer (l : LineIx) (w : Waiter) (c : Record) (q : Nat) (s : State) : Prop :=
  s.lines[l].lock.queue.find? (fun w => w.kind == .close) = some w ∧ s.eng[w.ring].exec = some ⟨c, .waitClose q⟩

theorem endClose_closer (l : LineIx) :
    (∀ w c q, s.Closer l w c q → endClose l s = endCommand w.ring (lineResult .ok c s.lines[l] 0 0 q) (freed l s)) ∧
    ((∀ w c q, ¬ s.Closer l w c q) → endClose l s = freed l s) := by
  unfold endClose State.Closer
  extract_lets x s1 s2
  have hs2 : s2 = freed l s := by
    unfold s2 s1 x freed
    cases s.lines[l].cfg <;> rfl
  rw [hs2]
  constructor
  · rintro w c q ⟨hf, hx⟩
    have hx' : (freed l s).eng[w.ring].exec = some ⟨c, .waitClose q⟩ := hx
    rw [hf]
    dsimp only
    rw [hx']
  · intro h
    split
    · rfl
    · rename_i w hf
      split
      · rename_i c q hx
        exact absurd ⟨hf, hx⟩ (h w c q)
      · rfl

theorem endClose_withReport {l : LineIx} (h : ∀ w ∈ s.lines[l].lock.queue, w.ring ≠ r) :
    endClose l (withReport r rep s) = withReport r rep (endClose l s) := by
  by_cases hc : ∃ w c q, s.Closer l w c q
  · obtain ⟨w, c, q, hf, hx⟩ := hc
    have hw := h w (List.mem_of_find?_eq_some hf)
    rw [(endClose_closer s l).1 w c q ⟨hf, hx⟩,
      (endClose_closer (withReport r rep s) l).1 w c q ⟨hf, (congrArg Engine.exec (withReport_others rep s hw)).trans hx⟩]
    exact endCommand_withReport rep (freed l s) hw _
  · push Not at hc
    rw [(endClose_closer s l).2 hc, (endClose_closer (withReport r rep s) l).2]
    · rfl
    · rintro w c q ⟨hf, hx⟩
      have hw := h w (List.mem_of_find?_eq_some hf)
      exact hc w c q ⟨hf, (congrArg Engine.exec (withReport_others rep s hw)).symm.trans hx⟩

/-- The grant step of a lock at which ring `r` does not wait. -/
theorem grantLoop_withReport (n : Nat) (l : LineIx) (h : ∀ w ∈ s.lines[l].lock.queue, w.ring ≠ r) :
    grantLoop n l (withReport r rep s) = withReport r rep (grantLoop n l s) := by
  induction n generalizing s with
  | zero => rfl
  | succ n ih =>
    unfold grantLoop
    rw [withReport_lines, endClose_withReport rep s h]
    simp only [apply_ite (withReport r rep)]
    congr 1
    cases hq : s.lines[l].lock.queue with
    | nil => rfl
    | cons w ws =>
      have hw : w.ring ≠ r := h w (by rw [hq]; exact List.mem_cons_self)
      have grant : ∀ f : Line → Lock, (f s.lines[l]).queue = ws →
          grantLoop n l (grantWaiter w.ring ((withReport r rep s).updLine l (fun y => { y with lock := f y }))) =
            withReport r rep (grantLoop n l (grantWaiter w.ring (s.updLine l (fun y => { y with lock := f y })))) := by
        intro f hf
        rw [← ih]
        · exact congrArg _ (grantWaiter_withReport rep (s.updLine l (fun y => { y with lock := f y })) hw)
        · intro v hv
          have := (grantWaiter_queue w.ring l (s.updLine l (fun y => { y with lock := f y }))).subset hv
          rw [State.updLine_get, if_pos rfl, hf] at this
          exact h v (by rw [hq]; exact List.mem_cons_of_mem _ this)
      dsimp only
      cases w.kind with
      | writer =>
        cases s.lines[l].lock.mode with
        | none => exact grant (fun _ => ⟨.write, [w.ring], ws⟩) rfl
        | _ => rfl
      | reader =>
        cases s.lines[l].lock.mode with
        | none => exact grant (fun _ => ⟨.read, [w.ring], ws⟩) rfl
        | read => exact grant (fun y => ⟨.read, y.lock.holders ++ [w.ring], ws⟩) rfl
        | write => rfl
      | close => rfl

/-- Ring `r` leaves a lock, whatever its report (R44, R116). -/
theorem release_withReport (l : LineIx) : release r l (withReport r rep s) = withReport r rep (release r l s) := by
  unfold release grantStep
  refine grantLoop_withReport rep (leaveLock r l s) _ l fun w hw => ?_
  simp only [leaveLock, State.updLine_get, if_true, Lock.leave, List.mem_filter, bne_iff_ne] at hw
  exact hw.2

end

end Sys2Proof.Machine
end

section
/-! A completion ring that has nothing left to serve (R124), and how a ring that was told to stop halts (R112). -/

namespace Sys2Proof.Machine

/-! ### Rings with nothing to serve -/

/-- Completion ring `q` has no claim that it could begin to write. -/
def Attended (q : CqIx) (s : State) : Prop := s.cq[q].queue = [] ∨ s.cq[q].hasRoom = false

theorem serveQueue_attended {q : CqIx} {s : State} (h : Attended q s) : serveQueue q s = s := by
  unfold serveQueue
  obtain hq | hr := h
  · rw [hq]
    exact ite_self s
  · rw [hr]
    rfl

theorem attended_issueRecord {q : CqIx} {s : State} (hr : s.cq[q].hasRoom = true) (c : Claim) :
    Attended q (issueRecord q c s) := by
  right
  unfold issueRecord
  cases hg : s.cq[q].cfg with
  | none =>
    rw [Cq.hasRoom, hg] at hr
    exact absurd hr Bool.false_ne_true
  | some g => simp [-Fin.getElem_fin, Cq.hasRoom]

theorem attended_serveQueue (q : CqIx) (s : State) : Attended q (serveQueue q s) := by
  unfold serveQueue
  split
  · rename_i hr
    split
    · rename_i hq
      exact .inl hq
    · rename_i c cs _
      exact attended_issueRecord (s := s.updCq q (fun x => { x with queue := cs }))
        (by rw [State.updCq_get, if_pos rfl]; exact hr) c
  · rename_i hr
    exact .inr (by simpa using hr)

theorem attended_takeClaim {q : CqIx} {s : State} (h : Attended q s) (p : CqIx) (c : Claim) :
    Attended q (takeClaim p c s) := by
  by_cases hp : q = p
  · subst hp
    unfold takeClaim
    split
    · rename_i hr
      exact attended_issueRecord (Bool.and_eq_true_iff.mp hr).1 c
    · rename_i hr
      have hroom : s.cq[q].hasRoom = false := by
        obtain hq | hr' := h
        · simpa [-Fin.getElem_fin, hq] using hr
        · exact hr'
      right
      rw [State.updCq_get, if_pos rfl]
      exact hroom
  · unfold Attended
    rw [(takeClaim_taken p c s).1 q hp]
    exact h

theorem attended_endCommand {q : CqIx} {s : State} (h : Attended q s) (r : Ring) (res : Result) :
    Attended q (endCommand r res s) := by
  unfold endCommand
  split
  · exact h
  · dsimp only
    split
    · rw [goOn_frame]
      exact h
    · split
      · exact h
      · exact attended_takeClaim (by exact h) _ _

/-! ### Halting -/

/-- What an engine keeps when its ring halts. -/
def Engine.halted (e : Engine) : Engine :=
  { e with state := .halted, exec := none, staged := none, haltPending := false, stop := none, report := none }

section
variable (r : Ring) (s : State)

theorem halt_eq : halt r s = Stopped r s := rfl

theorem halt_updEng {f : Engine → Engine} (h : (f s.eng[r]).halted = s.eng[r].halted) :
    halt r (s.updEng r f) = halt r s := by
  show ((s.updEng r f).updEng r Engine.halted).updPace r _ = (s.updEng r Engine.halted).updPace r _
  rw [State.updEng_updEng]
  have hset : s.updEng r (fun e => (f e).halted) = s.updEng r Engine.halted := by
    exact congrArg (fun e => { s with eng := s.eng.set r e }) h
  rw [hset]

theorem halt_withReport_self (rep : Option StopReport) : halt r (withReport r rep s) = halt r s :=
  halt_updEng r s rfl

theorem issueRecord_halt (q : CqIx) (c : Claim) : issueRecord q c (halt r s) = halt r (issueRecord q c s) := by
  have hhead : (halt r s).eng[c.ring].head = s.eng[c.ring].head := by
    show (s.updEng r Engine.halted).eng[c.ring].head = _
    rw [State.updEng_get]
    split
    · rename_i h
      subst h
      rfl
    · rfl
  have hcq : (halt r s).cq = s.cq := rfl
  unfold issueRecord
  rw [hhead, hcq]
  cases s.cq[q].cfg <;> rfl

theorem serveQueue_halt (q : CqIx) : serveQueue q (halt r s) = halt r (serveQueue q s) := by
  have hcq : (halt r s).cq = s.cq := rfl
  unfold serveQueue
  rw [hcq, apply_ite (halt r)]
  congr 1
  cases s.cq[q].queue with
  | nil => rfl
  | cons c cs => exact issueRecord_halt r (s.updCq q (fun x => { x with queue := cs })) q c

/-- A ring that halts does not change what its completion ring serves. -/
theorem serveQueue_halt_serveQueue (q : CqIx) :
    serveQueue q (halt r (serveQueue q s)) = serveQueue q (halt r s) := by
  rw [serveQueue_halt, serveQueue_halt, serveQueue_attended (attended_serveQueue q s)]

end

/-! ### The boundary of a stop -/

theorem holdsPort_iff (r : Ring) (s : State) : holdsPort r s = true ↔ ∃ b, s.sc.port = .burst r b := by
  unfold holdsPort
  cases s.sc.port <;> simp

theorem atBoundary_iff (r : Ring) (s : State) : atBoundary r s = true ↔
    AtRest r s ∧ ¬ (s.eng[r].state = .waitCq ∧ beingWritten r s = true) ∧
      ∀ x, s.eng[r].exec = some x → x.phase.waitsForBlock = false := by
  unfold atBoundary AtRest
  dsimp only
  rw [← not_exists, ← holdsPort_iff]
  cases s.eng[r].exec <;> simp [-Fin.getElem_fin, and_assoc, ← imp_iff_not_or]

theorem notWritten {r : Ring} {s : State} {g : RingCfg} (hg : s.eng[r].cfg = some g) (hi : s.cq[g.cq].inflight = none) :
    beingWritten r s = false := by
  unfold beingWritten
  rw [hg]
  dsimp only
  rw [hi]

theorem tryStop_noticeHalt {r : Ring} {s : State} (hr : r ≠ 0) (hs : s.eng[r].stop = some .noticeHalt) :
    tryStop r s = if atBoundary r s then halt r (unwind r s) else s := by
  unfold tryStop
  rw [if_neg hr, hs]
  rfl

theorem dropClaim_of_ne {r : Ring} {s : State} (h : s.eng[r].state ≠ .waitCq) : dropClaim r s = s := if_neg h

/-- A ring that executes nothing and has no claim at its completion ring drops only the record that it had ready. -/
theorem unwind_none {r : Ring} {s : State} (hx : s.eng[r].exec = none) (hw : s.eng[r].state ≠ .waitCq) :
    unwind r s = s.updEng r (fun e => { e with staged := none }) := by
  unfold unwind dropCommand
  rw [State.updEng_get, if_pos rfl]
  dsimp only
  rw [hx]
  dsimp only
  rw [dropClaim_of_ne]
  rw [State.updEng_get, if_pos rfl]
  exact hw

/-- A ring whose command is at no lock and has no claim at its completion ring halts at once. -/
theorem halt_unwind_unlocked {r : Ring} {s : State} (hw : s.eng[r].state ≠ .waitCq)
    (hx : ∀ x, s.eng[r].exec = some x → x.phase.atLock = false) : halt r (unwind r s) = halt r s := by
  cases he : s.eng[r].exec with
  | none => rw [unwind_none he hw, halt_updEng r s rfl]
  | some x =>
    unfold unwind dropCommand
    rw [State.updEng_get, if_pos rfl]
    dsimp only
    rw [he]
    dsimp only
    rw [hx x he, if_neg Bool.false_ne_true, dropClaim_of_ne, halt_updEng, halt_updEng]
    · rfl
    · rfl
    · rw [State.updEng_get, if_pos rfl]
      exact EngState.noConfusion

/-- A ring whose command is at a lock leaves it, then halts; how much the command had committed does not show. -/
theorem halt_unwind_locked {r : Ring} {s : State} {x : Exec} (he : s.eng[r].exec = some x) (hx : x.phase.atLock = true)
    (n : Nat) : halt r (unwind r s) = halt r (GivenUp r x.rcd n s) := by
  have hfresh : x.phase ≠ .fresh := by
    intro h
    rw [h] at hx
    exact Bool.false_ne_true hx
  have hdrop : unwind r s = release r x.rcd.lineIx (withReport r
      (some ⟨true, x.rcd.tag, x.rcd.line, x.rcd.gen, x.phase.committed⟩)
      (s.updEng r (fun e => { e with
        state := .active, exec := none, staged := none
        report := some ⟨true, x.rcd.tag, x.rcd.line, x.rcd.gen, n⟩ }))) := by
    unfold unwind dropCommand
    rw [State.updEng_get, if_pos rfl]
    dsimp only
    rw [he]
    dsimp only
    rw [if_pos hx, dropClaim_of_ne]
    · unfold withReport
      simp only [State.updEng_updEng, if_neg hfresh]
    · rw [release_self, State.updEng_get, if_pos rfl]
      exact EngState.noConfusion
  rw [hdrop, release_withReport, halt_withReport_self]
  rfl

/-- A ring in WAIT_CQ is ACTIVE without its claim. -/
theorem unwind_waitCq {r : Ring} {s : State} {g : RingCfg} (hg : s.eng[r].cfg = some g) (he : s.eng[r].exec = none)
    (hw : s.eng[r].state = .waitCq) : unwind r s = withdrawClaims g.cq (Claim.isCommandOf r)
      (s.updEng r (fun e => { e with staged := none, state := .active })) := by
  unfold unwind dropCommand
  rw [State.updEng_get, if_pos rfl]
  dsimp only
  rw [he]
  dsimp only
  unfold dropClaim
  rw [State.updEng_get, if_pos rfl]
  dsimp only
  rw [if_pos hw, hg]
  dsimp only
  rw [State.updEng_updEng]

/-- A ring in WAIT_CQ withdraws its claim and halts (R112); behind it CU examines the front claim. -/
theorem serveQueue_halt_unwind_waitCq {r : Ring} {s : State} {g : RingCfg} (hg : s.eng[r].cfg = some g)
    (he : s.eng[r].exec = none) (hw : s.eng[r].state = .waitCq) :
    serveQueue g.cq (halt r (unwind r s)) = serveQueue g.cq (halt r (s.updCq g.cq (fun c =>
      { c with queue := c.queue.filter (fun d => !d.isCommandOf r) }))) := by
  have hhalt : ∀ f, halt r ((s.updEng r (fun e => { e with staged := none, state := .active })).updCq g.cq f) =
      halt r (s.updCq g.cq f) := fun f =>
    halt_updEng r (s.updCq g.cq f) (f := fun e => { e with staged := none, state := .active }) rfl
  rw [unwind_waitCq hg he hw]
  unfold withdrawClaims
  split
  · rw [serveQueue_halt_serveQueue, hhalt]
  · rename_i hno
    have hq : s.cq[g.cq].queue.filter (fun d => !d.isCommandOf r) = s.cq[g.cq].queue := by
      rw [List.filter_eq_self]
      simpa using hno
    have hsame : s.updCq g.cq (fun c => { c with queue := c.queue.filter (fun d => !d.isCommandOf r) }) = s := by
      show { s with cq := s.cq.set g.cq { s.cq[g.cq] with queue := s.cq[g.cq].queue.filter _ } } = s
      rw [hq]
      exact congrArg (fun v => { s with cq := v }) (vset_same _ _)
    rw [hsame, halt_updEng]
    rfl

end Sys2Proof.Machine
end

section
/-! The report of a completion record that could not be written (R112, R126, R128). -/

namespace Sys2Proof.Machine

theorem completes_iff (s : State) (w : HostWrite) : s.completes w = true ↔ CanComplete w s := by
  simp [State.completes, CanComplete]

/-! ### The lost record -/

/-- A fault's report changes nothing outside HP. -/
theorem reportFault_hp (c : FaultCode) (n : Nat) (s : State) :
    reportFault c n s = { s with hp := (reportFault c n s).hp } := by
  rw [reportFault_frame]

/-- `s` behind the report that the record of ring `r` on completion ring `q` was lost: tail and phase stay, POST_FAULT is
reported, and a held RETIRE is refused (R126). -/
def lostRecord (q : CqIx) (r : Ring) (s : State) : State :=
  refuseHeld q (reportFault .postFault r.val (loseRecord q s))

section
variable (q : CqIx) (r : Ring) (s : State)

theorem lostRecord_isLost : RecordIsLost q r s (lostRecord q r s) := by
  refine ⟨_, reportFault_reported .postFault r.val (loseRecord q s), ?_⟩
  have hheld : (reportFault .postFault r.val (loseRecord q s)).cq[q].held = s.cq[q].held := by
    rw [reportFault_hp]
    show (s.updCq q (fun x => { x with inflight := none })).cq[q].held = _
    rw [State.updCq_get, if_pos rfl]
  unfold lostRecord refuseHeld
  rw [← hheld]
  cases (reportFault .postFault r.val (loseRecord q s)).cq[q].held with
  | none => rfl
  | some n => exact reportFault_reported .badRetire q.val _

theorem lostRecord_frame : lostRecord q r s = { s with
    hp := (lostRecord q r s).hp
    cq := s.cq.set q { s.cq[q] with inflight := none, held := none } } := by
  have hget : (loseRecord q s).cq[q] = { s.cq[q] with inflight := none } := vset_self _ _ _
  unfold lostRecord
  rw [reportFault_hp]
  generalize (reportFault .postFault r.val (loseRecord q s)).hp = hp
  unfold refuseHeld
  dsimp only
  rw [hget]
  cases hh : s.cq[q].held with
  | none =>
    dsimp only
    unfold loseRecord State.updCq
    rw [← hh]
  | some n =>
    dsimp only
    rw [reportFault_hp]
    unfold State.updCq
    dsimp only
    rw [hget]
    unfold loseRecord State.updCq
    dsimp only
    rw [vset_vset]

theorem lostRecord_eng : (lostRecord q r s).eng = s.eng := by rw [lostRecord_frame]
theorem lostRecord_sc : (lostRecord q r s).sc = s.sc := by rw [lostRecord_frame]
theorem lostRecord_cq : (lostRecord q r s).cq[q] = { s.cq[q] with inflight := none, held := none } := by
  rw [lostRecord_frame]
  exact vset_self _ _ _

end

theorem exec_recordLost {s : State} {q : CqIx} {c : Claim} {w : HostWrite} (hr : Released s)
    (hi : s.cq[q].inflight = some ⟨c, w⟩) (hc : ¬ CanComplete w s) :
    exec (.completionWriteFailed q) s =
      .next (serveQueue q (resumeCqWait q (tellFailed c (lostRecord q c.ring s)))) := by
  show execCompletionWriteFailed q s = _
  unfold execCompletionWriteFailed
  rw [whileReleased_eq hr, hi]
  exact if_neg (fun h => hc ((completes_iff s w).mp h))

/-! ### A CONFIGURE COMPLETION RING that waits for the write -/

/-- The telling begins no wait for a completion ring. -/
theorem resumeCqWait_tellFailed {q : CqIx} {s : State} (h : ∀ x, s.eng[(0 : Ring)].exec = some ⟨x, .cqWait⟩ → x.cqA ≠ q)
    (c : Claim) : resumeCqWait q (tellFailed c s) = tellFailed c s := by
  unfold resumeCqWait
  split
  · rename_i x hx
    exact if_neg (h x ((tellFailed_work s c).waits x hx))
  · rfl

/-- CU examines the front claim behind what the telling did, as behind `f`. -/
theorem recordLost_answers {s : State} {q : CqIx} {c : Claim} {w : HostWrite} (hr : Released s)
    (hi : s.cq[q].inflight = some ⟨c, w⟩) (hc : ¬ CanComplete w s)
    (hno : ∀ x, s.eng[(0 : Ring)].exec = some ⟨x, .cqWait⟩ → x.cqA ≠ q) {f : State → State}
    (hf : serveQueue q (tellFailed c (lostRecord q c.ring s)) = serveQueue q (f (lostRecord q c.ring s))) :
    ∃ v t, exec (.completionWriteFailed q) s = .next t ∧ RecordIsLost q c.ring s v ∧ Served q (f v) t := by
  refine ⟨_, _, exec_recordLost hr hi hc, lostRecord_isLost q c.ring s, ?_⟩
  rw [resumeCqWait_tellFailed (by rw [lostRecord_eng]; exact hno), hf]
  exact serveQueue_served q _

/-- The CONFIGURE COMPLETION RING that waited sets the ring and ends; there is nothing then that CU could write (R151). -/
theorem resumeCqWait_sets {q : CqIx} {s : State} {x : Record} (hx : s.eng[(0 : Ring)].exec = some ⟨x, .cqWait⟩)
    (hs : s.eng[(0 : Ring)].stop = none) (hq : x.cqA = q) (hi : s.cq[q].inflight = none) :
    Ended 0 x (plain .ok x) (CqSet q x s) (serveQueue q (resumeCqWait q s)) := by
  subst hq
  have hset : resumeCqWait x.cqA s = endCommand 0 (bareResult .ok x) (CqSet x.cqA x s) := by
    unfold resumeCqWait configureCq endControl
    rw [hx]
    dsimp only
    rw [if_pos rfl, hi]
    show (if s.eng[(0 : Ring)].stop.isSome then _ else _) = _
    rw [hs]
    rfl
  have hempty : Attended x.cqA (CqSet x.cqA x s) := .inl (congrArg Cq.queue (vset_self _ _ _))
  rw [hset, serveQueue_attended (attended_endCommand hempty 0 _)]
  exact endCommand_ended (s := CqSet x.cqA x s) hx _

/-! ### The ring of a late notice is told to stop -/

/-- A phase at a lock waits for no other block. -/
theorem Phase.not_waitsForBlock {p : Phase} (h : p.atLock = true) : p.waitsForBlock = false := by
  cases p <;> simp_all [Phase.atLock, Phase.waitsForBlock]

theorem Phase.atLock_of {p : Phase} (h : p = .waitLock ∨ (∃ n, p = .waitClose n) ∨ p.holdsLock) : p.atLock = true := by
  obtain rfl | ⟨n, rfl⟩ | h := h
  · rfl
  · rfl
  · cases p <;> simp_all [Phase.atLock, Phase.holdsLock]

/-- Ring `r` told to stop because its late notice was lost (R128). -/
def toldOfLoss (r : Ring) (s : State) : State :=
  Told r .noticeHalt { s with fu := { s.fu with pace := s.fu.pace.set r { s.fu.pace[r] with notice := none } } }

theorem toldOfLoss_get (r : Ring) (s : State) :
    (toldOfLoss r s).eng[r] = { s.eng[r] with stop := some .noticeHalt } := vset_self _ _ _

theorem atBoundary_toldOfLoss (r : Ring) (s : State) : atBoundary r (toldOfLoss r s) = atBoundary r s := by
  have hw : beingWritten r (toldOfLoss r s) = beingWritten r s := by
    unfold beingWritten
    rw [toldOfLoss_get]
    rfl
  unfold atBoundary
  rw [hw, toldOfLoss_get]
  rfl

/-- The ring of a late notice that is halted, disabled or on its way to a stop stays so (R128; log 20). -/
theorem tellFailed_stands {c : Claim} {s : State} {e : Engine} (he : s.eng[c.ring] = e) (hn : c.notice = true)
    (ho : c.orphan = false) (hh : e.state = .halted ∨ e.state = .disabled ∨ e.stop.isSome) :
    tellFailed c s = s.updPace c.ring (fun p => { p with notice := none }) := by
  subst he
  unfold tellFailed noticeFailed
  rw [if_pos hn, if_neg (by simp [ho])]
  exact if_pos hh

section
variable {c : Claim} {s : State} {e : Engine} (he : s.eng[c.ring] = e) (hn : c.notice = true) (ho : c.orphan = false)
  (hr : c.ring ≠ 0) (hs : e.stop = none) (hh : e.state ≠ .halted) (hd : e.state ≠ .disabled)
include he hn ho hr hs hh hd

theorem tellFailed_told : tellFailed c s =
    if atBoundary c.ring s then halt c.ring (unwind c.ring (toldOfLoss c.ring s)) else toldOfLoss c.ring s := by
  subst he
  have hgo : ¬ (s.eng[c.ring].state = .halted ∨ s.eng[c.ring].state = .disabled ∨ s.eng[c.ring].stop.isSome) := by
    simp [-Fin.getElem_fin, hs, hh, hd]
  have htold : tellFailed c s = tryStop c.ring (toldOfLoss c.ring s) := by
    unfold tellFailed noticeFailed
    rw [if_pos hn, if_neg (by simp [ho])]
    exact if_neg hgo
  rw [htold, tryStop_noticeHalt hr (by rw [toldOfLoss_get]), atBoundary_toldOfLoss]

/-- With a transfer or a burst under way, the ring goes on to its commit boundary (R112). -/
theorem tellFailed_busy (hb : ¬ AtRest c.ring s) : tellFailed c s = toldOfLoss c.ring s := by
  rw [tellFailed_told he hn ho hr hs hh hd]
  exact if_neg fun h => hb ((atBoundary_iff c.ring s).mp h).1

/-- At rest, with a command that is at no lock or none at all, the ring halts. -/
theorem tellFailed_unlocked (hat : AtRest c.ring s) (hw : e.state ≠ .waitCq)
    (hx : ∀ x, e.exec = some x → x.phase.atLock = false ∧ x.phase.waitsForBlock = false) :
    tellFailed c s = Stopped c.ring (toldOfLoss c.ring s) := by
  have hb : atBoundary c.ring s = true := by
    rw [atBoundary_iff, he]
    exact ⟨hat, fun h => hw h.1, fun x h => (hx x h).2⟩
  rw [tellFailed_told he hn ho hr hs hh hd, if_pos hb, halt_unwind_unlocked, halt_eq]
  · rw [toldOfLoss_get, he]
    exact hw
  · rw [toldOfLoss_get, he]
    exact fun x h => (hx x h).1

/-- At rest, with a command at a lock, the ring leaves the lock and halts. -/
theorem tellFailed_locked (hat : AtRest c.ring s) (hw : e.state ≠ .waitCq) {y : Record} {p : Phase}
    (hx : e.exec = some ⟨y, p⟩) (hp : p.atLock = true) :
    tellFailed c s = Stopped c.ring (GivenUp c.ring y 0 (toldOfLoss c.ring s)) := by
  have hb : atBoundary c.ring s = true := by
    rw [atBoundary_iff, he, hx]
    exact ⟨hat, fun h => hw h.1, fun x h => by cases h; exact Phase.not_waitsForBlock hp⟩
  rw [tellFailed_told he hn ho hr hs hh hd, if_pos hb, halt_unwind_locked (x := ⟨y, p⟩) _ hp 0, halt_eq]
  rw [toldOfLoss_get, he]
  exact hx

/-- At rest in WAIT_CQ with its claim not being written, the ring withdraws the claim and halts. -/
theorem tellFailed_waitCq (hat : AtRest c.ring s) (hx : e.exec = none) (hw : e.state = .waitCq) {g : RingCfg}
    (hg : e.cfg = some g) (hi : s.cq[g.cq].inflight = none) :
    serveQueue g.cq (tellFailed c s) = serveQueue g.cq (Stopped c.ring ((toldOfLoss c.ring s).updCq g.cq (fun x =>
      { x with queue := x.queue.filter (fun d => !d.isCommandOf c.ring) }))) := by
  have hb : atBoundary c.ring s = true := by
    rw [atBoundary_iff, he, hx, notWritten ((congrArg Engine.cfg he).trans hg) hi]
    exact ⟨hat, fun h => Bool.false_ne_true h.2, fun x h => nomatch h⟩
  rw [tellFailed_told he hn ho hr hs hh hd, if_pos hb, serveQueue_halt_unwind_waitCq, halt_eq]
  · rw [toldOfLoss_get, he]
    exact hg
  · rw [toldOfLoss_get, he]
    exact hx
  · rw [toldOfLoss_get, he]
    exact hw

end

/-! ### The end of a ring's reset -/

/-- What RE0's engine held before its restart does not show behind it. -/
theorem restarted_updEng {f : Engine → Engine} (s : State) (hf : (f s.eng[(0 : Ring)]).cfg = s.eng[(0 : Ring)].cfg) :
    Restarted (s.updEng 0 f) = Restarted s := by
  have hget : (s.updEng 0 f).eng[(0 : Ring)].cfg = s.eng[(0 : Ring)].cfg := (congrArg Engine.cfg (vset_self _ _ _)).trans hf
  unfold Restarted
  rw [hget]
  congr 1
  exact vset_vset _ _ _ _

/-- RE0 without the command that it executed and the record that it had ready. -/
def controlDropped (s : State) : State := s.updEng 0 (fun e => { e with exec := none, staged := none })

/-- A restart of RE0 that waited for the end of a RESET RING goes on (R135). -/
theorem tryRestart_goesOn {s : State} (hs : s.eng[(0 : Ring)].stop = some .restart) (hr : AtRest 0 s)
    (ha : s.eng[(0 : Ring)].state = .active) (hi : s.cq[(0 : CqIx)].inflight = none) :
    tryRestart (controlDropped s) = RestartGoesOn s := by
  obtain ⟨hrd, hwr, hport⟩ := hr
  have hget : (controlDropped s).eng[(0 : Ring)] =
      { s.eng[(0 : Ring)] with exec := none, staged := none } := vset_self _ _ _
  have hb : atBoundary 0 (controlDropped s) = true := by
    rw [atBoundary_iff, AtRest, hget]
    exact ⟨⟨hrd, hwr, hport⟩, fun h => EngState.noConfusion (ha.symm.trans h.1), fun x hx => nomatch hx⟩
  have hunwind : unwind 0 (controlDropped s) = controlDropped s := by
    rw [unwind_none (congrArg Engine.exec hget)]
    · exact State.updEng_updEng s 0 _ _
    · rw [hget]
      exact fun h => EngState.noConfusion (ha.symm.trans h)
  have hstop : (controlDropped s).eng[(0 : Ring)].stop.isSome = true := by
    rw [hget, hs]
    rfl
  have hfetch : (controlDropped s).eng[(0 : Ring)].fetch = s.eng[(0 : Ring)].fetch := by rw [hget]
  have hcq : (controlDropped s).cq = s.cq := rfl
  have hrestarted : finishRestart (controlDropped s) = Restarted s :=
    restarted_updEng (f := fun e => { e with exec := none, staged := none }) s rfl
  have hstays : { s with eng := s.eng.set 0 { s.eng[(0 : Ring)] with state := .active, exec := none, staged := none } } =
      controlDropped s := by
    rw [← ha]
    rfl
  unfold tryRestart RestartGoesOn
  rw [hb, hstop, hunwind, hstays]
  dsimp only
  rw [hfetch, hrestarted, hcq, hi]
  cases s.eng[(0 : Ring)].fetch <;> rfl

theorem endControl_cases {s : State} {x : Record} {p : Phase} (hx : s.eng[(0 : Ring)].exec = some ⟨x, p⟩) (res : Result) :
    (s.eng[(0 : Ring)].stop = none → Ended 0 x res s (endControl res s)) ∧
    (s.eng[(0 : Ring)].stop = some .restart → AtRest 0 s → s.eng[(0 : Ring)].state = .active →
      s.cq[(0 : CqIx)].inflight = none → endControl res s = RestartGoesOn s) := by
  unfold endControl
  refine ⟨fun hs => ?_, fun hs hr ha hi => ?_⟩
  · rw [hs]
    exact endCommand_ended hx res
  · rw [hs]
    exact tryRestart_goesOn hs hr ha hi

theorem finishReset_ends {r : Ring} {s u : State} {x : Record} (hr : r ≠ 0) (hd : PacingDiscarded r s u)
    (hx : u.eng[(0 : Ring)].exec = some ⟨x, .resetWait r⟩) (hrep : u.eng[r].report = none) :
    ResetEnds r x (resetReport false 0 0 0 u.eng[r].head 0) s (finishReset r u) := by
  have hx' : (u.updEng r (fun _ => Engine.resetValue)).eng[(0 : Ring)].exec = some ⟨x, .resetWait r⟩ := by
    rw [updEng_others hr.symm]
    exact hx
  refine ⟨u.updEng r (fun _ => Engine.resetValue), ⟨u, hd, rfl⟩, ?_⟩
  have hend : finishReset r u = endControl (resetReport false 0 0 0 u.eng[r].head 0)
      (u.updEng r (fun _ => Engine.resetValue)) := by
    unfold finishReset targetStopped
    rw [hrep]
    dsimp only
    rw [hx']
    exact if_pos rfl
  rw [hend]
  exact endControl_cases hx' _

/-- A ring under reset whose claim has come back: it withdraws nothing, its pacing state is discarded (R115, R160). -/
theorem tryStop_ringReset {r : Ring} {s : State} {g : RingCfg} (hr : r ≠ 0) (hs : s.eng[r].stop = some .ringReset)
    (hb : atBoundary r s = true) (hx : s.eng[r].exec = none) (hw : s.eng[r].state = .waitCq) (hg : s.eng[r].cfg = some g)
    (hq : ∀ d ∈ s.cq[g.cq].queue, ¬ (d.ring = r ∧ d.notice = false)) :
    let u := discardPacing r { s with eng := s.eng.set r { s.eng[r] with state := .active, staged := none } }
    tryStop r s = if u.eng[r].fetch.isSome then u else finishReset r u := by
  have hno : ¬ s.cq[g.cq].queue.any (Claim.isCommandOf r) = true := by
    simpa [-Fin.getElem_fin, Claim.isCommandOf] using hq
  have hunwind : unwind r s = s.updEng r (fun e => { e with staged := none, state := .active }) := by
    rw [unwind_waitCq hg hx hw]
    exact if_neg hno
  unfold tryStop
  rw [if_neg hr, hs]
  dsimp only
  rw [if_pos hb, hunwind]
  rfl

end Sys2Proof.Machine
end

section
/-! The report of a lost record, by the state in which it finds the ring of its claim. -/

namespace Sys2Proof.Machine

theorem Claim.not_isCommandOf (r : Ring) (d : Claim) :
    (!d.isCommandOf r) = decide (¬ (d.ring = r ∧ d.notice = false)) := by
  simp [Claim.isCommandOf, beq_eq_decide]

/-- What the report of a command's record tells its ring: one in WAIT_CQ halts, one that was told to stop does so (R126). -/
theorem tellFailed_command {c : Claim} {s : State} {e : Engine} (he : s.eng[c.ring] = e) (hn : c.notice = false) :
    tellFailed c s = if e.stop.isSome then tryStop c.ring s else if e.state = .waitCq then halt c.ring s else s := by
  subst he
  unfold tellFailed
  rw [if_neg (by simp [hn])]
  rfl

/-- A ring in WAIT_CQ that is being reset stops at the report of its lost record (R115, R160). -/
theorem resetLost_ends {c : Claim} {s v : State} {x : Record} {g : RingCfg} (he : v.eng = s.eng)
    (hn : c.notice = false) (hr : c.ring ≠ 0) (hs : s.eng[c.ring].stop = some .ringReset)
    (hw : s.eng[c.ring].state = .waitCq) (hx : s.eng[c.ring].exec = none) (hat : AtRest c.ring v)
    (hrep : s.eng[c.ring].report = none) (hg : s.eng[c.ring].cfg = some g) (hi : v.cq[g.cq].inflight = none)
    (hq : ∀ d ∈ v.cq[g.cq].queue, ¬ (d.ring = c.ring ∧ d.notice = false))
    (hx0 : s.eng[(0 : Ring)].exec = some ⟨x, .resetWait c.ring⟩) :
    let idle := { v with eng := s.eng.set c.ring { s.eng[c.ring] with state := .active, staged := none } }
    (s.eng[c.ring].fetch.isSome → PacingDiscarded c.ring idle (tellFailed c v)) ∧
    (s.eng[c.ring].fetch = none →
      ResetEnds c.ring x (resetReport false 0 0 0 s.eng[c.ring].head 0) idle (tellFailed c v)) := by
  intro idle
  have hget : ∀ k : Ring, v.eng[k] = s.eng[k] := fun k => by rw [he]
  have hb : atBoundary c.ring v = true := by
    rw [atBoundary_iff, hget, hx, notWritten ((congrArg Engine.cfg (hget _)).trans hg) hi]
    exact ⟨hat, fun h => Bool.false_ne_true h.2, fun x h => nomatch h⟩
  have hstop := tryStop_ringReset hr (by rw [hget, hs]) hb (by rw [hget, hx]) (by rw [hget, hw]) (by rw [hget, hg]) hq
  rw [he] at hstop
  have hu : ∀ k : Ring, (discardPacing c.ring idle).eng[k] = idle.eng[k] := (discardPacing_kept c.ring idle).get
  have hidle : (discardPacing c.ring idle).eng[c.ring] = { s.eng[c.ring] with state := .active, staged := none } :=
    (hu c.ring).trans (vset_self _ _ _)
  have hidle0 : (discardPacing c.ring idle).eng[(0 : Ring)].exec = some ⟨x, .resetWait c.ring⟩ := by
    rw [hu]
    exact (congrArg Engine.exec (updEng_others hr.symm (fun e => { e with state := .active, staged := none }) s)).trans hx0
  have htell : tellFailed c v = if s.eng[c.ring].fetch.isSome then discardPacing c.ring idle
      else finishReset c.ring (discardPacing c.ring idle) := by
    rw [tellFailed_command (hget _) hn, hs]
    refine hstop.trans ?_
    rw [hidle]
  refine ⟨fun hf => ?_, fun hf => ?_⟩
  · rw [htell, if_pos hf]
    exact discardPacing_discarded c.ring idle
  · rw [htell, hf]
    have hend := finishReset_ends hr (discardPacing_discarded c.ring idle) hidle0 (by rw [hidle]; exact hrep)
    rw [hidle] at hend
    exact hend

/-- Settles O50, by the telling of the claim's ring: at rest it halts with what it gives up, else it is told to stop. -/
theorem recordLost : Obligations.RecordLost := by
  unfold Obligations.RecordLost
  intro s q c w hrel hi hc e unpend answers noWait
  have answer : ∀ f, noWait →
      serveQueue q (tellFailed c (lostRecord q c.ring s)) = serveQueue q (f (lostRecord q c.ring s)) → answers f :=
    fun f hno hf => recordLost_answers hrel hi hc hno hf
  have hget : ∀ k : Ring, (lostRecord q c.ring s).eng[k] = s.eng[k] := fun k => by rw [lostRecord_eng]
  have hrest : AtRest c.ring (lostRecord q c.ring s) ↔ AtRest c.ring s := by
    unfold AtRest
    rw [lostRecord_eng, lostRecord_sc]
  have hcq := lostRecord_cq q c.ring s
  refine ⟨fun hno hn hs hw => answer _ hno (congrArg _ ?_), fun hno hn ho => answer _ hno (congrArg _ ?_),
    fun hno hn ho hh => answer _ hno (congrArg _ (tellFailed_stands (hget _) hn ho hh)),
    fun hno hn ho hr hs hh hd => ?_, fun x g hn hr _ hs hw hx hat hrep hg hgq hq hx0 => ?_,
    fun x hn ho _ hq hx hs hxq => ?_⟩
  · rw [tellFailed_command (hget _) hn, hs, if_pos hw]
    rfl
  · rw [tellFailed, if_pos hn, if_pos ho]
    rfl
  · intro told
    refine ⟨fun hat hx hw => ?_, fun g hat hx hw hg hgq => ?_, fun y p hat hx hp hw => ?_, fun y hat hw hx => ?_,
      fun hb _ => answer _ hno (congrArg _ (tellFailed_busy (hget _) hn ho hr hs hh hd (mt hrest.mp hb)))⟩
    · refine answer _ hno (congrArg _ (tellFailed_unlocked (hget _) hn ho hr hs hh hd (hrest.mpr hat) hw ?_))
      obtain hx | ⟨y, hx⟩ := hx
      · exact fun x h => nomatch hx.symm.trans h
      · intro x h
        cases hx.symm.trans h
        exact ⟨rfl, rfl⟩
    · subst hgq
      refine answer _ hno ((tellFailed_waitCq (hget _) hn ho hr hs hh hd (hrest.mpr hat) hx hw hg ?_).trans ?_)
      · rw [hcq]
      · rw [funext (Claim.not_isCommandOf c.ring)]
        rfl
    · refine answer _ hno (congrArg _ (tellFailed_locked (hget _) hn ho hr hs hh hd (hrest.mpr hat) ?_ hx
        (Phase.atLock_of hp)))
      obtain hw | hw := hw <;> exact fun h => EngState.noConfusion (hw.symm.trans h)
    · refine answer _ hno (congrArg _ (tellFailed_unlocked (hget _) hn ho hr hs hh hd (hrest.mpr hat) ?_ ?_))
      · exact fun h => EngState.noConfusion (hw.symm.trans h)
      · intro x h
        cases hx.symm.trans h
        exact ⟨rfl, rfl⟩
  · subst hgq
    refine ⟨_, _, _, exec_recordLost hrel hi hc, lostRecord_isLost _ _ _, ?_,
      resetLost_ends (lostRecord_eng _ _ s) hn hr hs hw hx (hrest.mpr hat) hrep hg (by rw [hcq]) (by rw [hcq]; exact hq) hx0⟩
    rw [resumeCqWait_tellFailed]
    · exact serveQueue_served _ _
    · intro y hy
      rw [hget, hx0] at hy
      cases hy
  · have hid : tellFailed c (lostRecord q c.ring s) = lostRecord q c.ring s := by rw [tellFailed, if_pos hn, if_pos ho]
    refine ⟨_, _, exec_recordLost hrel hi hc, lostRecord_isLost _ _ _, ?_⟩
    rw [hid]
    exact resumeCqWait_sets (by rw [hget, hx]) (by rw [hget, hs]) hxq (by rw [hcq])

end Sys2Proof.Machine
end

section
/-! Claims at a line's lock on arrival: granted at once, or queued (R42, R43, R44, R46, R63, R65, R76, R79, R87). -/

namespace Sys2Proof.Machine

/-! ### A claim reaches the lock -/

/-- A record that reaches the lock has passed the validation order (R55). -/
theorem Claims.validated {s : State} {r : Ring} {k : Kind} {x : Record} {g : LineCfg} (h : Claims r k x g s)
    (hk : k ≠ .openLine) : Validated k r x s := by
  obtain ⟨⟨-, -, ⟨hline, hlive, hgen⟩, hg, howner⟩, hranges, halign⟩ := h
  have hlen := Line.len_eq hg
  refine {
    line := hline
    state := checkLine_known hk (by simp [hlive]) hgen.symm
    owner := checkOwner_none hg howner
    closing := if_neg fun h => by simp [hlive] at h
    ranges := ?_
    align := ?_ }
  · cases k with
    | openLine => exact absurd rfl hk
    | setTaps | push | test | readSpan | step =>
      simp only [RangesOk] at hranges
      simp only [checkRanges, hlen]
      grind
    | _ => rfl
  · cases k with
    | setTaps | push | gather | readSpan | step =>
      simp only [Aligned] at halign
      simp [checkAlign, alignedTo_iff, halign]
    | _ => rfl

section
variable {s : State} {r : Ring} {k : Kind} {x : Record} {g : LineCfg}

theorem Claims.executes (h : Claims r k x g s) : Executes r x s := by
  obtain ⟨⟨⟨-, hx, -⟩, -⟩, -⟩ := h
  exact hx

theorem Claims.exec_writer (h : Claims r k x g s) (hk : k ∈ [.push, .setTaps, .clear, .step]) :
    exec (k.row r) s = .next (claimWriter r x.lineIx s) := by
  have hv := h.validated (by rintro rfl; simp at hk)
  obtain ⟨⟨hb, h0, -⟩, -⟩ := h
  have he := hv.carriedOut hb h0 fun x => claimWriter r x.lineIx
  cases k with
  | push | setTaps | clear | step => exact he
  | _ => simp at hk

theorem Claims.exec_reader (h : Claims r k x g s) (hk : k ∈ [.gather, .readSpan]) :
    exec (k.row r) s = .next (claimReader r x.lineIx s) := by
  have hv := h.validated (by rintro rfl; simp at hk)
  obtain ⟨⟨hb, h0, -⟩, -⟩ := h
  have he := hv.carriedOut hb h0 fun x => claimReader r x.lineIx
  cases k with
  | gather | readSpan => exact he
  | _ => simp at hk

end

/-! ### Claims that are queued -/

theorem claimWriter_queues {s : State} {l : LineIx} (h : s.lines[l].lock.mode ≠ .none) (r : Ring) :
    claimWriter r l s = queueClaim r l .writer s := if_neg h

theorem claimReader_queues {s : State} {l : LineIx} (h : s.lines[l].lock.mode = .write ∨ s.lines[l].lock.queue ≠ [])
    (r : Ring) : claimReader r l s = queueClaim r l .reader s :=
  if_neg fun hk => h.elim hk.1 (· hk.2)

/-- A claim that is queued changes the queue and its engine (R42, R43). -/
theorem queueClaim_eq {s : State} {r : Ring} {x : Record} (hx : Executes r x s) (l : LineIx) (kind : WaitKind) :
    queueClaim r l kind s = { s with
      lines := s.lines.set l { s.lines[l] with
        lock := { s.lines[l].lock with queue := s.lines[l].lock.queue ++ [⟨r, kind⟩] } }
      eng := s.eng.set r { s.eng[r] with state := .waitLock, exec := some ⟨x, .waitLock⟩ } } := by
  unfold queueClaim
  rw [State.setPhase, State.updEng_updEng, State.updEng, State.updLine]
  simp only [show s.eng[r].exec = some ⟨x, .fresh⟩ from hx, Option.map_some]

/-- Settles O27: a claim that the mode or the queue bars from the lock is queued. -/
theorem claimsQueue : Obligations.ClaimsQueue := by
  unfold Obligations.ClaimsQueue
  intro s r k x g h l queued
  have hq := queueClaim_eq h.executes x.lineIx
  refine ⟨fun hk hm => ?_, fun hk hm => ?_⟩
  · rw [h.exec_writer hk, claimWriter_queues hm, hq]
    rfl
  · rw [h.exec_reader hk, claimReader_queues hm, hq]
    rfl

/-! ### Claims that are granted -/

/-- On a LIVE line the grant step does nothing where nobody waits, or where a writer holds the lock (R45). -/
theorem grantStep_stays {s : State} {l : LineIx} (hs : s.lines[l].state = .live)
    (h : s.lines[l].lock.queue = [] ∨ s.lines[l].lock.mode = .write) : grantStep l s = s := by
  have hc : ¬ (s.lines[l].state = .closing ∧ s.lines[l].lock.holders = []) := fun h =>
    LineState.noConfusion (hs.symm.trans h.1)
  cases hq : s.lines[l].lock.queue with
  | nil => exact grantStep_nil hc hq
  | cons w ws =>
    have hm : s.lines[l].lock.mode = .write := h.resolve_left fun hn => List.cons_ne_nil w ws (hq.symm.trans hn)
    refine grantStep_barred hc hq ?_
    rw [hm]
    cases hk : w.kind <;> simp only [Waiter.barred, hk]

theorem withLock_self (l : LineIx) (k : Lock) (s : State) : (withLock l k s).lines[l] = { s.lines[l] with lock := k } :=
  vset_self _ _ _

theorem withEng_activated (r : Ring) (e : Engine) (s : State) : withEng r e (activated r s) = withEng r e s :=
  withEng_withEng r _ e s

section
variable {s : State} {r : Ring} {x : Record} {p : Phase} (hx : s.eng[r].exec = some ⟨x, p⟩)
include hx

/-! A command whose claim has been granted goes on as its kind does (R44). -/

theorem beginGranted_push (hk : Kind.ofCode x.kind = some .push) :
    beginGranted r s = pushNext r x 0 (activated r s) := by
  simp only [beginGranted, hx, hk]
  rfl

theorem beginGranted_setTaps (hk : Kind.ofCode x.kind = some .setTaps) :
    beginGranted r s = beginSetTaps r x (activated r s) := by
  simp only [beginGranted, hx, hk]
  rfl

theorem beginGranted_step (hk : Kind.ofCode x.kind = some .step) :
    beginGranted r s = beginStep r x (activated r s) := by
  simp only [beginGranted, hx, hk]
  rfl

theorem beginGranted_gather (hk : Kind.ofCode x.kind = some .gather) :
    beginGranted r s = beginReader r x (s.lineOf x).taps (activated r s) := by
  simp only [beginGranted, hx, hk]
  rfl

theorem beginGranted_readSpan (hk : Kind.ofCode x.kind = some .readSpan) :
    beginGranted r s = beginReader r x (spanOffsets x.paramA.toNat x.count.toNat) (activated r s) := by
  simp only [beginGranted, hx, hk]
  rfl

theorem activated_exec : (activated r s).eng[r].exec = some ⟨x, p⟩ := by rw [activated_self, hx]

/-- A host read issued by a command that has become ACTIVE. -/
theorem issueRead_activated (q : Phase) (a : Addr) (n : Nat) :
    issueRead r a n ((activated r s).setPhase r q) = withEng r { s.eng[r] with
      state := .active, exec := some ⟨x, q⟩, rd := some (s.hostRead a n) } s := by
  rw [issueRead_setPhase (activated_exec hx), withEng_activated, activated_self]
  rfl

variable {g : LineCfg} (hg : (s.lineOf x).cfg = some g)
include hg

/-- A PUSH begins with the host read of its first burst (R14, R65). -/
theorem pushNext_activated :
    let m := min 16 (min x.count.toNat (g.len - (s.lineOf x).head))
    pushNext r x 0 (activated r s) = withEng r { s.eng[r] with
      state := .active, exec := some ⟨x, .pushing 0 m⟩, rd := some (s.hostRead x.addr (m * g.fmt.bytes)) } s := by
  have hl : (activated r s).lineOf x = s.lineOf x := rfl
  have haddr : Addr.plus x.addr 0 = x.addr := BitVec.add_zero _
  unfold pushNext
  dsimp only
  rw [issueRead_activated hx, hl, burstSize, Line.len_eq hg, Line.sampleBytes_eq hg, Nat.zero_mul, haddr]
  rfl

/-- A STEP begins with the host read of its first input chunk (R87). -/
theorem beginStep_activated (hn : 1 ≤ x.count.toNat) : beginStep r x (activated r s) = withEng r { s.eng[r] with
    state := .active
    exec := some ⟨x, .stepping { committed := 0, written := 0, inputs := [], chunks := 1, stage := .ready, buf := [],
                                 unfCur := 0, unfWr := 0, unfDone := 0, rdFailed := false, wrFailed := false }⟩
    rd := some (s.hostRead x.addr (min 16 x.count.toNat * g.fmt.bytes)) } s := by
  have hl : (activated r s).lineOf x = s.lineOf x := rfl
  have haddr : Addr.plus x.addr 0 = x.addr := BitVec.add_zero _
  unfold beginStep issueInput
  dsimp only
  rw [if_pos (show 16 * 0 < x.count.toNat from hn), issueRead_activated hx, hl, Line.sampleBytes_eq hg, Nat.mul_zero,
    Nat.zero_mul, haddr]
  rfl

end

/-- The lock held by one writer, those that wait being as they were (R43). -/
def Lock.written (r : Ring) (k : Lock) : Lock := { k with mode := .write, holders := [r] }

/-- A writer that is granted and whose command waits for its first host read: nothing more is granted (R43, R45). -/
theorem claimWriter_granted {s : State} {r : Ring} {l : LineIx} {e : Engine} (hm : s.lines[l].lock.mode = .none)
    (hs : s.lines[l].state = .live)
    (hb : beginGranted r (withLock l (s.lines[l].lock.written r) s) =
      withEng r e (withLock l (s.lines[l].lock.written r) s)) :
    claimWriter r l s = withEng r e (withLock l (s.lines[l].lock.written r) s) := by
  have hl : (withEng r e (withLock l (s.lines[l].lock.written r) s)).lines[l] =
    { s.lines[l] with lock := s.lines[l].lock.written r } := withLock_self _ _ _
  have hg : claimWriter r l s = grantStep l (beginGranted r (withLock l (s.lines[l].lock.written r) s)) := if_pos hm
  rw [hg, hb]
  exact grantStep_stays (by rw [hl, hs]) (.inr (by rw [hl]; rfl))

/-- Settles O25: the lock is taken by the one writer, and its command issues its first host read. -/
theorem writerGranted : Obligations.WriterGranted := by
  unfold Obligations.WriterGranted
  intro s r k x g h hm l e n l' granted
  obtain ⟨⟨⟨-, hx, hkind, -⟩, -, ⟨-, hlive, -⟩, hg, -⟩, hranges, -⟩ := id h
  obtain ⟨v, hv⟩ : ∃ v, v = withLock x.lineIx ((s.lineOf x).lock.written r) s := ⟨_, rfl⟩
  have hl : v.lineOf x = l' := by
    rw [hv]
    exact withLock_self _ _ _
  have hlg : (v.lineOf x).cfg = some g := by
    rw [hl]
    exact hg
  have hvx : v.eng[r].exec = some ⟨x, .fresh⟩ := by
    rw [hv]
    exact hx
  have writes : ∀ p len, beginGranted r v = withEng r { v.eng[r] with
      state := .active, exec := some ⟨x, p⟩, rd := some (v.hostRead x.addr len) } v →
      k ∈ [.push, .setTaps, .clear, .step] → exec (k.row r) s = .next (granted p len) := fun p len hb hk => by
    subst hv
    rw [h.exec_writer hk, claimWriter_granted hm hlive hb]
    rfl
  refine ⟨?_, ?_, ?_⟩
  · rintro rfl
    have hb := (beginGranted_push hvx hkind).trans (pushNext_activated hvx hlg)
    rw [hl] at hb
    exact writes _ _ hb (by simp)
  · rintro rfl hn
    refine writes _ _ ?_ (by simp)
    rw [beginGranted_setTaps hvx hkind, beginSetTaps, if_neg (Nat.ne_of_gt hn), issueRead_activated hvx]
  · rintro rfl
    exact writes _ _ ((beginGranted_step hvx hkind).trans (beginStep_activated hvx hlg hranges.1)) (by simp)

/-! ### Readers that are granted -/

/-- Ring `r` at its reader's progress `c`. -/
def inReader (r : Ring) (x : Record) (c : ReaderCtx) (s : State) : State :=
  withEng r { s.eng[r] with exec := some ⟨x, .reader c⟩ } s

theorem inReader_self (r : Ring) (x : Record) (c : ReaderCtx) (s : State) :
    (inReader r x c s).eng[r] = { s.eng[r] with exec := some ⟨x, .reader c⟩ } := withEng_self _ _ _

theorem inReader_inReader (r : Ring) (x : Record) (c d : ReaderCtx) (s : State) :
    withEng r { (inReader r x c s).eng[r] with exec := some ⟨x, .reader d⟩ } (inReader r x c s) = inReader r x d s := by
  rw [inReader_self, inReader, withEng_withEng]
  rfl

section
variable {s : State} {r : Ring} {x : Record} {g : LineCfg} {c : ReaderCtx}

/-- A reader with nothing in hand writes nothing (R81). -/
theorem writeChunk_of_nothing (hx : s.eng[r].exec = some ⟨x, .reader c⟩) (hb : c.buf = none) : writeChunk r s = s := by
  unfold writeChunk
  simp only [hx, hb]
  cases (s.lineOf x).cfg <;> rfl

/-- A reader whose chunk is being read asks for no other (R81). -/
theorem readChunk_of_reading (hx : s.eng[r].exec = some ⟨x, .reader c⟩) (hr : c.reading = true) :
    readChunk r s = s := by
  unfold readChunk
  simp only [hx, hr, Bool.true_or, if_true]
  cases (s.lineOf x).cfg <;> rfl

variable (hg : (s.lineOf x).cfg = some g) (hr : c.reading = false) (hb : c.buf = none)
include hg hr hb

/-- A reader that begins a chunk with filled offsets claims the store port for them (R77, R81). -/
theorem pumpReader_claims (hw : filled g c.snap.head c.snap.fill c.chunkOffs ≠ []) :
    pumpReader r (inReader r x c s) =
      claimPort r (.read (filled g c.snap.head c.snap.fill c.chunkOffs))
        (inReader r x { c with reading := true } s) := by
  have hx := congrArg Engine.exec (inReader_self r x c s)
  have hoffs : c.chunkOffs ≠ [] := fun h => hw (by rw [h]; rfl)
  obtain ⟨u, hu⟩ : ∃ u, u = claimPort r (.read (filled g c.snap.head c.snap.fill c.chunkOffs))
      (inReader r x { c with reading := true } s) := ⟨_, rfl⟩
  have hread : readChunk r (inReader r x c s) = u := by
    refine (readChunk_next hx hg hr hb).trans ?_
    rw [if_neg hoffs, if_neg hw, hu]
    dsimp only
    rw [inReader_inReader]
    rfl
  have hself : u.eng[r].exec = some ⟨x, .reader { c with reading := true }⟩ := by
    rw [hu, (claimPort_kept r _ _).get, inReader_self]
  unfold pumpReader
  rw [hread, writeChunk_of_nothing hself hb, readChunk_of_reading hself rfl, hu]

/-- A reader that begins a chunk with no filled offset writes its zeros at once, and reads ahead (R77, R81; log 23). -/
theorem pumpReader_zeros (hoffs : c.chunkOffs ≠ []) (hw : filled g c.snap.head c.snap.fill c.chunkOffs = [])
    (hwr : s.eng[r].wr = none) :
    pumpReader r (inReader r x c s) = writesChunk r x g c (c.chunkOffs.map fun _ => 0#32) s := by
  have hx := congrArg Engine.exec (inReader_self r x c s)
  have hread : readChunk r (inReader r x c s) = resultsCame r x c (c.chunkOffs.map fun _ => 0#32) s := by
    refine (readChunk_next hx hg hr hb).trans ?_
    rw [if_neg hoffs, if_pos hw]
    dsimp only
    rw [inReader_inReader, resultsCame, ← hr]
    rfl
  have hcame := congrArg Engine.exec (resultsCame_self r x c (c.chunkOffs.map fun _ => 0#32) s)
  rw [← pumpReader_writes hg hwr]
  unfold pumpReader
  rw [hread, readChunk_of_buf hcame rfl]

end

theorem spanOffsets_length (d n : Nat) : (spanOffsets d n).length = n := by
  induction n with
  | zero => rfl
  | succ n ih => rw [spanOffsets, List.length_cons, ih]

/-- Result `i` of a READ SPAN is at offset `d + n - 1 - i` (R79). -/
theorem spanOffsets_getElem? (d : Nat) {n i : Nat} (hi : i < n) : (spanOffsets d n)[i]? = some (d + n - 1 - i) := by
  induction n generalizing i with
  | zero => exact absurd hi (Nat.not_lt_zero i)
  | succ n ih =>
    cases i with
    | zero => rfl
    | succ i =>
      rw [spanOffsets, List.getElem?_cons_succ, ih (by omega)]
      congr 1
      omega

theorem eq_spanOffsets {d n : Nat} {offs : List Nat} (hlen : offs.length = n)
    (h : ∀ i < n, offs[i]? = some (d + n - 1 - i)) : offs = spanOffsets d n := by
  refine List.ext_getElem? fun i => ?_
  by_cases hi : i < n
  · rw [h i hi, spanOffsets_getElem? d hi]
  · rw [List.getElem?_eq_none (by omega), List.getElem?_eq_none (by rw [spanOffsets_length]; omega)]

/-- The lock held by the readers it had and one more (R42). -/
def Lock.shared (r : Ring) (k : Lock) : Lock := { k with mode := .read, holders := k.holders ++ [r] }

theorem claimReader_granted {s : State} {r : Ring} {x : Record} (hm : (s.lineOf x).lock.mode ≠ .write)
    (hq : (s.lineOf x).lock.queue = []) : claimReader r x.lineIx s =
      grantStep x.lineIx (beginGranted r (withLock x.lineIx ((s.lineOf x).lock.shared r) s)) := if_pos ⟨hm, hq⟩

/-- A reader that joins a lock and leaves it leaves it as it was. -/
theorem Lock.shared_leave {r : Ring} {k : Lock} (hl : k.Lawful) (hm : k.mode ≠ .write) (hq : k.queue = [])
    (hr : r ∉ k.holders) : (k.shared r).leave r = k := by
  have hleave := Lock.leave_holder (r := r) (k := k.shared r) (hs := k.holders) (hs' := []) rfl
    (by simpa using hr) (by simp [Lock.shared, hq])
  rw [hleave]
  obtain ⟨mode, holders, queue⟩ := k
  cases mode with
  | none =>
    obtain rfl : holders = [] := hl
    rfl
  | read =>
    have hl : holders ≠ [] := hl
    simp [Lock.shared, hl]
  | write => exact absurd rfl hm

/-- A GATHER of an empty tap list joins the holders, ends and leaves (R77; log 39). -/
theorem gatherNothing_ended {s : State} {r : Ring} {x : Record} (hx : Executes r x s)
    (hk : Kind.ofCode x.kind = some .gather) (ht : (s.lineOf x).taps = []) (hq : (s.lineOf x).lock.queue = [])
    (hl : (s.lineOf x).lock.Lawful) (hm : (s.lineOf x).lock.mode ≠ .write) (hr : r ∉ (s.lineOf x).lock.holders) :
    Ended r x (about .ok x (s.lineOf x) 0 0 (s.lineOf x).seq) s
      (beginGranted r (withLock x.lineIx ((s.lineOf x).lock.shared r) s)) := by
  obtain ⟨v, hv⟩ : ∃ v, v = withLock x.lineIx ((s.lineOf x).lock.shared r) s := ⟨_, rfl⟩
  have hline : v.lineOf x = { s.lineOf x with lock := (s.lineOf x).lock.shared r } := by
    rw [hv]
    exact withLock_self _ _ _
  have hleft : leaveLock r x.lineIx v = s := by
    have hlines : (leaveLock r x.lineIx v).lines =
        s.lines.set x.lineIx { v.lineOf x with lock := (v.lineOf x).lock.leave r } := by
      rw [hv]
      exact vset_vset _ _ _ _
    rw [hline, Lock.shared_leave hl hm hq hr] at hlines
    have hsame := hlines.trans (vset_same s.lines x.lineIx)
    have hframe : leaveLock r x.lineIx v = { s with lines := (leaveLock r x.lineIx v).lines } := by
      rw [hv]
      rfl
    rw [hframe, hsame]
  have hvx : v.eng[r].exec = some ⟨x, .fresh⟩ := by
    rw [hv]
    exact hx
  have hend : beginGranted r v = endCommand r (about .ok x (s.lineOf x) 0 0 (s.lineOf x).seq) (activated r s) := by
    have htaps : (v.lineOf x).taps = [] := by rw [hline, ht]
    have hact : leaveLock r x.lineIx (activated r v) = activated r (leaveLock r x.lineIx v) := rfl
    have hres : (activated r v).lineOf x = v.lineOf x := rfl
    rw [beginGranted_gather hvx hk, htaps, beginReader, if_pos List.isEmpty_nil, hact, hleft, hres, hline]
    rfl
  rw [← hv, hend]
  have hs : activated r s = shown r .active s.eng[r].exec s := updEng_congr rfl
  rw [hs]
  have hsx : (shown r .active s.eng[r].exec s).eng[r].exec = some ⟨x, .fresh⟩ := by rw [shown_self, hx]
  exact (endCommand_ended hsx _).of_shown

/-- A reader with results to come takes its snapshot and begins its first chunk (R46, R76, R79). -/
theorem beginReader_pumps {s : State} {r : Ring} {x : Record} {p : Phase} (hx : s.eng[r].exec = some ⟨x, p⟩)
    {offs : List Nat} (hne : offs ≠ []) : beginReader r x offs s = pumpReader r (inReader r x {
      snap := ⟨(s.lineOf x).head, (s.lineOf x).fill, (s.lineOf x).seq⟩, offs := offs, chunk := 0, reading := false
      buf := none, done := 0, failed := false } s) := by
  unfold beginReader
  dsimp only
  rw [if_neg (by simpa using hne), setPhase_eq hx]
  rfl

/-- Settles O28: the reader joins the holders, and its first chunk is claimed at the port, or written at once. -/
theorem readerGranted : Obligations.ReaderGranted := by
  unfold Obligations.ReaderGranted
  constructor
  · intro s r x g h ht hq hl hm hr
    obtain ⟨⟨⟨-, hx, hkind, -⟩, -, ⟨-, hlive, -⟩, -⟩, -⟩ := id h
    have hend := gatherNothing_ended hx hkind ht hq hl hm hr
    have hexec := (h.exec_reader (by simp)).trans (congrArg _ (claimReader_granted hm hq))
    have hlines : (beginGranted r (withLock x.lineIx ((s.lineOf x).lock.shared r) s)).lines = s.lines := by
      rw [hend.2.1]
    rw [grantStep_stays (by rw [hlines]; exact hlive) (.inl (by rw [hlines]; exact hq))] at hexec
    exact ⟨_, hexec, hend⟩
  · intro s r k x g offs h hm hq hne hwr hoffs l l' ws c
    obtain ⟨⟨⟨-, hx, hkind, -⟩, -, ⟨-, hlive, -⟩, hg, -⟩, -⟩ := id h
    have hk : k ∈ [.gather, .readSpan] := by
      obtain ⟨rfl, -⟩ | ⟨rfl, -⟩ := hoffs <;> simp
    have hexec := (h.exec_reader hk).trans (congrArg _ (claimReader_granted hm hq))
    obtain ⟨v, hv⟩ : ∃ v, v = withLock x.lineIx ((s.lineOf x).lock.shared r) s := ⟨_, rfl⟩
    have hl : v.lineOf x = l' := by
      rw [hv]
      exact withLock_self _ _ _
    have hvx : v.eng[r].exec = some ⟨x, .fresh⟩ := by
      rw [hv]
      exact hx
    have hbegin : beginGranted r v = beginReader r x offs (activated r v) := by
      obtain ⟨rfl, rfl⟩ | ⟨rfl, hlen, hget⟩ := hoffs
      · rw [beginGranted_gather hvx hkind, hl]
      · rw [beginGranted_readSpan hvx hkind, ← eq_spanOffsets hlen hget]
    have hpump : beginGranted r v = pumpReader r (inReader r x { c with reading := false } (activated r v)) := by
      have hact : (activated r v).lineOf x = l' := hl
      rw [hbegin, beginReader_pumps (activated_exec hvx) hne, hact]
    have hlines : (beginGranted r v).lines[x.lineIx] = l' := by
      rw [hpump, pumpReader_lines]
      exact hl
    rw [← hv, grantStep_stays (by rw [hlines]; exact hlive) (.inl (by rw [hlines]; exact hq)), hpump] at hexec
    have hag : ((activated r v).lineOf x).cfg = some g := (congrArg Line.cfg hl).trans hg
    have hchunk : ({ c with reading := false } : ReaderCtx).chunkOffs = offs.take 16 := rfl
    subst hv
    refine ⟨fun hw => ?_, fun hw => ?_⟩
    · rw [hexec, pumpReader_claims (c := { c with reading := false }) hag rfl rfl hw, inReader, withEng_activated,
        activated_self]
      rfl
    · rw [hexec, pumpReader_zeros (c := { c with reading := false }) hag rfl rfl
        (by rw [hchunk]; simpa using hne) hw (by rw [activated_self]; exact hwr)]
      rfl

end Sys2Proof.Machine
end

section
/-! How a ring that was told to stop stops at its commit boundary (R50, R112, R115, R116, R151, R160). -/

namespace Sys2Proof.Machine

theorem updEng_self (r : Ring) (f : Engine → Engine) (s : State) : (s.updEng r f).eng[r] = f s.eng[r] := vset_self _ _ _

/-! ### The pacing state is discarded whatever else the engine holds -/

section
variable {r : Ring} {s : State} {f : Engine → Engine} (hhead : (f s.eng[r]).head = s.eng[r].head)

include hhead

theorem issueRecord_updEng (q : CqIx) (c : Claim) :
    issueRecord q c (s.updEng r f) = (issueRecord q c s).updEng r f := by
  have hc : ∀ k : Ring, (s.updEng r f).eng[k].head = s.eng[k].head := fun k => by
    by_cases h : k = r
    · subst h
      rw [updEng_self, hhead]
    · rw [updEng_others h]
  unfold issueRecord
  rw [hc, State.updEng_cq]
  cases s.cq[q].cfg <;> rfl

theorem serveQueue_updEng (q : CqIx) : serveQueue q (s.updEng r f) = (serveQueue q s).updEng r f := by
  unfold serveQueue
  rw [State.updEng_cq, apply_ite (fun t => State.updEng t r f)]
  congr 1
  cases s.cq[q].queue with
  | nil => rfl
  | cons c cs => exact issueRecord_updEng (s := s.updCq q (fun x => { x with queue := cs })) hhead q c

theorem withdrawClaims_updEng (q : CqIx) (p : Claim → Bool) :
    withdrawClaims q p (s.updEng r f) = (withdrawClaims q p s).updEng r f := by
  unfold withdrawClaims
  rw [State.updEng_cq, apply_ite (fun t => State.updEng t r f)]
  congr 1
  exact serveQueue_updEng (s := s.updCq q (fun x => { x with queue := x.queue.filter (fun c => !p c) })) hhead q

variable (hcfg : (f s.eng[r]).cfg = s.eng[r].cfg)
include hcfg

theorem discardNotice_updEng : discardNotice r (s.updEng r f) = (discardNotice r s).updEng r f := by
  have comm : ∀ q h, (s.updEng r f).updCq q h = (s.updCq q h).updEng r f := fun _ _ => rfl
  have withdraw := fun q h => withdrawClaims_updEng (s := s.updCq q h) hhead q (Claim.isNoticeOf r)
  unfold discardNotice
  rw [updEng_self, hcfg]
  cases s.eng[r].cfg with
  | none => rfl
  | some g =>
    dsimp only
    rw [comm]
    exact withdraw g.cq _

theorem discardPacing_updEng : discardPacing r (s.updEng r f) = (discardPacing r s).updEng r f := by
  unfold discardPacing
  rw [discardNotice_updEng hhead hcfg]
  rfl

end

theorem discardPacing_get (r k : Ring) (s : State) : (discardPacing r s).eng[k] = s.eng[k] :=
  (discardPacing_kept r s).get k

/-! ### What a ring gives up -/

/-- A ring whose command is at no lock drops it, with its report if it had begun (R72, R116). -/
theorem unwind_unlocked {r : Ring} {s : State} {y : Record} {p : Phase} (hx : s.eng[r].exec = some ⟨y, p⟩)
    (hp : p.atLock = false) : unwind r s = s.updEng r (fun e => { e with
      state := .active, exec := none, staged := none
      report := if p = .fresh then e.report else some ⟨true, y.tag, y.line, y.gen, p.committed⟩ }) := by
  unfold unwind dropCommand
  rw [updEng_self]
  dsimp only
  rw [hx]
  dsimp only
  rw [if_neg (by simp [hp]), State.updEng_updEng, dropClaim_of_ne]
  rw [updEng_self]
  exact EngState.noConfusion

/-- A ring whose command is at a lock gives it up (R50, R116). -/
theorem unwind_locked {r : Ring} {s : State} {y : Record} {p : Phase} (hx : s.eng[r].exec = some ⟨y, p⟩)
    (hp : p.atLock = true) : unwind r s = GivenUp r y p.committed s := by
  have hfresh : p ≠ .fresh := fun h => by
    rw [h] at hp
    exact nomatch hp
  unfold unwind dropCommand
  rw [updEng_self]
  dsimp only
  rw [hx]
  dsimp only
  simp only [if_pos hp, if_neg hfresh, State.updEng_updEng]
  rw [dropClaim_of_ne]
  · rfl
  · rw [release_self, updEng_self]
    exact EngState.noConfusion

theorem givenUp_self (r : Ring) (y : Record) (n : Nat) (s : State) : (GivenUp r y n s).eng[r] = { s.eng[r] with
    state := .active, exec := none, staged := none, report := some ⟨true, y.tag, y.line, y.gen, n⟩ } :=
  (release_self _ _ _).trans (vset_self _ _ _)

/-! ### The stop -/

theorem tryStop_waits {r : Ring} {s : State} (hr : r ≠ 0) (hb : atBoundary r s = false) : tryStop r s = s := by
  unfold tryStop
  rw [if_neg hr, hb]
  cases s.eng[r].stop <;> rfl

/-- A ring under reset that is at its boundary: it is reset, or waits for its fetch (R115, R116; log 8). -/
theorem tryStop_reset {r : Ring} {s : State} (hr : r ≠ 0) (hs : s.eng[r].stop = some .ringReset)
    (hb : atBoundary r s = true) : tryStop r s = if (unwind r s).eng[r].fetch.isSome then discardPacing r (unwind r s)
      else finishReset r (discardPacing r (unwind r s)) := by
  unfold tryStop
  rw [if_neg hr, hs]
  dsimp only
  rw [if_pos hb, if_neg StopCause.noConfusion, discardPacing_get]

/-- RE0 goes on with the report of the reset ring, whatever its engine held besides (R116, R160, R161). -/
theorem finishReset_reports {r : Ring} {s u v : State} {x : Record} (hr : r ≠ 0) (hd : PacingDiscarded r s v)
    (hu : u.updEng r (fun _ => Engine.resetValue) = v.updEng r (fun _ => Engine.resetValue))
    (hx : u.eng[(0 : Ring)].exec = some ⟨x, .resetWait r⟩) :
    let rep := u.eng[r].report.getD .nothing
    ResetEnds r x (resetReport rep.aborted rep.line rep.gen rep.count u.eng[r].head rep.tag) s (finishReset r u) := by
  intro rep
  have hx' : (u.updEng r (fun _ => Engine.resetValue)).eng[(0 : Ring)].exec = some ⟨x, .resetWait r⟩ := by
    rw [updEng_others hr.symm]
    exact hx
  have hres : resetResult rep u.eng[r].head =
      resetReport rep.aborted rep.line rep.gen rep.count u.eng[r].head rep.tag := by
    unfold resetResult resetReport
    rw [BitVec.ofNat_toNat]
  have hend : finishReset r u = endControl (resetReport rep.aborted rep.line rep.gen rep.count u.eng[r].head rep.tag)
      (u.updEng r (fun _ => Engine.resetValue)) := by
    unfold finishReset targetStopped
    dsimp only
    rw [hx', hres]
    exact if_pos rfl
  refine ⟨u.updEng r (fun _ => Engine.resetValue), ⟨v, hd, hu⟩, ?_⟩
  rw [hend]
  exact endControl_cases hx' _

/-- A ring under reset that gives up no more than its engine shows (R115, R116, R151). -/
theorem tryStop_resets {r : Ring} {s : State} {f : Engine → Engine} (hr : r ≠ 0)
    (hs : s.eng[r].stop = some .ringReset) (hb : atBoundary r s = true) (hu : unwind r s = s.updEng r f)
    (hf : (f s.eng[r]).head = s.eng[r].head ∧ (f s.eng[r]).cfg = s.eng[r].cfg ∧ (f s.eng[r]).fetch = s.eng[r].fetch) :
    (s.eng[r].fetch.isSome → PacingDiscarded r (s.updEng r f) (tryStop r s)) ∧
    ∀ x, s.eng[r].fetch = none → s.eng[(0 : Ring)].exec = some ⟨x, .resetWait r⟩ →
      let rep := (f s.eng[r]).report.getD .nothing
      ResetEnds r x (resetReport rep.aborted rep.line rep.gen rep.count s.eng[r].head rep.tag) s (tryStop r s) := by
  obtain ⟨hhead, hcfg, hfetch⟩ := hf
  have hstop := tryStop_reset hr hs hb
  rw [hu, updEng_self, hfetch] at hstop
  constructor
  · intro h
    rw [hstop, if_pos h]
    exact discardPacing_discarded r _
  · intro x h hx rep
    rw [h] at hstop
    have hself : (discardPacing r (s.updEng r f)).eng[r] = f s.eng[r] :=
      (discardPacing_get _ _ _).trans (updEng_self _ _ _)
    have hsame : (discardPacing r (s.updEng r f)).updEng r (fun _ => Engine.resetValue) =
        (discardPacing r s).updEng r (fun _ => Engine.resetValue) := by
      rw [discardPacing_updEng hhead hcfg, State.updEng_updEng]
    have hx0 : (discardPacing r (s.updEng r f)).eng[(0 : Ring)].exec = some ⟨x, .resetWait r⟩ := by
      rw [discardPacing_get, updEng_others hr.symm, hx]
    have hend := finishReset_reports hr (discardPacing_discarded r s) hsame hx0
    rw [hself, hhead] at hend
    rw [hstop]
    exact hend

/-- A ring that was told to stop and whose command is at a lock stops it (R50, R112, R115, R116). RE0's RESET RING must
still wait behind the grants that follow. -/
theorem tryStop_stopsCommand {r : Ring} {s : State} {y : Record} {p : Phase} (hr : r ≠ 0) (hat : AtRest r s)
    (hw : s.eng[r].state ≠ .waitCq) (hx : s.eng[r].exec = some ⟨y, p⟩) (hp : p.atLock = true)
    (hkeep : ∀ x, s.eng[(0 : Ring)].exec = some ⟨x, .resetWait r⟩ →
      (GivenUp r y p.committed s).eng[(0 : Ring)].exec = some ⟨x, .resetWait r⟩) :
    StopsCommand r y p.committed s (tryStop r s) := by
  have hb : atBoundary r s = true := by
    rw [atBoundary_iff, hx]
    exact ⟨hat, fun h => hw h.1, fun x h => by cases h; exact Phase.not_waitsForBlock hp⟩
  have hself := givenUp_self r y p.committed s
  have hreset := fun h => tryStop_reset hr h hb
  rw [unwind_locked hx hp, hself] at hreset
  refine ⟨fun h => ?_, fun h hf => ?_, fun x h hf hx0 => ?_⟩
  · rw [tryStop_noticeHalt hr h, if_pos hb, unwind_locked hx hp, halt_eq]
  · rw [hreset h, if_pos hf]
    exact discardPacing_discarded r _
  · have hend := finishReset_reports (x := x) hr (discardPacing_discarded r (GivenUp r y p.committed s)) rfl
      (by rw [discardPacing_get, hkeep x hx0])
    rw [discardPacing_get, hself] at hend
    rw [hreset h, hf]
    exact hend

end Sys2Proof.Machine
end

section
/-! RESET RING, by what it finds its ring at (R50, R72, R115, R116, R130, R151, R159 to R162). -/

namespace Sys2Proof.Machine

/-! ### RE0's command while another ring leaves a lock -/

/-- RE0's RESET RING `x` waits for ring `t` to stop. -/
def AwaitsReset (x : Record) (t : Ring) (s : State) : Prop :=
  s.eng[(0 : Ring)].exec = some ⟨x, .resetWait t⟩ ∧ Kind.ofCode x.kind = some .resetRing

namespace AwaitsReset
variable {x : Record} {t : Ring} {s u : State}

theorem of_zero (h : AwaitsReset x t s) (hu : u.eng[(0 : Ring)] = s.eng[(0 : Ring)]) : AwaitsReset x t u :=
  ⟨(congrArg Engine.exec hu).trans h.1, h.2⟩

/-- A grant to ring 0, whose command is no line command, would only make its engine ACTIVE. -/
theorem grantWaiter (h : AwaitsReset x t s) (k : Ring) : AwaitsReset x t (Machine.grantWaiter k s) := by
  by_cases hk : k = 0
  · subst hk
    have hbegin : beginGranted 0 s = activated 0 s := by
      simp only [beginGranted, h.1, h.2]
      rfl
    rw [grantWaiter_free fun hm => hm.2.1 rfl, hbegin]
    exact ⟨activated_exec h.1, h.2⟩
  · exact h.of_zero (grantWaiter_others (Ne.symm hk) s)

theorem endClose (h : AwaitsReset x t s) (l : LineIx) : AwaitsReset x t (Machine.endClose l s) := by
  obtain he | ⟨w, -, c, q, hw, he⟩ := endClose_cases l s
  · rw [he]
    exact h
  · obtain ⟨k, kind⟩ := w
    have h0 : (0 : Ring) ≠ k := fun h0 => by
      subst h0
      exact nomatch hw.symm.trans h.1
    rw [he]
    exact h.of_zero (endCommand_others h0 _ _)

theorem grantLoop (h : AwaitsReset x t s) (n : Nat) (l : LineIx) : AwaitsReset x t (Machine.grantLoop n l s) := by
  induction n generalizing s with
  | zero => exact h
  | succ n ih =>
    have grant : ∀ k f, AwaitsReset x t (Machine.grantLoop n l (Machine.grantWaiter k (s.updLine l f))) := fun k f =>
      ih (AwaitsReset.grantWaiter (s := s.updLine l f) h k)
    unfold Machine.grantLoop
    dsimp only
    split
    · exact h.endClose l
    · split
      · exact h
      · split
        · exact grant _ _
        · exact grant _ _
        · exact grant _ _
        · exact h

theorem givenUp (h : AwaitsReset x t s) {r : Ring} (hr : r ≠ 0) (y : Record) (n : Nat) :
    AwaitsReset x t (GivenUp r y n s) := by
  have h' : AwaitsReset x t { s with eng := s.eng.set r { s.eng[r] with
      state := .active, exec := none, staged := none, report := some ⟨true, y.tag, y.line, y.gen, n⟩ } } :=
    h.of_zero (updEng_others hr.symm (fun e => { e with
      state := .active, exec := none, staged := none, report := some ⟨true, y.tag, y.line, y.gen, n⟩ }) s)
  exact AwaitsReset.grantLoop (s := leaveLock r y.lineIx _) h' _ _

end AwaitsReset

/-! ### The ring is told -/

/-- RE0 has told ring `r` to stop for its RESET RING `x`, and waits (R159, R160). -/
def resetTold (r : Ring) (x : Record) (s : State) : State :=
  Told r .ringReset { s with eng := s.eng.set 0 { s.eng[(0 : Ring)] with exec := some ⟨x, .resetWait r⟩ } }

section
variable {s : State} {r : Ring} {x : Record} (hr : r ≠ 0)
include hr

theorem resetTold_self : (resetTold r x s).eng[r] = { s.eng[r] with stop := some .ringReset } := by
  have hothers := updEng_others hr (fun e => { e with exec := some ⟨x, .resetWait r⟩ }) s
  have hself : (resetTold r x s).eng[r] =
    { (s.updEng 0 (fun e => { e with exec := some ⟨x, .resetWait r⟩ })).eng[r] with stop := some .ringReset } :=
    vset_self _ _ _
  rw [hself, hothers]

theorem resetTold_zero : (resetTold r x s).eng[(0 : Ring)].exec = some ⟨x, .resetWait r⟩ := by
  have hothers := updEng_others hr.symm (fun e => { e with stop := some .ringReset })
    (s.updEng 0 (fun e => { e with exec := some ⟨x, .resetWait r⟩ }))
  rw [updEng_self] at hothers
  exact congrArg Engine.exec hothers

theorem atRest_resetTold : AtRest r (resetTold r x s) ↔ AtRest r s := by
  unfold AtRest
  rw [resetTold_self hr]
  rfl

theorem beingWritten_resetTold : beingWritten r (resetTold r x s) = beingWritten r s := by
  unfold beingWritten
  rw [resetTold_self hr]
  rfl

theorem exec_resetRing (h : BeginsControl .resetRing x s) (ha : x.paramA.toNat = r.val) :
    exec .resetRing s = .next (tryStop r (resetTold r x s)) := by
  obtain ⟨hnames, hring⟩ : x.namesLineRing = true ∧ x.ringA = r := by
    have := r.isLt
    have : r.val ≠ 0 := fun h => hr (Fin.ext h)
    simp only [Record.namesLineRing, Record.ringA, ha, Fin.ext_iff, Fin.ofNat, Bool.and_eq_true, decide_eq_true_eq]
    omega
  have hexec : exec .resetRing s = .next (resetRing x s) := exec_control h (by simp [refuseIf, hnames])
  obtain ⟨-, hx, -⟩ := h
  rw [hexec, resetRing, hring, setPhase_eq hx]
  rfl

end

theorem withdrawn_command {q : CqIx} {r : Ring} (s : State) :
    Withdrawn q (fun c => c.ring = r ∧ c.notice = false) s (withdrawClaims q (Claim.isCommandOf r) s) := by
  simpa [Withdrawn, Claim.isCommandOf] using withdrawClaims_withdrawn q (Claim.isCommandOf r) s

theorem beingWritten_iff {r : Ring} {s : State} {g : RingCfg} (hg : s.eng[r].cfg = some g) :
    beingWritten r s = true ↔ ∃ w, s.cq[g.cq].inflight = some w ∧ w.claim.ring = r ∧ w.claim.notice = false := by
  unfold beingWritten
  rw [hg]
  dsimp only
  cases s.cq[g.cq].inflight <;> simp [Claim.isCommandOf]

/-- The ring in WAIT_CQ, its claim not being written: the claim is withdrawn (R115, R130). -/
theorem tryStop_withdraws {r : Ring} {s : State} {x : Record} {g : RingCfg} (hr : r ≠ 0)
    (hs : s.eng[r].stop = some .ringReset) (hb : atBoundary r s = true) (hx : s.eng[r].exec = none)
    (hw : s.eng[r].state = .waitCq) (hg : s.eng[r].cfg = some g) (hrep : s.eng[r].report = none)
    (h0 : s.eng[(0 : Ring)].exec = some ⟨x, .resetWait r⟩) :
    ∃ u, Withdrawn g.cq (fun c => c.ring = r ∧ c.notice = false)
        { s with eng := s.eng.set r { s.eng[r] with state := .active, staged := none } } u ∧
      (s.eng[r].fetch.isSome → PacingDiscarded r u (tryStop r s)) ∧
      (s.eng[r].fetch = none →
        ResetEnds r x (resetReport false 0 0 0 s.eng[r].head 0) u (tryStop r s)) := by
  have hu := unwind_waitCq hg hx hw
  have hget : ∀ k : Ring, (unwind r s).eng[k] =
      (s.updEng r (fun e => { e with staged := none, state := .active })).eng[k] :=
    fun k => by rw [hu, (withdrawClaims_kept _ _ _).get]
  have hstop := tryStop_reset hr hs hb
  rw [hget, updEng_self] at hstop
  refine ⟨unwind r s, ?_, fun hf => ?_, fun hf => ?_⟩
  · rw [hu]
    exact withdrawn_command _
  · rw [hstop, if_pos hf]
    exact discardPacing_discarded r _
  · have hend := finishReset_reports (x := x) hr (discardPacing_discarded r (unwind r s)) rfl
      (by rw [discardPacing_get, hget, updEng_others hr.symm, h0])
    rw [discardPacing_get, hget, updEng_self, hrep] at hend
    rw [hstop, hf]
    exact hend

/-- Settles O45: the ring has been told, and what its engine holds decides where `tryStop` leaves it. -/
theorem resetRingStops : Obligations.ResetRingStops := by
  unfold Obligations.ResetRingStops
  intro s x r hr _ hrep h ha e re0 told stopped bare
  have hexec : exec .resetRing s = .next (tryStop r told) := exec_resetRing hr h ha
  have hself : told.eng[r] = { e with stop := some .ringReset } := resetTold_self hr
  obtain ⟨-, -, hkind, -⟩ := h
  have hwait : AwaitsReset x r told := ⟨resetTold_zero hr, hkind⟩
  have hat : AtRest r told ↔ AtRest r s := atRest_resetTold hr
  have hbw : beingWritten r told = beingWritten r s := beingWritten_resetTold hr
  have hstop : told.eng[r].stop = some .ringReset := by rw [hself]
  have hreport : told.eng[r].report = none := by rw [hself]; exact hrep
  clear_value told
  have boundary : AtRest r s → ¬ (e.state = .waitCq ∧ beingWritten r s = true) →
      (∀ y, e.exec = some y → y.phase.waitsForBlock = false) → atBoundary r told = true := fun h hw hx => by
    rw [atBoundary_iff, hself, hbw]
    exact ⟨hat.mpr h, hw, hx⟩
  have resets : ∀ (f : Engine → Engine) (rep : StopReport), AtRest r s → e.state ≠ .waitCq →
      (∀ y, e.exec = some y → y.phase.waitsForBlock = false) → unwind r told = told.updEng r f →
      (f told.eng[r]).head = told.eng[r].head ∧ (f told.eng[r]).cfg = told.eng[r].cfg ∧
        (f told.eng[r]).fetch = told.eng[r].fetch →
      (f told.eng[r]).report.getD .nothing = rep →
      (e.fetch = none → ∃ t, exec .resetRing s = .next t ∧
        ResetEnds r x (resetReport rep.aborted rep.line rep.gen rep.count e.head rep.tag) told t) ∧
      (e.fetch.isSome → ∃ t, exec .resetRing s = .next t ∧ PacingDiscarded r (told.updEng r f) t) := by
    rintro f rep h hw hx hu hf rfl
    obtain ⟨hfetching, hreset⟩ := tryStop_resets hr hstop (boundary h (fun h => hw h.1) hx) hu hf
    have hfetch : told.eng[r].fetch = e.fetch := by rw [hself]
    have hhead : told.eng[r].head = e.head := by rw [hself]
    rw [hfetch] at hfetching hreset
    rw [hhead] at hreset
    exact ⟨fun hn => ⟨_, hexec, hreset x hn hwait.1⟩, fun hn => ⟨_, hexec, hfetching hn⟩⟩
  have locked : ∀ y p, AtRest r s → e.exec = some ⟨y, p⟩ → e.state ≠ .waitCq → p.atLock = true →
      stopped y p.committed := fun y p h hx hw hp => by
    refine ⟨_, hexec, tryStop_stopsCommand hr (hat.mpr h) (by rwa [hself]) (by rw [hself]; exact hx) hp fun z hz => ?_⟩
    exact hz ▸ (hwait.givenUp hr y p.committed).1.trans hwait.1.symm
  refine ⟨fun h hx hw => ?_, fun g h hx hw hg => ⟨fun hi => ?_, fun hi => ?_⟩, fun y h => ⟨fun hx hw => ?_,
    fun q hx hw => ?_, fun hx hw => ?_, fun hx hw => ?_, fun done m hx hw => ?_, fun c hx hw => ?_, fun c hx hw => ?_,
    fun hx hw => ?_⟩, fun h => ?_⟩
  · exact resets (fun e => { e with staged := none }) .nothing h hw (fun y hy => nomatch hx.symm.trans hy)
      (unwind_none (by rwa [hself]) (by rwa [hself])) ⟨rfl, rfl, rfl⟩ (by simp only [hreport, Option.getD_none])
  · rw [hexec, tryStop_waits hr]
    rw [Bool.eq_false_iff, ne_eq, atBoundary_iff, hself, hbw]
    exact fun hb => hb.2.1 ⟨hw, (beingWritten_iff hg).mpr hi⟩
  · have hb := boundary h (fun hb => by
      obtain ⟨w, hw, hc⟩ := (beingWritten_iff hg).mp hb.2
      exact hi w hw hc) (fun y hy => nomatch hx.symm.trans hy)
    have hend := tryStop_withdraws hr hstop hb (by rwa [hself]) (by rwa [hself]) (g := g) (by rwa [hself])
      hreport hwait.1
    rw [hself] at hend
    obtain ⟨u, hu, hfetching, hreset⟩ := hend
    refine ⟨u, _, hexec, ?_, hfetching, hreset⟩
    rw [hself]
    exact hu
  · exact locked y .waitLock h hx (by simp [hw]) rfl
  · exact locked y (.waitClose q) h hx (by simp [hw]) rfl
  · exact locked y .granted h hx (by simp [hw]) rfl
  · have hu := unwind_unlocked (r := r) (s := told) (y := y) (p := .fresh) (by rw [hself]; exact hx) rfl
    refine resets (fun e => { e with exec := none, staged := none }) .nothing h (by simp [hw])
      (fun z hz => ?_) (hu.trans (updEng_congr ?_)) ⟨rfl, rfl, rfl⟩ (by simp only [hreport, Option.getD_none])
    · cases hx.symm.trans hz
      rfl
    · rw [hself, hw, if_pos rfl]
  · exact locked y (.pushing done m) h hx (by simp [hw]) rfl
  · exact locked y (.stepping c) h hx (by simp [hw]) rfl
  · exact locked y (.reader c) h hx (by simp [hw]) rfl
  · have hu := unwind_unlocked (r := r) (s := told) (y := y) (p := .waitFrame) (by rw [hself]; exact hx) rfl
    refine resets (fun e => { e with
      state := .active, exec := none, staged := none, report := some ⟨true, y.tag, y.line, y.gen, 0⟩ })
      ⟨true, y.tag, y.line, y.gen, 0⟩ h (by simp [hw]) (fun z hz => ?_) hu ⟨rfl, rfl, rfl⟩ rfl
    cases hx.symm.trans hz
    rfl
  · rw [hexec, tryStop_waits hr]
    rw [Bool.eq_false_iff, ne_eq, atBoundary_iff, hat]
    exact fun hb => h hb.1

end Sys2Proof.Machine
end

section
/-! The commit boundary: what a ring that was told to stop does at the end of a burst, a transfer or a fetch (R50, R66,
R84, R95, R112, R115, R116). -/

namespace Sys2Proof.Machine

/-! ### The rings at a lock are line rings -/

/-- A ring that is at no lock keeps its engine while another gives up its command (R44). -/
theorem givenUp_away {r k : Ring} {s : State} (h : Away k s) (hk : k ≠ r) (y : Record) (n : Nat) :
    (GivenUp r y n s).eng[k] = s.eng[k] := by
  unfold GivenUp release grantStep
  rw [grantLoop_others]
  · exact updEng_others hk (fun e => { e with
      state := .active, exec := none, staged := none, report := some ⟨true, y.tag, y.line, y.gen, n⟩ }) s
  · intro w hw he
    refine h y.lineIx (Lock.leave_rings r _ (Lock.mem_rings.mpr (.inr ⟨w, ?_, he⟩)))
    simpa [-Fin.getElem_fin, leaveLock] using hw

/-! ### The end of a burst or of a transfer -/

section
variable {s : State} {r : Ring} {y : Record} {p : Phase}

/-- What a burst or a transfer of a ring under way to a stop comes to: the stop, or nothing more (R50). -/
theorem orStop_told (hr : r ≠ 0) (hlaw : RingLaw s) (hs : s.eng[r].stop.isSome) (ha : s.eng[r].state = .active)
    (hx : s.eng[r].exec = some ⟨y, p⟩) (hp : p.atLock = true) (k : State → State) :
    (AtRest r s → StopsCommand r y p.committed s (orStop r k s)) ∧ (¬ AtRest r s → orStop r k s = s) := by
  have htry : orStop r k s = tryStop r s := if_pos hs
  rw [htry]
  refine ⟨fun hat => ?_, fun hat => tryStop_waits hr ?_⟩
  · refine tryStop_stopsCommand hr hat (by simp [-Fin.getElem_fin, ha]) hx hp fun x hx0 => ?_
    rw [givenUp_away hlaw.away_zero hr.symm, hx0]
  · rw [Bool.eq_false_iff, ne_eq, atBoundary_iff]
    exact fun hb => hat hb.1

/-- A row that ends in `orStop` (R50). -/
theorem exec_told {c : Instr} {u : State} (hexec : ∃ k, exec c s = .next (orStop r k u)) (hr : r ≠ 0) (hlaw : RingLaw u)
    (hs : u.eng[r].stop.isSome) (ha : u.eng[r].state = .active) (hx : u.eng[r].exec = some ⟨y, p⟩)
    (hp : p.atLock = true) :
    (AtRest r u → ∃ t, exec c s = .next t ∧ StopsCommand r y p.committed u t) ∧
      (¬ AtRest r u → exec c s = .next u) := by
  obtain ⟨k, hexec⟩ := hexec
  obtain ⟨hstops, hwaits⟩ := orStop_told hr hlaw hs ha hx hp k
  exact ⟨fun h => ⟨_, hexec, hstops h⟩, fun h => hexec.trans (congrArg _ (hwaits h))⟩

end

/-! ### Store bursts -/

/-- The arbiter grants the port to no ring that has no claim (R33). -/
theorem nextClaim_isSome {cls : RingClass} {mark : Nat} {s : State} {k : Ring} (h : nextClaim cls mark s = some k) :
    s.sc.claims[k].isSome = true := by
  have hk := List.find?_some (p := fun k : Ring => s.sc.claims[k].isSome && s.classOf k == some cls) h
  exact (Bool.and_eq_true_iff.mp hk).1

theorem grantPort_port {s : State} {k : Ring} {b : Burst} (h : s.sc.claims[k] = some b) :
    (grantPort k s).sc.port = .burst k b := by
  unfold grantPort
  rw [h]

theorem arbitrate_not_granted {s : State} {r : Ring} (hc : s.sc.claims[r] = none) (hi : s.sc.port = .idle) (b : Burst) :
    (arbitrate s).sc.port ≠ .burst r b := by
  have grant : ∀ (k : Ring) (sc : StoreCtl), s.sc.claims[k].isSome = true → sc.claims = s.sc.claims →
      (grantPort k { s with sc := sc }).sc.port ≠ .burst r b := by
    intro k sc hk hsc h
    obtain ⟨b', hb'⟩ := Option.isSome_iff_exists.mp hk
    rw [grantPort_port (s := { s with sc := sc }) (b := b') (by rw [hsc, hb'])] at h
    cases h
    exact nomatch hb'.symm.trans hc
  unfold arbitrate
  rw [if_neg (by simp [hi])]
  split
  · exact nofun
  · split
    · rename_i k hk
      exact grant k _ (nextClaim_isSome hk) rfl
    · split
      · rename_i k hk
        exact grant k _ (nextClaim_isSome hk) rfl
      · split
        · exact nofun
        · rw [hi]
          exact nofun

/-- Behind its burst a ring with no claim and no transfer is at rest (R31, R115). -/
theorem atRest_portFreed {r : Ring} {s : State} (hc : s.sc.claims[r] = none) :
    AtRest r (portFreed s) ↔ s.eng[r].rd = none ∧ s.eng[r].wr = none := by
  unfold AtRest
  rw [portFreed_engine]
  exact ⟨fun h => ⟨h.1, h.2.1⟩, fun h => ⟨h.1, h.2, arbitrate_not_granted hc rfl⟩⟩

theorem exec_storeBurstEnd_orStop {s u : State} {r : Ring} {b : Burst} (h : Released s) (hp : s.sc.port = .burst r b)
    (hb : ∀ a ∈ b.words, a < 8388608) (hu : burstEffect r b s = u) :
    exec .storeBurstEnd s = .next (orStop r (afterBurst r) (portFreed u)) := by
  have habsent : b.absentWord = none :=
    List.find?_eq_none.mpr fun a ha h => absurd (of_decide_eq_true h) (Nat.not_le.mpr (hb a ha))
  rw [exec_storeBurstEnd_next h hp habsent, ← hu]
  rfl

theorem RingLaw.portFreed {s : State} (h : RingLaw s) : RingLaw (portFreed s) :=
  h.units ((sc_kept s _).trans (arbitrate_kept _))

/-- The end of a burst of a ring that was told to stop (R50, R66, R84, R95; log 6). -/
theorem burstEnd_told {s u : State} {r : Ring} {b : Burst} {y : Record} {p : Phase} (hrel : Released s)
    (hlaw : RingLaw s) (hr : r ≠ 0) (hc : s.sc.claims[r] = none) (hs : s.eng[r].stop.isSome)
    (ha : s.eng[r].state = .active) (hport : s.sc.port = .burst r b) (hb : ∀ a ∈ b.words, a < 8388608)
    (hu : burstEffect r b s = u) (hself : u.eng[r] = { s.eng[r] with exec := some ⟨y, p⟩ }) (hsc : u.sc = s.sc)
    (hp : p.atLock = true) :
    (s.eng[r].rd = none ∧ s.eng[r].wr = none →
      ∃ t, exec .storeBurstEnd s = .next t ∧ StopsCommand r y p.committed (portFreed u) t) ∧
    (s.eng[r].rd.isSome ∨ s.eng[r].wr.isSome → exec .storeBurstEnd s = .next (portFreed u)) := by
  have hrest := atRest_portFreed (r := r) (s := u) (by rw [hsc, hc])
  have he := (portFreed_engine u r).trans hself
  obtain ⟨hstops, hwaits⟩ := exec_told (y := y) (p := p) ⟨_, exec_storeBurstEnd_orStop hrel hport hb hu⟩ hr
    (hu ▸ hlaw.burstEffect r b).portFreed (by rwa [he]) (by rwa [he]) (by rw [he]) hp
  rw [hrest, hself] at hstops hwaits
  refine ⟨hstops, fun h => hwaits fun hn => ?_⟩
  rw [hn.1, hn.2] at h
  simp at h

/-! ### Host reads -/

section
variable {s : State} {r : Ring} {y : Record} {rd : HostRead} (hrel : Released s) (hrd : s.eng[r].rd = some rd)
include hrel hrd

theorem exec_tapListReadFailed (hx : s.eng[r].exec = some ⟨y, .tapRead⟩) :
    ∃ k, exec (.tapListReadFailed r) s = .next (orStop r k (readOver r s)) := by
  show ∃ k, execTapListReadFailed r s = .next (orStop r k _)
  unfold execTapListReadFailed tapListReadFailed tapReader
  rw [whileReleased_eq hrel, hx, hrd]
  exact ⟨_, rfl⟩

theorem exec_pushSamplesReadFailed {n m : Nat} (hx : s.eng[r].exec = some ⟨y, .pushing n m⟩) :
    ∃ k, exec (.pushSamplesReadFailed r) s = .next (orStop r k (readOver r s)) := by
  show ∃ k, execPushSamplesReadFailed r s = .next (orStop r k _)
  unfold execPushSamplesReadFailed pushSamplesReadFailed pusher
  rw [whileReleased_eq hrel, hx, hrd]
  exact ⟨_, rfl⟩

theorem exec_stepInputReadFailed {c : StepCtx} (hx : s.eng[r].exec = some ⟨y, .stepping c⟩) :
    ∃ k, exec (.stepInputReadFailed r) s = .next (orStop r k (readOver r s)) := by
  show ∃ k, execStepInputReadFailed r s = .next (orStop r k _)
  unfold execStepInputReadFailed stepInputReadFailed stepper
  rw [whileReleased_eq hrel, hx, hrd]
  exact ⟨fun s => pumpStep r (s.setPhase r (.stepping { c with rdFailed := true })), rfl⟩

variable {bytes : List Byte} (hd : CanDeliver rd s) (hlen : rd.len = bytes.length)

omit hrel in
include hd hlen in
/-- HP can report the read as completed with these bytes (R182, R183). -/
theorem readCompletes_of : readCompletes r bytes s = true := by
  unfold readCompletes State.delivers
  rw [hrd]
  simp [hd.1, hd.2, hlen]

include hd hlen

theorem exec_tapListReadDone (hx : s.eng[r].exec = some ⟨y, .tapRead⟩) :
    ∃ k, exec (.tapListReadDone r bytes) s = .next (orStop r k (readOver r s)) := by
  show ∃ k, execTapListReadDone r bytes s = .next (orStop r k _)
  unfold execTapListReadDone tapReader
  rw [whileReleased_eq hrel, hx, readCompletes_of hrd hd hlen]
  exact ⟨_, rfl⟩

theorem exec_pushSamplesReadDone {n m : Nat} (hx : s.eng[r].exec = some ⟨y, .pushing n m⟩) :
    ∃ k, exec (.pushSamplesReadDone r bytes) s = .next (orStop r k (readOver r s)) := by
  show ∃ k, execPushSamplesReadDone r bytes s = .next (orStop r k _)
  unfold execPushSamplesReadDone pusher
  rw [whileReleased_eq hrel, hx, readCompletes_of hrd hd hlen]
  exact ⟨_, rfl⟩

theorem exec_stepInputReadDone {c : StepCtx} (hx : s.eng[r].exec = some ⟨y, .stepping c⟩) :
    ∃ k, exec (.stepInputReadDone r bytes) s = .next (orStop r k (readOver r s)) := by
  show ∃ k, execStepInputReadDone r bytes s = .next (orStop r k _)
  unfold execStepInputReadDone stepper
  rw [whileReleased_eq hrel, hx, readCompletes_of hrd hd hlen]
  exact ⟨_, rfl⟩

end

/-! ### Host writes -/

section
variable {s : State} {r : Ring} {y : Record} {w : HostWrite} (hrel : Released s) (hw : s.eng[r].wr = some w)
include hrel hw

theorem exec_resultWriteCompleted {p : Phase} (hc : CanComplete w s) (hx : s.eng[r].exec = some ⟨y, p⟩)
    (hp : (∃ c, p = .stepping c) ∨ ∃ c, p = .reader c) :
    ∃ k, exec (.resultWriteCompleted r) s = .next (orStop r k (writeOver r (writeReported w s))) := by
  show ∃ k, execResultWriteCompleted r s = .next (orStop r k _)
  unfold execResultWriteCompleted readerOf stepper
  rw [whileReleased_eq hrel, hw, hx]
  dsimp only
  rw [if_pos ((completes_iff s w).mpr hc)]
  obtain ⟨c, rfl⟩ | ⟨c, rfl⟩ := hp <;> exact ⟨_, rfl⟩

variable (hc : ¬ CanComplete w s)

omit hrel in
include hc in
theorem writeHasFailed_of : writeHasFailed r s = true := by
  have hfail : s.completes w = false := Bool.eq_false_iff.mpr fun h => hc ((completes_iff s w).mp h)
  unfold writeHasFailed
  rw [hw]
  dsimp only
  rw [hfail, Bool.not_false]

include hc

theorem exec_resultWriteFailed {c : ReaderCtx} (hx : s.eng[r].exec = some ⟨y, .reader c⟩) :
    ∃ k, exec (.resultWriteFailed r) s = .next (orStop r k (writeOver r s)) := by
  show ∃ k, execResultWriteFailed r s = .next (orStop r k _)
  unfold execResultWriteFailed readerOf
  rw [whileReleased_eq hrel, hx, writeHasFailed_of hw hc]
  exact ⟨_, rfl⟩

theorem exec_stepResultWriteFailed {c : StepCtx} (hx : s.eng[r].exec = some ⟨y, .stepping c⟩) :
    ∃ k, exec (.stepResultWriteFailed r) s = .next (orStop r k (writeOver r s)) := by
  show ∃ k, execStepResultWriteFailed r s = .next (orStop r k _)
  unfold execStepResultWriteFailed stepper
  rw [whileReleased_eq hrel, hx, writeHasFailed_of hw hc]
  exact ⟨_, rfl⟩

end

theorem writeOver_writeReported (r : Ring) (w : HostWrite) (s : State) :
    writeOver r (writeReported w s) = { writeReported w s with eng := s.eng.set r { s.eng[r] with wr := none } } := by
  unfold writeOver State.updEng
  rw [writeReported_eng]

/-! ### Transfers of a ring that was told to stop -/

section
variable {s : State} {r : Ring} {y : Record} {p : Phase} {c : Instr} (hlaw : RingLaw s) (hr : r ≠ 0)
  (hs : s.eng[r].stop.isSome) (ha : s.eng[r].state = .active) (hx : s.eng[r].exec = some ⟨y, p⟩) (hp : p.atLock = true)
include hlaw hr hs ha hx hp

/-- The end of a host read stops the ring, unless a write or a burst is under way (R50, R66, R95). -/
theorem readEnd_told (hexec : ∃ k, exec c s = .next (orStop r k (readOver r s))) :
    (s.eng[r].wr = none → (∀ b, s.sc.port ≠ .burst r b) →
      ∃ t, exec c s = .next t ∧ StopsCommand r y p.committed (readOver r s) t) ∧
    (s.eng[r].wr.isSome ∨ (∃ b, s.sc.port = .burst r b) → exec c s = .next (readOver r s)) := by
  have hself : (readOver r s).eng[r] = { s.eng[r] with rd := none } := updEng_self _ _ _
  obtain ⟨hstops, hwaits⟩ := exec_told (y := y) (p := p) hexec hr (hlaw.readOver r) (by rwa [hself]) (by rwa [hself])
    (by rwa [hself]) hp
  rw [AtRest, hself] at hstops hwaits
  refine ⟨fun hw hq => hstops ⟨rfl, hw, hq⟩, fun h => hwaits fun hn => ?_⟩
  obtain h | ⟨b, h⟩ := h
  · rw [hn.2.1] at h
    exact nomatch h
  · exact hn.2.2 b h

/-- The end of a host write stops the ring, unless a read or a burst is under way (R50, R84, R95). -/
theorem writeEnd_told {v : State} (hv : EnginesKept s v) (hsc : v.sc = s.sc)
    (hexec : ∃ k, exec c s = .next (orStop r k (writeOver r v))) :
    (s.eng[r].rd = none → (∀ b, s.sc.port ≠ .burst r b) →
      ∃ t, exec c s = .next t ∧ StopsCommand r y p.committed (writeOver r v) t) ∧
    (s.eng[r].rd.isSome ∨ (∃ b, s.sc.port = .burst r b) → exec c s = .next (writeOver r v)) := by
  have hself : (writeOver r v).eng[r] = { s.eng[r] with wr := none } := by
    rw [← hv.get]
    exact updEng_self _ _ _
  have hport : (writeOver r v).sc.port = s.sc.port := congrArg StoreCtl.port hsc
  obtain ⟨hstops, hwaits⟩ := exec_told (y := y) (p := p) hexec hr ((hlaw.units hv).writeOver r) (by rwa [hself])
    (by rwa [hself]) (by rwa [hself]) hp
  rw [AtRest, hself, hport] at hstops hwaits
  refine ⟨fun hw hq => hstops ⟨hw, rfl, hq⟩, fun h => hwaits fun hn => ?_⟩
  obtain h | ⟨b, h⟩ := h
  · rw [hn.1] at h
    exact nomatch h
  · exact hn.2.2 b h

omit hp in
/-- The same for a result write that HP reports as completed. -/
theorem resultWriteCompleted_told {w : HostWrite} (hrel : Released s) (hw : s.eng[r].wr = some w) (hc : CanComplete w s)
    (hp : (∃ c, p = .stepping c) ∨ ∃ c, p = .reader c) :
    let u := { writeReported w s with eng := s.eng.set r { s.eng[r] with wr := none } }
    (s.eng[r].rd = none → (∀ b, s.sc.port ≠ .burst r b) →
      ∃ t, exec (.resultWriteCompleted r) s = .next t ∧ StopsCommand r y p.committed u t) ∧
    (s.eng[r].rd.isSome ∨ (∃ b, s.sc.port = .burst r b) → exec (.resultWriteCompleted r) s = .next u) := by
  have hlock : p.atLock = true := by obtain ⟨c, rfl⟩ | ⟨c, rfl⟩ := hp <;> rfl
  rw [← writeOver_writeReported]
  exact writeEnd_told hlaw hr hs ha hx hlock (writeReported_kept w s) (writeReported_sc w s)
    (exec_resultWriteCompleted hrel hw hc hx hp)

end

/-! ### The fetch that a reset waits for -/

section
variable {s : State} {r : Ring} {x : Record} {rd : HostRead} (hrel : Released s) (hs : s.eng[r].stop = some .ringReset)
  (hf : s.eng[r].fetch = some rd)
include hrel hs hf

theorem exec_fetchFailed_reset :
    exec (.fetchFailed r) s = .next (tryStop r (s.updEng r (fun e => { e with fetch := none }))) := by
  show execFetchFailed r s = _
  unfold execFetchFailed fetchFailed
  rw [whileReleased_eq hrel, hf]
  exact congrArg _ (if_pos (.inr (.inl hs)))

theorem exec_fetchDone_reset (hd : CanDeliver rd s) (b : BitVec 256) :
    exec (.fetchDone r b) s = .next (tryStop r (s.updEng r (fun e => { e with fetch := none }))) := by
  have hdel : s.delivers rd = true := by simp [State.delivers, hd.1, hd.2]
  show execFetchDone r b s = _
  unfold execFetchDone fetchDone
  rw [whileReleased_eq hrel, hf]
  dsimp only
  rw [if_pos hdel]
  exact congrArg _ (if_pos (.inr (.inl hs)))

end

/-- With the fetch gone, and nothing else to wait for, the reset ends (R115, R160). -/
theorem fetchOver_resets {s : State} {r : Ring} {x : Record} (hr : r ≠ 0) (hat : AtRest r s)
    (hx : s.eng[r].exec = none) (hw : s.eng[r].state ≠ .waitCq) (hs : s.eng[r].stop = some .ringReset)
    (h0 : s.eng[(0 : Ring)].exec = some ⟨x, .resetWait r⟩) :
    let u := s.updEng r (fun e => { e with fetch := none })
    let rep := s.eng[r].report.getD .nothing
    ResetEnds r x (resetReport rep.aborted rep.line rep.gen rep.count s.eng[r].head rep.tag) u (tryStop r u) := by
  intro u rep
  have hself : u.eng[r] = { s.eng[r] with fetch := none } := updEng_self _ _ _
  have hzero : u.eng[(0 : Ring)] = s.eng[(0 : Ring)] := updEng_others hr.symm _ _
  have hport : u.sc = s.sc := rfl
  clear_value u
  have hb : atBoundary r u = true := by
    rw [atBoundary_iff, AtRest, hself, hport]
    exact ⟨hat, fun h => hw h.1, fun z hz => nomatch hx.symm.trans hz⟩
  have hu := unwind_none (r := r) (s := u) (by rwa [hself]) (by rwa [hself])
  have hend := (tryStop_resets hr (by rwa [hself]) hb hu ⟨rfl, rfl, rfl⟩).2 x (by rw [hself]) (by rwa [hzero])
  rw [hself] at hend
  exact hend

/-- Settles O46: the row's own effect, then `orStop`, which stops the ring if nothing else of its command goes on. -/
theorem stopsAtBoundary : Obligations.StopsAtBoundary := by
  unfold Obligations.StopsAtBoundary
  intro s r hrel hlaw hr hc hstop e stopsBy quiet readOver' writeOver'
  have hs : s.eng[r].stop.isSome := by obtain h | h := hstop <;> rw [h] <;> rfl
  refine ⟨fun ha => ⟨?_, ?_, ?_, ?_, ?_, ?_, ?_⟩, fun x rd hat hx hw hs hf h0 => ?_⟩
  · intro y g ws done m hport hws hx hg hrd hwr
    have told := burstEnd_told hrel hlaw hr hc hs ha hport (by simpa [Burst.words] using hws)
      (burstEffect_push hx hg ws) (burstCommitted_self _ _) rfl rfl
    exact told.1 ⟨hrd, hwr⟩
  · intro y g a w c hport ha' hx hg
    have told := burstEnd_told hrel hlaw hr hc hs ha hport (by simpa [Burst.words] using ha')
      (burstEffect_step hx hg [(a, w)]) (burstCommitted_self _ _) rfl rfl
    exact told
  · intro y ws hport hws u
    have told := fun {p} (hx : e.exec = some ⟨y, p⟩) => burstEnd_told (p := p) hrel hlaw hr hc hs ha hport hws
      (burstEffect_read r ws s) (by rw [← hx]) rfl
    refine ⟨fun c hx hrd hwr => (told hx rfl).1 ⟨hrd, hwr⟩, fun c hx hrd hwr => (told hx rfl).1 ⟨hrd, hwr⟩,
      fun c hx => ?_⟩
    obtain hx | ⟨c', hx⟩ := hx
    · exact (told hx rfl).2
    · exact (told hx rfl).2
  · intro y rd hrd hwr hq
    have told : ∀ p c, e.exec = some ⟨y, p⟩ → p.atLock = true → (∃ k, exec c s = .next (orStop r k (readOver r s))) →
        stopsBy c y p.committed readOver' := fun p c hx hp hexec => (readEnd_told hlaw hr hs ha hx hp hexec).1 hwr hq
    exact ⟨fun hx => ⟨told .tapRead _ hx rfl (exec_tapListReadFailed hrel hrd hx),
        fun _ hd hl => told .tapRead _ hx rfl (exec_tapListReadDone hrel hrd hd hl hx)⟩,
      fun n m hx => ⟨told (.pushing n m) _ hx rfl (exec_pushSamplesReadFailed hrel hrd hx),
        fun _ hd hl => told (.pushing n m) _ hx rfl (exec_pushSamplesReadDone hrel hrd hd hl hx)⟩,
      fun c hx => ⟨told (.stepping c) _ hx rfl (exec_stepInputReadFailed hrel hrd hx),
        fun _ hd hl => told (.stepping c) _ hx rfl (exec_stepInputReadDone hrel hrd hd hl hx)⟩⟩
  · intro y w hw hrd hq
    have failed : ∀ p c, e.exec = some ⟨y, p⟩ → p.atLock = true → (∃ k, exec c s = .next (orStop r k (writeOver r s))) →
        stopsBy c y p.committed writeOver' := fun p c hx hp hexec =>
      (writeEnd_told hlaw hr hs ha hx hp (.refl s) rfl hexec).1 hrd hq
    exact ⟨fun c hx => ⟨fun hc => (resultWriteCompleted_told hlaw hr hs ha hx hrel hw hc (.inr ⟨c, rfl⟩)).1 hrd hq,
        fun hc => failed (.reader c) _ hx rfl (exec_resultWriteFailed hrel hw hc hx)⟩,
      fun c hx => ⟨fun hc => (resultWriteCompleted_told hlaw hr hs ha hx hrel hw hc (.inl ⟨c, rfl⟩)).1 hrd hq,
        fun hc => failed (.stepping c) _ hx rfl (exec_stepResultWriteFailed hrel hw hc hx)⟩⟩
  · intro y c rd hx hrd hbusy
    have told : ∀ i, (∃ k, exec i s = .next (orStop r k (readOver r s))) → exec i s = .next readOver' := fun i hexec =>
      (readEnd_told hlaw hr hs ha hx rfl hexec).2 hbusy
    exact ⟨told _ (exec_stepInputReadFailed hrel hrd hx),
      fun _ hd hl => told _ (exec_stepInputReadDone hrel hrd hd hl hx)⟩
  · intro y w hw hbusy
    have failed : ∀ p i, e.exec = some ⟨y, p⟩ → p.atLock = true → (∃ k, exec i s = .next (orStop r k (writeOver r s))) →
        exec i s = .next writeOver' := fun p i hx hp hexec =>
      (writeEnd_told hlaw hr hs ha hx hp (.refl s) rfl hexec).2 hbusy
    refine ⟨fun hc hx => ?_, fun hc => ⟨fun c hx => failed _ _ hx rfl (exec_stepResultWriteFailed hrel hw hc hx),
      fun c hx => failed _ _ hx rfl (exec_resultWriteFailed hrel hw hc hx)⟩⟩
    obtain ⟨c, hx⟩ | ⟨c, hx⟩ := hx
    · exact (resultWriteCompleted_told hlaw hr hs ha hx hrel hw hc (.inl ⟨c, rfl⟩)).2 hbusy
    · exact (resultWriteCompleted_told hlaw hr hs ha hx hrel hw hc (.inr ⟨c, rfl⟩)).2 hbusy
  · have hend := fetchOver_resets hr hat hx hw hs h0
    exact ⟨⟨_, exec_fetchFailed_reset hrel hs hf, hend⟩, fun b hd => ⟨_, exec_fetchDone_reset hrel hs hf hd b, hend⟩⟩

end Sys2Proof.Machine
end

section
/-! Records whose kind does not stand on their ring, and the kinds there are (R55, R107, R118, R154, R186). -/

namespace Sys2Proof.Machine

/-- A command whose guard is met is carried out (R107). -/
theorem guarded_eq {s : State} {r : Ring} {x : Record} (h : GuardMet r x s) (k : State → State) :
    guarded r x k s = k s := by
  obtain ⟨g, hg, hm⟩ := h
  simp only [guarded, hg, hm, if_true]

/-- The row of a record's own kind carries the record out (R107, R109). -/
theorem runKind_eq {s : State} {r : Ring} {k : Kind} {x : Record} (h : Begins r k x s)
    (body : Record → State → State) : runKind r k body s = body x s := by
  obtain ⟨-, hx, hk, hg⟩ := h
  have hf : freshRecord r s = some x := (freshRecord_iff r x s).mpr hx
  simp only [runKind, hf, hk, if_true, guarded_eq hg]

/-- A record's kind is no kind of its ring if the code names none, or one of the other sort of ring (R55, R154). -/
theorem Record.kindOfRing_eq_false_iff (x : Record) (r : Ring) : x.kindOfRing r = false ↔
    Kind.ofCode x.kind = none ∨ ∃ k, Kind.ofCode x.kind = some k ∧ (k.isControl = true ↔ r ≠ 0) := by
  unfold Record.kindOfRing
  cases Kind.ofCode x.kind with
  | none => simp
  | some k => by_cases h0 : r = 0 <;> cases hc : k.isControl <;> simp [h0, hc]

theorem exec_unknownKindRecord {s : State} {r : Ring} {x : Record} (h : Released s) (hx : Executes r x s)
    (hg : GuardMet r x s) (hk : x.kindOfRing r = false) :
    exec (.unknownKindRecord r) s = .next (endCommand r (plain .badKind x) s) := by
  have hf : freshRecord r s = some x := (freshRecord_iff r x s).mpr hx
  show execUnknownKindRecord r s = _
  simp only [execUnknownKindRecord, whileReleased_eq h, hf, hk, Bool.false_eq_true, if_false, guarded_eq hg]
  rfl

/-- Every line kind, MARK included, is refused at step 1 on ring 0 (R55, R118). -/
theorem exec_row_ringZero {s : State} {k : Kind} {x : Record} (h : BeginsControl k x s) (hk : k.isControl = false) :
    exec (k.row 0) s = .next (endCommand 0 (plain .badKind x) s) := by
  have row : ∀ body, exec (k.row 0) s = whileReleased s (fun s => .next (runKind 0 k (onLineRing 0 body) s)) →
      exec (k.row 0) s = .next (endCommand 0 (plain .badKind x) s) := fun body he =>
    he.trans ((whileReleased_eq h.1 _).trans (congrArg _ (runKind_eq h _)))
  cases k
  case openLine | closeLine | setTaps | push | clear | test | gather | readSpan | step | mark => exact row _ rfl
  all_goals exact nomatch hk

/-- The codes of the kinds are two ranges (R186). -/
theorem Kind.ofCode_eq_none_iff (code : BitVec 8) : Kind.ofCode code = none ↔
    ¬ (1 ≤ code.toNat ∧ code.toNat ≤ 0x0A ∨ 0x20 ≤ code.toNat ∧ code.toNat ≤ 0x26) := by
  unfold Kind.ofCode
  split
  case h_18 =>
    simp only [imp_false, true_iff] at *
    omega
  all_goals
    rename_i h
    simp [h]

/-- Settles O18: the kind does not stand on the ring, so the record is refused in its own row. -/
theorem unknownKindsRefused : Obligations.UnknownKindsRefused := by
  unfold Obligations.UnknownKindsRefused
  refine ⟨fun s r x h hx hg hk => ?_, fun s x k h hk => ?_, Kind.ofCode_eq_none_iff⟩
  · exact ⟨_, exec_unknownKindRecord h hx hg ((x.kindOfRing_eq_false_iff r).mpr hk), endCommand_ended hx _⟩
  · exact ⟨_, exec_row_ringZero h hk, endCommand_ended h.2.1 _⟩

end Sys2Proof.Machine
end

section
/-! Steps 6 and 7 of the validation order: what is refused (R55, R56, R57, R58). -/

namespace Sys2Proof.Machine

/-! ### What each step answers -/

theorem Format.ofCode_eq_none {c : BitVec 16} (h : c.toNat ∉ [1, 2, 3]) : Format.ofCode c = none := by
  unfold Format.ofCode
  split
  case h_4 => rfl
  all_goals
    rename_i hc
    simp [hc] at h

/-- Counts and ranges that the table of R56 allows pass step 6. -/
theorem checkRanges_none {k : Kind} {x : Record} {l : Line} {g : LineCfg} (hk : k ≠ .openLine) (hg : l.cfg = some g)
    (h : RangesOk k x g l.taps) : checkRanges k x l = none := by
  have hlen := Line.len_eq hg
  cases k with
  | openLine => exact absurd rfl hk
  | setTaps => exact if_neg (Nat.not_lt.mpr h)
  | push =>
    obtain ⟨hlo, hhi, hfit⟩ := h
    exact if_neg (by omega)
  | test =>
    have h : x.paramA.toNat ≤ g.len := h
    exact if_neg (by omega)
  | readSpan =>
    obtain ⟨hlo, hhi, hfit⟩ := h
    exact (if_neg (by omega)).trans (if_neg (by omega))
  | step =>
    obtain ⟨hlo, hhi, hfit⟩ := h
    exact (if_neg (by omega)).trans (if_neg (Nat.not_lt.mpr hfit))
  | _ => rfl

/-- Step 7 refuses what is not aligned (R57). -/
theorem checkAlign_some {k : Kind} {x : Record} (h : ¬ Aligned k x) : checkAlign k x = some .badAlign := by
  cases k with
  | push | gather | readSpan => exact if_neg fun ha => h ((alignedTo_iff 4 _).mp ha)
  | setTaps => exact if_neg fun ha => h (ha.imp_right (alignedTo_iff 4 _).mp)
  | step =>
    refine if_neg fun ha => h ?_
    rwa [Bool.and_eq_true, alignedTo_iff, alignedTo_iff] at ha
  | _ => exact absurd trivial h

/-! ### A refusal behind step 5 -/

section
variable {s : State} {r : Ring} {k : Kind} {x : Record}

/-- An OPEN of a FREE line that step 6 refuses ends with the status that step gives (R56, R58). -/
theorem open_refused (hb : Begins r .openLine x s) (h0 : r ≠ 0) (hx : x.line.toNat < 64)
    (hs : (s.lineOf x).state = .free) {st : Status} (hc : checkRanges .openLine x (s.lineOf x) = some st) :
    ∃ t, exec (.openLine r) s = .next t ∧ Ended r x (about st x (s.lineOf x) 0 0 (s.lineOf x).seq) s t := by
  have hline : checkLine .openLine x (s.lineOf x) = none := by simp [checkLine, hs]
  have hcheck : checkCommand .openLine r x (s.lineOf x) = some st := by
    simp [checkCommand, checkOwner, checkClosing, Kind.ownerOnly, hc]
  exact refused_ended hb h0 rfl (validated_command_refused hx hline hcheck)

variable {g : LineCfg}

/-- A record that has passed steps 1 to 5 is refused with the answer of step 6, or else with that of step 7 (R55). -/
theorem Passes.refused (h : Passes r k x g s) (hk : k ≠ .openLine) (hn : k.namesLine = true) {st : Status}
    (hc : (checkRanges k x (s.lineOf x) <|> checkAlign k x) = some st) :
    ∃ t, exec (k.row r) s = .next t ∧ Ended r x (about st x (s.lineOf x) 0 0 (s.lineOf x).seq) s t := by
  obtain ⟨hb, h0, ⟨hx, hlive, hgen⟩, hg, howner⟩ := h
  have hline : checkLine k x (s.lineOf x) = none := checkLine_known hk (by simp [hlive]) hgen.symm
  have hclosing : checkClosing k (s.lineOf x) = none := if_neg fun h => by simp [hlive] at h
  have hcheck : checkCommand k r x (s.lineOf x) = some st := by
    simpa [checkCommand, checkOwner_none hg howner, hclosing] using hc
  exact refused_ended hb h0 hn (validated_command_refused hx hline hcheck)

theorem Passes.refused_ranges (h : Passes r k x g s) (hk : k ≠ .openLine) (hn : k.namesLine = true) {st : Status}
    (hc : checkRanges k x (s.lineOf x) = some st) :
    ∃ t, exec (k.row r) s = .next t ∧ Ended r x (about st x (s.lineOf x) 0 0 (s.lineOf x).seq) s t :=
  h.refused hk hn (by rw [hc]; rfl)

theorem Passes.refused_align (h : Passes r k x g s) (hk : k ≠ .openLine) (hn : k.namesLine = true)
    (hr : RangesOk k x g (s.lineOf x).taps) (ha : ¬ Aligned k x) :
    ∃ t, exec (k.row r) s = .next t ∧ Ended r x (about .badAlign x (s.lineOf x) 0 0 (s.lineOf x).seq) s t := by
  obtain ⟨-, -, -, hg, -⟩ := id h
  exact h.refused hk hn (by rw [checkRanges_none hk hg hr, checkAlign_some ha]; rfl)

end

/-- Settles O20: the first of the checks of step 6, in the order of the table, or that of step 7 gives the status. -/
theorem rangeAndAlignmentChecks : Obligations.RangeAndAlignmentChecks := by
  unfold Obligations.RangeAndAlignmentChecks
  intro s r k x g l n a refused
  constructor
  · rintro hb h0 hx hs rfl
    have refused := fun {st} => open_refused hb h0 hx hs (st := st)
    refine ⟨fun h => refused (if_pos h), fun hlo hhi hf => refused ((if_neg (by omega)).trans (if_pos ?_))⟩
    rw [Format.ofCode_eq_none hf]
    rfl
  · intro h
    obtain ⟨-, -, -, hg, -⟩ := id h
    have hlen : l.len = g.len := Line.len_eq hg
    refine ⟨?_, ?_, ?_, ?_, ?_, ?_, ?_, fun hr => ⟨fun hk ha => ?_, ?_, ?_⟩⟩
    · rintro rfl hn
      exact h.refused_ranges nofun rfl (if_pos hn)
    · rintro rfl hn
      have hout : n < 1 ∨ min 4096 l.len < n := by omega
      exact h.refused_ranges nofun rfl (if_pos hout)
    · rintro rfl ha
      exact h.refused_ranges nofun rfl (if_pos (hlen ▸ ha))
    · rintro rfl hn
      exact h.refused_ranges nofun rfl (if_pos hn)
    · rintro rfl hlo hhi hfit
      exact h.refused_ranges nofun rfl ((if_neg (by omega)).trans (if_pos (hlen ▸ hfit)))
    · rintro rfl hn
      exact h.refused_ranges nofun rfl (if_pos hn)
    · rintro rfl hlo hhi hfit
      exact h.refused_ranges nofun rfl ((if_neg (by omega)).trans (if_pos hfit))
    · simp only [List.mem_cons, List.not_mem_nil, or_false] at hk
      obtain rfl | rfl | rfl := hk <;> exact h.refused_align nofun rfl hr ha
    · rintro rfl hn ha
      exact h.refused_align nofun rfl hr (not_or.mpr ⟨Nat.ne_of_gt hn, ha⟩)
    · rintro rfl ha
      exact h.refused_align nofun rfl hr (not_and_or.mpr ha)

end Sys2Proof.Machine
end

section
/-! TEST, and the writers that end in the step that grants them (R44, R63, R69, R70). -/

namespace Sys2Proof.Machine

/-! ### TEST -/

/-- A TEST compares the fill as it stands, and ends (R70). -/
theorem carryOutTest_ended {s : State} {r : Ring} {x : Record} (hx : Executes r x s) :
    Ended r x (about .ok x (s.lineOf x) (s.lineOf x).fill 0 (s.lineOf x).seq)
      { s with eng := s.eng.set r { s.eng[r] with test := decide (x.paramA.toNat ≤ (s.lineOf x).fill) } }
      (carryOutTest r x s) := by
  have hself : (s.updEng r fun e => { e with test := decide (x.paramA.toNat ≤ (s.lineOf x).fill) }).eng[r].exec =
      some ⟨x, .fresh⟩ := (congrArg Engine.exec (updEng_self r _ s)).trans hx
  exact endCommand_ended hself _

/-- Settles O24: a TEST that passes the validation order is carried out, without the lock. -/
theorem testComparesFill : Obligations.TestComparesFill := by
  unfold Obligations.TestComparesFill
  intro s r x g h ha
  have hv : Validated .test r x s := Claims.validated ⟨h, ha, trivial⟩ nofun
  obtain ⟨hb, h0, -⟩ := h
  exact ⟨_, hv.carriedOut hb h0 (carryOutTest r), carryOutTest_ended hb.2.1⟩

/-! ### CLEAR, and SET TAPS of no taps -/

theorem beginGranted_clear {s : State} {r : Ring} {x : Record} {p : Phase} (hx : s.eng[r].exec = some ⟨x, p⟩)
    (hk : Kind.ofCode x.kind = some .clear) : beginGranted r s = beginClear r x (activated r s) := by
  simp only [beginGranted, hx, hk]
  rfl

/-- The one writer of a lock at which nobody waits leaves it free (R44). -/
theorem Lock.written_leave (r : Ring) : (Lock.written r ⟨.none, [], []⟩).leave r = ⟨.none, [], []⟩ :=
  Lock.leave_holder (hs := []) (hs' := []) rfl (by simp) (by simp [Lock.written])

/-- A change of a line's record that has nothing to do with its lock. -/
def LockFree (f : Line → Line) : Prop := ∀ y k, f { y with lock := k } = { f y with lock := k }

theorem LockFree.lock {f : Line → Line} (h : LockFree f) (y : Line) : (f y).lock = y.lock := by
  have hself : f y = { f y with lock := y.lock } := h y y.lock
  rw [hself]

/-- A writer takes a free lock, changes the line and leaves the lock: the change is what is left. -/
theorem written_changed_left {f : Line → Line} (hf : LockFree f) {s : State} {l : LineIx}
    (hk : s.lines[l].lock = ⟨.none, [], []⟩) (r : Ring) :
    leaveLock r l ((activated r (withLock l (s.lines[l].lock.written r) s)).updLine l f) =
      activated r { s with lines := s.lines.set l (f s.lines[l]) } := by
  have hleave : (f { s.lines[l] with lock := s.lines[l].lock.written r }).lock.leave r = s.lines[l].lock := by
    rw [hf.lock, hk]
    exact Lock.written_leave r
  have hline : f s.lines[l] = { f { s.lines[l] with lock := s.lines[l].lock.written r } with
      lock := (f { s.lines[l] with lock := s.lines[l].lock.written r }).lock.leave r } := by
    rw [hleave, ← hf]
  conv_rhs => rw [hline]
  simp only [leaveLock, State.updLine, withLock, activated, State.updEng, vset_self, vset_vset]

/-- A writer that ends in the step that grants it at a free lock leaves its change of the line, the lock being free again
(R44). -/
theorem claimWriter_ended {s : State} {r : Ring} {x : Record} (hx : Executes r x s) {f : Line → Line} (hf : LockFree f)
    (hk : (s.lineOf x).lock = ⟨.none, [], []⟩) (hs : (f (s.lineOf x)).state = .live) {res : Result}
    (hb : beginGranted r (withLock x.lineIx ((s.lineOf x).lock.written r) s) = endCommand r res
      (leaveLock r x.lineIx ((activated r (withLock x.lineIx ((s.lineOf x).lock.written r) s)).updLine x.lineIx f))) :
    Ended r x res { s with lines := s.lines.set x.lineIx (f (s.lineOf x)) } (claimWriter r x.lineIx s) := by
  obtain ⟨u, hu⟩ : ∃ u : State, u = { s with lines := s.lines.set x.lineIx (f (s.lineOf x)) } := ⟨_, rfl⟩
  have hgrant : claimWriter r x.lineIx s = grantStep x.lineIx (endCommand r res (activated r u)) := by
    have hleft := written_changed_left hf hk r
    have hg : claimWriter r x.lineIx s =
      grantStep x.lineIx (beginGranted r (withLock x.lineIx ((s.lineOf x).lock.written r) s)) := if_pos (by
        show (s.lineOf x).lock.mode = .none
        rw [hk])
    rw [hg, hb, hu]
    exact congrArg (fun v => grantStep x.lineIx (endCommand r res v)) hleft
  have hline : (endCommand r res (activated r u)).lines[x.lineIx] = f (s.lineOf x) := by
    rw [endCommand_lines, hu]
    exact vset_self _ _ _
  have hstays : claimWriter r x.lineIx s = endCommand r res (activated r u) := by
    rw [hgrant]
    exact grantStep_stays (by rw [hline, hs]) (.inl (by rw [hline, hf.lock, hk]))
  have hux : u.eng[r].exec = some ⟨x, .fresh⟩ := by
    rw [hu]
    exact hx
  have hshown : activated r u = shown r .active u.eng[r].exec u := updEng_congr rfl
  rw [← hu, hstays, hshown]
  exact (endCommand_ended (e := ⟨x, .fresh⟩) (by rw [shown_self, hux]) res).of_shown

/-- Settles O26: the lock is taken, the line changed and the lock left in one step, and nobody waits for it. -/
theorem clearAndEmptyTaps : Obligations.ClearAndEmptyTaps := by
  unfold Obligations.ClearAndEmptyTaps
  intro s r k x g h hk l
  obtain ⟨⟨⟨-, hx, hkind, -⟩, -, ⟨-, hlive, -⟩, -⟩, -⟩ := id h
  obtain ⟨v, hv⟩ : ∃ v, v = withLock x.lineIx (l.lock.written r) s := ⟨_, rfl⟩
  have hvx : v.eng[r].exec = some ⟨x, .fresh⟩ := by
    rw [hv]
    exact hx
  have hvl : (activated r v).lineOf x = { l with lock := l.lock.written r } := by
    rw [hv]
    exact withLock_self _ _ _
  refine ⟨?_, ?_⟩
  · rintro rfl
    refine ⟨_, h.exec_writer (by simp), ?_⟩
    refine claimWriter_ended hx (f := fun y => { y with head := 0, fill := 0 }) (fun _ _ => rfl) hk hlive ?_
    show beginGranted r (withLock x.lineIx (l.lock.written r) s) = _
    rw [← hv, beginGranted_clear hvx hkind, beginClear, hvl]
    subst hv
    rfl
  · rintro rfl hn
    refine ⟨_, h.exec_writer (by simp), ?_⟩
    refine claimWriter_ended hx (f := fun y => { y with taps := [] }) (fun _ _ => rfl) hk hlive ?_
    show beginGranted r (withLock x.lineIx (l.lock.written r) s) = _
    rw [← hv, beginGranted_setTaps hvx hkind, beginSetTaps, if_pos hn, hvl]
    subst hv
    rfl

end Sys2Proof.Machine
end

section
/-! The ends of the host reads of SET TAPS and PUSH (R19, R44, R63, R64, R65, R67). -/

namespace Sys2Proof.Machine

/-! ### The command goes on -/

theorem readOver_self (r : Ring) (s : State) : (readOver r s).eng[r] = { s.eng[r] with rd := none } :=
  updEng_self r _ s

/-- The command of a ring that no stop has reached goes on behind its host read. -/
theorem orStop_readOver {r : Ring} {s : State} (h : s.eng[r].stop = none) (k : State → State) :
    orStop r k (readOver r s) = k (readOver r s) :=
  if_neg (by rw [readOver_self, h]; exact nofun)

section
variable {s : State} {r : Ring} {x : Record} {rd : HostRead} (hrel : Released s) (hs : s.eng[r].stop = none)
  (hrd : s.eng[r].rd = some rd)
include hrel hs hrd

/-- The list has come (R63). -/
theorem exec_tapListReadDone_goesOn {bytes : List Byte} (hd : CanDeliver rd s) (hlen : rd.len = bytes.length)
    (hx : s.eng[r].exec = some ⟨x, .tapRead⟩) :
    exec (.tapListReadDone r bytes) s = .next (installTaps r x (tapsOf bytes) (readOver r s)) := by
  show execTapListReadDone r bytes s = _
  simp only [execTapListReadDone, whileReleased_eq hrel, tapReader, hx, readCompletes_of hrd hd hlen, if_true,
    orStop_readOver hs]

/-- The samples have come (R65). -/
theorem exec_pushSamplesReadDone_goesOn {bytes : List Byte} {n m : Nat} (hd : CanDeliver rd s)
    (hlen : rd.len = bytes.length) (hx : s.eng[r].exec = some ⟨x, .pushing n m⟩) :
    exec (.pushSamplesReadDone r bytes) s = .next (claimPush r x bytes (readOver r s)) := by
  show execPushSamplesReadDone r bytes s = _
  simp only [execPushSamplesReadDone, whileReleased_eq hrel, pusher, hx, readCompletes_of hrd hd hlen, if_true,
    orStop_readOver hs]

/-- The list could not be read (R64). -/
theorem exec_tapListReadFailed_ends (hx : s.eng[r].exec = some ⟨x, .tapRead⟩) :
    exec (.tapListReadFailed r) s =
      .next (finish r x (about .hostFault x (s.lineOf x) 0 0 (s.lineOf x).seq) (readOver r s)) := by
  show execTapListReadFailed r s = _
  simp only [execTapListReadFailed, whileReleased_eq hrel, tapListReadFailed, tapReader, hx, hrd, Option.isNone_some,
    Bool.false_eq_true, if_false, orStop_readOver hs]
  rfl

/-- The samples could not be read (R67). -/
theorem exec_pushSamplesReadFailed_ends {n m : Nat} (hx : s.eng[r].exec = some ⟨x, .pushing n m⟩) :
    exec (.pushSamplesReadFailed r) s =
      .next (finish r x (about .hostFault x (s.lineOf x) n 0 (s.lineOf x).seq) (readOver r s)) := by
  show execPushSamplesReadFailed r s = _
  simp only [execPushSamplesReadFailed, whileReleased_eq hrel, pushSamplesReadFailed, pusher, hx, hrd,
    Option.isNone_some, Bool.false_eq_true, if_false, orStop_readOver hs]
  rfl

end

/-! ### Tap lists in host memory -/

theorem bytesLE_length (n x : Nat) : (bytesLE n x).length = n := by
  induction n generalizing x with
  | zero => rfl
  | succ n ih => exact congrArg (· + 1) (ih _)

theorem valueLE_bytesLE (n x : Nat) : valueLE (bytesLE n x) = x % 256 ^ n := by
  induction n generalizing x with
  | zero => exact (Nat.mod_one x).symm
  | succ n ih =>
    show (BitVec.ofNat 8 x).toNat + 256 * valueLE (bytesLE n (x / 256)) = _
    rw [ih, BitVec.toNat_ofNat, Nat.pow_succ' (m := 256)]
    exact Nat.mod_mul.symm

/-- The offsets of a tap list are read as they were written (R54). -/
theorem tapsOf_bytesLE (taps : List (BitVec 32)) :
    tapsOf (taps.flatMap fun d => bytesLE 4 d.toNat) = taps.map (·.toNat) := by
  have hgroup : ∀ bs ∈ taps.map (fun d => bytesLE 4 d.toNat), bs.length = 4 := by
    intro bs hbs
    obtain ⟨d, -, rfl⟩ := List.mem_map.mp hbs
    exact bytesLE_length 4 _
  have hsplit := groupBytes_flatten hgroup
  rw [List.length_map, ← List.flatMap_def] at hsplit
  have hlen : (taps.flatMap fun d => bytesLE 4 d.toNat).length = 4 * taps.length := by
    simp [List.length_flatMap, bytesLE_length, Nat.mul_comm]
  unfold tapsOf
  rw [hlen, Nat.mul_div_cancel_left _ (by decide), hsplit, List.map_map]
  refine List.map_congr_left fun d _ => ?_
  exact (valueLE_bytesLE 4 d.toNat).trans (Nat.mod_eq_of_lt d.isLt)

/-! ### SET TAPS -/

theorem firstBadTap_none {len : Nat} {taps : List Nat} (h : ∀ d ∈ taps, d < len) : firstBadTap len taps = none :=
  List.findIdx?_eq_none_iff.mpr fun d hd => by simpa using h d hd

theorem firstBadTap_some {len : Nat} {taps : List Nat} {i d : Nat} (hi : taps[i]? = some d) (hd : len ≤ d)
    (hfirst : ∀ j < i, ∀ d', taps[j]? = some d' → d' < len) : firstBadTap len taps = some i := by
  obtain ⟨hlt, rfl⟩ := List.getElem?_eq_some_iff.mp hi
  refine List.findIdx?_eq_some_iff_getElem.mpr ⟨hlt, by simpa using hd, fun j hj => ?_⟩
  have hj' := hfirst j hj _ (List.getElem?_eq_getElem (hj.trans hlt))
  simpa using hj'

section
variable {s : State} {r : Ring} {x : Record} {p : Phase} {g : LineCfg} (hx : s.eng[r].exec = some ⟨x, p⟩)
  (hg : (s.lineOf x).cfg = some g) {taps : List Nat}
include hx hg

/-- A list of offsets of the line is installed whole (R63). -/
theorem installTaps_ended (h : ∀ d ∈ taps, d < g.len) :
    Ended r x (about .ok x (s.lineOf x) taps.length 0 (s.lineOf x).seq)
      (release r x.lineIx { s with lines := s.lines.set x.lineIx { s.lineOf x with taps := taps } })
      (installTaps r x taps s) := by
  simp only [installTaps, Line.len_eq hg, firstBadTap_none h]
  exact finish_ended (s := s.updLine x.lineIx fun y => { y with taps := taps }) hx _

/-- A list with an offset that the line does not have leaves the old one (R63). -/
theorem installTaps_refused {i : Nat} (h : firstBadTap g.len taps = some i) :
    Ended r x (about .badTap x (s.lineOf x) i 0 (s.lineOf x).seq) (release r x.lineIx s) (installTaps r x taps s) := by
  simp only [installTaps, Line.len_eq hg, h]
  exact finish_ended hx _

end

/-- Settles O30: the bytes are the offsets, and the first that is out of range decides. -/
theorem tapListReadEnds : Obligations.TapListReadEnds := by
  unfold Obligations.TapListReadEnds
  intro s r x g rd taps hrel hx hs hrd hg l bytes u offs
  have hux : (readOver r s).eng[r].exec = some ⟨x, .tapRead⟩ := by rw [readOver_exec, hx]
  refine ⟨fun hd hlen => ?_, _, exec_tapListReadFailed_ends hrel hs hrd hx, finish_ended hux _⟩
  have hbytes : bytes.length = 4 * taps.length := by
    simp [bytes, List.length_flatMap, bytesLE_length, Nat.mul_comm]
  have he := exec_tapListReadDone_goesOn hrel hs hrd hd (hlen.trans hbytes.symm) hx
  rw [show tapsOf bytes = offs from tapsOf_bytesLE taps] at he
  refine ⟨fun hall => ⟨_, he, ?_⟩, fun i d hi hd' hfirst => ⟨_, he, ?_⟩⟩
  · have hend := installTaps_ended hux (g := g) hg hall
    rw [show offs.length = taps.length from List.length_map _] at hend
    exact hend
  · exact installTaps_refused hux (g := g) hg (firstBadTap_some hi hd' hfirst)

/-! ### PUSH -/

/-- The words of a burst stand at the slots from the head on (R14). -/
theorem burstWords_eq (g : LineCfg) (head : Nat) (ws : List Word) :
    burstWords g head ws = ws.mapIdx fun i w => (g.ext.base * 64 + (head + i), w) := by
  induction ws generalizing head with
  | nil => rfl
  | cons w ws ih =>
    rw [burstWords, ih, List.mapIdx_cons]
    simp only [Nat.add_right_comm head 1, ← Nat.add_assoc]
    rfl

/-- Settles O31: the samples become the words of a claim, or the PUSH ends with what it has committed. -/
theorem pushReadEnds : Obligations.PushReadEnds := by
  unfold Obligations.PushReadEnds
  intro s r x g done m rd bytes hrel hx hs hrd hg l u words
  have hux : (readOver r s).eng[r].exec = some ⟨x, .pushing done m⟩ := by rw [readOver_exec, hx]
  refine ⟨fun hd hlen => ?_, _, exec_pushSamplesReadFailed_ends hrel hs hrd hx, finish_ended hux _⟩
  have hline : (readOver r s).lineOf x = l := rfl
  rw [exec_pushSamplesReadDone_goesOn hrel hs hrd hd hlen hx, claimPush, hline]
  simp only [show l.cfg = some g from hg, burstWords_eq]
  rfl

end Sys2Proof.Machine
end

section
/-! The end of a result write of a GATHER or READ SPAN (R78, R81, R82, R83). -/

namespace Sys2Proof.Machine

/-! ### The command goes on behind its write -/

theorem writeOver_self (r : Ring) (s : State) : (writeOver r s).eng[r] = { s.eng[r] with wr := none } :=
  updEng_self r _ s

/-- A command that enters a phase as its write is over: one update of its engine. -/
theorem writeOver_entered (r : Ring) (x : Record) (p : Phase) (s : State) :
    withEng r { (writeOver r s).eng[r] with exec := some ⟨x, p⟩ } (writeOver r s) =
      withEng r { s.eng[r] with wr := none, exec := some ⟨x, p⟩ } s := by
  rw [writeOver_self]
  exact withEng_withEng _ _ _ _

/-- The command of a ring that no stop has reached goes on behind its host write. -/
theorem orStop_writeOver {r : Ring} {s : State} (h : s.eng[r].stop = none) (k : State → State) :
    orStop r k (writeOver r s) = k (writeOver r s) :=
  if_neg (by rw [writeOver_self, h]; exact nofun)

section
variable {s : State} {r : Ring} {x : Record} {w : HostWrite} {c : ReaderCtx} (hrel : Released s)
  (hs : s.eng[r].stop = none) (hw : s.eng[r].wr = some w) (hx : s.eng[r].exec = some ⟨x, .reader c⟩)
include hrel hs hw hx

/-- A chunk of a reader is written (R81). -/
theorem exec_resultWriteCompleted_reader (hc : CanComplete w s) :
    exec (.resultWriteCompleted r) s = .next (readerWritten r x c (writeOver r (writeReported w s))) := by
  have hs' : (writeReported w s).eng[r].stop = none := by rwa [writeReported_eng]
  show execResultWriteCompleted r s = _
  simp only [execResultWriteCompleted, whileReleased_eq hrel, hw, (completes_iff s w).mpr hc, if_true, readerOf, hx,
    orStop_writeOver hs']

/-- A chunk of a reader could not be written (R83). -/
theorem exec_resultWriteFailed_reader (hc : ¬ CanComplete w s) :
    exec (.resultWriteFailed r) s = .next (readerWriteFailed r x c (writeOver r s)) := by
  show execResultWriteFailed r s = _
  simp only [execResultWriteFailed, whileReleased_eq hrel, readerOf, hx, writeHasFailed_of hw hc, if_true,
    orStop_writeOver hs]

end

/-! ### What a reader does behind its write -/

section
variable {s : State} {r : Ring} {x : Record} {g : LineCfg} {c : ReaderCtx}

/-- Behind the last chunk the reader ends (R78, R82). -/
theorem readerWritten_last {p : Phase} (hx : s.eng[r].exec = some ⟨x, p⟩)
    (hlast : c.done + 1 = (c.offs.length + 15) / 16) :
    Ended r x (about .ok x (s.lineOf x) c.offs.length (unfilledOf c.snap.fill c.offs) c.snap.seq) (release r x.lineIx s)
      (readerWritten r x c s) := by
  have hend : readerWritten r x c s =
      finish r x (about .ok x (s.lineOf x) c.offs.length (unfilledOf c.snap.fill c.offs) c.snap.seq) s := if_pos hlast
  rw [hend]
  exact finish_ended hx _

/-- Behind any other chunk the reader counts it, and goes on (R81). -/
theorem readerWritten_counts {p : Phase} (hx : s.eng[r].exec = some ⟨x, p⟩)
    (hlast : ¬ c.done + 1 = (c.offs.length + 15) / 16) :
    readerWritten r x c s = pumpReader r (inReader r x { c with done := c.done + 1 } s) := by
  rw [inReader, ← setPhase_eq hx]
  exact if_neg hlast

/-- A reader whose chunk is being read waits for it (R81). -/
theorem pumpReader_of_reading (hx : s.eng[r].exec = some ⟨x, .reader c⟩) (hb : c.buf = none) (hr : c.reading = true) :
    pumpReader r s = s := by
  unfold pumpReader
  rw [readChunk_of_reading hx hr, writeChunk_of_nothing hx hb, readChunk_of_reading hx hr]

/-- A reader that has faulted ends with the chunks written before (R83). -/
theorem readerFaults_ended {p : Phase} (hx : s.eng[r].exec = some ⟨x, p⟩) :
    Ended r x (about .hostFault x (s.lineOf x) (16 * c.done) (unfilledOf c.snap.fill (c.offs.take (16 * c.done))) c.snap.seq)
      (release r x.lineIx s) (readerFaults r x c s) :=
  finish_ended hx _

/-- A reader whose write failed withdraws its claim, and ends unless it has a burst at the port (R83). -/
theorem readerWriteFailed_eq {p : Phase} (hx : s.eng[r].exec = some ⟨x, p⟩) :
    readerWriteFailed r x c s =
      let v := inReader r x { c with failed := true } (s.setClaim r none)
      if holdsPort r v then v else readerFaults r x c v := by
  have hx' : (s.setClaim r none).eng[r].exec = some ⟨x, p⟩ := hx
  unfold readerWriteFailed
  rw [setPhase_eq hx']
  rfl

end

/-- Settles O35: the reader ends, writes the chunk that it has, or waits for the one being read; a failed write ends it as
soon as no burst of it is at the port. -/
theorem readerWriteEnds : Obligations.ReaderWriteEnds := by
  unfold Obligations.ReaderWriteEnds
  intro s r x g c hrel hx hstop hg last c' fails v
  refine ⟨fun w hw hc => ?_, fun w hw hc => ?_, fun ws hport hws hfail => ?_⟩
  · intro u
    have hu : writeOver r (writeReported w s) = u := writeOver_writeReported r w s
    have hself : u.eng[r] = { s.eng[r] with wr := none } := vset_self _ _ _
    have hux : u.eng[r].exec = some ⟨x, .reader c⟩ := by rw [hself, hx]
    have hline : u.lineOf x = s.lineOf x := congrArg (·[x.lineIx]) (writeReported_lines w s)
    have hexec := exec_resultWriteCompleted_reader hrel hstop hw hx hc
    rw [hu] at hexec
    clear_value u
    refine ⟨fun hlast => ⟨_, hexec, hline ▸ readerWritten_last hux hlast⟩, fun res hlast hb hr => ?_,
      fun hlast hb hr => ?_⟩
    · have hcame : inReader r x c' u = resultsCame r x c' res u := by
        rw [inReader, resultsCame, ← hb, ← hr]
      rw [hexec, readerWritten_counts hux hlast, hcame, pumpReader_writes (by rw [hline, hg]) (by rw [hself])]
    · have hin := congrArg Engine.exec (inReader_self r x c' u)
      rw [hexec, readerWritten_counts hux hlast, pumpReader_of_reading hin hb hr]
      rfl
  · have hv : inReader r x { c with failed := true } ((writeOver r s).setClaim r none) = v :=
      writeOver_entered r x _ (s.setClaim r none)
    have hvx : v.eng[r].exec = some ⟨x, .reader { c with failed := true }⟩ := congrArg Engine.exec (vset_self _ _ _)
    have hexec := exec_resultWriteFailed_reader hrel hstop hw hx hc
    rw [readerWriteFailed_eq ((writeOver_exec r s).trans hx), hv] at hexec
    refine ⟨fun hq => ⟨_, hexec, ?_⟩, fun b hb => ?_⟩
    · have hquiet : ¬ holdsPort r v = true := fun h => ((holdsPort_iff r v).mp h).elim hq
      rw [if_neg hquiet]
      exact readerFaults_ended hvx
    · rw [hexec, if_pos ((holdsPort_iff r v).mpr ⟨b, hb⟩)]
  · have hexec : (portFreed s).eng[r].exec = some ⟨x, .reader c⟩ := by rw [portFreed_engine, hx]
    have hline := portFreed_lineOf s x
    have hend := readerFaults_ended (c := c) hexec
    rw [hline] at hend
    refine ⟨readerFaults r x c (portFreed s), ?_, hend⟩
    rw [exec_storeBurstEnd_goesOn hrel hport hws (burstEffect_read r ws s) hstop]
    simp only [afterBurst, hexec, readerBurstOver, hline, hg, hfail, if_true]

end Sys2Proof.Machine
end

section
/-! The end of an input read of a STEP (R87, R93, R94). -/

namespace Sys2Proof.Machine

/-! ### A STEP whose result write has failed -/

section
variable {s : State} {r : Ring} {x : Record} {c : StepCtx} (hx : s.eng[r].exec = some ⟨x, .stepping c⟩)
  (hf : c.wrFailed = true)
include hx hf

/-- It begins nothing more (R94). -/
theorem pumpStep_failed : pumpStep r s = finishStep r s := by
  have hwrite : writeStep r s = s := by
    unfold writeStep
    simp only [hx]
    split
    · rfl
    · exact if_neg (by simp [hf])
  have hcommit : commitStep r s = s := by
    unfold commitStep
    simp only [hx]
    split
    · exact if_neg (by simp [hf])
    · rfl
  unfold pumpStep
  rw [hwrite, hcommit]

theorem finishStep_failed : finishStep r s =
    if s.eng[r].rd.isNone && !holdsPort r s then
      finish r x (about .hostFault x (s.lineOf x) c.written c.unfDone (s.lineOf x).seq) s
    else s := by
  unfold finishStep
  simp only [hx]
  exact if_pos hf

/-- With no input read and no burst under way it ends with the steps written (R94). -/
theorem finishStep_failed_ended (hrd : s.eng[r].rd = none) (hq : ∀ b, s.sc.port ≠ .burst r b) :
    Ended r x (about .hostFault x (s.lineOf x) c.written c.unfDone (s.lineOf x).seq) (release r x.lineIx s)
      (finishStep r s) := by
  have hquiet : holdsPort r s = false := Bool.eq_false_iff.mpr fun h => ((holdsPort_iff r s).mp h).elim hq
  rw [finishStep_failed hx hf, if_pos (by rw [hrd, hquiet]; rfl)]
  exact finish_ended hx _

/-- An input read in flight and a granted burst are waited for (R94). -/
theorem finishStep_failed_waits (h : s.eng[r].rd.isSome ∨ ∃ b, s.sc.port = .burst r b) : finishStep r s = s := by
  rw [← holdsPort_iff] at h
  rw [finishStep_failed hx hf]
  refine if_neg fun hn => ?_
  rw [Bool.and_eq_true, Option.isNone_iff_eq_none, Bool.not_eq_true'] at hn
  rw [hn.1, hn.2] at h
  exact h.elim nofun nofun

end

/-! ### A STEP that has nothing to begin -/

section
variable {s : State} {r : Ring} {x : Record} {g : LineCfg} {c : StepCtx} (hx : s.eng[r].exec = some ⟨x, .stepping c⟩)
  (hf : c.wrFailed = false)
include hx hf

/-- Within a step it waits for the burst, or for the write that its results wait for (R88, R89). -/
theorem pumpStep_busy (h : c.stage = .committing ∨ c.stage = .reading ∨ (c.stage = .writing ∧ s.eng[r].wr.isSome)) :
    pumpStep r s = s := by
  have within : c.stage = .committing ∨ c.stage = .reading → pumpStep r s = s := fun hs => by
    have hready : c.stage ≠ .ready := by obtain hs | hs := hs <;> simp [hs]
    have hwriting : c.stage ≠ .writing := by obtain hs | hs := hs <;> simp [hs]
    unfold pumpStep
    rw [writeStep_idle hx fun hc => hwriting hc.1, commitStep_idle hx hready, finishStep_idle hx hf fun hc => hready hc.1]
  obtain hs | hs | ⟨hs, hw⟩ := h
  · exact within (.inl hs)
  · exact within (.inr hs)
  · exact pumpStep_waits hx hs hw hf

/-- Between two steps, without an input or behind its last step, it may end (R90, R93). -/
theorem pumpStep_between (hg : (s.lineOf x).cfg = some g) (hs : c.stage = .ready)
    (hi : c.inputs = [] ∨ ¬ c.committed < x.count.toNat) : pumpStep r s = finishStep r s := by
  rw [pumpStep_ready hx hg hs hf, commitsNext_idle hi]

/-- A STEP that has no input and can get none ends with the steps committed (R93). -/
theorem finishStep_noInput_ended (hs : c.stage = .ready) (hw : s.eng[r].wr = none) (hi : c.inputs = [])
    (hr : c.rdFailed = true) (hlt : c.committed < x.count.toNat) :
    Ended r x (about .hostFault x (s.lineOf x) c.committed c.unfDone (s.lineOf x).seq) (release r x.lineIx s)
      (finishStep r s) := by
  rw [finishStep_ready hx hf hs hw, if_neg (Nat.ne_of_lt hlt), if_pos ⟨hr, hi⟩]
  exact finish_ended hx _

end

/-! ### The input read is over -/

/-- Ring `r` at its STEP's progress `c`. -/
def inStep (r : Ring) (x : Record) (c : StepCtx) (s : State) : State :=
  withEng r { s.eng[r] with exec := some ⟨x, .stepping c⟩ } s

theorem inStep_self (r : Ring) (x : Record) (c : StepCtx) (s : State) :
    (inStep r x c s).eng[r] = { s.eng[r] with exec := some ⟨x, .stepping c⟩ } := withEng_self _ _ _

/-- The samples of an input read join the inputs (R87). -/
theorem takeInputs_joins {s : State} {r : Ring} {x : Record} {g : LineCfg} {c : StepCtx}
    (hx : s.eng[r].exec = some ⟨x, .stepping c⟩) (hg : (s.lineOf x).cfg = some g) (hf : c.wrFailed = false)
    (bytes : List Byte) :
    takeInputs r x c bytes s = inStep r x { c with inputs := c.inputs ++ g.fmt.wordsOf bytes } s := by
  simp only [takeInputs, hg, hf, Bool.false_eq_true, if_false]
  exact setPhase_eq hx _

/-- After a failed result write the samples are discarded (R94). -/
theorem takeInputs_discards {c : StepCtx} (hf : c.wrFailed = true) (r : Ring) (x : Record) (bytes : List Byte)
    (s : State) : takeInputs r x c bytes s = s := by
  simp only [takeInputs, hf, if_true]
  split <;> rfl

section
variable {s : State} {r : Ring} {x : Record} {rd : HostRead} {c : StepCtx} (hrel : Released s)
  (hs : s.eng[r].stop = none) (hrd : s.eng[r].rd = some rd) (hx : s.eng[r].exec = some ⟨x, .stepping c⟩)
include hrel hs hrd hx

/-- The samples of an input chunk have come (R87). -/
theorem exec_stepInputReadDone_goesOn {bytes : List Byte} (hd : CanDeliver rd s) (hlen : rd.len = bytes.length) :
    exec (.stepInputReadDone r bytes) s = .next (pumpStep r (takeInputs r x c bytes (readOver r s))) := by
  show execStepInputReadDone r bytes s = _
  simp only [execStepInputReadDone, whileReleased_eq hrel, stepper, hx, readCompletes_of hrd hd hlen, if_true,
    orStop_readOver hs]

/-- An input chunk could not be read (R93). -/
theorem exec_stepInputReadFailed_goesOn :
    exec (.stepInputReadFailed r) s = .next (pumpStep r (inStep r x { c with rdFailed := true } (readOver r s))) := by
  rw [inStep, ← setPhase_eq ((readOver_exec r s).trans hx)]
  show execStepInputReadFailed r s = _
  simp only [execStepInputReadFailed, stepInputReadFailed, whileReleased_eq hrel, stepper, hx, hrd, Option.isNone_some,
    Bool.false_eq_true, if_false, orStop_readOver hs]

end

/-- Settles O36: the samples are taken or the failure is noted, and the STEP does what its stage and its result write
allow. -/
theorem stepInputReadEnds : Obligations.StepInputReadEnds := by
  unfold Obligations.StepInputReadEnds
  intro s r x g c rd bytes hrel hx hstop hrd hg l u withCtx c' cf busy
  have hself := readOver_self r s
  have hux : (readOver r s).eng[r].exec = some ⟨x, .stepping c⟩ := by rw [hself, hx]
  have hin : ∀ c1, (inStep r x c1 (readOver r s)).eng[r] =
      { s.eng[r] with rd := none, exec := some ⟨x, .stepping c1⟩ } := fun c1 => by rw [inStep_self, hself]
  have hinx : ∀ c1, (inStep r x c1 (readOver r s)).eng[r].exec = some ⟨x, .stepping c1⟩ := fun c1 => by rw [hin]
  have hinwr : ∀ c1, (inStep r x c1 (readOver r s)).eng[r].wr = s.eng[r].wr := fun c1 => by rw [hin]
  have hfailed := exec_stepInputReadFailed_goesOn hrel hstop hrd hx
  refine ⟨fun hd hlen => ?_, fun hf hq => ?_, fun b hf hb => ?_, fun hf hs hi hw hlt => ?_, fun hf h => ?_⟩
  · have hdone := exec_stepInputReadDone_goesOn hrel hstop hrd hx hd hlen
    refine ⟨fun hf hs hi hlt => ?_, fun hf hbusy => ?_, fun hf hq => ?_, fun b hf hb => ?_⟩
    · rw [hdone, takeInputs_joins hux hg hf, pumpStep_ready (hinx c') hg hs hf,
        finishStep_commitsNext (hinx c') hf (.inr ⟨hi, hlt⟩)]
      rfl
    · rw [hdone, takeInputs_joins hux hg hf, pumpStep_busy (hinx c') hf (by rwa [hinwr])]
      rfl
    · rw [takeInputs_discards hf, pumpStep_failed hux hf] at hdone
      exact ⟨_, hdone, finishStep_failed_ended hux hf (by rw [hself]) hq⟩
    · rw [hdone, takeInputs_discards hf, pumpStep_failed hux hf, finishStep_failed_waits hux hf (.inr ⟨b, hb⟩)]
      rfl
  · rw [pumpStep_failed (hinx cf) hf] at hfailed
    exact ⟨_, hfailed, finishStep_failed_ended (c := cf) (hinx cf) hf (by rw [hin]) hq⟩
  · rw [hfailed, pumpStep_failed (hinx cf) hf, finishStep_failed_waits (hinx cf) hf (.inr ⟨b, hb⟩)]
    rfl
  · rw [pumpStep_between (hinx cf) hf hg hs (.inl hi)] at hfailed
    exact ⟨_, hfailed, finishStep_noInput_ended (c := cf) (hinx cf) hf hs ((hinwr cf).trans hw) hi rfl hlt⟩
  · obtain hbusy | ⟨hs, hi, hw⟩ := h
    · rw [hfailed, pumpStep_busy (hinx cf) hf (by rwa [hinwr])]
      rfl
    · have hwr : s.eng[r].wr ≠ none := Option.isSome_iff_ne_none.mp hw
      rw [hfailed, pumpStep_between (hinx cf) hf hg hs (.inl hi),
        finishStep_idle (hinx cf) hf fun hn => hwr ((hinwr cf).symm.trans hn.2)]
      rfl

end Sys2Proof.Machine
end

section
/-! The end of a result write of a STEP (R89, R90, R93, R94). -/

namespace Sys2Proof.Machine

/-! ### The result write is over -/

section
variable {s : State} {r : Ring} {x : Record} {w : HostWrite} {c : StepCtx} (hrel : Released s)
  (hs : s.eng[r].stop = none) (hw : s.eng[r].wr = some w) (hx : s.eng[r].exec = some ⟨x, .stepping c⟩)
include hrel hs hw hx

/-- The results of a step are written, and the step is counted (R89). -/
theorem exec_resultWriteCompleted_step (hc : CanComplete w s) :
    exec (.resultWriteCompleted r) s = .next (pumpStep r (inStep r x { c with
      written := c.written + 1, unfDone := c.unfDone + c.unfWr, unfWr := 0 } (writeOver r (writeReported w s)))) := by
  have he : (writeReported w s).eng[r] = s.eng[r] := by rw [writeReported_eng]
  have hx' := (writeOver_exec r (writeReported w s)).trans ((congrArg Engine.exec he).trans hx)
  rw [inStep, ← setPhase_eq hx']
  show execResultWriteCompleted r s = _
  simp only [execResultWriteCompleted, whileReleased_eq hrel, hw, (completes_iff s w).mpr hc, if_true, readerOf, stepper,
    hx, orStop_writeOver ((congrArg Engine.stop he).trans hs)]
  rfl

/-- The results of a step could not be written: a claim that waits is withdrawn (R94). -/
theorem exec_stepResultWriteFailed_goesOn (hc : ¬ CanComplete w s) :
    exec (.stepResultWriteFailed r) s = .next (finishStep r
      (inStep r x { c with wrFailed := true } ((writeOver r s).setClaim r none))) := by
  have hx' : ((writeOver r s).setClaim r none).eng[r].exec = some ⟨x, .stepping c⟩ := (writeOver_exec r s).trans hx
  rw [inStep, ← setPhase_eq hx']
  show execStepResultWriteFailed r s = _
  simp only [execStepResultWriteFailed, whileReleased_eq hrel, stepper, hx, writeHasFailed_of hw hc, if_true,
    orStop_writeOver hs]
  rfl

end

/-! ### The burst that a failed write waits for -/

/-- The end of a granted burst of a STEP whose result write has failed (R94; log 6). -/
theorem burstEnd_failed {s u : State} {r : Ring} {b : Burst} {x : Record} {g : LineCfg} {c : StepCtx} (hrel : Released s)
    (hstop : s.eng[r].stop = none) (hc : s.sc.claims[r] = none) (hport : s.sc.port = .burst r b)
    (hb : ∀ a ∈ b.words, a < 8388608) (hu : burstEffect r b s = u)
    (hself : u.eng[r] = { s.eng[r] with exec := some ⟨x, .stepping c⟩ }) (hsc : u.sc = s.sc)
    (hg : (u.lineOf x).cfg = some g) (hf : c.wrFailed = true) :
    (s.eng[r].rd.isSome → exec .storeBurstEnd s = .next (portFreed u)) ∧
    (s.eng[r].rd = none → ∃ t, exec .storeBurstEnd s = .next t ∧
      Ended r x (about .hostFault x (u.lineOf x) c.written c.unfDone (u.lineOf x).seq)
        (release r x.lineIx (portFreed u)) t) := by
  have he := (portFreed_engine u r).trans hself
  have hexec := congrArg Engine.exec he
  have hline := portFreed_lineOf u x
  have hafter : exec .storeBurstEnd s = .next (finishStep r (portFreed u)) := by
    rw [exec_storeBurstEnd_goesOn hrel hport hb hu (by rw [hself]; exact hstop)]
    simp only [afterBurst, hexec, stepBurstOver, hline, hg, hf, if_true]
  refine ⟨fun hrd => ?_, fun hrd => ⟨_, hafter, ?_⟩⟩
  · rw [hafter, finishStep_failed_waits hexec hf (.inl (by rwa [he]))]
  · have hend := finishStep_failed_ended hexec hf (by rwa [he]) (arbitrate_not_granted (by rwa [hsc]) rfl)
    rwa [hline] at hend

/-- Settles O39: a written step is counted and the STEP goes on or ends; a failed write ends it as soon as no input read and
no burst of it is under way. -/
theorem stepWriteEnds : Obligations.StepWriteEnds := by
  unfold Obligations.StepWriteEnds
  intro s r x g c hrel hx hstop hg l n fails
  refine ⟨fun w hw hc hf => ?_, fun w hw hc => ?_, fun hf hclaim => ?_⟩
  · intro c' u
    have hu : inStep r x c' (writeOver r (writeReported w s)) = u := by
      rw [inStep, writeOver_entered, withEng, writeReported_eng]
    have hself : u.eng[r] = { s.eng[r] with wr := none, exec := some ⟨x, .stepping c'⟩ } := vset_self _ _ _
    have hux : u.eng[r].exec = some ⟨x, .stepping c'⟩ := by rw [hself]
    have hwr : u.eng[r].wr = none := by rw [hself]
    have hline : u.lineOf x = l := congrArg (·[x.lineIx]) (writeReported_lines w s)
    have hug : (u.lineOf x).cfg = some g := hline ▸ hg
    have hexec := exec_resultWriteCompleted_step hrel hstop hw hx hc
    rw [hu] at hexec
    clear_value u
    refine ⟨fun hs heq => ?_, fun hs hlt hi hr => ?_, fun hs hlt hi hr => ?_, fun hs => ?_, fun hs => ?_⟩
    · rw [pumpStep_between hux hf hug hs (.inr (Nat.not_lt.mpr heq.ge)), finishStep_ready hux hf hs hwr,
        if_pos heq] at hexec
      refine ⟨_, hexec, ?_⟩
      rw [hline, show c'.committed = n from heq]
      exact finish_ended hux _
    · rw [pumpStep_between hux hf hug hs (.inl hi)] at hexec
      exact ⟨_, hexec, hline ▸ finishStep_noInput_ended hux hf hs hwr hi hr hlt⟩
    · rw [hexec, pumpStep_between hux hf hug hs (.inl hi), finishStep_ready hux hf hs hwr, if_neg (Nat.ne_of_lt hlt),
        if_neg (by simp [c', hr])]
    · rw [hexec, pumpStep_writes hux hug hs hwr hf]
    · rw [hexec, pumpStep_busy hux hf (hs.imp_right .inl)]
  · intro u
    have hu : inStep r x { c with wrFailed := true } ((writeOver r s).setClaim r none) = u :=
      writeOver_entered r x _ (s.setClaim r none)
    have hself : u.eng[r] = { s.eng[r] with wr := none, exec := some ⟨x, .stepping { c with wrFailed := true }⟩ } :=
      vset_self _ _ _
    have hux : u.eng[r].exec = some ⟨x, .stepping { c with wrFailed := true }⟩ := by rw [hself]
    have hexec := exec_stepResultWriteFailed_goesOn hrel hstop hw hx hc
    rw [hu] at hexec
    refine ⟨fun h => ?_, fun hrd hq => ⟨_, hexec, ?_⟩⟩
    · rw [hexec, finishStep_failed_waits hux rfl (by rwa [hself])]
    · exact finishStep_failed_ended (c := { c with wrFailed := true }) hux rfl (by rwa [hself]) hq
  · intro atEnd
    refine ⟨fun ws hport hws => ?_, fun a w hport ha => ?_⟩
    · exact burstEnd_failed hrel hstop hclaim hport hws (burstEffect_read r ws s) (by rw [← hx]) rfl hg hf
    · have hend := burstEnd_failed hrel hstop hclaim hport (by simpa [Burst.words] using ha)
        (burstEffect_step hx hg [(a, w)]) (burstCommitted_self _ _) rfl (g := g) (by rw [burstCommitted_lineOf]; exact hg) hf
      rw [burstCommitted_lineOf] at hend
      exact hend

end Sys2Proof.Machine
end

section
/-! POST and the reports of fetches (R100, R101, R104, R106, R114, R185). -/

namespace Sys2Proof.Machine

/-! ### Fetching -/

theorem Engine.size_eq {e : Engine} {g : RingCfg} (hg : e.cfg = some g) : e.size = g.size := by
  unfold Engine.size
  rw [hg]

/-- The conditions of R101. -/
theorem Engine.mayFetch_iff {e : Engine} {g : RingCfg} (hg : e.cfg = some g) :
    e.mayFetch = true ↔ e.state ≠ .disabled ∧ e.state ≠ .halted ∧ e.haltPending = false ∧ e.staged = none ∧
      e.fetch = none ∧ 1 ≤ (e.tail + g.size - e.head) % g.size := by
  simp [Engine.mayFetch, Engine.pendingRecords, Engine.size_eq hg, and_assoc]

theorem tryFetch_withEng {r : Ring} {s : State} {e : Engine} {g : RingCfg} {P : Prop} [Decidable P] (hg : e.cfg = some g)
    (hP : e.mayFetch = true ↔ P) : tryFetch r (withEng r e s) = withEng r { e with
      fetch := if P then some (s.hostRead (Addr.plus g.base (32 * e.head)) 32) else e.fetch } s := by
  have hlook : tryFetch r (withEng r e s) = if e.mayFetch then (withEng r e s).updEng r (fun e => { e with
      fetch := some (s.hostRead (Addr.plus g.base (32 * e.head)) 32) }) else withEng r e s := by
    unfold tryFetch
    rw [withEng_self, hg]
    rfl
  rw [hlook]
  by_cases h : P
  · rw [if_pos h, if_pos (hP.mpr h), State.updEng, withEng_self]
    exact withEng_withEng _ _ _ _
  · rw [if_neg h, if_neg (mt hP.mp h)]

/-- A ring whose tail and head are slots of it has a record pending when they differ (R99). -/
theorem pending_iff {tail head size : Nat} (ht : tail < size) (hh : head < size) :
    1 ≤ (tail + size - head) % size ↔ tail ≠ head := by
  rw [slot_distance ht hh]
  split <;> omega

/-! ### POST -/

theorem exec_post {s : State} {v : Word} {r : Ring} (h : Released s) (hr : r.val = v.toNat % 8) :
    exec (.post v) s = .next (takePost r (v.toNat / 65536) s) := by
  have hring : postRing v = r := Fin.ext (by simp [postRing, hr])
  show execPost v s = _
  rw [execPost, whileReleased_eq h, writePost, hring, upperHalf]

theorem takePost_refused {s : State} {r : Ring} {n : Nat}
    (h : s.eng[r].state = .disabled ∨ s.eng[r].state = .halted ∨ ∀ g, s.eng[r].cfg = some g → g.size ≤ n) :
    takePost r n s = reportFault .badPost r.val s := by
  unfold takePost
  dsimp only
  split
  · rfl
  · rename_i hd
    refine if_pos ?_
    cases hg : s.eng[r].cfg with
    | none => simp [-Fin.getElem_fin, Engine.size, hg]
    | some g =>
      rw [Engine.size_eq hg]
      exact (h.resolve_left (fun h => hd (.inl h))).resolve_left (fun h => hd (.inr h)) g hg

/-- An engine that has taken a POST: an IDLE one that has a record now is woken (R100). -/
def Engine.withTail (n : Nat) (e : Engine) : Engine :=
  { e with tail := n, state := if e.state = .idle ∧ n ≠ e.head then .active else e.state }

section
variable {e : Engine} {n : Nat} {g : RingCfg} (hg : e.cfg = some g) (hd : e.state ≠ .disabled) (hh : e.state ≠ .halted)
  (hn : n < g.size) (hs : e.head < g.size)
include hg hd hh hn hs

/-- Behind a POST the engine fetches if it could before and the new tail is not its head (R101). -/
theorem Engine.mayFetch_withTail : (e.withTail n).mayFetch = true ↔
    e.haltPending = false ∧ e.staged = none ∧ e.fetch = none ∧ n ≠ e.head := by
  have hstate : (e.withTail n).state ≠ .disabled ∧ (e.withTail n).state ≠ .halted := by
    unfold Engine.withTail
    dsimp only
    split
    · exact ⟨EngState.noConfusion, EngState.noConfusion⟩
    · exact ⟨hd, hh⟩
  rw [Engine.mayFetch_iff (e := e.withTail n) hg]
  simp only [hstate, ne_eq, not_false_eq_true, true_and]
  exact and_congr_right fun _ => and_congr_right fun _ => and_congr_right fun _ => pending_iff hn hs

end

theorem takePost_taken {s : State} {r : Ring} {n : Nat} {g : RingCfg} (hg : s.eng[r].cfg = some g)
    (hd : s.eng[r].state ≠ .disabled) (hh : s.eng[r].state ≠ .halted) (hn : n < g.size) (hs : s.eng[r].head < g.size) :
    takePost r n s = tryFetch r (withEng r (s.eng[r].withTail n) s) := by
  have hsize : ¬ s.eng[r].size ≤ n := by rw [Engine.size_eq hg]; exact Nat.not_le.mpr hn
  unfold takePost
  dsimp only
  rw [if_neg (not_or.mpr ⟨hd, hh⟩), if_neg hsize]
  by_cases hi : s.eng[r].state = .idle
  · by_cases he : n = s.eng[r].head
    · have hkeep : s.eng[r].withTail n = { s.eng[r] with tail := n } := by
        unfold Engine.withTail
        rw [if_neg fun h => h.2 he]
      rw [if_pos hi, if_pos he, tryFetch_withEng (e := s.eng[r].withTail n) hg (Engine.mayFetch_withTail hg hd hh hn hs),
        if_neg (fun h => h.2.2.2 he), hkeep]
      rfl
    · have hwake : s.eng[r].withTail n = { s.eng[r] with tail := n, state := .active } := by
        unfold Engine.withTail
        rw [if_pos ⟨hi, he⟩]
      rw [if_pos hi, if_neg he, State.updEng_updEng, hwake]
      rfl
  · have hkeep : s.eng[r].withTail n = { s.eng[r] with tail := n } := by
      unfold Engine.withTail
      rw [if_neg fun h => hi h.1]
    rw [if_neg hi, hkeep]
    rfl

/-- Settles O13: a POST is refused, or sets the tail and lets the engine fetch. -/
theorem postSetsTail : Obligations.PostSetsTail := by
  unfold Obligations.PostSetsTail
  intro s v r hrel hr e n
  refine ⟨fun h => ⟨_, exec_post hrel hr, ?_⟩, fun g hg hd hh hn hs => ?_⟩
  · rw [takePost_refused h]
    exact reportFault_reported _ _ s
  · rw [exec_post hrel hr, takePost_taken hg hd hh hn hs,
      tryFetch_withEng (e := e.withTail n) hg (Engine.mayFetch_withTail hg hd hh hn hs)]
    rfl

/-! ### The report of a fetch -/

theorem delivers_of {rd : HostRead} {s : State} (h : CanDeliver rd s) : s.delivers rd = true := by
  simp [State.delivers, h.1, h.2]

/-- Ring `r`'s engine with its fetch over (R101, R106). -/
def fetchOver (r : Ring) (s : State) : State := s.updEng r (fun e => { e with fetch := none })

theorem fetchOver_self (r : Ring) (s : State) : (fetchOver r s).eng[r] = { s.eng[r] with fetch := none } := updEng_self _ _ _

theorem exec_fetchDone {s : State} {r : Ring} {rd : HostRead} (h : Released s) (hf : s.eng[r].fetch = some rd)
    (hd : CanDeliver rd s) (b : BitVec 256) : exec (.fetchDone r b) s = .next (fetchDone r b s) := by
  show execFetchDone r b s = _
  rw [execFetchDone, whileReleased_eq h, hf]
  exact if_pos (delivers_of hd)

theorem exec_fetchFailed {s : State} {r : Ring} (h : Released s) :
    exec (.fetchFailed r) s = .next (fetchFailed r s) :=
  whileReleased_eq h fun s => .next (fetchFailed r s)

/-- A HALTED engine and one that is being reset or restarted discard what a fetch reports (R114, R115). -/
def Engine.discards (e : Engine) : Prop :=
  e.state = .halted ∨ e.stop = some .ringReset ∨ e.stop = some .restart

theorem Engine.not_discards {e : Engine} (hh : e.state ≠ .halted) (hs : e.stop = none ∨ e.stop = some .noticeHalt) :
    ¬ e.discards := by
  unfold Engine.discards
  obtain hs | hs := hs <;> simp [hs, hh]

section
variable {s : State} {r : Ring}

theorem fetchDone_discarded (h : s.eng[r].discards) (b : BitVec 256) : fetchDone r b s = tryStop r (fetchOver r s) :=
  if_pos h

theorem fetchFailed_discarded {rd : HostRead} (hf : s.eng[r].fetch = some rd) (h : s.eng[r].discards) :
    fetchFailed r s = tryStop r (fetchOver r s) := by
  unfold fetchFailed
  rw [hf]
  exact if_pos h

theorem tryStop_of_none (h : s.eng[r].stop = none) : tryStop r s = s := by
  unfold tryStop tryRestart
  split
  · rename_i h0
    subst h0
    rw [h]
    rfl
  · rw [h]

/-- An engine that has something under way stages the record (R104). -/
theorem fetchDone_staged {g : RingCfg} (hg : s.eng[r].cfg = some g) (h : ¬ s.eng[r].discards)
    (hx : s.eng[r].exec.isSome ∨ s.eng[r].state = .waitCq) (b : BitVec 256) :
    fetchDone r b s = withEng r { s.eng[r] with
      fetch := none, head := (s.eng[r].head + 1) % g.size, staged := some (Record.ofBytes b) } s := by
  have hbusy : ¬ (s.eng[r].exec.isNone && s.eng[r].state != .waitCq) = true := by
    obtain hx | hx := hx
    · simp [-Fin.getElem_fin, Option.isNone_eq_false_iff.mpr hx]
    · simp [-Fin.getElem_fin, hx]
  refine (if_neg h).trans ?_
  dsimp only
  rw [if_neg hbusy, State.updEng_updEng, State.updEng_updEng, ← Engine.size_eq hg]
  rfl

/-- An engine that executes the record it has fetched (R104). -/
def Engine.begun (x : Record) (head : Nat) (e : Engine) : Engine :=
  { e with fetch := none, head := head, state := .active, exec := some ⟨x, .fresh⟩, staged := none }

theorem Engine.mayFetch_begun {e : Engine} {g : RingCfg} (hg : e.cfg = some g) (x : Record) (head : Nat) :
    (e.begun x head).mayFetch = true ↔ e.haltPending = false ∧ 1 ≤ (e.tail + g.size - head) % g.size := by
  rw [Engine.mayFetch_iff (e := e.begun x head) hg]
  simp [Engine.begun]

/-- An engine that holds nothing executes the record at once and fetches on (R104; log 40). -/
theorem fetchDone_executed {g : RingCfg} (hg : s.eng[r].cfg = some g) (h : ¬ s.eng[r].discards)
    (hx : s.eng[r].exec = none) (hw : s.eng[r].state ≠ .waitCq) (b : BitVec 256) :
    fetchDone r b s =
      tryFetch r (withEng r (s.eng[r].begun (Record.ofBytes b) ((s.eng[r].head + 1) % g.size)) s) := by
  have hfree : (s.eng[r].exec.isNone && s.eng[r].state != .waitCq) = true := by simp [-Fin.getElem_fin, hx, hw]
  refine (if_neg h).trans ?_
  rw [if_pos hfree, execStaged, State.updEng_updEng, State.updEng_updEng, ← Engine.size_eq hg]
  rfl

end

/-- Settles O15: the record is discarded by a HALTED engine, staged behind a command, and executed by an engine that holds
nothing. -/
theorem fetchStagesRecord : Obligations.FetchStagesRecord := by
  unfold Obligations.FetchStagesRecord
  intro s r rd g b hrel hf hd hg hs e x head
  rw [exec_fetchDone hrel hf hd]
  refine ⟨fun hh hstop => ?_, fun hh hx => ?_, fun hh hw hx => ?_⟩
  · rw [fetchDone_discarded (.inl hh), tryStop_of_none (by rw [fetchOver_self]; exact hstop)]
    rfl
  · rw [fetchDone_staged hg (Engine.not_discards hh hs) hx]
    rfl
  · rw [fetchDone_executed hg (Engine.not_discards hh hs) hx hw]
    exact congrArg _ (tryFetch_withEng (e := e.begun x head) hg (Engine.mayFetch_begun hg x head))

/-! ### The failure of a fetch -/

/-- A fault's report does not look at the engines. -/
theorem reportFault_updEng (code : FaultCode) (n : Nat) (r : Ring) (f : Engine → Engine) (s : State) :
    reportFault code n (s.updEng r f) = (reportFault code n s).updEng r f := by
  unfold reportFault sendMessage
  rw [apply_ite (fun t => State.updEng t r f), apply_ite (fun t => State.updEng t r f)]
  rfl

theorem reportFault_halt (code : FaultCode) (n : Nat) (r : Ring) (s : State) :
    reportFault code n (halt r s) = halt r (reportFault code n s) := by
  unfold reportFault sendMessage
  rw [apply_ite (halt r), apply_ite (halt r)]
  rfl

section
variable {s : State} {r : Ring} {rd : HostRead} (hf : s.eng[r].fetch = some rd) (h : ¬ s.eng[r].discards)
include hf h

theorem fetchFailed_reported : fetchFailed r s = haltCause r (reportFault .fetchFault r.val (fetchOver r s)) := by
  unfold fetchFailed
  rw [hf]
  exact if_neg h

/-- Behind a command or its claim the engine is halt-pending (R106). -/
theorem fetchFailed_pends (hx : s.eng[r].exec.isSome ∨ s.eng[r].state = .waitCq) :
    fetchFailed r s = reportFault .fetchFault r.val (withEng r { s.eng[r] with fetch := none, haltPending := true } s) := by
  have hself : (reportFault .fetchFault r.val (fetchOver r s)).eng[r] = { s.eng[r] with fetch := none } :=
    ((reportFault_kept _ _ _).get r).trans (fetchOver_self r s)
  have hbusy : (s.eng[r].exec.isSome || s.eng[r].state == .waitCq) = true := by simpa [-Fin.getElem_fin] using hx
  rw [fetchFailed_reported hf h, haltCause, hself, if_pos hbusy, ← reportFault_updEng, fetchOver, State.updEng_updEng]
  rfl

/-- An engine that holds nothing halts at once (R106, R114). -/
theorem fetchFailed_halts (hx : s.eng[r].exec = none) (hw : s.eng[r].state ≠ .waitCq) (hs : s.eng[r].stop = none) :
    fetchFailed r s = reportFault .fetchFault r.val (Stopped r (fetchOver r s)) := by
  have hself : (reportFault .fetchFault r.val (fetchOver r s)).eng[r] = { s.eng[r] with fetch := none } :=
    ((reportFault_kept _ _ _).get r).trans (fetchOver_self r s)
  have hfree : ¬ (s.eng[r].exec.isSome || s.eng[r].state == .waitCq) = true := by simp [-Fin.getElem_fin, hx, hw]
  rw [fetchFailed_reported hf h, haltCause, hself, if_neg hfree, hs, ← halt_eq, reportFault_halt]
  rfl

end

/-- Settles O16: the failure is discarded by a HALTED engine; any other reports it and halts, behind its command if it has
one. -/
theorem fetchFailureHalts : Obligations.FetchFailureHalts := by
  unfold Obligations.FetchFailureHalts
  intro s r rd hrel hf hs e u
  rw [exec_fetchFailed hrel]
  refine ⟨fun hh hstop => ?_, fun hh hx => ⟨_, rfl, ?_⟩, fun hh hw hx hstop => ⟨_, rfl, ?_⟩⟩
  · rw [fetchFailed_discarded hf (.inl hh), tryStop_of_none (by rw [fetchOver_self]; exact hstop)]
    rfl
  · rw [fetchFailed_pends hf (Engine.not_discards hh hs) hx]
    exact reportFault_reported _ _ _
  · rw [fetchFailed_halts hf (Engine.not_discards hh hs) hx hw hstop]
    exact reportFault_reported _ _ _

end Sys2Proof.Machine
end

section
/-! Guards that refuse or skip a command (R107), and MARK (R142, R143, R144). -/

namespace Sys2Proof.Machine

/-! ### Guards -/

/-- The codes of the guards are 0 to 4 (R107, R186). -/
theorem Guard.ofCode_eq_none {c : BitVec 4} (h : 5 ≤ c.toNat) : Guard.ofCode c = none := by
  unfold Guard.ofCode
  split
  case h_6 => rfl
  all_goals omega

/-- A guard that is not met asks for a flag that stands otherwise (R107). -/
theorem Guard.not_met {c : BitVec 4} {lastOk test : Bool} (h : c.toNat < 5)
    (hm : ¬ (c.toNat = 0 ∨ c.toNat = 1 ∧ lastOk = true ∨ c.toNat = 2 ∧ lastOk = false ∨ c.toNat = 3 ∧ test = true ∨
      c.toNat = 4 ∧ test = false)) : ∃ g, Guard.ofCode c = some g ∧ g.met lastOk test = false := by
  unfold Guard.ofCode
  split
  case h_1 hc => exact absurd (.inl hc) hm
  case h_6 =>
    simp only [imp_false] at *
    omega
  all_goals
    rename_i hc
    simp [hc] at hm
    simp [Guard.met, hm]

section
variable {s : State} {r : Ring} {x : Record}

theorem guarded_refused (h : 5 ≤ x.guardCode.toNat) (k : State → State) :
    guarded r x k s = endCommand r (plain .badParam x) s := by
  rw [guarded, Guard.ofCode_eq_none h]
  rfl

theorem guarded_skipped {g : Guard} (hg : Guard.ofCode x.guardCode = some g)
    (hm : g.met s.eng[r].lastOk s.eng[r].test = false) (k : State → State) :
    guarded r x k s = endCommand r (plain .skipped x) s := by
  rw [guarded, hg]
  exact if_neg (by simp [-Fin.getElem_fin, hm])

/-- The row of a record's kind on its ring evaluates the guard first (R107). -/
theorem exec_row_guarded (h : Released s) (hx : Executes r x s) {k : Kind} (hk : Kind.ofCode x.kind = some k)
    (hr : k.isControl = true → r = 0) : ∃ body, exec (k.row r) s = .next (guarded r x body s) := by
  have row : ∀ body, exec (k.row r) s = whileReleased s (fun s => .next (runKind r k body s)) →
      ∃ body, exec (k.row r) s = .next (guarded r x body s) := fun body he => by
    refine ⟨body x, he.trans ((whileReleased_eq h _).trans ?_)⟩
    rw [runKind, (freshRecord_iff r x s).mpr hx]
    exact congrArg _ (if_pos hk)
  cases k
  case openLine | closeLine | setTaps | push | clear | test | gather | readSpan | step | mark => exact row _ rfl
  all_goals
    obtain rfl := hr rfl
    exact row _ rfl

theorem exec_unknownKind_guarded (h : Released s) (hx : Executes r x s) (hk : x.kindOfRing r = false) :
    ∃ body, exec (.unknownKindRecord r) s = .next (guarded r x body s) := by
  refine ⟨endCommand r (plain .badKind x), ?_⟩
  show execUnknownKindRecord r s = _
  simp only [execUnknownKindRecord, whileReleased_eq h, (freshRecord_iff r x s).mpr hx, hk, Bool.false_eq_true, if_false]
  rfl

end

/-- Settles O17: the row of a record evaluates the guard before anything of its kind. -/
theorem guardsRefuseOrSkip : Obligations.GuardsRefuseOrSkip := by
  unfold Obligations.GuardsRefuseOrSkip
  intro s r x hrel hx c hc code met
  have hexec : ∃ body, exec c s = .next (guarded r x body s) := by
    obtain ⟨rfl, hk⟩ | ⟨k, hk, rfl, hr⟩ := hc
    · exact exec_unknownKind_guarded hrel hx hk
    · exact exec_row_guarded hrel hx hk hr
  obtain ⟨body, hexec⟩ := hexec
  refine ⟨fun h => ⟨_, hexec, ?_⟩, fun h hm => ⟨_, hexec, ?_⟩⟩
  · rw [guarded_refused h]
    exact endCommand_ended hx _
  · obtain ⟨g, hg, hm⟩ := Guard.not_met h hm
    rw [guarded_skipped hg hm]
    exact endCommand_ended hx _

/-! ### MARK -/

theorem exec_mark {s : State} {r : Ring} {x : Record} (h : Begins r .mark x s) (h0 : r ≠ 0) :
    exec (.mark r) s = .next (runMark r x s) := by
  show execMark r s = _
  rw [execMark, whileReleased_eq h.1, runKind_eq h, onLineRing, if_neg h0]

/-- With no strobe owed, the ring is armed and waits (R143). -/
theorem carryOutMark_waits {s : State} {r : Ring} {x : Record} (hx : Executes r x s) (ho : s.fu.pace[r].owed = 0) :
    carryOutMark r x s = withEng r { s.eng[r] with state := .waitFrame, exec := some ⟨x, .waitFrame⟩ }
      (s.updPace r (fun p => { p with armed := true })) := by
  have harmed : s.updPace r (fun p => { p with armed := true, owed := p.owed - 1 }) =
      s.updPace r (fun p => { p with armed := true }) := by
    simp only [State.updPace, ho]
  unfold carryOutMark
  rw [if_pos ho, harmed]
  dsimp only
  rw [setPhase_eq (s := s.updPace r _) hx, State.updEng, withEng_self]
  exact withEng_withEng _ _ _ _

/-- Settles O40: the ring's class, then its owed strobes decide. -/
theorem markConsumesOrWaits : Obligations.MarkConsumesOrWaits := by
  unfold Obligations.MarkConsumesOrWaits
  intro s r x g h h0 hg p paced
  have hx : s.eng[r].exec = some ⟨x, .fresh⟩ := h.2.1
  have hclass : s.classOf r = g.cls := by
    unfold State.classOf
    rw [hg]
    rfl
  rw [exec_mark h h0, runMark, hclass]
  refine ⟨fun hc => ⟨_, rfl, ?_⟩, fun hc ho => ⟨_, rfl, ?_⟩, fun hc ho => ?_⟩
  · rw [if_neg hc]
    exact endCommand_ended hx _
  · rw [if_pos hc, carryOutMark, if_neg (Nat.ne_of_gt ho)]
    exact endCommand_ended (s := paced { p with armed := true, owed := p.owed - 1 }) hx _
  · rw [if_pos hc, carryOutMark_waits hx ho]
    rfl

/-! ### CONFIGURE RING -/

/-- A line ring's number is in the range of the checks, and stands for the ring (R156). -/
theorem Record.namesLineRing_of {x : Record} {r : Ring} (hr : r ≠ 0) (h : x.paramA.toNat = r.val) :
    x.namesLineRing = true ∧ x.ringA = r := by
  have hlt := r.isLt
  have hpos : r.val ≠ 0 := fun h => hr (Fin.ext h)
  simp only [Record.namesLineRing, Record.ringA, h, Fin.ext_iff, Fin.ofNat, Bool.and_eq_true, decide_eq_true_eq]
  omega

/-- A completion ring's number, as a field of 32 or 64 bits gives it. -/
theorem CqIx.ofNat_val (q : CqIx) : (Fin.ofNat 4 q.val : CqIx) = q := by
  simp

theorem isRingSize_of {n : Nat} (h : n ∈ [16, 32, 64, 128, 256, 512, 1024, 2048, 4096]) : isRingSize n = true :=
  List.elem_iff.mpr h

theorem RingClass.ofCode_of_code {c : BitVec 16} {cls : RingClass} (h : c.toNat = cls.code) :
    RingClass.ofCode c = some cls := by
  unfold RingClass.ofCode
  cases cls <;> simp only [h, RingClass.code]

section
variable {s : State} {x : Record} {r : Ring} {q : CqIx} {cls : RingClass}

theorem checkConfigureRing_passed (hr : r ≠ 0) (ha : x.paramA.toNat = r.val) (hd : s.eng[r].state = .disabled)
    (haddr : x.addr.toNat % 64 = 0) (hn : isRingSize x.count.toNat = true) (hb : RingClass.ofCode x.paramB = some cls)
    (hq : q ≠ 0) (hc : x.paramC.toNat = q.val) (hcfg : s.cq[q].cfg.isSome) : checkConfigureRing x s = none := by
  obtain ⟨hnames, rfl⟩ := Record.namesLineRing_of hr ha
  have hrange : 1 ≤ x.paramC.toNat ∧ x.paramC.toNat ≤ 3 := by
    have hlt := q.isLt
    have hpos : q.val ≠ 0 := fun h => hq (Fin.ext h)
    omega
  obtain rfl : x.cqC = q := by rw [Record.cqC, hc, CqIx.ofNat_val]
  unfold checkConfigureRing
  rw [hb, hd]
  simp [-Fin.getElem_fin, refuseIf, hnames, (alignedTo_iff 64 x.addr).mpr haddr, hn, hrange, hcfg]

/-- The checks of CONFIGURE COMPLETION RING are passed (R158). -/
theorem checkConfigureCq_passed (hq : q ≠ 0) (ha : x.paramA.toNat = q.val)
    (hfree : ∀ r : Ring, r ≠ 0 → s.eng[r].state ≠ .disabled → s.eng[r].cfg.map (·.cq) ≠ some q)
    (haddr : x.addr.toNat % 64 = 0) (hn : isRingSize x.count.toNat = true) (h1 : 1 ≤ x.paramB.toNat)
    (h255 : x.paramB.toNat ≤ 255) (hh : x.paramC.toNat ≤ 255) : checkConfigureCq x s = none := by
  have hcq : x.cqA = q := by rw [Record.cqA, ha, CqIx.ofNat_val]
  have hrange : 1 ≤ x.paramA.toNat ∧ x.paramA.toNat ≤ 3 := by
    have hlt := q.isLt
    have hpos : q.val ≠ 0 := fun h => hq (Fin.ext h)
    omega
  have huse : cqInUse q s = false := by
    rw [cqInUse, List.any_eq_false]
    intro r hr
    have hr0 : r ≠ 0 := by
      rintro rfl
      exact absurd hr (by decide)
    simpa [-Fin.getElem_fin, -Option.map_eq_some_iff] using hfree r hr0
  unfold checkConfigureCq
  rw [hcq, huse]
  simp [-Fin.getElem_fin, refuseIf, (alignedTo_iff 64 x.addr).mpr haddr, hn, hrange, h1, h255, hh]

end

/-- A CONFIGURE COMPLETION RING that meets no write in flight sets the ring and ends (R135). -/
theorem configureCq_sets {s : State} {x : Record} (hi : s.cq[x.cqA].inflight = none) :
    configureCq x s = endControl (plain .ok x) (CqSet x.cqA x s) := by
  rw [configureCq, hi]
  rfl

/-- Settles O44: the checks are passed, and the engine or the completion ring is set, or waits for a write in flight. -/
theorem ringsConfigured : Obligations.RingsConfigured := by
  unfold Obligations.RingsConfigured
  refine ⟨fun s x r q cls h hr ha hd haddr hn hb hq hc hcfg => ⟨_, exec_control h (checkConfigureRing_passed hr ha hd haddr
    (isRingSize_of hn) (RingClass.ofCode_of_code hb) hq hc hcfg), ?_⟩, fun s x q h hq ha hfree haddr hn h1 h255 hh => ?_⟩
  · obtain ⟨-, rfl⟩ := Record.namesLineRing_of hr ha
    have hx : s.eng[(0 : Ring)].exec = some ⟨x, .fresh⟩ := h.2.1
    unfold configureRing
    rw [RingClass.ofCode_of_code hb, Record.cqC, hc, CqIx.ofNat_val]
    refine endCommand_ended (e := ⟨x, .fresh⟩) (Eq.trans ?_ hx) _
    exact congrArg Engine.exec (updEng_others hr.symm (fun _ => _) s)
  · obtain rfl : x.cqA = q := by rw [Record.cqA, ha, CqIx.ofNat_val]
    have hexec : exec .configureCompletionRing s = .next (configureCq x s) :=
      exec_control h (checkConfigureCq_passed hq ha hfree haddr (isRingSize_of hn) h1 h255 hh)
    have hx : (CqSet x.cqA x s).eng[(0 : Ring)].exec = some ⟨x, .fresh⟩ := h.2.1
    rw [hexec]
    refine ⟨fun hi hs => ⟨_, rfl, ?_⟩, fun hi => ?_⟩
    · rw [configureCq_sets hi]
      exact (endControl_cases hx _).1 hs
    · rw [configureCq, if_pos hi, setPhase_eq h.2.1]
      rfl

end Sys2Proof.Machine
end

section
/-! A completion ring behind the report of a posted record: the posting is counted, a held RETIRE is taken (R121, R125, R128,
R131, R132). -/

namespace Sys2Proof.Machine

/-! ### What changes of a completion ring -/

/-- From `s` to `t` claims of completion ring `q` were taken, served or withdrawn; nothing else of it has changed. -/
def OnlyClaims (q : CqIx) (s t : State) : Prop :=
  t.cq[q] = { s.cq[q] with inflight := t.cq[q].inflight, queue := t.cq[q].queue }

section
variable {q : CqIx} {s t u : State}

theorem OnlyClaims.of_cq (h : t.cq = s.cq) : OnlyClaims q s t := by
  unfold OnlyClaims
  rw [h]

theorem OnlyClaims.trans (h : OnlyClaims q s t) (k : OnlyClaims q t u) : OnlyClaims q s u := by
  unfold OnlyClaims at *
  rw [k, h]

theorem updCq_onlyClaims (p : CqIx) {f : Cq → Cq}
    (hf : f s.cq[p] = { s.cq[p] with inflight := (f s.cq[p]).inflight, queue := (f s.cq[p]).queue }) :
    OnlyClaims q s (s.updCq p f) := by
  unfold OnlyClaims
  rw [State.updCq_get]
  split
  · rename_i h
    subst h
    exact hf
  · rfl

variable (s)

theorem takeWrite_onlyClaims (a : Addr) (d : List Byte) : OnlyClaims q s (s.takeWrite a d) := .of_cq rfl

theorem issueRecord_onlyClaims (p : CqIx) (c : Claim) : OnlyClaims q s (issueRecord p c s) := by
  unfold issueRecord
  split
  · exact .of_cq rfl
  · exact (updCq_onlyClaims p rfl).trans (takeWrite_onlyClaims _ _ _)

theorem takeClaim_onlyClaims (p : CqIx) (c : Claim) : OnlyClaims q s (takeClaim p c s) := by
  unfold takeClaim
  split
  · exact issueRecord_onlyClaims s p c
  · exact updCq_onlyClaims p rfl

theorem serveQueue_onlyClaims (p : CqIx) : OnlyClaims q s (serveQueue p s) := by
  unfold serveQueue
  repeat' split
  · exact .of_cq rfl
  · exact (updCq_onlyClaims p rfl).trans (issueRecord_onlyClaims _ p _)
  · exact .of_cq rfl

theorem withdrawClaims_onlyClaims (p : CqIx) (f : Claim → Bool) : OnlyClaims q s (withdrawClaims p f s) := by
  unfold withdrawClaims
  split
  · exact (updCq_onlyClaims p rfl).trans (serveQueue_onlyClaims _ p)
  · exact .of_cq rfl

theorem discardPacing_onlyClaims (r : Ring) : OnlyClaims q s (discardPacing r s) := by
  refine OnlyClaims.trans (t := discardNotice r s) ?_ (.of_cq rfl)
  unfold discardNotice
  split
  · exact .of_cq rfl
  · exact (updCq_onlyClaims _ rfl).trans (withdrawClaims_onlyClaims _ _ _)

theorem goOn_onlyClaims (r : Ring) : OnlyClaims q s (goOn r s) := .of_cq (by rw [goOn_frame])

theorem endCommand_onlyClaims (r : Ring) (res : Result) : OnlyClaims q s (endCommand r res s) := by
  have claimed : ∀ f p c, OnlyClaims q s (takeClaim p c (s.updEng r f)) := fun f p c =>
    (OnlyClaims.of_cq (t := s.updEng r f) rfl).trans (takeClaim_onlyClaims _ p c)
  unfold endCommand
  dsimp only
  repeat' split
  · exact .of_cq rfl
  · exact (OnlyClaims.of_cq rfl).trans (goOn_onlyClaims _ r)
  · exact .of_cq rfl
  · rw [State.updEng_updEng]
    exact claimed _ _ _

theorem dropClaim_onlyClaims (r : Ring) : OnlyClaims q s (dropClaim r s) := by
  unfold dropClaim
  dsimp only
  repeat' split
  · exact .of_cq rfl
  · exact (OnlyClaims.of_cq rfl).trans (withdrawClaims_onlyClaims _ _ _)
  · exact .of_cq rfl

/-- A restart of ring 0 whose command is gone touches the claims of the other completion rings only. -/
theorem tryRestart_onlyClaims (hq : q ≠ 0) (hx : s.eng[(0 : Ring)].exec = none) : OnlyClaims q s (tryRestart s) := by
  have hunwind : OnlyClaims q s (unwind 0 s) := by
    have hdrop : dropCommand 0 (s.updEng 0 (fun e => { e with staged := none })) =
        s.updEng 0 (fun e => { e with staged := none }) := by
      unfold dropCommand
      rw [updEng_self]
      dsimp only
      rw [hx]
    unfold unwind
    rw [hdrop]
    exact (OnlyClaims.of_cq rfl).trans (dropClaim_onlyClaims _ 0)
  have hfinish : OnlyClaims q (unwind 0 s) (finishRestart (unwind 0 s)) := by
    have hget : (finishRestart (unwind 0 s)).cq[q] = (unwind 0 s).cq[q] := by
      show ((unwind 0 s).updCq 0 (fun x => Cq.fresh x.cfg)).cq[q] = _
      rw [State.updCq_get, if_neg hq]
    unfold OnlyClaims
    rw [hget]
  unfold tryRestart
  dsimp only
  repeat' split
  · exact hunwind.trans hfinish
  · exact hunwind
  · exact .of_cq rfl

theorem endControl_onlyClaims (hq : q ≠ 0) (res : Result) : OnlyClaims q s (endControl res s) := by
  unfold endControl
  split
  · exact (OnlyClaims.of_cq rfl).trans (tryRestart_onlyClaims _ hq (congrArg Engine.exec (updEng_self 0 _ s)))
  · exact endCommand_onlyClaims s 0 res

theorem finishReset_onlyClaims (hq : q ≠ 0) (r : Ring) : OnlyClaims q s (finishReset r s) := by
  unfold finishReset targetStopped
  refine OnlyClaims.trans (t := s.updEng r (fun _ => Engine.resetValue)) (.of_cq rfl) ?_
  dsimp only
  repeat' split
  · exact endControl_onlyClaims _ hq _
  · exact .of_cq rfl
  · exact .of_cq rfl

end

/-! ### Counting and RETIRE -/

theorem Cq.size_eq {c : Cq} {g : CqCfg} (hg : c.cfg = some g) : c.size = g.size := by
  unfold Cq.size
  rw [hg]

section
variable {q : CqIx} {g : CqCfg} {s : State}

/-- The record is posted (R121, R125). -/
theorem postRecord_eq (hg : s.cq[q].cfg = some g) : postRecord q s = Posted q g s := by
  unfold postRecord Posted
  rw [← Cq.size_eq hg]
  rfl

/-- The posting is counted (R131, R132). -/
theorem moderate_eq (hg : s.cq[q].cfg = some g) : moderate q s = Counted q g s := by
  unfold moderate Counted
  rw [hg]
  dsimp only
  rw [signalCq, sendMessage_sent]
  rfl

variable (q g s)

/-- Counting a posting changes what the ring has unsignalled and its timer, and sends a message perhaps. -/
theorem counted_frame : ∃ n t, Counted q g s = { s with
    hp := (Counted q g s).hp, cq := s.cq.set q { s.cq[q] with unsig := n, timer := t } } := by
  unfold Counted
  dsimp only
  split
  · refine ⟨0, none, ?_⟩
    rw [← sendMessage_sent, sendMessage_frame]
  · exact ⟨_, _, rfl⟩

theorem counted_get : ∃ n t, (Counted q g s).cq[q] = { s.cq[q] with unsig := n, timer := t } := by
  obtain ⟨n, t, h⟩ := counted_frame q g s
  rw [h]
  exact ⟨n, t, vset_self _ _ _⟩

theorem counted_eng : (Counted q g s).eng = s.eng := by
  obtain ⟨n, t, h⟩ := counted_frame q g s
  rw [h]

theorem counted_sc : (Counted q g s).sc = s.sc := by
  obtain ⟨n, t, h⟩ := counted_frame q g s
  rw [h]

variable {q} in
theorem counted_others {k : CqIx} (hk : k ≠ q) : (Counted q g s).cq[k] = s.cq[k] := by
  obtain ⟨n, t, h⟩ := counted_frame q g s
  rw [h]
  exact (vset _ _ _ _).trans (if_neg hk)

end

section
variable {q : CqIx} {g : CqCfg} {s : State}

/-- Behind a posting the slot of a held RETIRE is the tail, and the RETIRE is valid (R127, R128). -/
theorem takeHeld_valid (hg : s.cq[q].cfg = some g) (ht : s.cq[q].tail < g.size)
    (hh : s.cq[q].held = some s.cq[q].tail) : takeHeld q s = serveQueue q (HeldTaken q s) := by
  have hvalid : ({ s.cq[q] with held := none } : Cq).retireValid s.cq[q].tail = true := by
    have hlt : s.cq[q].tail < ({ s.cq[q] with held := none } : Cq).size := by
      rwa [Cq.size_eq (c := { s.cq[q] with held := none }) hg]
    unfold Cq.retireValid
    rw [hg]
    simpa [-Fin.getElem_fin, Cq.unretired] using hlt
  have hself : (s.updCq q (fun x => { x with held := none })).cq[q] = { s.cq[q] with held := none } := vset_self _ _ _
  have hstate : (s.updCq q (fun x => { x with held := none })).updCq q (fun x => { x with head := s.cq[q].tail }) =
      HeldTaken q s := by
    rw [State.updCq_updCq]
    unfold HeldTaken
    simp only [hh, Option.isSome_some, if_true]
    rfl
  unfold takeHeld judgeRetire
  rw [hh]
  dsimp only
  rw [hself, if_pos hvalid, hstate]

end

theorem heldTaken_of_none {q : CqIx} {s : State} (h : s.cq[q].held = none) : HeldTaken q s = s := by
  have hsame : ∀ k : Cq, k.held = none →
      ({ k with held := none, head := if k.held.isSome then k.tail else k.head } : Cq) = k := by
    intro k hk
    cases k
    cases hk
    rfl
  have hset := congrArg (fun k => { s with cq := s.cq.set q k }) (hsame _ h)
  exact hset.trans (congrArg (fun v => { s with cq := v }) (vset_same _ _))

theorem takeHeld_of_none {q : CqIx} {s : State} (h : s.cq[q].held = none) : takeHeld q s = HeldTaken q s := by
  rw [heldTaken_of_none h, takeHeld, h]

end Sys2Proof.Machine
end

section
/-! The report of a posted completion record, by what it tells the source of its claim (R110, R125, R128, R130, R135). -/

namespace Sys2Proof.Machine

section
variable {s : State} {q : CqIx} {g : CqCfg} {c : Claim} {w : HostWrite}

theorem exec_recordPosted (hr : Released s) (hi : s.cq[q].inflight = some ⟨c, w⟩) (hc : CanComplete w s) :
    exec (.completionWritePosted q) s = .next (writePosted q c (writeReported w s)) := by
  show execCompletionWritePosted q s = _
  unfold execCompletionWritePosted
  rw [whileReleased_eq hr, hi]
  exact if_pos ((completes_iff s w).mpr hc)

/-! ### Behind the telling -/

theorem resumeCqWait_idle (h : ∀ x, s.eng[(0 : Ring)].exec = some ⟨x, .cqWait⟩ → x.cqA ≠ q) : resumeCqWait q s = s := by
  unfold resumeCqWait
  split
  · rename_i x hx
    exact if_neg (h x hx)
  · rfl

/-- No restart waits for the report of another ring's record or of a notice, and none is under way (R136; log 7). -/
theorem restartAfter_idle (h : c.notice = true ∨ c.ring ≠ 0 ∨ s.eng[(0 : Ring)].stop = none) : restartAfter c s = s := by
  unfold restartAfter
  split
  · rename_i hc
    obtain h | h | h := h
    · exact absurd (hc.1.symm.trans h) Bool.false_ne_true
    · exact absurd hc.2 h
    · unfold tryRestart
      rw [h]
      rfl
  · rfl

/-- The RETIRE held at `q`, if there is one, is for the slot that is the tail now (R128). -/
def HeldAtTail (q : CqIx) (g : CqCfg) (s : State) : Prop :=
  s.cq[q].cfg = some g ∧ s.cq[q].tail < g.size ∧ (s.cq[q].held = none ∨ s.cq[q].held = some s.cq[q].tail)

theorem HeldAtTail.of_onlyClaims {t : State} (h : HeldAtTail q g s) (k : OnlyClaims q s t) : HeldAtTail q g t := by
  unfold HeldAtTail
  rw [k]
  exact h

theorem HeldAtTail.counted (h : HeldAtTail q g s) : HeldAtTail q g (Counted q g s) := by
  obtain ⟨n, t, hget⟩ := counted_get q g s
  unfold HeldAtTail
  rw [hget]
  exact h

theorem posted_get (q : CqIx) (g : CqCfg) (s : State) : (Posted q g s).cq[q] = { s.cq[q] with
    inflight := none, tail := (s.cq[q].tail + 1) % g.size
    phase := if (s.cq[q].tail + 1) % g.size = 0 then !s.cq[q].phase else s.cq[q].phase } := vset_self _ _ _

theorem heldAtTail_posted (hg : s.cq[q].cfg = some g) (h1 : 1 ≤ g.size)
    (hh : s.cq[q].held = none ∨ s.cq[q].held = some ((s.cq[q].tail + 1) % g.size)) : HeldAtTail q g (Posted q g s) := by
  unfold HeldAtTail
  rw [posted_get]
  exact ⟨hg, Nat.mod_lt _ h1, hh⟩

theorem heldTaken_get (q : CqIx) (s : State) : (HeldTaken q s).cq[q] = { s.cq[q] with
    held := none, head := if s.cq[q].held.isSome then s.cq[q].tail else s.cq[q].head } := vset_self _ _ _

/-- A held RETIRE is taken, and CU examines the front claim behind it once or twice (R124, R128). -/
theorem serveQueue_takeHeld (h : HeldAtTail q g s) : serveQueue q (takeHeld q s) = serveQueue q (HeldTaken q s) := by
  obtain ⟨hg, ht, hh | hh⟩ := h
  · rw [takeHeld_of_none hh]
  · rw [takeHeld_valid hg ht hh, serveQueue_attended (attended_serveQueue q _)]

/-- With no claim to serve, taking a held RETIRE is all. -/
theorem takeHeld_eq (h : HeldAtTail q g s) (hq : s.cq[q].queue = []) : takeHeld q s = HeldTaken q s := by
  obtain ⟨hg, ht, hh | hh⟩ := h
  · exact takeHeld_of_none hh
  · have hself : (HeldTaken q s).cq[q].queue = [] := (congrArg Cq.queue (heldTaken_get q s)).trans hq
    rw [takeHeld_valid hg ht hh, serveQueue_attended (.inl hself)]

/-- Behind the telling that left `v`: the posting is counted, a held RETIRE is taken, and CU examines the front claim. -/
theorem recordPosted_answers {v : State} (hr : Released s) (hi : s.cq[q].inflight = some ⟨c, w⟩) (hc : CanComplete w s)
    (hg : s.cq[q].cfg = some g) (h1 : 1 ≤ g.size)
    (hh : s.cq[q].held = none ∨ s.cq[q].held = some ((s.cq[q].tail + 1) % g.size))
    (hno : ∀ x, s.eng[(0 : Ring)].exec = some ⟨x, .cqWait⟩ → x.cqA ≠ q)
    (hv : tellPosted c (Posted q g (writeReported w s)) = v) (hclaims : OnlyClaims q (Posted q g (writeReported w s)) v)
    (hend : c.notice = true ∨ c.ring ≠ 0 ∨ v.eng[(0 : Ring)].stop = none) :
    ∃ t, exec (.completionWritePosted q) s = .next t ∧ Served q (HeldTaken q (Counted q g v)) t := by
  have hwcq : (writeReported w s).cq[q] = s.cq[q] := by rw [writeReported_cq]
  have hposted : HeldAtTail q g (Posted q g (writeReported w s)) :=
    heldAtTail_posted (by rw [hwcq, hg]) h1 (by rw [hwcq]; exact hh)
  have hheld := hposted.of_onlyClaims hclaims
  have heng : ∀ k : Ring, (takeHeld q (Counted q g v)).eng[k] = v.eng[k] := fun k => by
    rw [(takeHeld_kept q _).get, counted_eng]
  have hwait : ∀ x, v.eng[(0 : Ring)].exec = some ⟨x, .cqWait⟩ → x.cqA ≠ q := fun x hx => by
    refine hno x ?_
    rw [← hv] at hx
    have hx := (tellPosted_work _ c).waits x hx
    rwa [← writeReported_eng w s]
  refine ⟨_, exec_recordPosted hr hi hc, ?_⟩
  unfold writePosted
  rw [postRecord_eq (by rw [hwcq, hg]), hv, moderate_eq hheld.1, resumeCqWait_idle (by rw [heng]; exact hwait),
    serveQueue_takeHeld hheld.counted, restartAfter_idle]
  · exact serveQueue_served q _
  · have hzero : (serveQueue q (HeldTaken q (Counted q g v))).eng[(0 : Ring)] = v.eng[(0 : Ring)] := by
      rw [(serveQueue_kept q _).get, show (HeldTaken q (Counted q g v)).eng = (Counted q g v).eng from rfl, counted_eng]
    rwa [hzero]

/-- The ring behind a report that tells nobody: counted, and without its RETIRE. -/
def postedAlone (q : CqIx) (g : CqCfg) (s : State) : State := HeldTaken q (Counted q g (Posted q g s))

theorem postedAlone_eng (q : CqIx) (g : CqCfg) (s : State) : (postedAlone q g s).eng = s.eng := counted_eng q g _

theorem postedAlone_sc (q : CqIx) (g : CqCfg) (s : State) : (postedAlone q g s).sc = s.sc := counted_sc q g _

theorem postedAlone_claims (q : CqIx) (g : CqCfg) (s : State) :
    (postedAlone q g s).cq[q].inflight = none ∧ (postedAlone q g s).cq[q].queue = s.cq[q].queue := by
  obtain ⟨n, t, hget⟩ := counted_get q g (Posted q g s)
  unfold postedAlone
  rw [heldTaken_get, hget, posted_get]
  exact ⟨rfl, rfl⟩

theorem postedAlone_others {q k : CqIx} (hk : k ≠ q) (g : CqCfg) (s : State) : (postedAlone q g s).cq[k] = s.cq[k] := by
  have hheld : (postedAlone q g s).cq[k] = (Counted q g (Posted q g s)).cq[k] := (vset _ _ _ _).trans (if_neg hk)
  rw [hheld, counted_others g _ hk]
  exact (vset _ _ _ _).trans (if_neg hk)

/-- A report that tells nobody of a posting to a ring where no claim waits. -/
theorem exec_recordPosted_alone (hr : Released s) (hi : s.cq[q].inflight = some ⟨c, w⟩) (hc : CanComplete w s)
    (hg : s.cq[q].cfg = some g) (h1 : 1 ≤ g.size)
    (hh : s.cq[q].held = none ∨ s.cq[q].held = some ((s.cq[q].tail + 1) % g.size)) (hq : s.cq[q].queue = [])
    (hv : ∀ v, v.eng = s.eng → tellPosted c v = v) : exec (.completionWritePosted q) s =
      .next (restartAfter c (serveQueue q (resumeCqWait q (postedAlone q g (writeReported w s))))) := by
  have hwcq : (writeReported w s).cq[q] = s.cq[q] := by rw [writeReported_cq]
  have hposted : HeldAtTail q g (Posted q g (writeReported w s)) :=
    heldAtTail_posted (by rw [hwcq, hg]) h1 (by rw [hwcq]; exact hh)
  have hqueue : (Counted q g (Posted q g (writeReported w s))).cq[q].queue = [] := by
    obtain ⟨n, t, hget⟩ := counted_get q g (Posted q g (writeReported w s))
    rw [hget, posted_get, hwcq]
    exact hq
  rw [exec_recordPosted hr hi hc, writePosted, postRecord_eq (by rw [hwcq, hg]),
    hv (Posted q g (writeReported w s)) (writeReported_eng w s), moderate_eq hposted.1, takeHeld_eq hposted.counted hqueue]
  rfl

/-! ### CONFIGURE COMPLETION RING behind the posting -/

/-- A completion ring that is set shows nothing of what it was. -/
theorem cqSet_set (q : CqIx) (x : Record) (k : Cq) (s : State) :
    CqSet q x { s with cq := s.cq.set q k } = CqSet q x s :=
  congrArg (fun v => { s with cq := v }) (vset_vset _ _ _ _)

theorem cqSet_postedAlone (x : Record) : CqSet q x (postedAlone q g s) = CqSet q x (Counted q g (Posted q g s)) :=
  cqSet_set q x _ _

/-! ### What is told -/

theorem tellPosted_notice (hn : c.notice = true) : tellPosted c s =
    if c.orphan then s else s.updPace c.ring (fun p => { p with notice := none }) := if_pos hn

/-- The engine in WAIT_CQ goes on (R110). -/
theorem tellPosted_goesOn (hn : c.notice = false) (hs : s.eng[c.ring].stop = none) (hw : s.eng[c.ring].state = .waitCq) :
    tellPosted c s = goOn c.ring s := by
  unfold tellPosted orStop
  rw [if_neg (by simp [hn]), hs, if_neg (fun h => Bool.false_ne_true h.2)]
  exact (if_neg Bool.false_ne_true).trans (if_pos hw)

/-- A ring that was told to stop stops at the report of its record, posted or lost (R115). -/
theorem tellPosted_stops (hn : c.notice = false) (hr : c.ring ≠ 0) (hs : s.eng[c.ring].stop.isSome) :
    tellPosted c s = tellFailed c s := by
  unfold tellPosted tellFailed orStop
  rw [if_neg (by simp [hn]), if_neg (fun h => hr h.1), if_pos hs, if_neg (by simp [hn]), if_pos hs]

/-- An engine that goes on is not stopped by it. -/
theorem goOn_stop {r : Ring} (hs : s.eng[r].stop = none) : (goOn r s).eng[r].stop = none := by
  by_cases hh : s.eng[r].haltPending = true
  · have hgo : goOn r s = halt r s := if_pos hh
    rw [hgo]
    exact congrArg Engine.stop (updEng_self r Engine.halted s)
  · obtain ⟨-, -, -, -, -, -, -, -, -, hgo⟩ := goOn_goesOn r s
    rw [if_neg hh] at hgo
    obtain ⟨-, -, hstop, -⟩ := hgo
    exact hstop.trans hs

/-- The ring under reset whose claim has come back touches the claims of a completion ring only, unless that is CQ0. -/
theorem tellFailed_onlyClaims {d : Claim} {e : RingCfg} (hq : q ≠ 0) (hn : d.notice = false) (hr : d.ring ≠ 0)
    (hs : s.eng[d.ring].stop = some .ringReset) (hb : atBoundary d.ring s = true) (hx : s.eng[d.ring].exec = none)
    (hw : s.eng[d.ring].state = .waitCq) (he : s.eng[d.ring].cfg = some e)
    (hfree : ∀ k ∈ s.cq[e.cq].queue, ¬ (k.ring = d.ring ∧ k.notice = false)) : OnlyClaims q s (tellFailed d s) := by
  have hdiscard : ∀ e, OnlyClaims q s (discardPacing d.ring { s with eng := s.eng.set d.ring e }) := fun e =>
    OnlyClaims.trans (t := { s with eng := s.eng.set d.ring e }) (.of_cq rfl) (discardPacing_onlyClaims _ d.ring)
  rw [tellFailed_command rfl hn, if_pos (by rw [hs]; rfl), tryStop_ringReset hr hs hb hx hw he hfree]
  split
  · exact hdiscard _
  · exact (hdiscard _).trans (finishReset_onlyClaims _ hq _)

end

/-- Settles O49: the source of the claim is told, and behind it the posting is counted and the claims are served. -/
theorem recordPosted : Obligations.RecordPosted := by
  unfold Obligations.RecordPosted
  intro s q g c w hrel hi hc hg h1 hh posted answers noWait
  have heng : posted.eng = s.eng := writeReported_eng w s
  have hget : ∀ k : Ring, posted.eng[k] = s.eng[k] := fun k => by rw [heng]
  have answer : ∀ v, noWait → tellPosted c posted = v → OnlyClaims q posted v →
      (c.notice = true ∨ c.ring ≠ 0 ∨ v.eng[(0 : Ring)].stop = none) → answers v := fun v hno =>
    recordPosted_answers hrel hi hc hg h1 hh hno
  refine ⟨fun hno hn hs hw => ?_, fun hno hn ho => ?_, fun hno hn ho => ?_, fun x g' hn hr hq hs hw hx hat hrep hg' hgq
    hfree hx0 => ?_, fun x hn ho hq hqueue hx hs hxq => ?_⟩
  · refine ⟨goOn c.ring posted, goOn_goesOn _ _, goOn_frame _ _, fun j hj => (goOn_others _ _ hj).trans (hget j),
      answer _ hno (tellPosted_goesOn hn (by rw [hget, hs]) (by rw [hget, hw])) (goOn_onlyClaims _ _) ?_⟩
    by_cases h0 : c.ring = 0
    · have hstop := goOn_stop (r := c.ring) (s := posted) (by rw [hget, hs])
      rw [h0] at hstop ⊢
      exact .inr (.inr hstop)
    · exact .inr (.inl h0)
  · refine answer _ hno ?_ (.of_cq rfl) (.inl hn)
    rw [tellPosted_notice hn, if_neg (by simp [ho]), State.updPace, show posted.fu = s.fu from writeReported_fu w s]
  · refine answer _ hno ?_ (.of_cq rfl) (.inl hn)
    rw [tellPosted_notice hn, if_pos ho]
  · intro idle
    subst hgq
    have hrest : AtRest c.ring posted := by
      unfold AtRest
      rw [hget, show posted.sc = s.sc from writeReported_sc w s]
      exact hat
    have hover : posted.cq[g'.cq].inflight = none := congrArg Cq.inflight (vset_self _ _ _)
    have hclaims : ∀ d ∈ posted.cq[g'.cq].queue, ¬ (d.ring = c.ring ∧ d.notice = false) := by
      have hqueue : posted.cq[g'.cq].queue = s.cq[g'.cq].queue :=
        (congrArg Cq.queue (vset_self _ _ _)).trans (by rw [writeReported_cq])
      rwa [hqueue]
    have hb : atBoundary c.ring posted = true := by
      rw [atBoundary_iff, notWritten (by rw [hget, hg']) hover, hget, hx]
      exact ⟨hrest, fun h => Bool.false_ne_true h.2, fun _ h => nomatch h⟩
    have hanswer : answers (tellFailed c posted) := by
      refine answer _ (fun y hy => ?_) (tellPosted_stops hn hr (by rw [hget, hs]; rfl)) ?_ (.inr (.inl hr))
      · rw [hx0] at hy
        cases hy
      · exact tellFailed_onlyClaims hq hn hr (by rw [hget, hs]) hb (by rw [hget, hx]) (by rw [hget, hw])
          (by rw [hget, hg']) hclaims
    obtain ⟨hwaits, hends⟩ := resetLost_ends heng hn hr hs hw hx hrest hrep hg' hover hclaims hx0
    exact ⟨fun hf => ⟨_, hwaits hf, hanswer⟩, fun hf => ⟨_, hends hf, hanswer⟩⟩
  · obtain ⟨hover, -⟩ := postedAlone_claims q g (writeReported w s)
    have hzero : (postedAlone q g (writeReported w s)).eng[(0 : Ring)] = s.eng[(0 : Ring)] := by
      rw [postedAlone_eng, writeReported_eng]
    have hexec := exec_recordPosted_alone hrel hi hc hg h1 hh hqueue fun v _ => by rw [tellPosted_notice hn, if_pos ho]
    rw [restartAfter_idle (.inl hn)] at hexec
    refine ⟨_, hexec, ?_⟩
    rw [← cqSet_postedAlone]
    exact resumeCqWait_sets (by rw [hzero, hx]) (by rw [hzero, hs]) hxq hover

end Sys2Proof.Machine
end

section
/-! RESTART RING 0: what RE0 waits for, and how the restart ends (R115, R136, R168, R169, R173). -/

namespace Sys2Proof.Machine

/-! ### RE0 gives up its work -/

section
variable {s u : State}

theorem updCq_congr {q : CqIx} {f g : Cq → Cq} (h : f s.cq[q] = g s.cq[q]) : s.updCq q f = s.updCq q g :=
  congrArg (fun c => { s with cq := s.cq.set q c }) h

/-- What CQ0 held of claims before a restart does not show behind it. -/
theorem restarted_updCq {f : Cq → Cq} (hf : (f s.cq[(0 : CqIx)]).cfg = s.cq[(0 : CqIx)].cfg) :
    Restarted (s.updCq 0 f) = Restarted s := by
  have hget : (s.updCq 0 f).cq[(0 : CqIx)].cfg = s.cq[(0 : CqIx)].cfg := (congrArg Cq.cfg (vset_self _ _ _)).trans hf
  unfold Restarted
  rw [hget]
  congr 1
  exact vset_vset _ _ _ _

/-- Claims that are all withdrawn leave an empty wait queue, at which CU finds nothing (R124). -/
theorem withdrawClaims_all {q : CqIx} {p : Claim → Bool} (h : ∀ c ∈ s.cq[q].queue, p c = true) :
    withdrawClaims q p s = s.updCq q (fun x => { x with queue := [] }) := by
  have hnone : s.cq[q].queue.filter (fun c => !p c) = [] := by
    rw [List.filter_eq_nil_iff]
    intro c hc
    simp [h c hc]
  have hfiltered : s.updCq q (fun x => { x with queue := x.queue.filter (fun c => !p c) }) =
      s.updCq q (fun x => { x with queue := [] }) := updCq_congr (by rw [hnone])
  unfold withdrawClaims
  split
  · rw [hfiltered, serveQueue_attended (.inl (congrArg Cq.queue (vset_self _ _ _)))]
  · rename_i hany
    have hempty : s.cq[q].queue = [] := by
      refine List.eq_nil_iff_forall_not_mem.mpr fun c hc => hany ?_
      exact List.any_eq_true.mpr ⟨c, hc, h c hc⟩
    have hsame : s.updCq q (fun x => { x with queue := [] }) = s.updCq q id := updCq_congr (by rw [← hempty]; rfl)
    rw [hsame]
    exact congrArg (fun v => { s with cq := v }) (vset_same _ _).symm

theorem tryRestart_waits (hb : atBoundary 0 s = false) : tryRestart s = s := by
  unfold tryRestart
  rw [hb, Bool.and_false]
  rfl

/-- At its boundary RE0 gives up its work, as in `u`: the restart ends, or waits for a fetch (R136, R169; log 8). -/
theorem tryRestart_unwinds (hs : s.eng[(0 : Ring)].stop.isSome) (hb : atBoundary 0 s = true) (hu : unwind 0 s = u)
    (hr : Restarted u = Restarted s) (hf : u.eng[(0 : Ring)].fetch = s.eng[(0 : Ring)].fetch) :
    (s.eng[(0 : Ring)].fetch = none → u.cq[(0 : CqIx)].inflight = none → tryRestart s = Restarted s) ∧
    (s.eng[(0 : Ring)].fetch.isSome → tryRestart s = u) := by
  have hend : finishRestart u = Restarted s := hr
  unfold tryRestart
  rw [hs, hb, hu]
  dsimp only
  rw [hf, hend]
  refine ⟨fun hfetch hi => ?_, fun hfetch => ?_⟩
  · rw [hfetch, hi]
    rfl
  · obtain ⟨t, ht⟩ := Option.isSome_iff_exists.mp hfetch
    rw [ht]
    rfl

/-- An engine that executes nothing and has no claim gives up the record that it had staged. -/
theorem unwind_bare {r : Ring} (hx : s.eng[r].exec = none) (hw : s.eng[r].state ≠ .waitCq) :
    unwind r s = s.updEng r (fun e => { e with exec := none, staged := none }) := by
  rw [unwind_none hx hw]
  refine updEng_congr ?_
  rw [← hx]

/-- RE0 in WAIT_CQ with no claims but its own at CQ0 withdraws them. -/
theorem unwind_claims {g : RingCfg} (hx : s.eng[(0 : Ring)].exec = none) (hw : s.eng[(0 : Ring)].state = .waitCq)
    (hg : s.eng[(0 : Ring)].cfg = some g) (h0 : g.cq = 0)
    (hq : ∀ c ∈ s.cq[(0 : CqIx)].queue, c.ring = 0 ∧ c.notice = false) :
    unwind 0 s = (s.updEng 0 (fun e => { e with state := .active, exec := none, staged := none })).updCq 0
      (fun k => { k with queue := [] }) := by
  have hown : ∀ c ∈ s.cq[(0 : CqIx)].queue, Claim.isCommandOf 0 c = true := fun c hc => by
    simp [Claim.isCommandOf, hq c hc]
  rw [unwind_waitCq hg hx hw, h0, withdrawClaims_all (by exact hown)]
  refine congrArg (fun t => State.updCq t 0 _) (updEng_congr ?_)
  rw [← hx]

end

/-! ### RE0 is told -/

/-- RE0 told to stop for RESTART RING 0, which is in progress from here (R168, R169). -/
def restartTold (s : State) : State := Told 0 .restart { s with hp := { s.hp with restart := true } }

section
variable {s : State}

theorem exec_restartRing0 (h : Released s) (hd : s.hp.dev = .running) :
    exec .restartRing0 s = .next (if s.hp.restart then s else tryRestart (restartTold s)) := by
  show execRestartRing0 s = _
  rw [execRestartRing0, whileReleased_eq h, writeControl, if_neg (by decide), if_neg (by decide), if_pos rfl, controlRestart,
    if_pos hd]
  rfl

theorem restartTold_self : (restartTold s).eng[(0 : Ring)] = { s.eng[(0 : Ring)] with stop := some .restart } :=
  vset_self _ _ _

theorem beingWritten_restartTold : beingWritten 0 (restartTold s) = beingWritten 0 s := by
  unfold beingWritten
  rw [restartTold_self]
  rfl

theorem atBoundary_restartTold : atBoundary 0 (restartTold s) = atBoundary 0 s := by
  unfold atBoundary
  rw [beingWritten_restartTold, restartTold_self]
  rfl

/-- RE0 with nothing under way is told, and gives up its work as in `u`: the restart ends, or waits for a fetch. -/
theorem restartTold_unwinds {u : State} (hb : atBoundary 0 s = true) (hu : unwind 0 (restartTold s) = u)
    (hr : Restarted u = Restarted (restartTold s)) (hf : u.eng[(0 : Ring)].fetch = s.eng[(0 : Ring)].fetch) :
    (s.eng[(0 : Ring)].fetch = none → u.cq[(0 : CqIx)].inflight = none →
      tryRestart (restartTold s) = Restarted (restartTold s)) ∧
    (s.eng[(0 : Ring)].fetch.isSome → tryRestart (restartTold s) = u) := by
  have hfetch : (restartTold s).eng[(0 : Ring)].fetch = s.eng[(0 : Ring)].fetch := by rw [restartTold_self]
  have hends := tryRestart_unwinds (by rw [restartTold_self]; rfl) (by rw [atBoundary_restartTold, hb]) hu hr (by rw [hf, hfetch])
  rwa [hfetch] at hends

/-- RE0 executes nothing and has no claim. -/
theorem restartTold_bare (hat : AtRest 0 s) (hx : s.eng[(0 : Ring)].exec = none) (hw : s.eng[(0 : Ring)].state ≠ .waitCq) :
    (s.eng[(0 : Ring)].fetch = none → s.cq[(0 : CqIx)].inflight = none →
      tryRestart (restartTold s) = Restarted (restartTold s)) ∧
    (s.eng[(0 : Ring)].fetch.isSome →
      tryRestart (restartTold s) = (restartTold s).updEng 0 (fun e => { e with exec := none, staged := none })) := by
  have hb : atBoundary 0 s = true := by
    rw [atBoundary_iff, hx]
    exact ⟨hat, fun h => hw h.1, fun _ h => nomatch h⟩
  refine restartTold_unwinds hb ?_ (restarted_updEng _ rfl) (by rw [updEng_self, restartTold_self])
  exact unwind_bare (by rw [restartTold_self, hx]) (by rw [restartTold_self]; exact hw)

/-- RE0 has a command whose guard is not evaluated. -/
theorem restartTold_fresh {y : Record} (hat : AtRest 0 s) (hx : Executes 0 y s) (ha : s.eng[(0 : Ring)].state = .active) :
    (s.eng[(0 : Ring)].fetch = none → s.cq[(0 : CqIx)].inflight = none →
      tryRestart (restartTold s) = Restarted (restartTold s)) ∧
    (s.eng[(0 : Ring)].fetch.isSome → tryRestart (restartTold s) =
      (restartTold s).updEng 0 (fun e => { e with state := .active, exec := none, staged := none })) := by
  have hx : s.eng[(0 : Ring)].exec = some ⟨y, .fresh⟩ := hx
  have hb : atBoundary 0 s = true := by
    rw [atBoundary_iff, hx]
    refine ⟨hat, fun h => EngState.noConfusion (ha.symm.trans h.1), fun x h => ?_⟩
    cases h
    rfl
  refine restartTold_unwinds hb ?_ (restarted_updEng _ rfl) (by rw [updEng_self, restartTold_self])
  refine (unwind_unlocked (by rw [restartTold_self, hx]) rfl).trans (updEng_congr ?_)
  rw [if_pos rfl]

/-- RE0's claim waits in CQ0's wait queue. -/
theorem restartTold_claims {g : RingCfg} (hat : AtRest 0 s) (hx : s.eng[(0 : Ring)].exec = none)
    (hw : s.eng[(0 : Ring)].state = .waitCq) (hi : s.cq[(0 : CqIx)].inflight = none)
    (hg : s.eng[(0 : Ring)].cfg = some g) (h0 : g.cq = 0)
    (hq : ∀ c ∈ s.cq[(0 : CqIx)].queue, c.ring = 0 ∧ c.notice = false) :
    (s.eng[(0 : Ring)].fetch = none → tryRestart (restartTold s) = Restarted (restartTold s)) ∧
    (s.eng[(0 : Ring)].fetch.isSome → tryRestart (restartTold s) =
      ((restartTold s).updEng 0 (fun e => { e with state := .active, exec := none, staged := none })).updCq 0
        (fun k => { k with queue := [] })) := by
  have hb : atBoundary 0 s = true := by
    rw [atBoundary_iff, hx, notWritten hg ((congrArg (fun q : CqIx => s.cq[q].inflight) h0).trans hi)]
    exact ⟨hat, fun h => Bool.false_ne_true h.2, fun _ h => nomatch h⟩
  have hends := restartTold_unwinds hb (unwind_claims (g := g) (by rw [restartTold_self, hx])
    (by rw [restartTold_self, hw]) (by rw [restartTold_self, hg]) h0 hq)
    ((restarted_updCq rfl).trans (restarted_updEng _ rfl)) (by rw [State.updCq_eng, updEng_self, restartTold_self])
  refine ⟨fun hf => hends.1 hf ?_, hends.2⟩
  rw [State.updCq_get, if_pos rfl]
  exact hi

/-- RE0 has a claim being written, a write in flight, or a wait for another block: it is told, and no more (R169). -/
theorem restartTold_waits (hb : atBoundary 0 s = false) : tryRestart (restartTold s) = restartTold s :=
  tryRestart_waits (by rw [atBoundary_restartTold, hb])

end

/-! ### The restart ends -/

section
variable {s : State}

theorem restartGoesOn_exec : (RestartGoesOn s).eng[(0 : Ring)].exec = none := by
  unfold RestartGoesOn
  split
  · exact congrArg Engine.exec (vset_self s.eng (0 : Ring) _)
  · exact congrArg Engine.exec (vset_self s.eng (0 : Ring) _)

theorem restartGoesOn_attended {q : CqIx} (hq : s.cq[q].queue = []) : Attended q (RestartGoesOn s) := by
  left
  unfold RestartGoesOn
  split
  · exact hq
  · refine (congrArg Cq.queue (vset s.cq (0 : CqIx) q (Cq.fresh s.cq[(0 : CqIx)].cfg))).trans ?_
    split
    · rfl
    · exact hq

variable (hs : s.eng[(0 : Ring)].stop = some .restart)
include hs

/-- The fetch that the restart waited for is over (R115, R169). -/
theorem fetchOver_restarts (hat : AtRest 0 s) (hx : s.eng[(0 : Ring)].exec = none) (hw : s.eng[(0 : Ring)].state ≠ .waitCq)
    (hi : s.cq[(0 : CqIx)].inflight = none) : tryStop 0 (fetchOver 0 s) = Restarted s := by
  have hself := fetchOver_self 0 s
  have hb : atBoundary 0 (fetchOver 0 s) = true := by
    rw [atBoundary_iff, AtRest, hself, hx]
    exact ⟨hat, fun h => hw h.1, fun _ h => nomatch h⟩
  have hunwind := unwind_bare (r := 0) (s := fetchOver 0 s) (by rw [hself, hx]) (by rw [hself]; exact hw)
  have hends := tryRestart_unwinds (by rw [hself, hs]; rfl) hb hunwind (restarted_updEng _ rfl) (by rw [updEng_self])
  exact (hends.1 (by rw [hself]) hi).trans (restarted_updEng _ rfl)

/-- The report of ring 0's own record is over (R136; log 7). -/
theorem claimOver_restarts {g : RingCfg} (hat : AtRest 0 s) (hx : s.eng[(0 : Ring)].exec = none)
    (hw : s.eng[(0 : Ring)].state = .waitCq) (hg : s.eng[(0 : Ring)].cfg = some g) (h0 : g.cq = 0)
    (hi : s.cq[(0 : CqIx)].inflight = none) (hq : s.cq[(0 : CqIx)].queue = []) : tryRestart s = RestartGoesOn s := by
  have hb : atBoundary 0 s = true := by
    rw [atBoundary_iff, hx, notWritten hg ((congrArg (fun q : CqIx => s.cq[q].inflight) h0).trans hi)]
    exact ⟨hat, fun h => Bool.false_ne_true h.2, fun _ h => nomatch h⟩
  have hunwind : unwind 0 s = s.updEng 0 (fun e => { e with state := .active, exec := none, staged := none }) := by
    rw [unwind_claims hx hw hg h0 (by rw [hq]; exact fun _ h => nomatch h)]
    refine Eq.trans (updCq_congr (g := id) ?_) (congrArg (fun v => { State.updEng s 0 _ with cq := v }) (vset_same _ _))
    rw [← hq]
    rfl
  have hends := tryRestart_unwinds (by rw [hs]; rfl) hb hunwind (restarted_updEng _ rfl) (by rw [updEng_self])
  unfold RestartGoesOn
  split
  · rename_i hf
    exact hends.2 hf
  · rename_i hf
    exact hends.1 (by simpa [-Fin.getElem_fin] using hf) hi

end

section
variable {s : State} {y : Record} {res : Result} {w : HostWrite} (h : Released s)
  (hx : s.eng[(0 : Ring)].exec = some ⟨y, .querying res⟩) (hw : s.eng[(0 : Ring)].wr = some w)
include h hx hw

theorem exec_queryWriteDone (hc : CanComplete w s) :
    exec .queryWriteDone s = .next (endControl res (writeOver 0 (writeReported w s))) := by
  show execQueryWriteDone s = _
  unfold execQueryWriteDone queryResult
  rw [whileReleased_eq h, hx, hw]
  exact if_pos ((completes_iff s w).mpr hc)

theorem exec_queryWriteFailed (hc : ¬ CanComplete w s) :
    exec .queryWriteFailed s = .next (endControl { res with status := .hostFault, count := 0 } (writeOver 0 s)) := by
  show execQueryWriteFailed s = _
  unfold execQueryWriteFailed queryResult
  rw [whileReleased_eq h, hx, hw]
  exact if_neg fun hc' => hc ((completes_iff s w).mp hc')

end

end Sys2Proof.Machine
end

section
/-! RESTART RING 0 as it is taken, and as it ends behind what it waited for (R136, R160, R168, R169). -/

namespace Sys2Proof.Machine

/-! ### What the reset of another ring leaves of RE0 -/

/-- From `s` to `t` the engines, the Store Controller and completion ring `k` are as before. -/
def KeepsRing (k : CqIx) (s t : State) : Prop := t.eng = s.eng ∧ t.sc = s.sc ∧ t.cq[k] = s.cq[k]

section
variable {k : CqIx} {s t : State}

theorem Served.keepsRing {q : CqIx} (h : Served q s t) (hk : k ≠ q) : KeepsRing k s t := by
  unfold Served at h
  split at h
  · split at h
    · subst h
      exact ⟨rfl, rfl, rfl⟩
    · subst h
      exact ⟨rfl, rfl, (vset _ _ _ _).trans (if_neg hk)⟩
  · subst h
    exact ⟨rfl, rfl, rfl⟩

theorem Withdrawn.keepsRing {q : CqIx} {p : Claim → Prop} [DecidablePred p] (h : Withdrawn q p s t) (hk : k ≠ q) :
    KeepsRing k s t := by
  by_cases hp : ∃ c ∈ s.cq[q].queue, p c
  · obtain ⟨heng, hsc, hcq⟩ := (h.1 hp).keepsRing hk
    exact ⟨heng, hsc, hcq.trans ((vset _ _ _ _).trans (if_neg hk))⟩
  · push Not at hp
    rw [h.2 hp]
    exact ⟨rfl, rfl, rfl⟩

theorem NoticeDiscarded.keepsRing {r : Ring} (h : NoticeDiscarded r s t) (hk : ∀ g, s.eng[r].cfg = some g → g.cq ≠ k) :
    KeepsRing k s t := by
  unfold NoticeDiscarded at h
  split at h
  · rw [h]
    exact ⟨rfl, rfl, rfl⟩
  · rename_i g hg
    obtain ⟨heng, hsc, hcq⟩ := h.keepsRing (hk g hg).symm
    exact ⟨heng, hsc, hcq.trans ((vset _ _ _ _).trans (if_neg (hk g hg).symm))⟩

/-- The reset of ring `r` changes neither another engine nor a completion ring that is not its own (R116, R151). -/
theorem RingReset.keeps {r : Ring} (h : RingReset r s t) (hk : ∀ g, s.eng[r].cfg = some g → g.cq ≠ k) :
    (∀ j, j ≠ r → t.eng[j] = s.eng[j]) ∧ t.sc = s.sc ∧ t.cq[k] = s.cq[k] := by
  obtain ⟨u, ⟨v, hv, rfl⟩, rfl⟩ := h
  obtain ⟨heng, hsc, hcq⟩ := hv.keepsRing hk
  refine ⟨fun j hj => ?_, hsc, hcq⟩
  exact ((vset _ _ _ _).trans (if_neg hj)).trans (by rw [heng])

end

section
variable {s : State}

/-- The restart waited for the reset of ring `r`, which ends with its fetch (R160, R169). -/
theorem targetReset_restarts {x : Record} {r : Ring} {i : Instr} (hs : s.eng[(0 : Ring)].stop = some .restart)
    (hat0 : AtRest 0 s) (hx0 : s.eng[(0 : Ring)].exec = some ⟨x, .resetWait r⟩) (ha : s.eng[(0 : Ring)].state = .active)
    (hi : s.cq[(0 : CqIx)].inflight = none) (hr : r ≠ 0) (hcq : ∀ g, s.eng[r].cfg = some g → g.cq ≠ 0)
    (hat : AtRest r s) (hx : s.eng[r].exec = none) (hw : s.eng[r].state ≠ .waitCq)
    (hstop : s.eng[r].stop = some .ringReset) (hexec : exec i s = .next (tryStop r (fetchOver r s))) :
    ∃ u, exec i s = .next (RestartGoesOn u) ∧
      RingReset r { s with eng := s.eng.set r { s.eng[r] with fetch := none } } u := by
  obtain ⟨u, hu, -, hgo⟩ := fetchOver_resets hr hat hx hw hstop hx0
  have hself : (fetchOver r s).eng[r].cfg = s.eng[r].cfg := by rw [fetchOver_self]
  obtain ⟨heng, hsc, hcq0⟩ := hu.keeps (k := 0) (by rw [show (s.updEng r _).eng[r].cfg = _ from hself]; exact hcq)
  have hzero : u.eng[(0 : Ring)] = s.eng[(0 : Ring)] := (heng 0 hr.symm).trans (updEng_others hr.symm _ _)
  refine ⟨u, hexec.trans (congrArg _ (hgo (by rw [hzero, hs]) ?_ (by rw [hzero, ha]) (by rw [hcq0]; exact hi))), hu⟩
  rw [AtRest, hzero, hsc]
  exact hat0

/-- The restart waited for a CONFIGURE COMPLETION RING, which sets the ring behind the write in flight (R135, R169). -/
theorem cqWait_restarts {x : Record} {q : CqIx} (hs : s.eng[(0 : Ring)].stop = some .restart) (hat : AtRest 0 s)
    (hx : s.eng[(0 : Ring)].exec = some ⟨x, .cqWait⟩) (ha : s.eng[(0 : Ring)].state = .active)
    (hi0 : s.cq[(0 : CqIx)].inflight = none) (hq : q ≠ 0) (hxq : x.cqA = q) (hi : s.cq[q].inflight = none) :
    serveQueue q (resumeCqWait q s) = RestartGoesOn (CqSet q x s) := by
  subst hxq
  have hresume : resumeCqWait x.cqA s = configureCq x s := by
    unfold resumeCqWait
    rw [hx]
    exact if_pos rfl
  have hzero : (CqSet x.cqA x s).cq[(0 : CqIx)].inflight = none :=
    (congrArg Cq.inflight ((vset _ _ (0 : CqIx) _).trans (if_neg hq.symm))).trans hi0
  rw [hresume, configureCq_sets hi, (endControl_cases (s := CqSet x.cqA x s) hx _).2 hs hat ha hzero,
    serveQueue_attended (restartGoesOn_attended (congrArg Cq.queue (vset_self _ _ _)))]

end

/-! ### The two halves of a posting to a ring that is set -/

theorem cqSet_messageSent_set (q : CqIx) (x : Record) (v : Fin 5) (k : Cq) (s : State) :
    CqSet q x (MessageSent v { s with cq := s.cq.set q k }) = CqSet q x (MessageSent v s) := by
  have hissue : ({ s with cq := s.cq.set q k } : State).canIssue = s.canIssue := rfl
  unfold MessageSent
  rw [hissue]
  split
  · exact cqSet_set q x k { s with hp := { s.hp with
      writes := [], left := s.hp.left ++ s.hp.writes.map (·.num)
      out := s.hp.out ++ s.hp.writes.map (fun w => .write w.addr w.data) ++ [.message v] } }
  · exact cqSet_set q x k s

/-- Whether the record was posted before it was counted does not show in a completion ring that is set. -/
theorem cqSet_counted_posted (q : CqIx) (g : CqCfg) (x : Record) (s : State) :
    CqSet q x (Counted q g (Posted q g s)) = CqSet q x (Counted q g s) := by
  have hunsig : (Posted q g s).cq[q].unsig = s.cq[q].unsig := by rw [posted_get]
  unfold Counted
  dsimp only
  rw [hunsig]
  split
  · rw [cqSet_messageSent_set, cqSet_messageSent_set]
    exact cqSet_messageSent_set q x _ _ s
  · rw [cqSet_set, cqSet_set]
    exact cqSet_set q x _ s

/-! ### What the restart waits for -/

section
variable {s : State}

theorem resumeCqWait_none {q : CqIx} (hx : s.eng[(0 : Ring)].exec = none) : resumeCqWait q s = s :=
  resumeCqWait_idle fun _ h => nomatch hx.symm.trans h

theorem notAtBoundary_claim {g : RingCfg} {w : CqWrite} (hw : s.eng[(0 : Ring)].state = .waitCq)
    (hg : s.eng[(0 : Ring)].cfg = some g) (h0 : g.cq = 0) (hi : s.cq[(0 : CqIx)].inflight = some w)
    (hring : w.claim.ring = 0) (hn : w.claim.notice = false) : atBoundary 0 s = false := by
  refine Bool.eq_false_iff.mpr fun hb => ?_
  obtain ⟨-, hno, -⟩ := (atBoundary_iff 0 s).mp hb
  exact hno ⟨hw, (beingWritten_iff hg).mpr ⟨w, (congrArg (fun q : CqIx => s.cq[q].inflight) h0).trans hi, hring, hn⟩⟩

theorem notAtBoundary_write (hwr : s.eng[(0 : Ring)].wr.isSome) : atBoundary 0 s = false := by
  refine Bool.eq_false_iff.mpr fun hb => ?_
  obtain ⟨⟨-, hnone, -⟩, -, -⟩ := (atBoundary_iff 0 s).mp hb
  rw [hnone] at hwr
  exact Bool.false_ne_true hwr

theorem notAtBoundary_block {x : Exec} (hx : s.eng[(0 : Ring)].exec = some x) (hp : x.phase.waitsForBlock = true) :
    atBoundary 0 s = false := by
  refine Bool.eq_false_iff.mpr fun hb => ?_
  obtain ⟨-, -, hno⟩ := (atBoundary_iff 0 s).mp hb
  exact Bool.false_ne_true ((hno x hx).symm.trans hp)

variable (hs : s.eng[(0 : Ring)].stop = some .restart)
include hs

/-- The restart waited for a query's write, which is over (R169). -/
theorem writeOver_restarts {y : Record} {p : Phase} (hx : s.eng[(0 : Ring)].exec = some ⟨y, p⟩)
    (ha : s.eng[(0 : Ring)].state = .active) (hrd : s.eng[(0 : Ring)].rd = none) (hport : ∀ b, s.sc.port ≠ .burst 0 b)
    (hi : s.cq[(0 : CqIx)].inflight = none) (res : Result) :
    endControl res (writeOver 0 s) = RestartGoesOn (writeOver 0 s) := by
  have hself : (writeOver 0 s).eng[(0 : Ring)] = { s.eng[(0 : Ring)] with wr := none } := vset_self _ _ _
  refine (endControl_cases (s := writeOver 0 s) (by rw [hself, hx]) res).2 (by rw [hself, hs]) ?_ (by rw [hself, ha]) hi
  unfold AtRest
  rw [hself]
  exact ⟨hrd, rfl, hport⟩

theorem restart_isSome {r : Ring} (hr : r = 0) : s.eng[r].stop.isSome := by
  subst hr
  rw [hs]
  rfl

theorem tellPosted_restarting {c : Claim} (hring : c.ring = 0) (hn : c.notice = false) : tellPosted c s = s := by
  unfold tellPosted
  rw [if_neg (by simp [hn]), if_pos ⟨hring, restart_isSome hs hring⟩]

theorem tellFailed_restarting {c : Claim} (hring : c.ring = 0) (hn : c.notice = false) :
    tellFailed c s = tryRestart s := by
  rw [tellFailed_command rfl hn, if_pos (restart_isSome hs hring), hring]
  exact if_pos rfl

section
variable {g0 : RingCfg} {g : CqCfg} {c : Claim} {w : HostWrite} (hrel : Released s) (hat : AtRest 0 s)
  (hx : s.eng[(0 : Ring)].exec = none) (hw : s.eng[(0 : Ring)].state = .waitCq) (hg0 : s.eng[(0 : Ring)].cfg = some g0)
  (h0 : g0.cq = 0) (hi : s.cq[(0 : CqIx)].inflight = some ⟨c, w⟩) (hring : c.ring = 0) (hn : c.notice = false)
  (hq : s.cq[(0 : CqIx)].queue = [])
include hrel hat hx hw hg0 h0 hi hring hn hq

/-- The restart waited for the record of ring 0, which is posted and counted before it ends (R136; log 7). -/
theorem ownRecordPosted_restarts (hg : s.cq[(0 : CqIx)].cfg = some g) (h1 : 1 ≤ g.size)
    (hh : s.cq[(0 : CqIx)].held = none ∨ s.cq[(0 : CqIx)].held = some ((s.cq[(0 : CqIx)].tail + 1) % g.size))
    (hc : CanComplete w s) :
    exec (.completionWritePosted 0) s = .next (RestartGoesOn (postedAlone 0 g (writeReported w s))) := by
  obtain ⟨hover, hqueue⟩ := postedAlone_claims 0 g (writeReported w s)
  have heng : (postedAlone 0 g (writeReported w s)).eng = s.eng := (postedAlone_eng _ _ _).trans (writeReported_eng w s)
  have hsc : (postedAlone 0 g (writeReported w s)).sc = s.sc := (postedAlone_sc _ _ _).trans (writeReported_sc w s)
  have hempty : (postedAlone 0 g (writeReported w s)).cq[(0 : CqIx)].queue = [] := by
    rw [hqueue, writeReported_cq, hq]
  rw [exec_recordPosted_alone hrel hi hc hg h1 hh hq
      fun v hv => tellPosted_restarting (by rw [hv, hs]) hring hn,
    resumeCqWait_none (by rw [heng, hx]),
    serveQueue_attended (.inl hempty), restartAfter, if_pos ⟨hn, hring⟩,
    claimOver_restarts (by rw [heng, hs]) (by rwa [AtRest, heng, hsc]) (by rw [heng, hx]) (by rw [heng, hw])
      (by rw [heng, hg0]) h0 hover hempty]

/-- The restart waited for the record of ring 0, which is lost and reported before it ends (R126, R136; log 7). -/
theorem ownRecordLost_restarts (hc : ¬ CanComplete w s) :
    exec (.completionWriteFailed 0) s = .next (RestartGoesOn (lostRecord 0 0 s)) := by
  have heng : (lostRecord 0 0 s).eng = s.eng := lostRecord_eng 0 0 s
  have hempty : (lostRecord 0 0 s).cq[(0 : CqIx)].queue = [] := (congrArg Cq.queue (lostRecord_cq 0 0 s)).trans hq
  rw [exec_recordLost hrel hi hc, hring, tellFailed_restarting (by rw [heng, hs]) hring hn,
    claimOver_restarts (by rw [heng, hs]) (by rwa [AtRest, heng, lostRecord_sc]) (by rw [heng, hx]) (by rw [heng, hw])
      (by rw [heng, hg0]) h0 (congrArg Cq.inflight (lostRecord_cq 0 0 s)) hempty,
    resumeCqWait_none restartGoesOn_exec, serveQueue_attended (restartGoesOn_attended hempty)]

end

section
variable {x : Record} {q : CqIx} {g : CqCfg} {c : Claim} {w : HostWrite} (hrel : Released s) (hat : AtRest 0 s)
  (hx : s.eng[(0 : Ring)].exec = some ⟨x, .cqWait⟩) (ha : s.eng[(0 : Ring)].state = .active)
  (hi0 : s.cq[(0 : CqIx)].inflight = none) (hq0 : q ≠ 0) (hxq : x.cqA = q) (hi : s.cq[q].inflight = some ⟨c, w⟩)
  (hn : c.notice = true) (ho : c.orphan = true)
include hrel hat hx ha hi0 hq0 hxq hi hn ho

/-- The completion ring is configured behind the posting of an orphaned notice, and the restart ends (R135, R151, R169). -/
theorem cqWaitPosted_restarts (hg : s.cq[q].cfg = some g) (h1 : 1 ≤ g.size) (hq : s.cq[q].queue = [])
    (hh : s.cq[q].held = none ∨ s.cq[q].held = some ((s.cq[q].tail + 1) % g.size)) (hc : CanComplete w s) :
    exec (.completionWritePosted q) s = .next (RestartGoesOn (CqSet q x (Counted q g (writeReported w s)))) := by
  have heng : (postedAlone q g (writeReported w s)).eng = s.eng := (postedAlone_eng _ _ _).trans (writeReported_eng w s)
  have hsc : (postedAlone q g (writeReported w s)).sc = s.sc := (postedAlone_sc _ _ _).trans (writeReported_sc w s)
  rw [exec_recordPosted_alone hrel hi hc hg h1 hh hq fun v _ => by rw [tellPosted_notice hn, if_pos ho],
    restartAfter_idle (.inl hn),
    cqWait_restarts (x := x) (by rw [heng, hs]) (by rwa [AtRest, heng, hsc]) (by rw [heng, hx]) (by rw [heng, ha])
      (by rw [postedAlone_others hq0.symm, writeReported_cq, hi0]) hq0 hxq (postedAlone_claims q g _).1,
    cqSet_postedAlone, cqSet_counted_posted]

/-- The completion ring is configured behind the loss of an orphaned notice, and the restart ends (R126, R135, R169). -/
theorem cqWaitLost_restarts (hc : ¬ CanComplete w s) :
    exec (.completionWriteFailed q) s = .next (RestartGoesOn (CqSet q x (lostRecord q c.ring s))) := by
  have heng : (lostRecord q c.ring s).eng = s.eng := lostRecord_eng q c.ring s
  have hothers : (lostRecord q c.ring s).cq[(0 : CqIx)] = s.cq[(0 : CqIx)] := by
    rw [lostRecord_frame]
    exact (vset _ _ _ _).trans (if_neg hq0.symm)
  have htell : tellFailed c (lostRecord q c.ring s) = lostRecord q c.ring s := by rw [tellFailed, if_pos hn, if_pos ho]
  rw [exec_recordLost hrel hi hc, htell,
    cqWait_restarts (x := x) (by rw [heng, hs]) (by rwa [AtRest, heng, lostRecord_sc]) (by rw [heng, hx])
      (by rw [heng, ha]) (by rw [hothers, hi0]) hq0 hxq (congrArg Cq.inflight (lostRecord_cq q c.ring s))]

end

end

/-- Settles O10: taken, the restart is told to RE0, which gives up its work where it may; what it waits for ends it. -/
theorem restartRing0Restarts : Obligations.RestartRing0Restarts := by
  unfold Obligations.RestartRing0Restarts
  refine ⟨fun s hrel hd => ⟨fun hr => ?_, fun hr => ?_⟩, fun s hrel hs => ?_⟩
  · rw [exec_restartRing0 hrel hd, if_pos hr]
  · intro e k told stops waits
    have hexec : exec .restartRing0 s = .next (tryRestart (restartTold s)) := by
      rw [exec_restartRing0 hrel hd, hr]
      rfl
    have gives : ∀ (f : Engine → Engine) (st : EngState), f { e with stop := some .restart } =
        { e with stop := some .restart, state := st, exec := none, staged := none } →
        (restartTold s).updEng 0 f = stops st := fun f st hf => by
      rw [State.updEng, restartTold_self, hf]
      rfl
    have hwaits : atBoundary 0 s = false → exec .restartRing0 s = .next told := fun hb =>
      hexec.trans (congrArg _ (restartTold_waits hb))
    refine ⟨fun hat hx hw hf hi => ?_, fun hat hx hw hf => ?_, fun y hat hx ha => ⟨fun hf hi => ?_, fun hf => ?_⟩,
      fun ⟨hat, hx, hw, hi, ⟨g, hg, h0⟩, hq⟩ hf => ?_, fun ⟨hat, hx, hw, hi, ⟨g, hg, h0⟩, hq⟩ hf => ?_,
      fun g w hw hg h0 hi hring hn => hwaits ?_, fun hwr => hwaits ?_, fun y hx => hwaits ?_⟩
    · rw [hexec, (restartTold_bare hat hx hw).1 hf hi]
      rfl
    · rw [hexec, (restartTold_bare hat hx hw).2 hf, gives _ e.state rfl]
    · rw [hexec, (restartTold_fresh hat hx ha).1 hf hi]
      rfl
    · rw [hexec, (restartTold_fresh hat hx ha).2 hf, gives _ .active rfl]
    · rw [hexec, (restartTold_claims hat hx hw hi hg h0 hq).1 hf]
      rfl
    · rw [hexec, (restartTold_claims hat hx hw hi hg h0 hq).2 hf, gives _ .active rfl]
      rfl
    · exact notAtBoundary_claim hw hg h0 hi hring hn
    · exact notAtBoundary_write hwr
    · obtain hx | ⟨r, hx⟩ := hx
      · exact notAtBoundary_block hx rfl
      · exact notAtBoundary_block hx rfl
  · intro e k heldIsNext
    have hdiscards : s.eng[(0 : Ring)].discards := .inr (.inr hs)
    refine ⟨fun rd hat hx hw hi hf => ⟨fun b hdel => ?_, ?_⟩,
      fun y res w hx ha hrd hport hi hwr => ⟨fun hc => ?_, fun hc => ?_⟩,
      fun g0 g c w hat hx hw hg0 h0 hg h1 hi hring hn hq hheld => ⟨fun hc => ?_, fun hc => ?_⟩,
      fun x q g c w hat hx ha hi0 hq0 hxq hg h1 hi hn ho hq hheld => ⟨fun hc => ?_, fun hc => ?_⟩,
      fun x r rd hat0 hx0 ha hi hr hcq hat hx hw hrs hf => ⟨fun b hdel => ?_, ?_⟩⟩
    · rw [exec_fetchDone hrel hf hdel, fetchDone_discarded hdiscards, fetchOver_restarts hs hat hx hw hi]
    · rw [exec_fetchFailed hrel, fetchFailed_discarded hf hdiscards, fetchOver_restarts hs hat hx hw hi]
    · rw [exec_queryWriteDone hrel hx hwr hc, writeOver_restarts (by rw [writeReported_eng, hs]) (by rw [writeReported_eng, hx])
        (by rw [writeReported_eng, ha]) (by rw [writeReported_eng, hrd]) (by rwa [writeReported_sc])
        (by rw [writeReported_cq, hi]), writeOver_writeReported]
      rfl
    · rw [exec_queryWriteFailed hrel hx hwr hc, writeOver_restarts hs hx ha hrd hport hi]
      rfl
    · exact ownRecordPosted_restarts hs hrel hat hx hw hg0 h0 hi hring hn hq hg h1 hheld hc
    · exact ⟨_, ownRecordLost_restarts hs hrel hat hx hw hg0 h0 hi hring hn hq hc, lostRecord_isLost 0 0 s⟩
    · exact cqWaitPosted_restarts hs hrel hat hx ha hi0 hq0 hxq hi hn ho hg h1 hq hheld hc
    · exact ⟨_, cqWaitLost_restarts hs hrel hat hx ha hi0 hq0 hxq hi hn ho hc, lostRecord_isLost q c.ring s⟩
    · refine targetReset_restarts hs hat0 hx0 ha hi hr hcq hat hx hw hrs ?_
      rw [exec_fetchDone hrel hf hdel, fetchDone_discarded (.inr (.inl hrs))]
    · refine targetReset_restarts hs hat0 hx0 ha hi hr hcq hat hx hw hrs ?_
      rw [exec_fetchFailed hrel, fetchFailed_discarded hf (.inr (.inl hrs))]

end Sys2Proof.Machine
end

section
/-! RETIRE (R127, R128, R188). -/

namespace Sys2Proof.Machine

theorem exec_retire {s : State} {v : Word} {q : CqIx} (h : Released s) (hq : q.val = v.toNat % 4) :
    exec (.retire v) s = .next (takeRetire q (v.toNat / 65536) s) := by
  have hcq : retireCq v = q := Fin.ext (by simp [retireCq, hq])
  show execRetire v s = _
  rw [execRetire, whileReleased_eq h, writeRetire, hcq, upperHalf]

/-- A RETIRE to a configured ring is valid just when it names a slot of the span from head to tail (R127). -/
theorem Cq.retireValid_iff {c : Cq} {g : CqCfg} (hg : c.cfg = some g) (n : Nat) :
    c.retireValid n = true ↔ n < g.size ∧ (n + g.size - c.head) % g.size ≤ (c.tail + g.size - c.head) % g.size := by
  simp [retireValid, unretired, Cq.size_eq hg, hg]

theorem Cq.retireValid_unconfigured {c : Cq} (hg : c.cfg = none) (n : Nat) : ¬ c.retireValid n = true := by
  simp [retireValid, hg]

section
variable {s : State} {q : CqIx} {n : Nat}

/-- The held RETIRE has no part in the judgement of a new one. -/
theorem retireValid_unheld : ((s.updCq q (fun c => { c with held := none })).cq[q]).retireValid n = s.cq[q].retireValid n := by
  rw [State.updCq_get, if_pos rfl]
  rfl

/-- A RETIRE for the slot one past the tail is held while a write is in flight (R128). -/
theorem takeRetire_early {g : CqCfg} (hg : s.cq[q].cfg = some g)
    (h : s.cq[q].inflight.isSome ∧ n = (s.cq[q].tail + 1) % g.size) :
    takeRetire q n s = { s with cq := s.cq.set q { s.cq[q] with held := some n } } := by
  obtain ⟨hi, hn⟩ := h
  have hheld : s.cq[q].inflight.isSome && s.cq[q].cfg.isSome && n == s.cq[q].nextTail := by
    simp [-Fin.getElem_fin, hi, hg, hn, Cq.nextTail, Cq.size_eq hg]
  rw [takeRetire, if_pos hheld, State.updCq_updCq]
  rfl

/-- Any other RETIRE is judged at once, and a RETIRE held before is gone (R127, R128). -/
theorem takeRetire_judged
    (h : ∀ g, s.cq[q].cfg = some g → ¬ (s.cq[q].inflight.isSome ∧ n = (s.cq[q].tail + 1) % g.size)) :
    takeRetire q n s = judgeRetire q n (s.updCq q (fun c => { c with held := none })) := by
  have hjudged : ¬ (s.cq[q].inflight.isSome && s.cq[q].cfg.isSome && n == s.cq[q].nextTail) = true := by
    cases hg : s.cq[q].cfg with
    | none => simp
    | some g =>
      have hn := h g hg
      simp only [Cq.nextTail, Cq.size_eq hg, Bool.and_eq_true, beq_iff_eq]
      exact fun ⟨⟨hi, _⟩, ht⟩ => hn ⟨hi, ht⟩
  rw [takeRetire, if_neg hjudged]

/-- A valid RETIRE moves the head, and CU examines the front claim (R124, R127). -/
theorem judgeRetire_served (h : s.cq[q].retireValid n = true) :
    Served q { s with cq := s.cq.set q { s.cq[q] with held := none, head := n } }
      (judgeRetire q n (s.updCq q (fun c => { c with held := none }))) := by
  rw [judgeRetire, if_pos (by rwa [retireValid_unheld]), State.updCq_updCq]
  exact serveQueue_served q _

/-- A RETIRE that is not valid is refused, and the ring stays (R127). -/
theorem judgeRetire_refused (h : ¬ s.cq[q].retireValid n = true) :
    Reported .badRetire q.val { s with cq := s.cq.set q { s.cq[q] with held := none } }
      (judgeRetire q n (s.updCq q (fun c => { c with held := none }))) := by
  rw [judgeRetire, if_neg (by rwa [retireValid_unheld])]
  exact reportFault_reported .badRetire q.val _

end

/-- Settles O14: a RETIRE is held for the slot behind the write in flight, or judged by the span from head to tail. -/
theorem retireMovesHead : Obligations.RetireMovesHead := by
  unfold Obligations.RetireMovesHead
  intro s v q hrel hq c n u
  rw [exec_retire hrel hq]
  refine ⟨fun hg => ⟨_, rfl, ?_⟩, fun g hg => ?_⟩
  · rw [takeRetire_judged fun g hg' => nomatch hg.symm.trans hg']
    exact judgeRetire_refused (Cq.retireValid_unconfigured hg n)
  · intro early inSpan
    have judged : ¬ early → takeRetire q n s = judgeRetire q n (s.updCq q (fun c => { c with held := none })) :=
      fun he => takeRetire_judged fun g' hg' => by
        obtain rfl : g = g' := Option.some.inj (hg.symm.trans hg')
        exact he
    refine ⟨fun he => congrArg _ (takeRetire_early hg he), fun he hin => ⟨_, congrArg _ (judged he), ?_⟩,
      fun he hout => ⟨_, congrArg _ (judged he), ?_⟩⟩
    · exact judgeRetire_served ((Cq.retireValid_iff hg n).mpr hin)
    · exact judgeRetire_refused fun hv => hout ((Cq.retireValid_iff hg n).mp hv)

end Sys2Proof.Machine
end

section
/-! Strobes: which edges and expiries are strobes, and what a strobe does to one ring (R138, R140, R145 to R147, R184). -/

namespace Sys2Proof.Machine

/-! ### One ring -/

theorem State.classOf_eq {s : State} {r : Ring} {g : RingCfg} (hg : s.eng[r].cfg = some g) : s.classOf r = g.cls := by
  unfold State.classOf
  rw [hg]
  rfl

/-- A strobe reaches a ring that is PACED, armed, and neither DISABLED nor HALTED (R145). -/
theorem strobeReaches_iff (r : Ring) (s : State) :
    strobeReaches r s = true ↔ s.classOf r = some .paced ∧ s.fu.pace[r].armed = true ∧ s.eng[r].state ≠ .disabled ∧
      s.eng[r].state ≠ .halted := by
  simp [-Fin.getElem_fin, strobeReaches, and_assoc]

section
variable {s : State} {r : Ring}

theorem strobeRing_passes (h : ¬ strobeReaches r s = true) : strobeRing s r = s := if_neg h

/-- A MARK in WAIT_FRAME is released (R145, R147). -/
theorem strobeRing_releases (h : strobeReaches r s = true) (hs : s.eng[r].state = .waitFrame) {x : Exec}
    (hx : s.eng[r].exec = some x) : strobeRing s r = endCommand r (markResult x.rcd 0 s.fu.frame) s := by
  unfold strobeRing
  rw [if_pos h, hs, hx]

/-- Any other ring that a strobe reaches is late (R146, R147). -/
theorem strobeRing_late (h : strobeReaches r s = true) (hs : s.eng[r].state ≠ .waitFrame) :
    strobeRing s r = if s.fu.pace[r].owed < 3 then countLate r s else overrun r s := by
  unfold strobeRing
  rw [if_pos h]
  split
  · exact absurd ‹_› hs
  · rfl

/-- A late ring with a late notice pending makes no other (R146). -/
theorem countLate_pending (hn : s.fu.pace[r].notice.isSome = true) :
    countLate r s = s.updPace r (fun p => { p with late := min (p.late + 1) 65535, owed := p.owed + 1 }) := if_pos hn

/-- A late ring with none pending claims one (R146). -/
theorem countLate_claims {g : RingCfg} (hg : s.eng[r].cfg = some g) (hn : s.fu.pace[r].notice = none) :
    countLate r s = takeClaim g.cq (noticeClaim r (s.fu.pace[r].owed + 1) s.fu.frame) (s.updPace r (fun p =>
      { p with late := min (p.late + 1) 65535, owed := p.owed + 1, notice := some ⟨p.owed + 1, s.fu.frame⟩ })) := by
  have hnone : ¬ s.fu.pace[r].notice.isSome = true := by simp [-Fin.getElem_fin, hn]
  unfold countLate
  dsimp only
  rw [if_neg hnone, hg, State.updPace_updPace]

/-- The overrun of a ring that holds a command or a claim: it is halt-pending (R112, R147). -/
theorem overrun_pends (h : s.eng[r].exec.isSome ∨ s.eng[r].state = .waitCq) :
    overrun r s = reportFault .frameOverrun r.val ((s.updPace r (fun p => { p with late := min (p.late + 1) 65535 })).updEng r
      (fun e => { e with haltPending := true })) := by
  have hbusy : (s.eng[r].exec.isSome || s.eng[r].state == .waitCq) = true := by simpa [-Fin.getElem_fin] using h
  rw [overrun, haltCause, (reportFault_kept _ _ _).get, State.updPace_eng, if_pos hbusy, reportFault_updEng]

/-- The overrun of a ring that holds neither: it halts at once (R112, R114, R147). -/
theorem overrun_halts (hx : s.eng[r].exec = none) (hw : s.eng[r].state ≠ .waitCq) (hs : s.eng[r].stop = none) :
    overrun r s = reportFault .frameOverrun r.val
      (Stopped r (s.updPace r (fun p => { p with late := min (p.late + 1) 65535 }))) := by
  have hfree : ¬ (s.eng[r].exec.isSome || s.eng[r].state == .waitCq) = true := by simp [-Fin.getElem_fin, hx, hw]
  have hstop : ¬ s.eng[r].stop.isSome = true := by simp [-Fin.getElem_fin, hs]
  rw [overrun, haltCause, (reportFault_kept _ _ _).get, State.updPace_eng, if_neg hfree, if_neg hstop, ← halt_eq,
    reportFault_halt]

end

/-- Settles O42: a ring that is not reached, one that waits for its frame, and a late one by what it owes. -/
theorem strobeOnOneRing : Obligations.StrobeOnOneRing := by
  unfold Obligations.StrobeOnOneRing
  intro s r e p late paced
  refine ⟨fun hout => strobeRing_passes fun h => ?_, fun g hg hc ha hd hh => ?_⟩
  · obtain ⟨hclass, harmed, hd, hh⟩ := (strobeReaches_iff r s).mp h
    rcases hout with hnone | hunarmed | hoff | hoff
    · obtain ⟨g, hg, hpaced⟩ := Option.bind_eq_some_iff.mp hclass
      exact hnone g hg hpaced
    · exact absurd harmed (by rw [hunarmed]; simp)
    · exact hd hoff
    · exact hh hoff
  · have hreach : strobeReaches r s = true :=
      (strobeReaches_iff r s).mpr ⟨(State.classOf_eq hg).trans hc, ha, hd, hh⟩
    have hcount : e.state ≠ .waitFrame → p.owed < 3 → strobeRing s r = countLate r s := fun hs ho =>
      (strobeRing_late hreach hs).trans (if_pos ho)
    have hover : e.state ≠ .waitFrame → p.owed = 3 → strobeRing s r = overrun r s := fun hs ho =>
      (strobeRing_late hreach hs).trans (if_neg (Nat.not_lt.mpr ho.ge))
    refine ⟨fun x hs hx => ?_, fun hs ho hn => ?_, fun hs ho hn => ?_, fun hs ho hx => ?_, fun hs ho hx hw hstop => ?_⟩
    · rw [strobeRing_releases hreach hs hx]
      exact endCommand_ended hx _
    · rw [hcount hs ho, countLate_pending hn]
      rfl
    · rw [hcount hs ho, countLate_claims hg hn]
      refine ⟨takeClaim_taken _ _ _, ?_⟩
      conv_lhs => rw [takeClaim_frame]
      conv_rhs => rw [takeClaim_frame]
      rfl
    · rw [hover hs ho, overrun_pends hx]
      exact reportFault_reported _ _ _
    · rw [hover hs ho, overrun_halts hx hw hstop]
      exact reportFault_reported _ _ _

/-! ### Edges and expiries -/

/-- The edges that a source takes as strobes (R138). -/
theorem FrameSource.takesEdge_iff (src : FrameSource) (level : Bool) :
    src.takesEdge level = true ↔ src = .pinRising ∧ level = true ∨ src = .pinFalling ∧ level = false := by
  cases src <;> simp [FrameSource.takesEdge]

/-- A change of the FSYNC pin, by whether it is a strobe (R138, R184). -/
theorem exec_fsyncStrobe {s : State} (h : Released s) (level : Bool) (held : Held) :
    exec (.fsyncStrobe level held) s =
      if level ≠ s.fu.fsync ∧ 100 ≤ held.before ∧ 100 ≤ held.after ∧
          (s.fu.source = .pinRising ∧ level = true ∨ s.fu.source = .pinFalling ∧ level = false) then
        .next (strobe { s with fu := { s.fu with fsync := level } })
      else .next { s with fu := { s.fu with fsync := level } } := by
  have hpin : Released { s with fu := { s.fu with fsync := level } } := h
  show execFsyncStrobe level held s = _
  unfold execFsyncStrobe
  dsimp only
  rw [whileReleased_eq hpin]
  simp only [Bool.and_eq_true, bne_iff_ne, decide_eq_true_eq, FrameSource.takesEdge_iff, and_assoc]

theorem exec_frameTimerExpiry {s : State} (h : Released s) : exec .frameTimerExpiry s = .next (frameExpiry s) := by
  show execFrameTimerExpiry s = _
  rw [execFrameTimerExpiry, whileReleased_eq h]

/-- Settles O41: a change of the pin by whether it is a strobe, an expiry by the frame source. -/
theorem strobesTaken : Obligations.StrobesTaken := by
  unfold Obligations.StrobesTaken
  intro s h strobed
  refine ⟨fun level before after => ?_, fun at' p hsrc ht hp => ?_, fun hsrc => ?_⟩
  · rw [exec_fsyncStrobe h]
    exact ⟨fun he => if_pos he, fun he => if_neg he⟩
  · rw [exec_frameTimerExpiry h, frameExpiry, hsrc, ht, hp]
    rfl
  · rw [exec_frameTimerExpiry h, frameExpiry]
    split
    · exact absurd ‹_› hsrc
    · rfl

end Sys2Proof.Machine
end

section
/-! The owed law (R141): what it says of one ring, and the changes of one place that keep it. -/

namespace Sys2Proof.Machine

/-- The owed law of R141 for one ring, of its pacing state and its engine. -/
def Pacing.Lawful (p : Pacing) (e : Engine) : Prop :=
  p.owed ≤ 3 ∧
  (e.cfg.bind (·.cls) ≠ some .paced ∨ p.armed = false ∨ e.state = .disabled ∨ e.state = .halted → p.owed = 0)

/-- It is the law of every ring but ring 0. -/
theorem owedLaw_iff (s : State) : OwedLaw s ↔ ∀ r : Ring, r ≠ 0 → s.fu.pace[r].Lawful s.eng[r] := Iff.rfl

/-- A ring that owes nothing is lawful, whatever its engine does. -/
theorem Pacing.lawful_of_none {p : Pacing} (h : p.owed = 0) (e : Engine) : p.Lawful e := ⟨by omega, fun _ => h⟩

/-- A ring that a strobe reaches may owe up to 3. -/
theorem Pacing.lawful_of_reached {p : Pacing} {e : Engine} (ho : p.owed ≤ 3) (hc : e.cfg.bind (·.cls) = some .paced)
    (ha : p.armed = true) (hd : e.state ≠ .disabled) (hh : e.state ≠ .halted) : p.Lawful e :=
  ⟨ho, fun h => by simp [hc, ha, hd, hh] at h⟩

/-- The engine keeps its configuration, and its state or enters one in which it works. -/
def Engine.WorksOn (e u : Engine) : Prop :=
  u.cfg = e.cfg ∧ (u.state = e.state ∨ u.state ≠ .disabled ∧ u.state ≠ .halted)

/-- An engine that works on may owe what it owed. -/
theorem Pacing.Lawful.worksOn {p : Pacing} {e u : Engine} (h : p.Lawful e) (hu : e.WorksOn u) : p.Lawful u := by
  obtain ⟨hcfg, hstate⟩ := hu
  obtain ⟨ho, h0⟩ := h
  refine ⟨ho, fun hoff => h0 ?_⟩
  rw [hcfg] at hoff
  rcases hstate with hs | ⟨hd, hh⟩
  · rwa [hs] at hoff
  · simp only [hd, hh, or_false] at hoff
    exact hoff.imp_right .inl

/-- Fewer owed strobes, and a ring that stays armed (R143). -/
theorem Pacing.Lawful.fewer {p q : Pacing} {e : Engine} (h : p.Lawful e) (ho : q.owed ≤ p.owed)
    (ha : p.armed = true → q.armed = true) : q.Lawful e := by
  obtain ⟨h3, h0⟩ := h
  refine ⟨by omega, fun hoff => ?_⟩
  have hp := h0 (hoff.imp_right (Or.imp_left fun hq => Bool.eq_false_iff.mpr fun hp => by simp [ha hp] at hq))
  omega

namespace OwedLaw
variable {s t : State}

/-- The law is one of the engines and of the pacing states. -/
theorem frame (h : OwedLaw s) (he : t.eng = s.eng) (hp : t.fu.pace = s.fu.pace) : OwedLaw t := by
  rw [owedLaw_iff] at *
  rwa [he, hp]

/-- One ring has changed. -/
theorem change (h : OwedLaw s) (r : Ring) (hr : r ≠ 0 → s.fu.pace[r].Lawful s.eng[r] → t.fu.pace[r].Lawful t.eng[r])
    (he : ∀ k, k ≠ r → t.eng[k] = s.eng[k]) (hp : ∀ k, k ≠ r → t.fu.pace[k] = s.fu.pace[k]) : OwedLaw t := by
  rw [owedLaw_iff] at *
  intro k hk
  by_cases hkr : k = r
  · subst hkr
    exact hr hk (h k hk)
  · rw [he k hkr, hp k hkr]
    exact h k hk

/-! ### Updates of one place -/

/-- The engine of one ring changes as the law allows for what the ring owes. -/
theorem setEng (h : OwedLaw s) (r : Ring) {f : Engine → Engine}
    (hf : r ≠ 0 → s.fu.pace[r].Lawful s.eng[r] → s.fu.pace[r].Lawful (f s.eng[r])) : OwedLaw (s.updEng r f) := by
  refine h.change r (fun h0 hl => ?_) (fun k hk => updEng_others hk _ _) fun _ _ => rfl
  rw [State.updEng_get, if_pos rfl]
  exact hf h0 hl

theorem updEng (h : OwedLaw s) (r : Ring) {f : Engine → Engine} (hf : ∀ e : Engine, e.WorksOn (f e)) :
    OwedLaw (s.updEng r f) := h.setEng r fun _ hl => hl.worksOn (hf _)

/-- Ring 0 owes nothing, and is not asked (R118, R153). -/
theorem updEng_zero (h : OwedLaw s) (f : Engine → Engine) : OwedLaw (s.updEng 0 f) := h.setEng 0 fun h0 => absurd rfl h0

theorem setPhase (h : OwedLaw s) (r : Ring) (p : Phase) : OwedLaw (s.setPhase r p) := h.updEng r fun _ => ⟨rfl, .inl rfl⟩

/-- The engine enters ACTIVE. -/
theorem activate (h : OwedLaw s) (r : Ring) : OwedLaw (s.updEng r (fun e => { e with state := .active })) :=
  h.updEng r fun _ => ⟨rfl, .inr (by simp)⟩

theorem updPace (h : OwedLaw s) (r : Ring) {f : Pacing → Pacing}
    (hf : s.fu.pace[r].Lawful s.eng[r] → (f s.fu.pace[r]).Lawful s.eng[r]) : OwedLaw (s.updPace r f) := by
  refine h.change r (fun _ hl => ?_) (fun _ _ => rfl) fun k hk => ?_
  · rw [State.updPace_get, if_pos rfl]
    exact hf hl
  · rw [State.updPace_get, if_neg hk]

/-- The late count or the notice of a ring changes. -/
theorem updNotice (h : OwedLaw s) (r : Ring) {f : Pacing → Pacing}
    (hf : ∀ p : Pacing, (f p).owed = p.owed ∧ (f p).armed = p.armed) : OwedLaw (s.updPace r f) :=
  h.updPace r fun hl => hl.fewer (hf _).1.le fun ha => (hf _).2.trans ha

theorem updLine (h : OwedLaw s) (l : LineIx) (f : Line → Line) : OwedLaw (s.updLine l f) := h.frame rfl rfl

theorem updCq (h : OwedLaw s) (q : CqIx) (f : Cq → Cq) : OwedLaw (s.updCq q f) := h.frame rfl rfl

theorem setClaim (h : OwedLaw s) (r : Ring) (b : Option Burst) : OwedLaw (s.setClaim r b) := h.frame rfl rfl

theorem takeWrite (h : OwedLaw s) (a : Addr) (d : List Byte) : OwedLaw (s.takeWrite a d) := h.frame rfl rfl

theorem atTime (h : OwedLaw s) (n : Nat) : OwedLaw (s.atTime n) := h.frame rfl rfl

theorem withHp (h : OwedLaw s) (hp : HostPort) : OwedLaw { s with hp := hp } := h.frame rfl rfl

theorem withSc (h : OwedLaw s) (sc : StoreCtl) : OwedLaw { s with sc := sc } := h.frame rfl rfl

/-- The Frame Unit changes, but for the pacing states. -/
theorem withFu (h : OwedLaw s) {fu : FrameUnit} (hp : fu.pace = s.fu.pace) : OwedLaw { s with fu := fu } := h.frame rfl hp

variable (h : OwedLaw s)
include h

/-! ### The link, the port and the completion rings -/

theorem writeReported (w : HostWrite) : OwedLaw (writeReported w s) :=
  h.frame (writeReported_eng w s) (by rw [writeReported_fu])

theorem sendMessage (v : Fin 5) : OwedLaw (sendMessage v s) := by
  rw [sendMessage_frame]
  exact h.withHp _

theorem reportFault (c : FaultCode) (n : Nat) : OwedLaw (reportFault c n s) := by
  rw [reportFault_frame]
  exact h.withHp _

theorem arbitrate : OwedLaw (arbitrate s) := by
  rw [arbitrate_frame]
  exact h.withSc _

theorem claimPort (r : Ring) (b : Burst) : OwedLaw (claimPort r b s) := (h.setClaim r _).arbitrate

theorem issueRecord (q : CqIx) (c : Claim) : OwedLaw (issueRecord q c s) := by
  unfold Machine.issueRecord
  split
  · exact h
  · exact (h.updCq q _).takeWrite _ _

theorem takeClaim (q : CqIx) (c : Claim) : OwedLaw (takeClaim q c s) := by
  unfold Machine.takeClaim
  split
  · exact h.issueRecord q c
  · exact h.updCq q _

theorem serveQueue (q : CqIx) : OwedLaw (serveQueue q s) := by
  unfold Machine.serveQueue
  repeat' split
  · exact h
  · exact (h.updCq q _).issueRecord q _
  · exact h

theorem withdrawClaims (q : CqIx) (p : Claim → Bool) : OwedLaw (withdrawClaims q p s) := by
  unfold Machine.withdrawClaims
  split
  · exact (h.updCq q _).serveQueue q
  · exact h

theorem signalCq (q : CqIx) : OwedLaw (signalCq q s) := (h.updCq q _).sendMessage _

theorem moderate (q : CqIx) : OwedLaw (moderate q s) := by
  unfold Machine.moderate
  repeat' split
  · exact h
  · exact h.signalCq q
  · exact h.updCq q _

theorem judgeRetire (q : CqIx) (n : Nat) : OwedLaw (judgeRetire q n s) := by
  unfold Machine.judgeRetire
  split
  · exact (h.updCq q _).serveQueue q
  · exact h.reportFault _ _

theorem takeRetire (q : CqIx) (n : Nat) : OwedLaw (takeRetire q n s) := by
  unfold Machine.takeRetire
  split
  · exact (h.updCq q _).updCq q _
  · exact (h.updCq q _).judgeRetire q n

theorem takeHeld (q : CqIx) : OwedLaw (takeHeld q s) := by
  unfold Machine.takeHeld
  split
  · exact h
  · exact (h.updCq q _).judgeRetire q _

theorem refuseHeld (q : CqIx) : OwedLaw (refuseHeld q s) := by
  unfold Machine.refuseHeld
  split
  · exact h
  · exact (h.updCq q _).reportFault _ _

theorem discardNotice (r : Ring) : OwedLaw (discardNotice r s) := by
  unfold Machine.discardNotice
  split
  · exact h
  · exact (h.updCq _ _).withdrawClaims _ _

/-- A ring whose pacing state is discarded owes nothing (R151). -/
theorem discardPacing (r : Ring) : OwedLaw (discardPacing r s) :=
  (h.discardNotice r).updPace r fun _ => Pacing.lawful_of_none rfl _

/-! ### Engines -/

theorem tryFetch (r : Ring) : OwedLaw (tryFetch r s) := by
  unfold Machine.tryFetch
  repeat' split
  · exact h
  · exact h.updEng r fun _ => ⟨rfl, .inl rfl⟩
  · exact h

/-- A ring that halts owes nothing any more (R150). -/
theorem halt (r : Ring) : OwedLaw (halt r s) := by
  unfold Machine.halt
  refine h.change r (fun _ _ => Pacing.lawful_of_none ?_ _) (fun k hk => ?_) fun k hk => ?_
  · rw [State.updPace_get, if_pos rfl]
  · rw [State.updPace_eng, updEng_others hk]
  · rw [State.updPace_get, if_neg hk, State.updEng_fu]

theorem haltCause (r : Ring) : OwedLaw (haltCause r s) := by
  unfold Machine.haltCause
  repeat' split
  · exact h.updEng r fun _ => ⟨rfl, .inl rfl⟩
  · exact h
  · exact h.halt r

theorem execStaged (r : Ring) (x : Record) : OwedLaw (execStaged r x s) := h.updEng r fun _ => ⟨rfl, .inr (by simp)⟩

theorem goOn (r : Ring) : OwedLaw (goOn r s) := by
  unfold Machine.goOn
  repeat' split
  · exact h.halt r
  · exact (h.execStaged r _).tryFetch r
  · exact (h.activate r).tryFetch r
  · exact h.updEng r fun _ => ⟨rfl, .inr (by simp)⟩

theorem endCommand (r : Ring) (res : Result) : OwedLaw (endCommand r res s) := by
  have hended := h.updEng r (f := fun e => { e with exec := none, lastOk := lastOkAfter res.status e.lastOk })
    fun _ => ⟨rfl, .inl rfl⟩
  have hclaims := hended.updEng r (f := fun e => { e with state := .waitCq }) fun _ => ⟨rfl, .inr (by simp)⟩
  unfold Machine.endCommand
  dsimp only
  repeat' split
  · exact h
  · exact hended.goOn r
  · exact hclaims
  · exact hclaims.takeClaim _ _

theorem takePost (r : Ring) (n : Nat) : OwedLaw (takePost r n s) := by
  have hposted := h.updEng r (f := fun e => { e with tail := n }) fun _ => ⟨rfl, .inl rfl⟩
  unfold Machine.takePost refusePost
  dsimp only
  repeat' split
  · exact h.reportFault _ _
  · exact h.reportFault _ _
  · exact hposted
  · exact (hposted.activate r).tryFetch r
  · exact hposted.tryFetch r

theorem issueWrite (r : Ring) (a : Addr) (d : List Byte) : OwedLaw (issueWrite r a d s) :=
  (h.updEng r (f := fun e => { e with wr := some (s.hostWrite a d) }) fun _ => ⟨rfl, .inl rfl⟩).takeWrite a d

theorem issueRead (r : Ring) (a : Addr) (n : Nat) : OwedLaw (issueRead r a n s) := h.updEng r fun _ => ⟨rfl, .inl rfl⟩

end OwedLaw

end Sys2Proof.Machine
end

section
/-! The owed law through grants, releases and stops (R41 to R50, R112 to R116, R151, R169). -/

namespace Sys2Proof.Machine

/-- A ring whose pacing state has been discarded owes nothing (R151). -/
theorem discardPacing_owed (r : Ring) (s : State) : (discardPacing r s).fu.pace[r].owed = 0 := by
  unfold discardPacing
  rw [State.updPace_get, if_pos rfl]

namespace OwedLaw
variable {s : State} (h : OwedLaw s)
include h

/-! ### What a granted command does until its next transfer or burst -/

theorem pushNext (r : Ring) (x : Record) (n : Nat) : OwedLaw (pushNext r x n s) := (h.setPhase r _).issueRead r _ _

theorem readChunk (r : Ring) : OwedLaw (readChunk r s) := by
  unfold Machine.readChunk
  dsimp only
  repeat' split
  · exact h
  · exact h
  · exact h.setPhase r _
  · exact (h.setPhase r _).claimPort r _
  · exact h

theorem writeChunk (r : Ring) : OwedLaw (writeChunk r s) := by
  unfold Machine.writeChunk
  repeat' split
  · exact h
  · exact (h.setPhase r _).issueWrite r _ _
  · exact h
  · exact h

theorem pumpReader (r : Ring) : OwedLaw (pumpReader r s) := ((h.readChunk r).writeChunk r).readChunk r

theorem issueInput (r : Ring) (x : Record) (c : StepCtx) : OwedLaw (issueInput r x c s) := by
  unfold Machine.issueInput
  dsimp only
  split
  · exact (h.setPhase r _).issueRead r _ _
  · exact h.setPhase r _

theorem writeStep (r : Ring) : OwedLaw (writeStep r s) := by
  unfold Machine.writeStep
  repeat' split
  · exact h
  · exact (h.setPhase r _).issueWrite r _ _
  · exact h
  · exact h

theorem commitStep (r : Ring) : OwedLaw (commitStep r s) := by
  unfold Machine.commitStep
  repeat' split
  · exact (h.setPhase r _).claimPort r _
  · exact h
  · exact h
  · exact h

/-! ### Locks -/

theorem leaveLock (r : Ring) (l : LineIx) : OwedLaw (leaveLock r l s) := h.updLine l _

theorem beginReader (r : Ring) (x : Record) (offs : List Nat) : OwedLaw (beginReader r x offs s) := by
  unfold Machine.beginReader
  dsimp only
  split
  · exact (h.leaveLock r _).endCommand r _
  · exact (h.setPhase r _).pumpReader r

theorem beginSetTaps (r : Ring) (x : Record) : OwedLaw (beginSetTaps r x s) := by
  unfold Machine.beginSetTaps
  dsimp only
  split
  · exact ((h.updLine _ _).leaveLock r _).endCommand r _
  · exact (h.setPhase r _).issueRead r _ _

theorem beginClear (r : Ring) (x : Record) : OwedLaw (beginClear r x s) :=
  ((h.updLine x.lineIx _).leaveLock r _).endCommand r _

theorem beginGranted (r : Ring) : OwedLaw (beginGranted r s) := by
  have hactive := h.activate r
  unfold Machine.beginGranted
  dsimp only
  split
  · exact h
  · split
    · exact hactive.pushNext r _ _
    · exact hactive.beginSetTaps r _
    · exact hactive.beginClear r _
    · exact hactive.issueInput r _ _
    · exact hactive.beginReader r _ _
    · exact hactive.beginReader r _ _
    · exact hactive

theorem grantWaiter (r : Ring) : OwedLaw (grantWaiter r s) := by
  unfold Machine.grantWaiter
  split
  · exact (h.setPhase r _).activate r
  · exact h.beginGranted r

theorem endClose (l : LineIx) : OwedLaw (endClose l s) := by
  have hfreed : OwedLaw (freed l s) := h.frame rfl rfl
  obtain he | ⟨w, -, c, q, -, he⟩ := endClose_cases l s
  · rwa [he]
  · rw [he]
    exact hfreed.endCommand _ _

omit h in
theorem grantLoop (n : Nat) (l : LineIx) {s : State} (h : OwedLaw s) : OwedLaw (grantLoop n l s) := by
  induction n generalizing s with
  | zero => exact h
  | succ n ih =>
    have grant : ∀ (r : Ring) (f : Line → Line), OwedLaw (Machine.grantLoop n l (Machine.grantWaiter r (s.updLine l f))) :=
      fun r f => ih ((h.updLine l f).grantWaiter r)
    unfold Machine.grantLoop
    dsimp only
    repeat' split
    · exact h.endClose l
    · exact h
    · exact grant _ _
    · exact grant _ _
    · exact grant _ _
    · exact h

theorem grantStep (l : LineIx) : OwedLaw (grantStep l s) := grantLoop _ l h

theorem release (r : Ring) (l : LineIx) : OwedLaw (release r l s) := (h.leaveLock r l).grantStep l

theorem finish (r : Ring) (x : Record) (res : Result) : OwedLaw (finish r x res s) := (h.release r _).endCommand r res

theorem queueClaim (r : Ring) (l : LineIx) (k : WaitKind) : OwedLaw (queueClaim r l k s) :=
  ((h.updLine l _).setPhase r _).updEng r fun _ => ⟨rfl, .inr (by simp)⟩

theorem claimReader (r : Ring) (l : LineIx) : OwedLaw (claimReader r l s) := by
  unfold Machine.claimReader
  dsimp only
  split
  · exact ((h.updLine l _).beginGranted r).grantStep l
  · exact h.queueClaim r l _

theorem claimWriter (r : Ring) (l : LineIx) : OwedLaw (claimWriter r l s) := by
  unfold Machine.claimWriter
  split
  · exact ((h.updLine l _).beginGranted r).grantStep l
  · exact h.queueClaim r l _

theorem finishStep (r : Ring) : OwedLaw (finishStep r s) := by
  unfold Machine.finishStep
  dsimp only
  repeat' split
  all_goals first
    | exact h
    | exact h.finish r _ _

theorem pumpStep (r : Ring) : OwedLaw (pumpStep r s) := ((h.writeStep r).commitStep r).finishStep r

/-! ### Stops -/

theorem dropCommand (r : Ring) : OwedLaw (dropCommand r s) := by
  have hdropped : ∀ rep : Engine → Option StopReport,
      OwedLaw (s.updEng r (fun e => { e with state := .active, exec := none, report := rep e })) :=
    fun _ => h.updEng r fun _ => ⟨rfl, .inr (by simp)⟩
  unfold Machine.dropCommand
  dsimp only
  split
  · exact h
  · split
    · exact (hdropped _).release r _
    · exact hdropped _

theorem dropClaim (r : Ring) : OwedLaw (dropClaim r s) := by
  unfold Machine.dropClaim
  dsimp only
  repeat' split
  · exact h.activate r
  · exact (h.activate r).withdrawClaims _ _
  · exact h

theorem unwind (r : Ring) : OwedLaw (unwind r s) :=
  ((h.updEng r (f := fun e => { e with staged := none }) fun _ => ⟨rfl, .inl rfl⟩).dropCommand r).dropClaim r

theorem finishRestart : OwedLaw (finishRestart s) := ((h.updCq 0 _).updEng_zero _).withHp _

theorem tryRestart : OwedLaw (tryRestart s) := by
  unfold Machine.tryRestart
  dsimp only
  repeat' split
  · exact (h.unwind 0).finishRestart
  · exact h.unwind 0
  · exact h

theorem endControl (res : Result) : OwedLaw (endControl res s) := by
  unfold Machine.endControl
  split
  · exact (h.updEng_zero _).tryRestart
  · exact h.endCommand 0 res

theorem targetStopped (r : Ring) (rep : StopReport) (n : Nat) : OwedLaw (targetStopped r rep n s) := by
  unfold Machine.targetStopped
  repeat' split
  · exact h.endControl _
  · exact h
  · exact h

/-- A ring reset ends at a ring that owes nothing (R116, R151). -/
theorem finishReset (r : Ring) (ho : s.fu.pace[r].owed = 0) : OwedLaw (finishReset r s) :=
  (h.setEng r (f := fun _ => Engine.resetValue) fun _ _ => Pacing.lawful_of_none ho _).targetStopped r _ _

theorem tryStop (r : Ring) : OwedLaw (tryStop r s) := by
  have hunwound := h.unwind r
  have hdiscarded := hunwound.discardPacing r
  unfold Machine.tryStop
  dsimp only
  repeat' split
  · exact h.tryRestart
  · exact h
  · exact hunwound.halt r
  · exact hdiscarded
  · exact hdiscarded.finishReset r (discardPacing_owed r _)
  · exact h

theorem beginStop (r : Ring) (cause : StopCause) : OwedLaw (beginStop r cause s) :=
  ((h.updEng r (f := fun e => { e with stop := some cause }) fun _ => ⟨rfl, .inl rfl⟩).setClaim r none).tryStop r

theorem noticeFailed (r : Ring) : OwedLaw (noticeFailed r s) := by
  unfold Machine.noticeFailed
  dsimp only
  split
  · exact h
  · exact h.beginStop r _

theorem orStop (r : Ring) {k : State → State} (hk : OwedLaw (k s)) : OwedLaw (orStop r k s) :=
  orStop_ind (h.tryStop r) fun _ => hk

end OwedLaw

end Sys2Proof.Machine
end

section
/-! The work of the commands keeps the owed law (R141). -/

namespace Sys2Proof.Machine

namespace OwedLaw
variable {s : State} (h : OwedLaw s)
include h

/-! ### Strobes and MARK -/

/-- A MARK arms its ring and may consume an owed strobe (R143). -/
theorem runMark (r : Ring) (x : Record) : OwedLaw (runMark r x s) := by
  have harmed := h.updPace r (f := fun p => { p with armed := true, owed := p.owed - 1 })
    fun hl => hl.fewer (Nat.sub_le _ _) fun _ => rfl
  unfold Machine.runMark carryOutMark
  dsimp only
  repeat' split
  · exact (harmed.setPhase r _).updEng r fun _ => ⟨rfl, .inr (by simp)⟩
  · exact harmed.endCommand r _
  · exact h.endCommand r _

/-- A ring that a strobe reaches owes one strobe more, up to 3 (R146). -/
theorem countLate (r : Ring) (hr : strobeReaches r s = true) (ho : s.fu.pace[r].owed < 3) : OwedLaw (countLate r s) := by
  obtain ⟨hclass, harmed, hd, hh⟩ := (strobeReaches_iff r s).mp hr
  have hlate := h.updPace r (f := fun p => { p with late := min (p.late + 1) 65535, owed := p.owed + 1 })
    fun _ => Pacing.lawful_of_reached ho hclass harmed hd hh
  have hnotice := hlate.updNotice r (f := fun p => { p with notice := some ⟨p.owed, s.fu.frame⟩ }) fun _ => ⟨rfl, rfl⟩
  unfold Machine.countLate
  dsimp only
  repeat' split
  · exact hlate
  · exact hnotice
  · exact hnotice.takeClaim _ _

/-- The late count of a ring that overruns rises, and what it owes stays until it halts (R147, R150). -/
theorem overrun (r : Ring) : OwedLaw (overrun r s) := by
  have hlate := h.updNotice r (f := fun p => { p with late := min (p.late + 1) 65535 }) fun _ => ⟨rfl, rfl⟩
  exact (hlate.reportFault _ _).haltCause r

theorem strobeRing (r : Ring) : OwedLaw (strobeRing s r) := by
  unfold Machine.strobeRing
  split
  · split
    · exact h.endCommand r _
    · split
      · exact h.countLate r ‹_› ‹_›
      · exact h.overrun r
  · exact h

omit h in
theorem strobeRings (rs : List Ring) {s : State} (h : OwedLaw s) : OwedLaw (rs.foldl Machine.strobeRing s) := by
  induction rs generalizing s with
  | nil => exact h
  | cons r rs ih => exact ih (h.strobeRing r)

theorem strobe : OwedLaw (strobe s) := strobeRings _ (h.withFu rfl)

theorem frameExpiry : OwedLaw (frameExpiry s) := by
  unfold Machine.frameExpiry
  split
  · exact OwedLaw.strobe ((h.atTime _).withFu rfl)
  · exact h

/-! ### Ring 0 -/

theorem configureCq (x : Record) : OwedLaw (configureCq x s) := by
  unfold Machine.configureCq
  split
  · exact h.setPhase 0 _
  · exact OwedLaw.endControl (h.updCq _ _) _

theorem resumeCqWait (q : CqIx) : OwedLaw (resumeCqWait q s) := by
  unfold Machine.resumeCqWait
  repeat' split
  · exact h.configureCq _
  · exact h
  · exact h

/-- A ring is configured with its pacing state set afresh (R97, R141). -/
theorem configureRing (x : Record) : OwedLaw (configureRing x s) := by
  unfold Machine.configureRing
  refine OwedLaw.endCommand (h.change x.ringA (fun _ _ => Pacing.lawful_of_none ?_ _) (fun k hk => ?_) fun k hk => ?_) 0 _
  · rw [State.updPace_get, if_pos rfl]
    rfl
  · rw [State.updPace_eng, updEng_others hk]
  · rw [State.updPace_get, if_neg hk, State.updEng_fu]

theorem resetRing (x : Record) : OwedLaw (resetRing x s) := (h.setPhase 0 _).beginStop _ _

theorem configureDevice (x : Record) : OwedLaw (configureDevice x s) := by
  unfold Machine.configureDevice setFrameSource setRefreshCode
  refine OwedLaw.endCommand ?_ 0 _
  split
  · exact (h.withSc _).withFu rfl
  · exact (h.withSc _).withFu rfl

theorem writeSnapshot (x : Record) (data : List Byte) (res : Result) : OwedLaw (writeSnapshot x data res s) :=
  (h.setPhase 0 _).issueWrite 0 _ _

theorem endQuery (res : Result) : OwedLaw (endQuery res s) := (h.updEng_zero _).endControl res

/-! ### Completion records -/

theorem tellPosted (c : Claim) : OwedLaw (tellPosted c s) := by
  unfold Machine.tellPosted
  repeat' split
  · exact h
  · exact h.updNotice _ fun _ => ⟨rfl, rfl⟩
  · exact h
  · refine h.orStop _ ?_
    split
    · exact h.goOn _
    · exact h

theorem tellFailed (c : Claim) : OwedLaw (tellFailed c s) := by
  unfold Machine.tellFailed
  repeat' split
  · exact h
  · exact (h.updNotice c.ring (f := fun p => { p with notice := none }) fun _ => ⟨rfl, rfl⟩).noticeFailed _
  · refine h.orStop _ ?_
    split
    · exact h.halt _
    · exact h

theorem restartAfter (c : Claim) : OwedLaw (restartAfter c s) := by
  unfold Machine.restartAfter
  split
  · exact h.tryRestart
  · exact h

theorem writePosted (q : CqIx) (c : Claim) : OwedLaw (writePosted q c s) := by
  have htold : OwedLaw (Machine.tellPosted c (postRecord q s)) := OwedLaw.tellPosted (h.updCq q _) c
  exact ((((htold.moderate q).takeHeld q).resumeCqWait q).serveQueue q).restartAfter c

theorem writeFailed (q : CqIx) (c : Claim) : OwedLaw (writeFailed q c s) := by
  have hlost : OwedLaw (loseRecord q s) := h.updCq q _
  exact ((((hlost.reportFault _ _).refuseHeld q).tellFailed c).resumeCqWait q).serveQueue q

/-! ### Records -/

theorem fetchDone (r : Ring) (bytes : BitVec 256) : OwedLaw (fetchDone r bytes s) := by
  have hover := h.updEng r (f := fun e => { e with fetch := none }) fun _ => ⟨rfl, .inl rfl⟩
  have hhead := hover.updEng r (f := fun e => { e with head := (e.head + 1) % e.size }) fun _ => ⟨rfl, .inl rfl⟩
  unfold Machine.fetchDone
  dsimp only
  repeat' split
  · exact hover.tryStop r
  · exact (hhead.execStaged r _).tryFetch r
  · exact hhead.updEng r fun _ => ⟨rfl, .inl rfl⟩

theorem fetchFailed (r : Ring) : OwedLaw (fetchFailed r s) := by
  have hover := h.updEng r (f := fun e => { e with fetch := none }) fun _ => ⟨rfl, .inl rfl⟩
  unfold Machine.fetchFailed
  dsimp only
  repeat' split
  · exact h
  · exact hover.tryStop r
  · exact (hover.reportFault _ _).haltCause r

/-! ### Transfers of line commands -/

theorem readOver (r : Ring) : OwedLaw (readOver r s) := h.updEng r fun _ => ⟨rfl, .inl rfl⟩

theorem writeOver (r : Ring) : OwedLaw (writeOver r s) := h.updEng r fun _ => ⟨rfl, .inl rfl⟩

theorem installTaps (r : Ring) (x : Record) (ts : List Nat) : OwedLaw (installTaps r x ts s) := by
  unfold Machine.installTaps
  dsimp only
  split
  · exact h.finish r x _
  · exact (h.updLine _ _).finish r x _

theorem tapListReadFailed (r : Ring) : OwedLaw (tapListReadFailed r s) := by
  unfold Machine.tapListReadFailed
  repeat' split
  · exact h
  · exact h
  · exact (h.readOver r).orStop r ((h.readOver r).finish r _ _)

theorem claimPush (r : Ring) (x : Record) (bytes : List Byte) : OwedLaw (claimPush r x bytes s) := by
  unfold Machine.claimPush
  split
  · exact h
  · exact h.claimPort r _

theorem pushSamplesReadFailed (r : Ring) : OwedLaw (pushSamplesReadFailed r s) := by
  unfold Machine.pushSamplesReadFailed
  repeat' split
  · exact h
  · exact h
  · exact (h.readOver r).orStop r ((h.readOver r).finish r _ _)

theorem pushGoesOn (r : Ring) (x : Record) (n : Nat) : OwedLaw (pushGoesOn r x n s) := by
  unfold Machine.pushGoesOn
  split
  · exact h.pushNext r x n
  · exact h.finish r x _

theorem takeInputs (r : Ring) (x : Record) (c : StepCtx) (bytes : List Byte) : OwedLaw (takeInputs r x c bytes s) := by
  unfold Machine.takeInputs
  repeat' split
  · exact h
  · exact h
  · exact h.setPhase r _

theorem stepInputReadFailed (r : Ring) : OwedLaw (stepInputReadFailed r s) := by
  unfold Machine.stepInputReadFailed
  repeat' split
  · exact h
  · exact h
  · exact (h.readOver r).orStop r (((h.readOver r).setPhase r _).pumpStep r)

theorem commandReadFailed (r : Ring) : OwedLaw (commandReadFailed r s) := by
  unfold Machine.commandReadFailed
  split
  · exact h.tapListReadFailed r
  · exact h.pushSamplesReadFailed r
  · exact h.stepInputReadFailed r
  · exact h

theorem readerWritten (r : Ring) (x : Record) (c : ReaderCtx) : OwedLaw (readerWritten r x c s) := by
  unfold Machine.readerWritten
  split
  · exact h.finish r x _
  · exact (h.setPhase r _).pumpReader r

theorem stepWritten (r : Ring) (c : StepCtx) : OwedLaw (stepWritten r c s) := (h.setPhase r _).pumpStep r

theorem readerWriteFailed (r : Ring) (x : Record) (c : ReaderCtx) : OwedLaw (readerWriteFailed r x c s) := by
  have hfailed := (h.setClaim r none).setPhase r (.reader { c with failed := true })
  unfold Machine.readerWriteFailed
  dsimp only
  split
  · exact hfailed
  · exact hfailed.finish r x _

theorem stepWriteFailed (r : Ring) (c : StepCtx) : OwedLaw (stepWriteFailed r c s) :=
  ((h.setClaim r none).setPhase r _).finishStep r

/-! ### The ends of bursts -/

theorem readerBurstOver (r : Ring) (x : Record) (c : ReaderCtx) : OwedLaw (readerBurstOver r x c s) := by
  unfold Machine.readerBurstOver
  repeat' split
  · exact h
  · exact h.finish r x _
  · exact (h.setPhase r _).pumpReader r

theorem stepCommitted (r : Ring) (x : Record) (c : StepCtx) : OwedLaw (stepCommitted r x c s) := by
  have next : ∀ {u : State}, OwedLaw u → ∀ (b : Bool) (ws : List Nat),
      OwedLaw (if b = true then Machine.pumpStep r u else Machine.claimPort r (.read ws) u) := by
    intro u hu b ws
    split
    · exact hu.pumpStep r
    · exact hu.claimPort r _
  unfold Machine.stepCommitted
  dsimp only
  split
  · exact h
  · refine next ?_ _ _
    split
    · exact h.issueInput r x _
    · exact h.setPhase r _

theorem stepBurstOver (r : Ring) (x : Record) (c : StepCtx) : OwedLaw (stepBurstOver r x c s) := by
  unfold Machine.stepBurstOver
  dsimp only
  repeat' split
  · exact h
  · exact h.finishStep r
  · exact h.stepCommitted r x c
  · exact (h.setPhase r _).pumpStep r

theorem afterBurst (r : Ring) : OwedLaw (afterBurst r s) := by
  unfold Machine.afterBurst
  split
  · exact h.pushGoesOn r _ _
  · exact h.readerBurstOver r _ _
  · exact h.stepBurstOver r _ _
  · exact h

theorem commitBurst (r : Ring) (m : Nat) : OwedLaw (commitBurst r m s) := by
  unfold Machine.commitBurst
  split
  · exact (h.updLine _ _).setPhase r _
  · exact (h.updLine _ _).setPhase r _
  · exact h

theorem burstEffect (r : Ring) (b : Burst) : OwedLaw (burstEffect r b s) := by
  have hstore : ∀ store, OwedLaw { s with store := store } := fun _ => h.frame rfl rfl
  unfold Machine.burstEffect
  split
  · exact (hstore _).commitBurst r _
  · exact h

theorem endBurst (r : Ring) (b : Burst) : OwedLaw (endBurst r b s) := by
  have hfree := fun sc => ((h.burstEffect r b).withSc sc).arbitrate
  exact (hfree _).orStop r ((hfree _).afterBurst r)

theorem refreshEnd : OwedLaw (refreshEnd s) := by
  unfold Machine.refreshEnd
  split
  · exact (h.withSc _).arbitrate
  · exact h

theorem refreshExpiry : OwedLaw (refreshExpiry s) := by
  unfold Machine.refreshExpiry
  dsimp only
  repeat' split
  · exact h
  · exact (((h.atTime _).withSc _).withSc _).arbitrate
  · exact ((h.atTime _).withSc _).reportFault _ _

/-! ### The Host Port and the Store Controller -/

omit h in
/-- After a device reset no ring owes a strobe (R141, R178). -/
theorem deviceReset (s : State) : OwedLaw (deviceReset s) :=
  (owedLaw_iff _).mpr fun r _ => Pacing.lawful_of_none
    (by simp [Machine.deviceReset, FrameUnit.resetValue, Pacing.resetValue]) _

omit h in
theorem powerOn (s : State) : OwedLaw (powerOn s) := (deviceReset s).frame rfl rfl

theorem failStart (c : FaultCode) : OwedLaw (failStart c s) := (h.withHp _).reportFault _ _

theorem anchorReadFailed : OwedLaw (anchorReadFailed s) := by
  unfold Machine.anchorReadFailed
  split
  · exact h
  · exact h.failStart _

theorem readFailed (id : ReadId) : OwedLaw (readFailed id s) := by
  unfold Machine.readFailed
  split
  · exact h.anchorReadFailed
  · exact h.fetchFailed _
  · exact h.commandReadFailed _

theorem checkAnchorAddr : OwedLaw (checkAnchorAddr s) := by
  unfold Machine.checkAnchorAddr
  repeat' split
  · exact h
  · exact h.withHp _
  · exact h.failStart _

theorem controlStart : OwedLaw (controlStart s) := by
  unfold Machine.controlStart
  dsimp only
  repeat' split
  · exact (h.withHp _).checkAnchorAddr
  · exact h.withHp _
  · exact h

theorem controlRestart : OwedLaw (controlRestart s) := by
  unfold Machine.controlRestart
  repeat' split
  · exact h
  · exact (h.withHp _).beginStop 0 _
  · exact h

theorem writeControl (v : Word) : OwedLaw (writeControl v s) := by
  unfold Machine.writeControl
  repeat' split
  · exact h.controlStart
  · exact deviceReset s
  · exact h.controlRestart
  · exact h

theorem storeReady : OwedLaw (storeReady s) := by
  have hready := fun sc => (h.withSc sc).arbitrate
  unfold Machine.storeReady
  dsimp only
  repeat' split
  · exact (hready _).checkAnchorAddr
  · exact hready _
  · exact h

theorem configureFromAnchor (block : BitVec 256) : OwedLaw (configureFromAnchor block s) :=
  ((h.updEng_zero _).updCq 0 _).withHp _

theorem failTransfers : OwedLaw (failTransfers s) := by
  obtain ⟨_, -, heng⟩ := failTransfers_failed s
  rw [owedLaw_iff] at *
  intro r hr
  rw [heng r, show (Machine.failTransfers s).fu = s.fu from rfl]
  exact (h r hr).worksOn ⟨rfl, .inl rfl⟩

theorem writeWindow (offset n : Nat) (v : Word) : OwedLaw (writeWindow offset n v s) := by
  unfold Machine.writeWindow
  repeat' split
  · exact h
  · exact h.writeControl v
  · exact h.withHp _
  · exact h.withHp _
  · exact h.takePost _ _
  · exact h.takeRetire _ _
  · exact h.withHp _
  · exact h

/-! ### The line commands -/

omit h in
theorem refuseReaders (l : LineIx) (rs : List Ring) {s : State} (h : OwedLaw s) :
    OwedLaw (rs.foldl (fun t q => refuseReader l q t) s) := by
  have refuse : ∀ (r : Ring) {u : State}, OwedLaw u → OwedLaw (refuseReader l r u) := by
    intro r u hu
    unfold refuseReader
    split
    · exact hu
    · exact (hu.activate r).endCommand r _
  induction rs generalizing s with
  | nil => exact h
  | cons r rs ih => exact ih (refuse r h)

theorem closing (r : Ring) (x : Record) : OwedLaw (closing r x s) :=
  ((h.updLine x.lineIx _).setPhase r _).updEng r fun _ => ⟨rfl, .inr (by simp)⟩

theorem carryOutClose (r : Ring) (x : Record) : OwedLaw (carryOutClose r x s) := by
  rw [carryOutClose_eq]
  exact (refuseReaders _ _ (h.closing r x)).grantStep _

theorem carryOutOpen (r : Ring) (x : Record) : OwedLaw (carryOutOpen r x s) := by
  have hopened : ∀ (f : Line → Line) (es : List Extent), OwedLaw { s.updLine x.lineIx f with free := es } :=
    fun _ _ => h.frame rfl rfl
  unfold Machine.carryOutOpen
  dsimp only
  split
  · exact (hopened _ _).endCommand r _
  · exact h.endCommand r _

theorem carryOutTest (r : Ring) (x : Record) : OwedLaw (carryOutTest r x s) :=
  (h.updEng r (f := fun e => { e with test := decide (x.paramA.toNat ≤ (s.lineOf x).fill) })
    fun _ => ⟨rfl, .inl rfl⟩).endCommand r _

end OwedLaw

end Sys2Proof.Machine
end

section
/-! Every command keeps the owed law (R141). -/

namespace Sys2Proof.Machine

namespace OwedLaw
variable {s : State} (h : OwedLaw s)
include h

/-! ### Commands -/

theorem released {f : State → State} (hf : OwedLaw (f s)) : Yields OwedLaw (whileReleased s fun s => .next (f s)) :=
  whileReleased_ind h fun _ => hf

theorem lineCommand (r : Ring) (k : Kind) {body : Record → State → State} (hb : ∀ x, OwedLaw (body x s)) :
    Yields OwedLaw (whileReleased s fun s => .next (lineCommand r k body s)) :=
  h.released (lineCommand_ind h (fun _ _ res => h.endCommand r res) fun x _ _ _ _ _ => hb x)

theorem control (k : Kind) (check : Record → State → Option Status) {effect : Record → State → State}
    (he : ∀ x, OwedLaw (effect x s)) :
    Yields OwedLaw (whileReleased s fun s => .next (runKind 0 k (checkedControl check effect) s)) :=
  h.released (control_ind h (fun _ _ res => h.endCommand 0 res) fun x _ _ => he x)

theorem mark (r : Ring) : Yields OwedLaw (execMark r s) :=
  h.released (runKind_ind h (fun _ _ res => h.endCommand r res) fun x _ _ _ =>
    onLineRing_ind (h.endCommand r) fun _ => h.runMark r x)

theorem configSpaceWrite (bit : ConfigBit) (value : Bool) : Yields OwedLaw (execConfigSpaceWrite bit value s) := by
  refine whileReleased_ind h fun _ => ?_
  cases bit with
  | msi => exact h.withHp _
  | busMaster =>
    cases value with
    | true => exact h.withHp _
    | false => exact (h.withHp _).failTransfers

theorem linkUp : Yields OwedLaw (execLinkUp s) := whileReleased_ind h fun _ => h.withHp _

theorem linkDown : Yields OwedLaw (execLinkDown s) := whileReleased_ind h fun _ => (h.withHp _).failTransfers

theorem anchorReadDone (block : BitVec 256) : Yields OwedLaw (execAnchorReadDone block s) := by
  refine whileReleased_ind h fun _ => ?_
  repeat' split
  · exact h
  · exact h
  · exact h.configureFromAnchor block
  · exact h.failStart _

theorem hostReadTimeout (read : ReadId) : Yields OwedLaw (execHostReadTimeout read s) := by
  refine whileReleased_ind h fun _ => ?_
  split
  · exact h
  · exact (h.atTime _).readFailed read

theorem execFetchDone (r : Ring) (bytes : BitVec 256) : Yields OwedLaw (execFetchDone r bytes s) := by
  refine whileReleased_ind h fun _ => ?_
  repeat' split
  · exact h
  · exact h.fetchDone r bytes
  · exact h

theorem unknownKindRecord (r : Ring) : Yields OwedLaw (execUnknownKindRecord r s) := by
  have hend := h.endCommand r
  refine whileReleased_ind h fun _ => ?_
  unfold guarded
  repeat' split
  · exact h
  · exact h
  · exact hend _
  · exact hend _
  · exact hend _

theorem tapListReadDone (r : Ring) (bytes : List Byte) : Yields OwedLaw (execTapListReadDone r bytes s) := by
  refine whileReleased_ind h fun _ => ?_
  repeat' split
  · exact h
  · exact (h.readOver r).orStop r ((h.readOver r).installTaps r _ _)
  · exact h

theorem pushSamplesReadDone (r : Ring) (bytes : List Byte) : Yields OwedLaw (execPushSamplesReadDone r bytes s) := by
  refine whileReleased_ind h fun _ => ?_
  repeat' split
  · exact h
  · exact (h.readOver r).orStop r ((h.readOver r).claimPush r _ _)
  · exact h

theorem stepInputReadDone (r : Ring) (bytes : List Byte) : Yields OwedLaw (execStepInputReadDone r bytes s) := by
  refine whileReleased_ind h fun _ => ?_
  repeat' split
  · exact h
  · exact (h.readOver r).orStop r (((h.readOver r).takeInputs r _ _ _).pumpStep r)
  · exact h

theorem resultWriteCompleted (r : Ring) : Yields OwedLaw (execResultWriteCompleted r s) := by
  have hover := fun w => (h.writeReported w).writeOver r
  refine whileReleased_ind h fun _ => ?_
  repeat' split
  · exact h
  · exact (hover _).orStop r ((hover _).readerWritten r _ _)
  · exact (hover _).orStop r ((hover _).stepWritten r _)
  · exact h
  · exact h

theorem resultWriteFailed (r : Ring) : Yields OwedLaw (execResultWriteFailed r s) := by
  refine whileReleased_ind h fun _ => ?_
  repeat' split
  · exact h
  · exact (h.writeOver r).orStop r ((h.writeOver r).readerWriteFailed r _ _)
  · exact h

theorem stepResultWriteFailed (r : Ring) : Yields OwedLaw (execStepResultWriteFailed r s) := by
  refine whileReleased_ind h fun _ => ?_
  repeat' split
  · exact h
  · exact (h.writeOver r).orStop r ((h.writeOver r).stepWriteFailed r _)
  · exact h

theorem queryWriteDone : Yields OwedLaw (execQueryWriteDone s) := by
  refine whileReleased_ind h fun _ => ?_
  repeat' split
  · exact (h.writeReported _).endQuery _
  · exact h
  · exact h

theorem queryWriteFailed : Yields OwedLaw (execQueryWriteFailed s) := by
  refine whileReleased_ind h fun _ => ?_
  repeat' split
  · exact h
  · exact h.endQuery _
  · exact h

theorem storeBurstEnd : Yields OwedLaw (execStoreBurstEnd s) := by
  refine whileReleased_ind h fun _ => ?_
  repeat' split
  · trivial
  · exact h.endBurst _ _
  · exact h

theorem completionWritePosted (q : CqIx) : Yields OwedLaw (execCompletionWritePosted q s) := by
  refine whileReleased_ind h fun _ => ?_
  repeat' split
  · exact h
  · exact (h.writeReported _).writePosted q _
  · exact h

theorem completionWriteFailed (q : CqIx) : Yields OwedLaw (execCompletionWriteFailed q s) := by
  refine whileReleased_ind h fun _ => ?_
  repeat' split
  · exact h
  · exact h
  · exact h.writeFailed q _

theorem holdoffTimerExpiry (q : CqIx) : Yields OwedLaw (execHoldoffTimerExpiry q s) := by
  refine whileReleased_ind h fun _ => ?_
  split
  · exact h
  · exact (h.atTime _).signalCq q

theorem fsyncStrobe (level : Bool) (held : Held) : Yields OwedLaw (execFsyncStrobe level held s) := by
  unfold execFsyncStrobe
  refine whileReleased_ind (h.withFu rfl) fun _ => ?_
  split
  · exact OwedLaw.strobe (h.withFu rfl)
  · exact h.withFu rfl

theorem exec (i : Instr) : Yields OwedLaw (exec i s) := by
  cases i with
  | powerOnReset => exact powerOn s
  | start => exact h.released (h.writeControl _)
  | reset => exact h.released (h.writeControl _)
  | restartRing0 => exact h.released (h.writeControl _)
  | controlOtherCode code => exact h.released (h.writeControl code)
  | post value => exact h.released (h.takePost _ _)
  | retire value => exact h.released (h.takeRetire _ _)
  | faultWrite value => exact h.released (h.withHp _)
  | anchorLoWrite value => exact h.released (h.withHp _)
  | anchorHiWrite value => exact h.released (h.withHp _)
  | registerWrite offset nbytes value => exact h.released (h.writeWindow offset nbytes value)
  | configSpaceWrite bit value => exact h.configSpaceWrite bit value
  | linkUp => exact h.linkUp
  | linkDown => exact h.linkDown
  | storeReady => exact h.released h.storeReady
  | anchorReadDone block => exact h.anchorReadDone block
  | anchorReadFailed => exact h.released h.anchorReadFailed
  | hostReadTimeout read => exact h.hostReadTimeout read
  | fetchDone r bytes => exact h.execFetchDone r bytes
  | fetchFailed r => exact h.released (h.fetchFailed r)
  | unknownKindRecord r => exact h.unknownKindRecord r
  | openLine r => exact h.lineCommand r .openLine (h.carryOutOpen r)
  | closeLine r => exact h.lineCommand r .closeLine (h.carryOutClose r)
  | setTaps r => exact h.lineCommand r .setTaps fun _ => h.claimWriter r _
  | tapListReadDone r bytes => exact h.tapListReadDone r bytes
  | tapListReadFailed r => exact h.released (h.tapListReadFailed r)
  | push r => exact h.lineCommand r .push fun _ => h.claimWriter r _
  | pushSamplesReadDone r bytes => exact h.pushSamplesReadDone r bytes
  | pushSamplesReadFailed r => exact h.released (h.pushSamplesReadFailed r)
  | clear r => exact h.lineCommand r .clear fun _ => h.claimWriter r _
  | test r => exact h.lineCommand r .test (h.carryOutTest r)
  | gather r => exact h.lineCommand r .gather fun _ => h.claimReader r _
  | readSpan r => exact h.lineCommand r .readSpan fun _ => h.claimReader r _
  | step r => exact h.lineCommand r .step fun _ => h.claimWriter r _
  | stepInputReadDone r bytes => exact h.stepInputReadDone r bytes
  | stepInputReadFailed r => exact h.released (h.stepInputReadFailed r)
  | mark r => exact h.mark r
  | configureRing => exact h.control _ _ h.configureRing
  | configureCompletionRing => exact h.control _ _ h.configureCq
  | resetRing => exact h.control _ _ h.resetRing
  | configureDevice => exact h.control _ _ h.configureDevice
  | queryLine => exact h.control _ _ fun x => h.writeSnapshot x _ _
  | queryRing => exact h.control _ _ fun x => h.writeSnapshot x _ _
  | queryStore => exact h.control _ _ fun x => h.writeSnapshot x _ _
  | queryWriteDone => exact h.queryWriteDone
  | queryWriteFailed => exact h.queryWriteFailed
  | storeBurstEnd => exact h.storeBurstEnd
  | refreshEnd => exact h.released h.refreshEnd
  | refreshTimerExpiry => exact h.released h.refreshExpiry
  | resultWriteCompleted r => exact h.resultWriteCompleted r
  | resultWriteFailed r => exact h.resultWriteFailed r
  | stepResultWriteFailed r => exact h.stepResultWriteFailed r
  | completionWritePosted q => exact h.completionWritePosted q
  | completionWriteFailed q => exact h.completionWriteFailed q
  | holdoffTimerExpiry q => exact h.holdoffTimerExpiry q
  | fsyncStrobe level held => exact h.fsyncStrobe level held
  | frameTimerExpiry => exact h.released h.frameExpiry
  | fundamentalResetAssert => exact h.withHp _

end OwedLaw

/-- Settles O57, by the work of every command: only a strobe raises what a ring owes, and it reaches no ring that must owe
nothing; a ring that halts, is reset or is configured owes nothing from then on. -/
theorem owedLawKept : Obligations.OwedLawKept := by
  unfold Obligations.OwedLawKept
  intro s t h ht
  unfold step at ht
  split at ht
  · obtain rfl := Host.Outcome.next.inj ht
    exact h.frame rfl rfl
  · rename_i c cs _
    have hqueue : OwedLaw { s with pending := cs } := h.frame rfl rfl
    exact (hqueue.exec c).of_next ht

end Sys2Proof.Machine
end

section
/-! The checks of the control commands, each table in its order (R155, R156, R158, R159, R163, R164 to R167). -/

namespace Sys2Proof.Machine

/-! ### Tables of checks -/

/-- The first check of a table answers with its status, or the rest of the table decides. -/
theorem refuseIf_orElse (c : Bool) (st : Status) (rest : Option Status) :
    (refuseIf c st <|> rest) = if c then some st else rest := by
  cases c <;> rfl

/-- The table of checks of a control kind (R155). -/
def Kind.controlCheck : Kind → Record → State → Option Status
  | .configureRing => checkConfigureRing
  | .configureCompletionRing => checkConfigureCq
  | .resetRing => fun x _ => refuseIf (!x.namesLineRing) .badRing
  | .configureDevice => checkConfigureDevice
  | .queryLine => fun x _ => refuseIf (64 ≤ x.line.toNat) .badLine <|> checkBuffer x
  | .queryRing => fun x _ => refuseIf (8 ≤ x.paramA.toNat) .badRing <|> checkBuffer x
  | .queryStore => fun x _ => checkBuffer x
  | .openLine | .closeLine | .setTaps | .push | .clear | .test => fun _ _ => none
  | .gather | .readSpan | .step | .mark => fun _ _ => none

/-- The row of a control kind goes through the kind's table, and what it does behind it is its own (R155). -/
theorem exec_row_checked {k : Kind} (hk : k.isControl = true) (s : State) : ∃ effect, exec (k.row 0) s =
    whileReleased s fun s => .next (runKind 0 k (checkedControl k.controlCheck effect) s) := by
  cases k
  case configureRing | configureCompletionRing | resetRing | configureDevice | queryLine | queryRing | queryStore =>
    exact ⟨_, rfl⟩
  all_goals exact nomatch hk

section
variable {s : State} {k : Kind} {x : Record}

/-- A control command that its table refuses ends with the status of the check, and nothing has changed (R155). -/
theorem control_refused (h : BeginsControl k x s) {st : Status} (hc : k.controlCheck x s = some st) :
    ∃ t, exec (k.row 0) s = .next t ∧ Ended 0 x (plain st x) s t := by
  have hk : k.isControl = true := by
    cases k
    case configureRing | configureCompletionRing | resetRing | configureDevice | queryLine | queryRing | queryStore => rfl
    all_goals exact nomatch hc
  obtain ⟨effect, he⟩ := exec_row_checked hk s
  obtain ⟨hr, hx, hkind, g, hg, hm⟩ := h
  refine ⟨endCommand 0 (plain st x) s, ?_, endCommand_ended hx _⟩
  rw [he, whileReleased_eq hr, runKind, (freshRecord_iff 0 x s).mpr hx]
  simp only [hkind, if_true, guarded, hg, hm, checkedControl, hc]
  rfl

/-! ### The single checks -/

theorem Record.namesLineRing_eq_false (ha : x.paramA.toNat < 1 ∨ 7 < x.paramA.toNat) :
    x.namesLineRing = false := by
  simp only [Record.namesLineRing, Bool.and_eq_false_iff, decide_eq_false_iff_not]
  omega

theorem isRingSize_iff (n : Nat) : isRingSize n = true ↔ n ∈ [16, 32, 64, 128, 256, 512, 1024, 2048, 4096] :=
  List.elem_iff

theorem RingClass.ofCode_isNone_iff (c : BitVec 16) :
    (RingClass.ofCode c).isNone = true ↔ ¬ (c.toNat = 1 ∨ c.toNat = 2) := by
  unfold RingClass.ofCode
  split <;> simp_all

theorem FrameSource.ofCode_none {c : BitVec 16} (h : 3 < c.toNat) : FrameSource.ofCode c = Option.none := by
  unfold FrameSource.ofCode
  split
  case h_5 => rfl
  all_goals omega

/-- A line ring, whatever its number, that is not DISABLED names the completion ring (R158). -/
theorem cqInUse_iff (q : CqIx) (s : State) : cqInUse q s = true ↔
    ¬ ∀ r : Ring, r ≠ 0 → s.eng[r].state ≠ .disabled → s.eng[r].cfg.map (·.cq) ≠ some q := by
  have line : ∀ r : Ring, r ∈ ([1, 2, 3, 4, 5, 6, 7] : List Ring) ↔ r ≠ 0 := by decide
  rw [cqInUse, List.any_eq_true]
  simp only [line, Bool.and_eq_true, bne_iff_ne, beq_iff_eq, not_forall, exists_prop, not_not]

/-- The completion rings that a configuration may name (R156, R158). -/
theorem CqIx.range_of_ne_zero {q : CqIx} (hq : q ≠ 0) : 1 ≤ q.val ∧ q.val ≤ 3 :=
  ⟨Nat.one_le_iff_ne_zero.mpr fun h => hq (Fin.ext h), Nat.le_of_lt_succ q.isLt⟩

/-- The number names a completion ring of 1 to 3 that is configured, or it does not (R156). -/
theorem Record.cqC_configured_iff (x : Record) (s : State) :
    (1 ≤ x.paramC.toNat && x.paramC.toNat ≤ 3 && s.cq[x.cqC].cfg.isSome) = true ↔
      ∃ q : CqIx, x.paramC.toNat = q.val ∧ q ≠ 0 ∧ s.cq[q].cfg ≠ none := by
  simp only [Bool.and_eq_true, decide_eq_true_eq, Option.isSome_iff_ne_none]
  constructor
  · rintro ⟨⟨h1, h3⟩, hcfg⟩
    have hval : x.paramC.toNat = x.cqC.val := (Nat.mod_eq_of_lt (Nat.lt_succ_of_le h3)).symm
    exact ⟨x.cqC, hval, fun h0 => by rw [h0] at hval; exact absurd hval (Nat.ne_of_gt h1), hcfg⟩
  · rintro ⟨q, hval, h0, hcfg⟩
    obtain rfl : x.cqC = q := by rw [Record.cqC, hval, CqIx.ofNat_val]
    exact ⟨hval ▸ CqIx.range_of_ne_zero h0, hcfg⟩

/-! ### The tables -/

theorem checkConfigureRing_unnamed (ha : x.paramA.toNat < 1 ∨ 7 < x.paramA.toNat) :
    checkConfigureRing x s = some .badRing := by
  rw [checkConfigureRing, refuseIf_orElse, Record.namesLineRing_eq_false ha]
  rfl

/-- The checks of CONFIGURE RING behind that of the ring's number (R156). -/
theorem checkConfigureRing_named {r : Ring} (hr : r ≠ 0) (ha : x.paramA.toNat = r.val) : checkConfigureRing x s =
    if s.eng[r].state ≠ .disabled then some .ringActive
    else if x.addr.toNat % 64 ≠ 0 then some .badAlign
    else if x.count.toNat ∉ [16, 32, 64, 128, 256, 512, 1024, 2048, 4096] ∨
        ¬ (x.paramB.toNat = 1 ∨ x.paramB.toNat = 2) then some .badParam
    else if ¬ ∃ q : CqIx, x.paramC.toNat = q.val ∧ q ≠ 0 ∧ s.cq[q].cfg ≠ none then some .badRing
    else none := by
  obtain ⟨hnames, rfl⟩ := Record.namesLineRing_of hr ha
  simp only [checkConfigureRing, refuseIf_orElse, ite_or]
  simp only [refuseIf, hnames, Bool.not_eq_true', ← Bool.not_eq_true, alignedTo_iff, isRingSize_iff,
    RingClass.ofCode_isNone_iff, Record.cqC_configured_iff, bne_iff_ne, not_true_eq_false, if_false, ne_eq]

theorem checkConfigureCq_unnamed (ha : x.paramA.toNat < 1 ∨ 3 < x.paramA.toNat) :
    checkConfigureCq x s = some .badRing := by
  rw [checkConfigureCq, refuseIf_orElse]
  refine if_pos ?_
  simp only [Bool.not_eq_true', Bool.and_eq_false_iff, decide_eq_false_iff_not]
  omega

/-- The checks of CONFIGURE COMPLETION RING behind that of the ring's number (R158). -/
theorem checkConfigureCq_named {q : CqIx} (hq : q ≠ 0) (ha : x.paramA.toNat = q.val) : checkConfigureCq x s =
    if cqInUse q s = true then some .cqInUse
    else if x.addr.toNat % 64 ≠ 0 then some .badAlign
    else if x.count.toNat ∉ [16, 32, 64, 128, 256, 512, 1024, 2048, 4096] ∨
        ¬ (1 ≤ x.paramB.toNat ∧ x.paramB.toNat ≤ 255) ∨ ¬ x.paramC.toNat ≤ 255 then some .badParam
    else none := by
  obtain rfl : x.cqA = q := by rw [Record.cqA, ha, CqIx.ofNat_val]
  have hrange : 1 ≤ x.paramA.toNat ∧ x.paramA.toNat ≤ 3 := ha ▸ CqIx.range_of_ne_zero hq
  simp only [checkConfigureCq, refuseIf_orElse, ite_or]
  simp only [refuseIf, Bool.not_eq_true', ← Bool.not_eq_true, alignedTo_iff, isRingSize_iff, Bool.and_eq_true,
    decide_eq_true_eq, hrange, and_self, not_true_eq_false, if_false, ne_eq]

/-- The check of RESET RING (R159). -/
theorem checkResetRing_unnamed (ha : x.paramA.toNat < 1 ∨ 7 < x.paramA.toNat) :
    refuseIf (!x.namesLineRing) .badRing = some .badRing := by
  rw [Record.namesLineRing_eq_false ha]
  rfl

/-- The checks of CONFIGURE DEVICE: the refresh code, the source, and the period under TIMER (R163). -/
theorem checkConfigureDevice_refused (h : x.paramA.toNat < 8 ∨ 255 < x.paramA.toNat ∨ 3 < x.paramB.toNat ∨
    (x.paramB.toNat = 3 ∧ (x.paramC.toNat < 20 ∨ 1000000 < x.paramC.toNat))) :
    checkConfigureDevice x s = some .badParam := by
  rw [checkConfigureDevice, refuseIf_orElse]
  split
  · rfl
  · rename_i hcode
    simp only [Bool.not_eq_true', Bool.and_eq_false_iff, decide_eq_false_iff_not] at hcode
    obtain hb | ⟨hb, hp⟩ : 3 < x.paramB.toNat ∨
        (x.paramB.toNat = 3 ∧ (x.paramC.toNat < 20 ∨ 1000000 < x.paramC.toNat)) := by omega
    · rw [FrameSource.ofCode_none hb]
    · obtain ⟨-, -, -, htimer⟩ := FrameSource.ofCode_cases x.paramB
      rw [htimer hb]
      refine if_pos ?_
      simp only [Bool.not_eq_true', Bool.and_eq_false_iff, decide_eq_false_iff_not]
      omega

theorem checkBuffer_eq (x : Record) : checkBuffer x = if x.addr.toNat % 4 ≠ 0 then some .badAlign else none := by
  unfold checkBuffer refuseIf
  simp only [Bool.not_eq_true', ← Bool.not_eq_true, alignedTo_iff, ne_eq]

/-- A query's number is checked before its buffer (R165, R166). -/
theorem checkBuffer_behind (p : Prop) [Decidable p] (st : Status) (x : Record) :
    (refuseIf (decide p) st <|> checkBuffer x) =
      if p then some st else if x.addr.toNat % 4 ≠ 0 then some .badAlign else none := by
  rw [refuseIf_orElse, checkBuffer_eq]
  simp only [decide_eq_true_eq]

end

/-- Settles O43, by the tables of the checks: the first that answers with a status ends the command. -/
theorem controlChecksRefuse : Obligations.ControlChecksRefuse := by
  unfold Obligations.ControlChecksRefuse
  intro s k x h refused a sizes
  have refuses : ∀ {st}, k.controlCheck x s = some st → refused st := control_refused h
  refine ⟨?ringNumber, ?ring, ?cqNumber, ?cq, ?resetNumber, ?device, ?line, ?queriedRing, ?buffer⟩
  case ringNumber =>
    rintro rfl ha
    exact refuses (checkConfigureRing_unnamed ha)
  case ring =>
    rintro r rfl hr h0 ready based sized classed
    have table : Kind.controlCheck .configureRing x s = _ := checkConfigureRing_named h0 hr.symm
    refine ⟨fun hready => refuses ?_, fun hready hbased => refuses ?_, fun hbased hclassed => refuses ?_,
      fun hclassed hq => refuses ?_⟩
    · rw [table, if_pos hready]
    · rw [table, if_neg (not_not.mpr hready), if_pos fun ha => hbased ⟨hready, ha⟩]
    · obtain ⟨hready, hbase⟩ := hbased
      rw [table, if_neg (not_not.mpr hready), if_neg (not_not.mpr hbase), if_pos]
      exact not_and_or.mp fun ⟨hsize, hclass⟩ => hclassed ⟨⟨⟨hready, hbase⟩, hsize⟩, hclass⟩
    · obtain ⟨⟨⟨hready, hbase⟩, hsize⟩, hclass⟩ := hclassed
      rw [table, if_neg (not_not.mpr hready), if_neg (not_not.mpr hbase),
        if_neg (not_or.mpr ⟨not_not.mpr hsize, not_not.mpr hclass⟩), if_pos]
      exact fun ⟨q, hval, hq0, hcfg⟩ => hcfg (hq q hval hq0)
  case cqNumber =>
    rintro rfl ha
    exact refuses (checkConfigureCq_unnamed ha)
  case cq =>
    rintro q rfl hq h0 unused based
    have table : Kind.controlCheck .configureCompletionRing x s = _ := checkConfigureCq_named h0 hq.symm
    have free : unused → ¬ cqInUse q s = true := fun hunused huse => (cqInUse_iff q s).mp huse hunused
    refine ⟨fun hunused => refuses ?_, fun hunused hbased => refuses ?_, fun ⟨hunused, hbase⟩ hparam => refuses ?_⟩
    · rw [table, if_pos ((cqInUse_iff q s).mpr hunused)]
    · rw [table, if_neg (free hunused), if_pos fun ha => hbased ⟨hunused, ha⟩]
    · rw [table, if_neg (free hunused), if_neg (not_not.mpr hbase), if_pos]
      exact hparam.imp_right fun hpair => by omega
  case resetNumber =>
    rintro rfl ha
    exact refuses (checkResetRing_unnamed ha)
  case device =>
    rintro rfl hp
    exact refuses (checkConfigureDevice_refused (s := s) hp)
  case line =>
    rintro rfl hl
    exact refuses ((checkBuffer_behind _ .badLine x).trans (if_pos hl))
  case queriedRing =>
    rintro rfl ha
    exact refuses ((checkBuffer_behind _ .badRing x).trans (if_pos ha))
  case buffer =>
    rintro (⟨rfl, hl⟩ | ⟨rfl, ha⟩ | rfl) haddr
    · exact refuses ((checkBuffer_behind _ .badLine x).trans ((if_neg (Nat.not_le.mpr hl)).trans (if_pos haddr)))
    · exact refuses ((checkBuffer_behind _ .badRing x).trans ((if_neg (Nat.not_le.mpr ha)).trans (if_pos haddr)))
    · exact refuses ((checkBuffer_eq x).trans (if_pos haddr))

end Sys2Proof.Machine
end

section
/-! The queries: the snapshot is written in one transfer, and the report of the write ends the query (R164 to R167). -/

namespace Sys2Proof.Machine

section
variable {s : State} {x : Record}

/-- RE0 has its query's snapshot written in one transfer, and keeps the fields of the completion (R164). -/
theorem writeSnapshot_wrote {k : Kind} (h : BeginsControl k x s) (data : List Byte) (res : Result) :
    writeSnapshot x data res s = wrote 0 x (.querying res) x.addr data s :=
  issueWrite_setPhase h.2.1 _ _ _

theorem exec_queryLine (h : BeginsControl .queryLine x s) (hl : x.line.toNat < 64) (haddr : x.addr.toNat % 4 = 0) :
    exec .queryLine s = .next (queryLine x s) :=
  exec_control h ((checkBuffer_behind _ .badLine x).trans
    ((if_neg (Nat.not_le.mpr hl)).trans (if_neg (not_not.mpr haddr))))

theorem exec_queryRing (h : BeginsControl .queryRing x s) (ha : x.paramA.toNat < 8) (haddr : x.addr.toNat % 4 = 0) :
    exec .queryRing s = .next (queryRing x s) :=
  exec_control h ((checkBuffer_behind _ .badRing x).trans
    ((if_neg (Nat.not_le.mpr ha)).trans (if_neg (not_not.mpr haddr))))

theorem exec_queryStore (h : BeginsControl .queryStore x s) (haddr : x.addr.toNat % 4 = 0) :
    exec .queryStore s = .next (queryStore x s) :=
  exec_control h ((checkBuffer_eq x).trans (if_neg (not_not.mpr haddr)))

/-- A query whose write has been reported ends, unless RE0 was told to stop (R164, R169). -/
theorem query_ended {res : Result} (hx : s.eng[(0 : Ring)].exec = some ⟨x, .querying res⟩)
    (hs : s.eng[(0 : Ring)].stop = none) (res' : Result) :
    Ended 0 x res' (writeOver 0 s) (endControl res' (writeOver 0 s)) :=
  (endControl_cases ((writeOver_exec 0 s).trans hx) res').1 (by rwa [writeOver_self])

end

/-- Settles O48: a query takes its snapshot and has it written; the report of that write ends it. -/
theorem queriesWriteSnapshots : Obligations.QueriesWriteSnapshots := by
  unfold Obligations.QueriesWriteSnapshots
  constructor
  · intro s k x h haddr queried
    refine ⟨?line, ?ring, ?store⟩
    case line =>
      rintro rfl hl
      exact (exec_queryLine h hl haddr).trans (congrArg _ (writeSnapshot_wrote h _ _))
    case ring =>
      rintro r rfl ha
      obtain rfl : x.ringA = r := by
        rw [Record.ringA, ha]
        exact Fin.ofNat_val_eq_self r
      exact (exec_queryRing h (ha ▸ x.ringA.isLt) haddr).trans (congrArg _ (writeSnapshot_wrote h _ _))
    case store =>
      rintro rfl
      exact (exec_queryStore h haddr).trans (congrArg _ (writeSnapshot_wrote h _ _))
  · intro s x res w hr hx hw hs eng
    refine ⟨fun hc => ⟨_, exec_queryWriteDone hr hx hw hc, ?_⟩,
      fun hc => ⟨_, exec_queryWriteFailed hr hx hw hc, query_ended hx hs _⟩⟩
    have heng : (writeReported w s).eng = s.eng := writeReported_eng w s
    rw [writeOver_writeReported]
    exact writeOver_writeReported 0 w s ▸ query_ended (s := writeReported w s) (by rwa [heng]) (by rwa [heng]) res

end Sys2Proof.Machine
end

section
/-! The resets: the fundamental reset input, CONTROL RESET, and the part after a power-on reset (R34, R178, R184). -/

namespace Sys2Proof.Machine

/-! ### The part held in reset -/

theorem inReset_of_not_released {s : State} (h : ¬ Released s) : s.hp.inReset = true := eq_true_of_ne_false h

theorem exec_fsyncStrobe_held {s : State} (h : ¬ Released s) (level : Bool) (held : Held) :
    exec (.fsyncStrobe level held) s = .next { s with fu := { s.fu with fsync := level } } :=
  if_pos (inReset_of_not_released h)

/-- The reset input asserted a second time changes nothing (R184). -/
theorem exec_fundamentalResetAssert_held {s : State} (h : ¬ Released s) : exec .fundamentalResetAssert s = .next s := by
  show Host.Outcome.next { s with hp := { s.hp with inReset := true } } = .next s
  rw [← inReset_of_not_released h]

/-- While the part is held in reset, its release and the level of the FSYNC pin are all that change it (R184; log 12). -/
theorem exec_held {s : State} (h : ¬ Released s) {c : Instr} (hpower : c ≠ .powerOnReset)
    (hpin : ∀ level held, c ≠ .fsyncStrobe level held) : exec c s = .next s := by
  cases c
  case powerOnReset => exact absurd rfl hpower
  case fsyncStrobe level held => exact absurd rfl (hpin level held)
  case fundamentalResetAssert => exact exec_fundamentalResetAssert_held h
  all_goals exact if_pos (inReset_of_not_released h)

/-! ### The values after a device reset -/

/-- The blocks of a part that holds the reset values are reset (R178). -/
theorem BlocksReset.of_values {t : State} (hdev : t.hp.dev = .off) (hwrites : t.hp.writes = [] ∧ t.hp.left = [])
    (hanchor : t.hp.anchorAddr = none ∧ t.hp.anchorRead = none) (hfault : t.hp.fault = .empty)
    (hrestart : t.hp.restart = false) (hlines : t.lines = Vector.replicate 64 (.freeRecord 0))
    (hfree : t.free = [⟨0, storeGranules⟩]) (hsc : t.sc = .resetValue) (heng : t.eng = Vector.replicate 8 .resetValue)
    (hcq : t.cq = Vector.replicate 4 (.fresh none)) (hfu : t.fu = .resetValue t.fu.fsync) : BlocksReset t where
  dev := hdev
  transfers := hwrites
  anchor := hanchor
  fault := hfault
  restart := hrestart
  lines l := by
    rw [hlines]
    exact Vector.getElem_replicate l.isLt
  free := hfree
  sc := by
    rw [hsc]
    exact ⟨rfl, rfl, rfl, rfl, rfl, rfl, rfl⟩
  claims r := by
    rw [hsc]
    exact Vector.getElem_replicate r.isLt
  eng r := by
    have hreset : t.eng[r] = .resetValue := by
      rw [heng]
      exact Vector.getElem_replicate r.isLt
    rw [hreset]
    exact ⟨rfl, rfl, rfl, rfl, rfl, rfl, rfl, rfl, rfl, rfl, rfl, rfl, rfl⟩
  cq q := by
    rw [hcq]
    exact Vector.getElem_replicate q.isLt
  fu := by
    rw [hfu]
    exact ⟨rfl, rfl, rfl, rfl⟩
  pace r := by
    rw [hfu]
    exact Vector.getElem_replicate r.isLt

theorem deviceReset_blocksReset (s : State) : BlocksReset (deviceReset s) :=
  .of_values rfl ⟨rfl, rfl⟩ ⟨rfl, rfl⟩ rfl rfl rfl rfl rfl rfl rfl rfl

theorem powerOn_blocksReset (s : State) : BlocksReset (powerOn s) :=
  .of_values rfl ⟨rfl, rfl⟩ ⟨rfl, rfl⟩ rfl rfl rfl rfl rfl rfl rfl rfl

theorem reset_blocksReset : BlocksReset State.reset :=
  .of_values rfl ⟨rfl, rfl⟩ ⟨rfl, rfl⟩ rfl rfl rfl rfl rfl rfl rfl rfl

/-- The host writes that have left by a device reset are the first of those that waited (R182; log 38). -/
theorem deviceReset_out (s : State) : (deviceReset s).hp.out = issuedFirst (Config.writesLeft s.freeIdx) s := rfl

/-! ### The words of a write burst that a reset stops -/

/-- A word reads as before a burst's writes, or as one of them (R31). -/
theorem Memory.find_writeAll (a : Nat) (ws m : List (Nat × Word)) :
    Memory.find a (Memory.writeAll ws m) = Memory.find a m ∨
      ∃ w, (a, w) ∈ ws ∧ Memory.find a (Memory.writeAll ws m) = some w := by
  induction ws generalizing m with
  | nil => exact .inl rfl
  | cons p ws ih =>
    obtain ⟨b, v⟩ := p
    rcases ih (Memory.write b v m) with hrest | ⟨w, hw, hfind⟩
    · by_cases hab : a = b
      · subst hab
        exact .inr ⟨v, List.mem_cons_self, hrest.trans (Memory.find_write_same a v m)⟩
      · exact .inl (hrest.trans (Memory.find_write_other v m hab))
    · exact .inr ⟨w, List.mem_cons_of_mem _ hw, hfind⟩

/-- At a device reset a store word is kept, or is one of the write burst in progress (R34, R178). -/
theorem deviceReset_readWord (s : State) (a : Nat) : (deviceReset s).readWord a = s.readWord a ∨
    ∃ r ws w, s.sc.port = .burst r (.write ws) ∧ (a, w) ∈ ws ∧ (deviceReset s).readWord a = w := by
  show (Memory.find a (storeAfterReset s)).getD _ = (Memory.find a s.store).getD _ ∨
    ∃ r ws w, _ ∧ _ ∧ (Memory.find a (storeAfterReset s)).getD _ = w
  unfold storeAfterReset
  split
  · rename_i r ws hport
    rcases Memory.find_writeAll a ((ws.filter (fun p => p.1 < storeWords)).take (Config.abandonedBurstWords s.freeIdx))
      s.store with hkept | ⟨w, hw, hfind⟩
    · exact .inl (by rw [hkept]; rfl)
    · exact .inr ⟨r, ws, w, hport, List.mem_of_mem_filter (List.mem_of_mem_take hw), by rw [hfind]; rfl⟩
  · exact .inl rfl

/-! ### The laws after a device reset -/

namespace BlocksReset
variable {t : State} (h : BlocksReset t)
include h

theorem refreshLaw : RefreshLaw t := by
  obtain ⟨hstate, hdebt, hcode, htimer, -, -, hport⟩ := h.sc
  unfold RefreshLaw
  rw [hstate, hdebt, hcode]
  exact ⟨by decide, by decide, by decide, rfl, htimer, hport⟩

theorem faultLaw : FaultLaw t := by
  unfold FaultLaw
  rw [h.fault]
  exact ⟨by decide, by decide, fun _ => rfl⟩

theorem linkLaw : LinkLaw t := .of_empty h.transfers.1 h.transfers.2

theorem cqLaw : CqLaw t := by
  refine ⟨fun q => ?_, fun x hx => ?_⟩
  · rw [h.cq q]
    exact ⟨rfl, rfl⟩
  · obtain ⟨-, -, -, -, hexec, -⟩ := h.eng 0
    exact nomatch hexec.symm.trans hx

theorem owedLaw : OwedLaw t :=
  (owedLaw_iff t).mpr fun r _ => Pacing.lawful_of_none (by rw [h.pace r]) _

end BlocksReset

/-- Settles O4: the reset values meet the laws of each unit, and hold no line, no command and no lock. -/
theorem resetStateMeetsLaws : Obligations.ResetStateMeetsLaws := by
  unfold Obligations.ResetStateMeetsLaws
  have h := reset_blocksReset
  exact ⟨h, rfl, rfl, rfl, rfl, rfl, rfl, Memory.reset_wf, h.refreshLaw, accountingLaw_reset rfl rfl, h.owedLaw,
    h.faultLaw, h.linkLaw, h.cqLaw, ringLaw_reset rfl rfl⟩

/-- Settles O2: the assertion sets one bit, which holds off every other command until the power-on reset. -/
theorem fundamentalReset : Obligations.FundamentalReset := by
  unfold Obligations.FundamentalReset
  refine ⟨fun s => rfl, fun s h => ⟨exec_fsyncStrobe_held h, fun c => exec_held h⟩, fun s => ?_⟩
  exact ⟨powerOn s, rfl, powerOn_blocksReset s, rfl, rfl, rfl, rfl, rfl, rfl, fun a => rfl, rfl, ⟨_, deviceReset_out s⟩,
    rfl, rfl⟩

theorem exec_reset {s : State} (h : Released s) : exec .reset s = .next (deviceReset s) :=
  whileReleased_eq h fun s => .next (writeControl 2#32 s)

/-- Settles O3: a device reset sets every block, and writes at most words of the burst at the port. -/
theorem controlResetKeeps : Obligations.ControlResetKeeps := by
  unfold Obligations.ControlResetKeeps
  intro s h
  exact ⟨deviceReset s, exec_reset h, deviceReset_blocksReset s, ⟨_, rfl⟩, deviceReset_readWord s, rfl, rfl, rfl, rfl⟩

end Sys2Proof.Machine
end

section
/-! The register window: the writes that HP takes and those that it ignores, and what the registers read as (R171 to R174,
R176, R177, R179, R188), with the events of the link (R182, R183). -/

namespace Sys2Proof.Machine

section
variable {s : State}

/-! ### CONTROL -/

theorem writeControl_start (s : State) : writeControl 1#32 s = controlStart s := rfl

theorem writeControl_restart (s : State) : writeControl 3#32 s = controlRestart s := rfl

/-- A code that is no command is ignored (R173). -/
theorem writeControl_other {code : Word} (h1 : code ≠ 1#32) (h2 : code ≠ 2#32) (h3 : code ≠ 3#32) :
    writeControl code s = s := by
  rw [writeControl, if_neg h1, if_neg h2, if_neg h3]

theorem controlStart_ignored (h : s.hp.dev ≠ .off) : controlStart s = s := if_neg h

theorem controlRestart_ignored (h : s.hp.dev ≠ .running) : controlRestart s = s := if_neg h

theorem exec_start (h : Released s) : exec .start s = .next (controlStart s) :=
  whileReleased_eq h fun s => .next (writeControl 1#32 s)

theorem exec_controlOtherCode (h : Released s) (code : Word) :
    exec (.controlOtherCode code) s = .next (writeControl code s) :=
  whileReleased_eq h fun s => .next (writeControl code s)

/-- The part with a START taken, which has the anchor address from its registers (R173, R174). -/
def startTaken (s : State) : State :=
  { s with hp := { s.hp with dev := .starting, anchorAddr := some (s.hp.anchorHi ++ s.hp.anchorLo) } }

/-- A START written in OFF is taken; it waits for a store that is not READY (R173, R174). -/
theorem controlStart_taken (h : s.hp.dev = .off) :
    controlStart s = if s.sc.state = .ready then checkAnchorAddr (startTaken s) else startTaken s := if_pos h

/-- A failed start leaves nothing of the address that the START took (R172). -/
theorem failStart_startTaken (c : FaultCode) : StartFails c s (failStart c (startTaken s)) :=
  failStart_fails c (startTaken s)

/-- Settles O5: a START in OFF is taken, and goes on at once if the store is READY. -/
theorem startTakesAnchorAddress : Obligations.StartTakesAnchorAddress := by
  unfold Obligations.StartTakesAnchorAddress
  intro s hr hoff
  refine ⟨controlStart s, exec_start hr, ?_⟩
  rw [controlStart_taken hoff, checkAnchorAddr_eq (s := startTaken s) rfl]
  refine ⟨fun hinit => ?waits, fun hready h64 => ?reads, fun hready h64 => ?fails⟩
  case waits => exact if_neg (by rw [hinit]; simp)
  case reads =>
    rw [if_pos hready, if_pos h64]
    rfl
  case fails =>
    rw [if_pos hready, if_neg h64]
    exact failStart_startTaken .badAnchor

/-! ### Writes that HP ignores -/

/-- A write that is none of 4 bytes to one of the registers that can be written is ignored (R171; log 16). -/
theorem writeWindow_ignored {offset nbytes : Nat}
    (h : nbytes ≠ 4 ∨ offset ∉ [0x00, 0x08, 0x0C, 0x10, 0x14, 0x18]) (v : Word) : writeWindow offset nbytes v s = s := by
  unfold writeWindow
  rcases h with hbytes | hoffset
  · exact if_pos hbytes
  · simp only [List.mem_cons, List.not_mem_nil, or_false, not_or] at hoffset
    obtain ⟨h0, h8, hC, h10, h14, h18⟩ := hoffset
    rw [if_neg h0, if_neg h8, if_neg hC, if_neg h10, if_neg h14, if_neg h18, ite_self]

/-- The writes of R171 and log 16 reach no register. -/
theorem ignoredWrite_noRegister {offset nbytes : Nat}
    (h : nbytes < 4 ∨ 4 < nbytes ∨ offset = 0x04 ∨ 0x1C ≤ offset ∨ offset % 4 ≠ 0) :
    nbytes ≠ 4 ∨ offset ∉ [0x00, 0x08, 0x0C, 0x10, 0x14, 0x18] := by
  simp only [List.mem_cons, List.not_mem_nil, or_false]
  omega

theorem exec_registerWrite (h : Released s) (offset nbytes : Nat) (v : Word) :
    exec (.registerWrite offset nbytes v) s = .next (writeWindow offset nbytes v s) :=
  whileReleased_eq h fun s => .next (writeWindow offset nbytes v s)

/-- Settles O6: the device state, the code, and the offset and length each rule out what a write could do. -/
theorem ignoredRegisterWrites : Obligations.IgnoredRegisterWrites := by
  unfold Obligations.IgnoredRegisterWrites
  intro s hr
  refine ⟨fun hoff => ⟨?_, ?_⟩, fun hrun => ⟨?_, ?_⟩, fun code h1 h2 h3 => ?_, fun offset nbytes v hw => ?_⟩
  · rw [exec_start hr, controlStart_ignored hoff]
  · rw [exec_controlOtherCode hr, writeControl_start, controlStart_ignored hoff]
  · show exec (.controlOtherCode 3#32) s = _
    rw [exec_controlOtherCode hr, writeControl_restart, controlRestart_ignored hrun]
  · rw [exec_controlOtherCode hr, writeControl_restart, controlRestart_ignored hrun]
  · rw [exec_controlOtherCode hr, writeControl_other h1 h2 h3]
  · rw [exec_registerWrite hr, writeWindow_ignored (ignoredWrite_noRegister hw)]

/-! ### Register and configuration writes, and the link -/

theorem exec_faultWrite (h : Released s) (v : Word) : exec (.faultWrite v) s = .next (writeFault v s) :=
  whileReleased_eq h fun s => .next (writeFault v s)

theorem exec_anchorLoWrite (h : Released s) (v : Word) : exec (.anchorLoWrite v) s = .next (writeAnchorLo v s) :=
  whileReleased_eq h fun s => .next (writeAnchorLo v s)

theorem exec_anchorHiWrite (h : Released s) (v : Word) : exec (.anchorHiWrite v) s = .next (writeAnchorHi v s) :=
  whileReleased_eq h fun s => .next (writeAnchorHi v s)

theorem exec_busMasterWrite (h : Released s) (v : Bool) : exec (.configSpaceWrite .busMaster v) s =
    .next (if v then { s with hp := { s.hp with busMaster := v } }
      else failTransfers { s with hp := { s.hp with busMaster := v } }) := by
  show execConfigSpaceWrite .busMaster v s = _
  rw [execConfigSpaceWrite, whileReleased_eq h]

theorem exec_msiWrite (h : Released s) (v : Bool) :
    exec (.configSpaceWrite .msi v) s = .next { s with hp := { s.hp with msi := v } } := by
  show execConfigSpaceWrite .msi v s = _
  rw [execConfigSpaceWrite, whileReleased_eq h]

theorem exec_linkUp (h : Released s) : exec .linkUp s = .next { s with hp := { s.hp with linkUp := true } } :=
  whileReleased_eq h fun s => .next { s with hp := { s.hp with linkUp := true } }

theorem exec_linkDown (h : Released s) :
    exec .linkDown s = .next (failTransfers { s with hp := { s.hp with linkUp := false } }) :=
  whileReleased_eq h fun s => .next (failTransfers { s with hp := { s.hp with linkUp := false } })

/-- The report of a write that has left (R182). -/
theorem writeReported_left {w : HostWrite} (h : w.num ∈ s.hp.left) :
    writeReported w s = { s with hp := { s.hp with left := s.hp.left.erase w.num } } :=
  if_pos (List.contains_iff_mem.mpr h)

/-- Of the writes before one, the write, and those after it, a test that tells these parts apart keeps whole parts. -/
theorem filter_parts {before after : List HostWrite} {w : HostWrite} {p : HostWrite → Bool} {b c : Bool}
    (hbefore : ∀ v ∈ before, p v = b) (hafter : ∀ v ∈ after, p v = c) : (before ++ w :: after).filter p =
      (if b then before else []) ++ (if p w then [w] else []) ++ (if c then after else []) := by
  have whole : ∀ {vs : List HostWrite} {d : Bool}, (∀ v ∈ vs, p v = d) → vs.filter p = if d then vs else [] := by
    intro vs d h
    rw [List.filter_congr h]
    cases d <;> simp
  rw [← List.singleton_append, List.filter_append, List.filter_append, whole hbefore, whole hafter, List.filter_singleton,
    cond_eq_ite, List.append_assoc]

/-- The report of a write that waits: it leaves, behind those taken before it, and those taken after it stay (R182; log
38). -/
theorem writeReported_waiting {w : HostWrite} {before after : List HostWrite} (hleft : w.num ∉ s.hp.left)
    (hw : s.hp.writes = before ++ w :: after) (hbefore : ∀ v ∈ before, v.num < w.num)
    (hafter : ∀ v ∈ after, w.num < v.num) :
    writeReported w s = { s with hp := { s.hp with
      writes := after
      left := s.hp.left ++ before.map (·.num)
      out := s.hp.out ++ (before ++ [w]).map (·.item) } } := by
  have stay : s.hp.writes.filter (fun v => w.num < v.num) = after := by
    rw [hw, filter_parts (fun v hv => decide_eq_false (hbefore v hv).not_gt) (fun v hv => decide_eq_true (hafter v hv))]
    simp
  have ahead : s.hp.writes.filter (fun v => v.num < w.num) = before := by
    rw [hw, filter_parts (fun v hv => decide_eq_true (hbefore v hv)) (fun v hv => decide_eq_false (hafter v hv).not_gt)]
    simp
  have leave : s.hp.writes.filter (fun v => v.num ≤ w.num) = before ++ [w] := by
    rw [hw, filter_parts (fun v hv => decide_eq_true (hbefore v hv).le) (fun v hv => decide_eq_false (hafter v hv).not_ge)]
    simp
  rw [writeReported, if_neg (mt List.contains_iff_mem.mp hleft), stay, ahead, leave]

end

/-- Settles O11: one condition or register a write, the failure of the transfers, and the order of the host writes. -/
theorem registerAndLinkWrites : Obligations.RegisterAndLinkWrites := by
  unfold Obligations.RegisterAndLinkWrites
  refine ⟨fun s hr => ?events, fun s w => ⟨writeReported_left, fun before after => writeReported_waiting⟩⟩
  exact ⟨fun v => ⟨exec_faultWrite hr v, exec_anchorLoWrite hr v, exec_anchorHiWrite hr v⟩, exec_busMasterWrite hr true,
    exec_msiWrite hr, exec_linkUp hr, ⟨_, exec_busMasterWrite hr false, failTransfers_failed _⟩,
    ⟨_, exec_linkDown hr, failTransfers_failed _⟩⟩

/-! ### Packed fields -/

/-- The bits that fields packed without gaps take. -/
def packWidth (fs : List (Nat × Nat)) : Nat := (fs.map (·.1)).sum

theorem packFields_lt (fs : List (Nat × Nat)) : packFields fs < 2 ^ packWidth fs := by
  induction fs with
  | nil => exact Nat.one_pos
  | cons f fs ih =>
    obtain ⟨w, v⟩ := f
    have hv : v % 2 ^ w < 2 ^ w := Nat.mod_lt _ (Nat.two_pow_pos w)
    calc v % 2 ^ w + 2 ^ w * packFields fs
        < 2 ^ w * (packFields fs + 1) := by rw [Nat.mul_succ]; omega
      _ ≤ 2 ^ w * 2 ^ packWidth fs := Nat.mul_le_mul_left _ ih
      _ = 2 ^ packWidth ((w, v) :: fs) := by rw [← Nat.pow_add]; rfl

/-- The fields from number `i` on stand above the bits of those before it. -/
theorem packFields_drop (fs : List (Nat × Nat)) (i : Nat) :
    packFields fs / 2 ^ packWidth (fs.take i) = packFields (fs.drop i) := by
  induction fs generalizing i with
  | nil => simp [packWidth, packFields]
  | cons f fs ih =>
    obtain ⟨w, v⟩ := f
    cases i with
    | zero => exact Nat.div_one _
    | succ i =>
      have hv : v % 2 ^ w / 2 ^ w = 0 := Nat.div_eq_of_lt (Nat.mod_lt _ (Nat.two_pow_pos w))
      have hpow : 2 ^ packWidth (((w, v) :: fs).take (i + 1)) = 2 ^ w * 2 ^ packWidth (fs.take i) := by
        rw [← Nat.pow_add]
        rfl
      rw [hpow, ← Nat.div_div_eq_div_mul, packFields, Nat.add_mul_div_left _ _ (Nat.two_pow_pos w), hv, Nat.zero_add,
        ih i]
      rfl

/-- Field number `i` stands at its bits. -/
theorem packFields_field {fs : List (Nat × Nat)} (i : Nat) {lo w v : Nat} (hf : fs[i]? = some (w, v))
    (hlo : packWidth (fs.take i) = lo) (hv : v < 2 ^ w) : packFields fs / 2 ^ lo % 2 ^ w = v := by
  obtain ⟨hi, hget⟩ := List.getElem?_eq_some_iff.mp hf
  rw [← hlo, packFields_drop, List.drop_eq_getElem_cons hi, hget, packFields, Nat.add_mul_mod_self_left, Nat.mod_mod,
    Nat.mod_eq_of_lt hv]

/-! ### Register reads -/

/-- Four bytes of a register are its word (R171; chapter 11). -/
theorem valueLE_readWindow (s : State) {offset : Nat} (h : offset % 4 = 0) :
    valueLE (readWindow s offset 4) = (windowWord offset s).toNat := by
  have h1 : (offset + 1) % 4 = 1 := by omega
  have h2 : (offset + 1 + 1) % 4 = 2 := by omega
  have h3 : (offset + 1 + 1 + 1) % 4 = 3 := by omega
  have hlt := (windowWord offset s).isLt
  simp only [readWindow, h, h1, h2, h3, Nat.sub_zero, Nat.add_sub_cancel, Nat.add_assoc, valueLE, BitVec.toNat_ofNat]
  omega

/-- At every offset but those of STATUS, FAULT and the anchor registers the window reads as 0 (R171). -/
theorem windowWord_zero (s : State) {offset : Nat} (h : offset ∉ [0x04, 0x08, 0x0C, 0x18]) : windowWord offset s = 0 := by
  simp only [List.mem_cons, List.not_mem_nil, or_false, not_or] at h
  obtain ⟨h4, h8, hC, h18⟩ := h
  rw [windowWord, if_neg h4, if_neg h8, if_neg hC, if_neg h18]

/-- CONTROL, POST, RETIRE and the offsets behind the last register read as 0 (R171). -/
theorem readWindow_zero (s : State) {offset n : Nat}
    (h : offset + n ≤ 0x04 ∨ (0x10 ≤ offset ∧ offset + n ≤ 0x18) ∨ 0x1C ≤ offset) :
    readWindow s offset n = List.replicate n 0#8 := by
  induction n generalizing offset with
  | zero => rfl
  | succ n ih =>
    have hzero : windowWord (offset - offset % 4) s = 0 := windowWord_zero s (by
      simp only [List.mem_cons, List.not_mem_nil, or_false]
      omega)
    rw [readWindow, hzero, ih (by omega), List.replicate_succ]
    simp

/-- The fields of STATUS (R177, R188). -/
def statusFields (s : State) : List (Nat × Nat) :=
  [(2, s.hp.dev.code), (1, if s.sc.state = .ready then 1 else 0), (1, 0), (3, s.eng[(0 : Ring)].state.code), (1, 0),
    (1, s.hp.restart.toNat), (1, if s.hp.fault.code = .none then 0 else 1)]

/-- The fields of FAULT (R179, R188). -/
def faultFields (s : State) : List (Nat × Nat) :=
  [(4, s.hp.fault.code.code), (4, 0), (3, s.hp.fault.num), (5, 0), (8, s.hp.fault.count)]

theorem statusFields_lt (s : State) : packFields (statusFields s) < 2 ^ 10 := packFields_lt (statusFields s)

theorem faultFields_lt (s : State) : packFields (faultFields s) < 2 ^ 24 := packFields_lt (faultFields s)

theorem statusWord_toNat (s : State) : (statusWord s).toNat = packFields (statusFields s) :=
  BitVec.toNat_ofNat .. |>.trans (Nat.mod_eq_of_lt ((statusFields_lt s).trans (by decide)))

theorem faultWord_toNat (s : State) : (faultWord s).toNat = packFields (faultFields s) :=
  BitVec.toNat_ofNat .. |>.trans (Nat.mod_eq_of_lt ((faultFields_lt s).trans (by decide)))

theorem DevState.code_lt (d : DevState) : d.code < 4 := by cases d <;> decide

theorem EngState.code_lt (e : EngState) : e.code < 8 := by cases e <;> decide

theorem FaultCode.code_lt (c : FaultCode) : c.code < 16 := by cases c <;> decide

/-- A field of one bit that stands for a condition. -/
theorem packFields_bit {fs : List (Nat × Nat)} (i : Nat) {lo : Nat} {p : Prop} [Decidable p]
    (hf : fs[i]? = some (1, if p then 1 else 0)) (hlo : packWidth (fs.take i) = lo) :
    packFields fs / 2 ^ lo % 2 ^ 1 = 1 ↔ p := by
  rw [packFields_field i hf hlo (by split <;> decide)]
  split <;> simp_all

/-- Settles O12: a register read of 4 bytes is its word, whose fields stand at their bits. -/
theorem registerReads : Obligations.RegisterReads := by
  unfold Obligations.RegisterReads
  rintro s ⟨hnum, hcount, -⟩
  have hstatus : valueLE (readWindow s 0x04 4) = packFields (statusFields s) :=
    (valueLE_readWindow s rfl).trans (statusWord_toNat s)
  have hfault : valueLE (readWindow s 0x18 4) = packFields (faultFields s) :=
    (valueLE_readWindow s rfl).trans (faultWord_toNat s)
  have hrestart : (statusFields s)[5]? = some (1, if s.hp.restart = true then 1 else 0) := by
    cases h : s.hp.restart <;> simp [statusFields, h]
  have hpresent : (statusFields s)[6]? = some (1, if s.hp.fault.code ≠ .none then 1 else 0) := by
    simp [statusFields]
  refine ⟨?status, ?fault, valueLE_readWindow s rfl, valueLE_readWindow s rfl, fun offset n => readWindow_zero s⟩
  case status =>
    rw [hstatus]
    have hhigh : packFields (statusFields s) / 2 ^ 10 % 2 ^ 22 = 0 := by rw [Nat.div_eq_of_lt (statusFields_lt s)]; rfl
    exact ⟨packFields_field 0 rfl rfl s.hp.dev.code_lt, packFields_bit 1 rfl rfl,
      packFields_field 3 rfl rfl s.eng[(0 : Ring)].state.code_lt, packFields_bit 5 hrestart rfl,
      packFields_bit 6 hpresent rfl, packFields_field 2 rfl rfl (by decide), packFields_field 4 rfl rfl (by decide), hhigh⟩
  case fault =>
    rw [hfault]
    have hhigh : packFields (faultFields s) / 2 ^ 24 % 2 ^ 8 = 0 := by rw [Nat.div_eq_of_lt (faultFields_lt s)]; rfl
    exact ⟨packFields_field 0 rfl rfl s.hp.fault.code.code_lt, packFields_field 2 rfl rfl hnum,
      packFields_field 4 rfl rfl hcount, packFields_field 1 rfl rfl (by decide), packFields_field 3 rfl rfl (by decide), hhigh⟩

end Sys2Proof.Machine
end

section
/-! The ends of host reads: the anchor read, and the time-outs (R172, R175, R182, R183, R188). -/

namespace Sys2Proof.Machine

section
variable {s : State} {rd : HostRead}

/-! ### The anchor read -/

theorem exec_anchorReadFailed (h : Released s) : exec .anchorReadFailed s = .next (anchorReadFailed s) :=
  whileReleased_eq h fun s => .next (anchorReadFailed s)

/-- A failed anchor read fails the start (R172). -/
theorem anchorReadFailed_fails (hrd : s.hp.anchorRead = some rd) : StartFails .anchorFault s (anchorReadFailed s) := by
  unfold anchorReadFailed
  rw [hrd]
  exact failStart_fails .anchorFault s

theorem exec_anchorReadDone (h : Released s) (hrd : s.hp.anchorRead = some rd) (hd : CanDeliver rd s)
    (block : BitVec 256) : exec (.anchorReadDone block) s =
      .next (if anchorValid block then configureFromAnchor block s else failStart .badAnchor s) := by
  show execAnchorReadDone block s = _
  rw [execAnchorReadDone, whileReleased_eq h, hrd]
  dsimp only
  rw [delivers_of hd]
  exact (apply_ite Host.Outcome.next _ _ _).symm

/-- The checks of the anchor block's values; a holdoff of one byte is always valid (R175, R188). -/
theorem anchorValid_iff (block : BitVec 256) : anchorValid block = true ↔
    (anchorRing block).base.toNat % 64 = 0 ∧ (anchorRing block).size ∈ [16, 32, 64, 128, 256, 512, 1024, 2048, 4096] ∧
    (anchorCq block).base.toNat % 64 = 0 ∧ (anchorCq block).size ∈ [16, 32, 64, 128, 256, 512, 1024, 2048, 4096] ∧
    1 ≤ (anchorCq block).threshold := by
  have hholdoff : (anchorCq block).holdoff ≤ 255 := Nat.le_of_lt_succ (field block 232 8).isLt
  simp only [anchorValid, Bool.and_eq_true, alignedTo_iff, isRingSize_iff, decide_eq_true_eq, hholdoff, and_true, and_assoc]

/-- Settles O8: the block's values decide between the configuration and the failed start. -/
theorem anchorReadEnds : Obligations.AnchorReadEnds := by
  unfold Obligations.AnchorReadEnds
  intro s rd hr hrd
  refine ⟨⟨_, exec_anchorReadFailed hr, anchorReadFailed_fails hrd⟩, fun block hd => ⟨_, exec_anchorReadDone hr hrd hd block,
    fun hvalid => ?_, fun hvalid => ?_⟩⟩
  · rw [if_pos ((anchorValid_iff block).mpr hvalid)]
    rfl
  · rw [if_neg (mt (anchorValid_iff block).mp hvalid)]
    exact failStart_fails .badAnchor s

/-! ### Time-outs -/

/-- A time-out reports the read failed, at its deadline (R182; log 2). -/
theorem exec_hostReadTimeout (h : Released s) {id : ReadId} {n : Nat} (hn : readDeadline id s = some n) :
    exec (.hostReadTimeout id) s = .next (readFailed id (s.atTime n)) := by
  show execHostReadTimeout id s = _
  rw [execHostReadTimeout, whileReleased_eq h, hn]

/-- The failed read of a command is reported by the row of the command's kind (R183). -/
theorem commandReadFailed_row {r : Ring} {x : Exec} (h : Released s) (hx : s.eng[r].exec = some x) :
    match x.phase with
    | .tapRead => exec (.tapListReadFailed r) s = .next (commandReadFailed r s)
    | .pushing _ _ => exec (.pushSamplesReadFailed r) s = .next (commandReadFailed r s)
    | .stepping _ => exec (.stepInputReadFailed r) s = .next (commandReadFailed r s)
    | _ => commandReadFailed r s = s := by
  obtain ⟨y, p⟩ := x
  unfold commandReadFailed
  rw [hx]
  cases p
  case tapRead => exact whileReleased_eq h fun s => .next (tapListReadFailed r s)
  case pushing => exact whileReleased_eq h fun s => .next (pushSamplesReadFailed r s)
  case stepping => exact whileReleased_eq h fun s => .next (stepInputReadFailed r s)
  all_goals rfl

end

/-- Settles O9: the time-out is the failure's row, at the deadline. -/
theorem timeoutIsAFailedRead : Obligations.TimeoutIsAFailedRead := by
  unfold Obligations.TimeoutIsAFailedRead
  intro s r rd hr u
  have hu : Released u := hr
  refine ⟨fun ha => ⟨_, exec_hostReadTimeout hr (id := .anchor) ?_, exec_anchorReadFailed hu⟩,
    fun hf => ⟨_, exec_hostReadTimeout hr (id := .fetch r) ?_, exec_fetchFailed hu⟩,
    fun hrd x hx => ⟨_, exec_hostReadTimeout hr (id := .command r) ?_, commandReadFailed_row hu hx⟩⟩
  · exact congrArg (Option.map HostRead.deadline) ha
  · exact congrArg (Option.map HostRead.deadline) hf
  · exact congrArg (Option.map HostRead.deadline) hrd

end Sys2Proof.Machine
end

section
/-! The layouts of the records that the part writes: completion records and the snapshots of a line, a ring and the store
(R187, R189, R190). -/

namespace Sys2Proof.Machine

/-! ### Fields packed into bytes -/

/-- The bytes of fields that fill them form the packed fields again. -/
theorem valueLE_packFields {fs : List (Nat × Nat)} {n : Nat} (h : packWidth fs = 8 * n) :
    valueLE (bytesLE n (packFields fs)) = packFields fs := by
  have hlt : packFields fs < 256 ^ n := by
    rw [show (256 : Nat) = 2 ^ 8 from rfl, ← Nat.pow_mul, ← h]
    exact packFields_lt fs
  rw [valueLE_bytesLE, Nat.mod_eq_of_lt hlt]

/-- A field of one bit that stands for a flag. -/
theorem packFields_flag {fs : List (Nat × Nat)} (i : Nat) {lo : Nat} {b : Bool}
    (hf : fs[i]? = some (1, b.toNat)) (hlo : packWidth (fs.take i) = lo) :
    packFields fs / 2 ^ lo % 2 ^ 1 = 1 ↔ b = true := by
  rw [packFields_field i hf hlo b.toNat_lt, Bool.toNat_eq_one]

/-- In a run of `n` fields of one width, which begins at field number `k`, each stands at its multiple of the width. -/
theorem packFields_run {fs : List (Nat × Nat)} (k n : Nat) {lo w i : Nat} {f : Nat → Nat}
    (hrun : (fs.drop k).take n = (List.range n).map fun i => (w, f i)) (hlo : packWidth (fs.take k) = lo)
    (hi : i < n) (hv : f i < 2 ^ w) : packFields fs / 2 ^ (lo + w * i) % 2 ^ w = f i := by
  have hat (j : Nat) (hj : j < n) : (fs.drop k)[j]? = some (w, f j) := by
    rw [← List.getElem?_take_of_lt hj, hrun]
    simp [hj]
  have hwidth : packWidth (fs.take (k + i)) = lo + w * i := by
    have hbefore : (fs.drop k).take i = (List.range i).map fun i => (w, f i) := by
      have htake := congrArg (List.take i) hrun
      rwa [List.take_take, ← List.map_take, List.take_range, Nat.min_eq_left hi.le] at htake
    rw [List.take_add, hbefore, ← hlo]
    simp [packWidth, Function.comp_def, Nat.mul_comm]
  exact packFields_field (k + i) ((List.getElem?_drop ..).symm.trans (hat i hi)) hwidth hv

/-- The last field is all that stands above the bits of those before it. -/
theorem packFields_last {fs : List (Nat × Nat)} (i : Nat) {lo w v : Nat} (hf : fs.drop i = [(w, v)])
    (hlo : packWidth (fs.take i) = lo) (hv : v < 2 ^ w) : packFields fs / 2 ^ lo = v := by
  rw [← hlo, packFields_drop, hf]
  exact Nat.mod_eq_of_lt hv

/-- A field that reads as `d` where there is nothing to read stays within the bounds of both. -/
theorem map_getD_lt {α : Type} {o : Option α} {f : α → Nat} {d n : Nat} (hd : d < n)
    (h : ∀ a, o = some a → f a < n) : (o.map f).getD d < n := by
  cases o with
  | none => exact hd
  | some a => exact h a rfl

theorem Status.code_lt (c : Status) : c.code < 2 ^ 8 := by cases c <;> decide

theorem LineState.code_lt (c : LineState) : c.code < 2 ^ 2 := by cases c <;> decide

theorem Format.code_lt (f : Format) : f.code < 2 ^ 2 := by cases f <;> decide

theorem RingClass.code_lt (c : RingClass) : c.code < 2 ^ 8 := by cases c <;> decide

/-! ### Completion records -/

/-- The fields of a completion record (R187). -/
def Claim.fields (c : Claim) (phase : Bool) (head : Nat) : List (Nat × Nat) :=
  [(16, c.tag.toNat), (8, c.result.status.code), (8, c.result.line.toNat), (8, c.result.gen.toNat), (23, c.result.count),
    (1, phase.toNat), (32, c.result.seq.toNat), (12, head), (15, c.result.unfilled), (3, c.ring.val), (1, c.notice.toNat),
    (1, c.result.aborted.toNat)]

theorem Claim.valueLE_bytes (c : Claim) (phase : Bool) (head : Nat) :
    valueLE (c.bytes phase head) = packFields (c.fields phase head) :=
  valueLE_packFields (fs := c.fields phase head) (n := 16) rfl

/-- Settles O54: the record's value is its packed fields, and each is within its width. -/
theorem completionRecordLayout : Obligations.CompletionRecordLayout := by
  unfold Obligations.CompletionRecordLayout
  refine ⟨rfl, fun c phase head hcount hunfilled hhead => ?_⟩
  dsimp only
  rw [c.valueLE_bytes]
  exact ⟨bytesLE_length 16 _, packFields_field 0 rfl rfl c.tag.isLt, packFields_field 1 rfl rfl c.result.status.code_lt,
    packFields_field 2 rfl rfl c.result.line.isLt, packFields_field 3 rfl rfl c.result.gen.isLt,
    packFields_field 4 rfl rfl hcount, packFields_field 5 rfl rfl phase.toNat_lt,
    packFields_field 6 rfl rfl c.result.seq.isLt, packFields_field 7 rfl rfl hhead, packFields_field 8 rfl rfl hunfilled,
    packFields_field 9 rfl rfl c.ring.isLt, packFields_field 10 rfl rfl c.notice.toNat_lt,
    packFields_field 11 rfl rfl c.result.aborted.toNat_lt⟩

/-! ### Line snapshots -/

/-- The widths of the fields of a line snapshot (R189). -/
def lineWidths : List Nat :=
  [2, 2, 3, 1, 8, 5] ++ List.replicate 7 1 ++ [1, 1, 22, 17, 22, 48] ++ List.replicate 7 3 ++ List.replicate 16 22

/-- The fields of the snapshot of a line that is not FREE (R189). -/
def openLineFields (l : Line) (g : LineCfg) : List (Nat × Nat) :=
  [(2, l.state.code), (2, g.fmt.code), (3, g.owner.val), (1, if l.fill = g.len then 1 else 0), (8, l.gen.toNat),
      (5, l.taps.length)] ++
    holderBits l.lock.holders ++
    [(1, if l.lock.mode = .write then 1 else 0), (1, (ownerWaitsToWrite l).toNat), (22, g.len - 1), (17, g.ext.base),
      (22, l.head), (48, l.seq)] ++
    queueFields l.lock.queue ++ tapFields l.taps

theorem openLineFields_widths (l : Line) (g : LineCfg) : (openLineFields l g).map (·.1) = lineWidths := rfl

/-- The bits before field number `k`. -/
theorem packWidth_take_openLine (l : Line) (g : LineCfg) (k : Nat) :
    packWidth ((openLineFields l g).take k) = (lineWidths.take k).sum := by
  rw [packWidth, List.map_take, openLineFields_widths]

theorem valueLE_lineSnapshot {l : Line} {g : LineCfg} (hg : l.cfg = some g) :
    valueLE (lineSnapshot l) = packFields (openLineFields l g) := by
  have hfields : lineSnapshot l = bytesLE 64 (packFields (openLineFields l g)) := by
    simp only [lineSnapshot, cfgField, hg, openLineFields]
  have hwidth : packWidth (openLineFields l g) = 8 * 64 := congrArg List.sum (openLineFields_widths l g)
  rw [hfields, valueLE_packFields hwidth]

theorem packFields_zeros (ws : List Nat) : packFields (ws.map fun w => (w, 0)) = 0 := by
  induction ws with
  | nil => rfl
  | cons w ws ih => rw [List.map_cons, packFields, ih, Nat.zero_mod, Nat.mul_zero]

/-- The fields of the snapshot of a FREE line: its generation, and 0 for every other (R189). -/
def freeLineFields (gen : BitVec 8) : List (Nat × Nat) :=
  [(2, 0), (2, 0), (3, 0), (1, 0), (8, gen.toNat)] ++ (lineWidths.drop 5).map fun w => (w, 0)

theorem lineSnapshot_free (gen : BitVec 8) :
    lineSnapshot (.freeRecord gen) = bytesLE 64 (packFields (freeLineFields gen)) := rfl

theorem freeLineFields_widths (gen : BitVec 8) : (freeLineFields gen).map (·.1) = lineWidths := rfl

theorem valueLE_freeSnapshot (gen : BitVec 8) : valueLE (lineSnapshot (.freeRecord gen)) = gen.toNat * 2 ^ 8 := by
  have hwidth : packWidth (freeLineFields gen) = 8 * 64 := congrArg List.sum (freeLineFields_widths gen)
  have hgen := gen.isLt
  rw [lineSnapshot_free, valueLE_packFields hwidth]
  simp only [freeLineFields, List.cons_append, List.nil_append, packFields, packFields_zeros]
  omega

theorem ownerWaitsToWrite_iff {l : Line} {g : LineCfg} (hg : l.cfg = some g) :
    ownerWaitsToWrite l = true ↔ l.state = .live ∧ ⟨g.owner, .writer⟩ ∈ l.lock.queue := by
  simp only [ownerWaitsToWrite, hg, Bool.and_eq_true, beq_iff_eq, List.any_eq_true]
  refine and_congr_right fun _ => ⟨?_, fun h => ⟨_, h, rfl, rfl⟩⟩
  rintro ⟨⟨_, _⟩, hw, rfl, rfl⟩
  exact hw

/-- Ring `r` holds the lock exactly if its bit is set (R189): the holder bits are a run of single bits, from ring 1 on. -/
theorem holderBit_iff (l : Line) (g : LineCfg) {r : Ring} (hr : r ≠ 0) :
    packFields (openLineFields l g) / 2 ^ (20 + r.val) % 2 ^ 1 = 1 ↔ r ∈ l.lock.holders := by
  have hpos : 1 ≤ r.val := Nat.one_le_iff_ne_zero.mpr (Fin.val_ne_zero_iff.mpr hr)
  have hbit := packFields_run (fs := openLineFields l g) 6 7 (i := r.val - 1)
    (f := fun i => if Fin.ofNat 8 (i + 1) ∈ l.lock.holders then 1 else 0) rfl (packWidth_take_openLine l g 6)
    (by omega) (by split <;> decide)
  have hlo : (lineWidths.take 6).sum + 1 * (r.val - 1) = 20 + r.val := by
    rw [show (lineWidths.take 6).sum = 21 from rfl]
    omega
  have hring : Fin.ofNat 8 (r.val - 1 + 1) = r := by rw [Nat.sub_add_cancel hpos, Fin.ofNat_val_eq_self]
  rw [hlo, hring] at hbit
  rw [hbit]
  split <;> simp_all

/-- The queue entries are a run of seven fields, 0 after the last (R189). -/
theorem queueEntry_field (l : Line) (g : LineCfg) {i : Nat} (hi : i < 7) :
    packFields (openLineFields l g) / 2 ^ (139 + 3 * i) % 2 ^ 3 = ((l.lock.queue[i]?).map (·.ring.val)).getD 0 :=
  packFields_run (f := fun i => ((l.lock.queue[i]?).map (·.ring.val)).getD 0) 19 7 rfl (packWidth_take_openLine l g 19) hi
    (map_getD_lt (by decide) fun w _ => w.ring.isLt)

/-- The taps are a run of sixteen fields, 0 after the last (R189). -/
theorem tap_field {l : Line} (g : LineCfg) (htaps : ∀ d ∈ l.taps, d < 2 ^ 22) {i : Nat} (hi : i < 16) :
    packFields (openLineFields l g) / 2 ^ (160 + 22 * i) % 2 ^ 22 = (l.taps[i]?).getD 0 := by
  have hlt : ((l.taps[i]?).map id).getD 0 < 2 ^ 22 :=
    map_getD_lt (by decide) fun d hd => htaps d (List.mem_of_getElem? hd)
  rw [Option.map_id_apply] at hlt
  exact packFields_run (f := fun i => (l.taps[i]?).getD 0) 26 16 rfl (packWidth_take_openLine l g 26) hi hlt

/-! ### Ring snapshots -/

/-- The widths of the fields of a ring snapshot, the eight single bits of byte 3 among them (R190). -/
def ringWidths : List Nat := [8, 8, 8] ++ List.replicate 8 1 ++ [16, 16, 16, 8, 8, 16, 8, 8, 64, 32, 16, 16]

/-- The fields of a ring snapshot (R190). -/
def ringFields (e : Engine) (p : Pacing) (frame : BitVec 32) (unnamed : Bool) : List (Nat × Nat) :=
  [(8, e.state.code), (8, ((e.cfg.bind (·.cls)).map RingClass.code).getD 0),
    (8, (e.cfg.map fun g => g.cq.val).getD 255),
    (1, e.lastOk.toNat), (1, e.test.toNat), (1, e.haltPending.toNat), (1, e.staged.isSome.toNat),
    (1, e.exec.isSome.toNat), (1, p.armed.toNat), (1, p.notice.isSome.toNat), (1, unnamed.toNat),
    (16, e.head), (16, e.tail), (16, (e.cfg.map (·.size)).getD 0), (8, p.owed),
    (8, (e.exec.map fun x => x.rcd.kind.toNat).getD 0), (16, (e.exec.map fun x => x.rcd.tag.toNat).getD 0),
    (8, waitedLine e), (8, 0), (64, (e.cfg.map fun g => g.base.toNat).getD 0), (32, frame.toNat), (16, p.late), (16, 0)]

theorem ringFields_widths (e : Engine) (p : Pacing) (frame : BitVec 32) (unnamed : Bool) :
    (ringFields e p frame unnamed).map (·.1) = ringWidths := rfl

/-- The bits before field number `k`. -/
theorem packWidth_take_ring (e : Engine) (p : Pacing) (frame : BitVec 32) (unnamed : Bool) (k : Nat) :
    packWidth ((ringFields e p frame unnamed).take k) = (ringWidths.take k).sum := by
  rw [packWidth, List.map_take, ringFields_widths]

theorem valueLE_ringSnapshot (e : Engine) (p : Pacing) (frame : BitVec 32) (unnamed : Bool) :
    valueLE (ringSnapshot e p frame unnamed) = packFields (ringFields e p frame unnamed) :=
  have hwidth : packWidth (ringFields e p frame unnamed) = 8 * 32 :=
    congrArg List.sum (ringFields_widths e p frame unnamed)
  valueLE_packFields hwidth

theorem waitedLine_lt (e : Engine) : waitedLine e < 2 ^ 8 := by
  unfold waitedLine
  split
  next x _ =>
    split
    · exact x.rcd.line.isLt
    · decide
  · decide

/-! ### Store snapshots -/

theorem storeEntry_fields {e : Extent} (hbase : e.base < 2 ^ 32) (hcount : e.count < 2 ^ 32) :
    let v := valueLE (bytesLE 8 (packFields [(32, e.base), (32, e.count)]))
    v % 2 ^ 32 = e.base ∧ v / 2 ^ 32 = e.count := by
  dsimp only
  rw [valueLE_packFields rfl]
  refine ⟨?_, packFields_last 1 rfl rfl hcount⟩
  rw [packFields, Nat.add_mul_mod_self_left, Nat.mod_mod, Nat.mod_eq_of_lt hbase]

theorem storeHeader_fields {n total : Nat} (hn : n < 2 ^ 16) (htotal : total < 2 ^ 32) :
    let v := valueLE (bytesLE 8 (packFields [(16, n), (16, 0), (32, total)]))
    v % 2 ^ 16 = n ∧ v / 2 ^ 16 % 2 ^ 16 = 0 ∧ v / 2 ^ 32 = total := by
  dsimp only
  rw [valueLE_packFields rfl]
  refine ⟨?_, packFields_field 1 rfl rfl (by decide), packFields_last 2 rfl rfl htotal⟩
  rw [packFields, Nat.add_mul_mod_self_left, Nat.mod_mod, Nat.mod_eq_of_lt hn]

/-- In the bytes of a list whose items take `n` bytes each, item `i` takes those from `n * i` on. -/
theorem take_drop_flatMap {α β : Type} {f : α → List β} {n : Nat} (hf : ∀ a, (f a).length = n) {as : List α}
    {i : Nat} {a : α} (ha : as[i]? = some a) : ((as.flatMap f).drop (n * i)).take n = f a := by
  induction as generalizing i with
  | nil => cases ha
  | cons b bs ih =>
    cases i with
    | zero =>
      obtain rfl : b = a := Option.some.inj ha
      simp [← hf b]
    | succ i =>
      have hskip : n * (i + 1) = (f b).length + n * i := by rw [hf, Nat.mul_succ, Nat.add_comm]
      rw [List.flatMap_cons, hskip, ← List.drop_drop, List.drop_left]
      exact ih ha

/-! ### The three snapshots -/

/-- Settles O55: the value of each snapshot is its packed fields, and each field is within its width. -/
theorem snapshotLayouts : Obligations.SnapshotLayouts := by
  unfold Obligations.SnapshotLayouts
  refine ⟨fun gen => ⟨bytesLE_length 64 _, valueLE_freeSnapshot gen⟩, ?line, ?ring, ?store⟩
  case line =>
    rintro l g ⟨-, hopen⟩ hg hbase htaps
    rw [hg] at hopen
    obtain ⟨-, -, hlen, hmax, -, hhead, -, -, hseq, htap⟩ := hopen
    have hat := packWidth_take_openLine l g
    dsimp only
    rw [valueLE_lineSnapshot hg]
    exact ⟨bytesLE_length 64 _, packFields_field 0 rfl (hat 0) l.state.code_lt, packFields_field 1 rfl (hat 1) g.fmt.code_lt,
      packFields_field 2 rfl (hat 2) g.owner.isLt, packFields_bit 3 rfl (hat 3), packFields_field 4 rfl (hat 4) l.gen.isLt,
      packFields_field 5 rfl (hat 5) (by omega), fun r => holderBit_iff l g, packFields_bit 13 rfl (hat 13),
      (packFields_flag 14 rfl (hat 14)).trans (ownerWaitsToWrite_iff hg), packFields_field 15 rfl (hat 15) (by omega),
      packFields_field 16 rfl (hat 16) hbase, packFields_field 17 rfl (hat 17) (by omega),
      packFields_field 18 rfl (hat 18) hseq,
      fun i => queueEntry_field l g, fun i => tap_field g fun d hd => (htap d hd).trans_le hmax⟩
  case ring =>
    intro e p frame unnamed hsize hhead htail howed hlate
    have hat := packWidth_take_ring e p frame unnamed
    dsimp only
    rw [valueLE_ringSnapshot]
    have hfield := @packFields_field (ringFields e p frame unnamed)
    have hcls := hfield 1 rfl (hat 1) (map_getD_lt (by decide) fun c _ => c.code_lt)
    have hcq := hfield 2 rfl (hat 2) (map_getD_lt (by decide) fun g _ => g.cq.isLt.trans (by decide))
    have hsz := hfield 13 rfl (hat 13) (map_getD_lt (by decide) fun g hg => (hsize g hg).trans_lt (by decide))
    have hbase := hfield 19 rfl (hat 19) (map_getD_lt (by decide) fun g _ => g.base.isLt)
    have hkind := hfield 15 rfl (hat 15) (map_getD_lt (by decide) fun x _ => x.rcd.kind.isLt)
    have htag := hfield 16 rfl (hat 16) (map_getD_lt (by decide) fun x _ => x.rcd.tag.isLt)
    have hline := hfield 17 rfl (hat 17) (waitedLine_lt e)
    refine ⟨bytesLE_length 32 _, hfield 0 rfl (hat 0) (e.state.code_lt.trans (by decide)), fun g hg => ?given,
      fun hnone => ?noCfg, packFields_flag 3 rfl (hat 3), packFields_flag 4 rfl (hat 4), packFields_flag 5 rfl (hat 5),
      packFields_flag 6 rfl (hat 6), packFields_flag 7 rfl (hat 7), packFields_flag 8 rfl (hat 8),
      packFields_flag 9 rfl (hat 9), hfield 10 rfl (hat 10) unnamed.toNat_lt, hfield 11 rfl (hat 11) hhead,
      hfield 12 rfl (hat 12) htail, hfield 14 rfl (hat 14) howed, fun x ph hx => ?busy, fun hnone => ?noExec,
      hfield 18 rfl (hat 18) (by decide), hfield 20 rfl (hat 20) frame.isLt, hfield 21 rfl (hat 21) hlate,
      hfield 22 rfl (hat 22) (by decide)⟩
    case given =>
      rw [hg] at hcls hcq hsz hbase
      exact ⟨hcls, hcq, hsz, hbase⟩
    case noCfg =>
      rw [hnone] at hcls hcq hsz hbase
      exact ⟨hcls, hcq, hsz, hbase⟩
    case busy =>
      rw [waitedLine, hx] at hline
      rw [hx] at hkind htag
      exact ⟨hkind, htag, hline⟩
    case noExec =>
      rw [waitedLine, hnone] at hline
      rw [hnone] at hkind htag
      exact ⟨hkind, htag, hline⟩
  case store =>
    intro es hlen hsum hbase
    have hentry (e : Extent) : (bytesLE 8 (packFields [(32, e.base), (32, e.count)])).length = 8 := bytesLE_length 8 _
    refine ⟨?length, ?header, fun i e he => ?entry⟩
    case length => simp [storeSnapshot, bytesLE_length, List.length_flatMap, Nat.mul_comm]
    case header =>
      rw [storeSnapshot, List.take_left' (bytesLE_length 8 _)]
      exact storeHeader_fields hlen hsum
    case entry =>
      have hmem := List.mem_of_getElem? he
      have hcount : e.count ≤ (es.map (·.count)).sum := List.le_sum_of_mem (List.mem_map_of_mem hmem)
      rw [storeSnapshot, ← List.drop_drop, List.drop_left' (bytesLE_length 8 _), take_drop_flatMap hentry he]
      exact storeEntry_fields (hbase e hmem) (hcount.trans_lt hsum)

end Sys2Proof.Machine
end

section
namespace Sys2Proof.Machine

/-! ## The queue (O1) -/

theorem step_of_pending_cons {c : Instr} {cs : List Instr} {s : State} (h : s.pending = c :: cs) :
    step s = exec c { s with pending := cs } := by
  rw [step, h]

theorem step_of_pending_nil {s : State} (h : s.pending = []) : step s = .next { s with now := s.now + 1 } := by
  rw [step, h]

/-- Settles O1, by the two cases of the queue: a step matches on it, and passes on its rest or lets the time go on. -/
theorem stepTakesFront : Obligations.StepTakesFront :=
  ⟨fun _ _ _ => step_of_pending_cons, fun _ => step_of_pending_nil⟩

end Sys2Proof.Machine
end
